-- ==== Sys2Proof/Word.lean ====
section
/-! DEFINITION. The two word types of the HK460: the byte of the links and keypads, and the 32-bit lug serial.
Every other quantity of the manual is a non-negative integer ("Units and arithmetic", 00_scope.md) and is a `Nat`. -/

namespace Sys2Proof

/-- One character of a link or keypad line, one byte of a frame or of a stream slot (R167, R178). -/
abbrev Byte := BitVec 8

/-- A lug serial: 32 bits, counting advances and wrapping from 4,294,967,295 to 0 (R4). -/
abbrev Serial := BitVec 32

end Sys2Proof
end

