-- ==== Sys2Proof/Config.lean ====
section
/-! DEFINITION. What the part fixes: the sizes and limits the manual states as constants, and the free values,
which are codes that the manual makes the part send without stating them. -/

namespace Sys2Proof.Config

/-- Ticks of the settle period (R17). -/
def settleTicks : Nat := 256
/-- First divider of the timebase divides by n + 1 with n = 15 (R16). -/
def divider1 : Nat := 15
/-- Second divider of the timebase divides by n + 1 with n = 999 (R16). -/
def divider2 : Nat := 999
/-- Largest count c of a chain unit (R1). -/
def countMax : Nat := 65535
/-- Largest value of a 32-bit saturating count (R53, R73, R84, R108, R141, R143, R160, R172). -/
def max32 : Nat := 4294967295
/-- Largest value of the 24-bit pieces of a tally cell (R143). -/
def max24 : Nat := 16777215
/-- Largest tag; the tag counter wraps from it to 1 (R23). -/
def tagMax : Nat := 65535
/-- Entries of the transfer queue (R29). -/
def transferSlots : Nat := 8
/-- Entries of the event queue (R160). -/
def eventSlots : Nat := 128
/-- Frames of a link's TX queue (R171). -/
def txSlots : Nat := 16
/-- Bytes of a link's RX buffer (R170). -/
def rxBytes : Nat := 1024
/-- A stored byte that brings the fill above this sets RX pause (R170). -/
def pauseAbove : Nat := 768
/-- A frame leaving that brings the fill to this or less clears RX pause (R170). -/
def resumeAt : Nat := 256
/-- Codes of a keypad reply queue (R61). -/
def replySlots : Nat := 8
/-- Largest price, counts per cubic metre (R155). -/
def priceMax : Nat := 2000000
/-- Where the consecutive miss counts of saws and gates are held (R116, R138). -/
def missHold : Nat := 15
/-- Consecutive gate misses that disable a bin (R138). -/
def gateMissLimit : Nat := 3
/-- Pending drops a bin can hold (R124, R134). -/
def pendingSlots : Nat := 4
/-- Records of one stream segment (R146). -/
def segmentRecords : Nat := 255
/-- Slots of one stream segment, its trailer's among them (R146). -/
def segmentSlots : Nat := 256
/-- Bytes of one stream slot (R146). -/
def slotBytes : Nat := 20
/-- Longest body of a frame (R168). -/
def bodyMax : Nat := 240

/-- FREE VALUE (DESIGN CHOICE, log 7): the byte READ-STATUS page 0 shows for the line state, applied to "the line is in RUN".
R180 names the item; no enumeration of R178 gives its code. -/
opaque lineStateCode : Bool → BitVec 8

/-- FREE VALUE (DESIGN CHOICE, log 7): the byte READ-STATUS page 2 shows for a saw's window stage, applied to 0 IDLE, 1 FIRST,
2 SECOND. R110 names the stages; no enumeration of R178 gives their codes. -/
opaque windowStageCode : Nat → BitVec 8

/-- FREE VALUE (DESIGN CHOICE, log 7): the byte READ-STATUS page 5 shows for a link's receiver state, applied to 0 HUNT, 1 FRAME,
2 SKIP. R172 names the item; no enumeration of R178 gives its code. -/
opaque receiverStateCode : Nat → BitVec 8

/-- FREE VALUE (DESIGN CHOICE, log 6): which of the codes that R179 leaves unused BIN-UNLOAD's request code is. R172 gives
BIN-UNLOAD to the line controller and R180 gives its form, but the code table of R179 has no code for it. -/
opaque binUnloadChoice : Nat

end Sys2Proof.Config
end

