-- ==== Sys2Proof/Syntax.lean ====
section
/-! DEFINITION. The commands of the HK460: one constructor of `Instr` for each row of spec/opcode_table.json.
A row is one event the outside makes (a power, pin, chain, eye, saw, gate, keypad or link event, or a timer running
out) or one request frame of a master. A request row carries its link, its request number and the bytes that follow
the request number in the body, so that rights, form and every value check of the manual can be met by an operand. -/

namespace Sys2Proof

/-- The two lugged chains; each has its own chain unit, TCU and SCU (01_chains_lugs_and_station_lines.md). -/
inductive Chain
  | trimmer | sorter
  deriving DecidableEq, Repr

/-- The two grading positions (R59). -/
inductive Position
  | a | b
  deriving DecidableEq, Repr

/-- The three links, each with its fixed role: link 0, 1 and 2 (11_master_links_and_tables.md). -/
inductive LinkId
  | optimizer | lineController | tallyStation
  deriving DecidableEq, Repr

/-- The two changes of an input line. `on` is the row's on-edge (beam clear to broken, switch open to closed, confirm
inactive to active); `off` is the change back, for which the table has no row (log 4). -/
inductive Edge
  | on | off
  deriving DecidableEq, Repr

/-- Levels of the six baud-select pins, true for High (R167). -/
structure BaudPins where
  a0 : Bool
  b0 : Bool
  a1 : Bool
  b1 : Bool
  a2 : Bool
  b2 : Bool
  deriving DecidableEq, Repr

/-- The mark keys of a keypad: G1 to G10, L1 to L12, REJ, REM and NOF (R60). -/
inductive MarkKey
  | grade (g : Nat)
  | cutback (c : Nat)
  | reject
  | reman
  | noFence
  deriving DecidableEq, Repr

/-- The commands, in the order of spec/opcode_table.json. Saws are numbered 0 to 12 and bins 1 to 48, as the manual does. -/
inductive Instr
  | powerOn (baud : BaudPins)
  | resetnAssert
  | resetnRelease (baud : BaudPins)
  | settlePeriodEnd
  | encoderForwardCount (ch : Chain)
  | encoderReverseCount (ch : Chain)
  | stopTimerExpiry (ch : Chain)
  | lugEyeOnEdge (ch : Chain) (edge : Edge)
  | syntheticAdvance (ch : Chain)
  | scanEyeOnEdge (edge : Edge)
  | pickupEyeOnEdge (edge : Edge)
  | sawFeedbackChange (saw : Nat) (down : Bool)
  | sawWindowExpiry (saw : Nat)
  | gatePulseExpiry (bin : Nat)
  | gateConfirmOnEdge (bin : Nat) (edge : Edge)
  | confirmWindowExpiry (bin : Nat)
  | binFullSwitchOnEdge (bin : Nat) (edge : Edge)
  | keyMarkPush (pos : Position) (key : MarkKey)
  | keyUndo (pos : Position)
  | keyClr (pos : Position)
  | keyEnt (pos : Position)
  | keypadBadByte (pos : Position)
  | keypadReplySent (pos : Position)
  | linkByteReceived (link : LinkId) (byte : Byte) (stopBit : Bool)
  | pauseReceived (link : LinkId)
  | resumeReceived (link : LinkId)
  | txFrameSent (link : LinkId)
  | linkBreak (link : LinkId)
  | unknownRequestCode (link : LinkId) (code : Byte) (num : Byte) (fields : List Byte)
  | postScan (link : LinkId) (num : Byte) (fields : List Byte)
  | postSolution (link : LinkId) (num : Byte) (fields : List Byte)
  | readRecord (link : LinkId) (num : Byte) (fields : List Byte)
  | readStatus (link : LinkId) (num : Byte) (fields : List Byte)
  | ackAttention (link : LinkId) (num : Byte) (fields : List Byte)
  | setAttentionEnable (link : LinkId) (num : Byte) (fields : List Byte)
  | setLineMode (link : LinkId) (num : Byte) (fields : List Byte)
  | forceBoard (link : LinkId) (num : Byte) (fields : List Byte)
  | sawEnable (link : LinkId) (num : Byte) (fields : List Byte)
  | sawDisable (link : LinkId) (num : Byte) (fields : List Byte)
  | binUnload (link : LinkId) (num : Byte) (fields : List Byte)
  | binEmptied (link : LinkId) (num : Byte) (fields : List Byte)
  | binEnable (link : LinkId) (num : Byte) (fields : List Byte)
  | binDisable (link : LinkId) (num : Byte) (fields : List Byte)
  | readBins (link : LinkId) (num : Byte) (fields : List Byte)
  | readEvents (link : LinkId) (num : Byte) (fields : List Byte)
  | clearEventOverflow (link : LinkId) (num : Byte) (fields : List Byte)
  | start (link : LinkId) (num : Byte) (fields : List Byte)
  | restartTracking (link : LinkId) (num : Byte) (fields : List Byte)
  | loadTable (link : LinkId) (num : Byte) (fields : List Byte)
  | readTable (link : LinkId) (num : Byte) (fields : List Byte)
  | readTableTallyForm (link : LinkId) (num : Byte) (fields : List Byte)
  | readSegment (link : LinkId) (num : Byte) (fields : List Byte)
  | releaseSegment (link : LinkId) (num : Byte) (fields : List Byte)
  | flush (link : LinkId) (num : Byte) (fields : List Byte)
  | shiftClose (link : LinkId) (num : Byte) (fields : List Byte)
  | readMatrix (link : LinkId) (num : Byte) (fields : List Byte)
  | readClosed (link : LinkId) (num : Byte) (fields : List Byte)
  | priceEdit (link : LinkId) (num : Byte) (fields : List Byte)
  | priceSwitch (link : LinkId) (num : Byte) (fields : List Byte)
  deriving DecidableEq, Repr

end Sys2Proof
end

