-- ==== Sys2Proof/Machine/State.lean ====
section
/-! DEFINITION. The state of the HK460, block by block as the manual's block overview divides it (00_scope.md), the reasons a
step can stop, and the state after power-on. Records, queues and tables are plain data; a register the manual numbers by bits
(cause sets, ready flags) is a bit vector; every other quantity is a natural number (00_scope.md, "Units and arithmetic"). -/

namespace Sys2Proof.Machine

/-- Why a command can stop the machine. Every reason is a command that no wire of the part can carry, so a stop is safe: the
hardware never meets it. -/
inductive Fault
  /-- Raised by a field-line command that names a saw outside 0 to 12 or a bin outside 1 to 48: the part has no such line
  (R110, R124). Safe. -/
  | noSuchLine
  /-- Raised by a request command whose body would be longer than a frame's 240 bytes (R168). Safe. -/
  | noSuchFrame
  /-- Raised by UNKNOWN_REQUEST_CODE naming a code that is one of the part's requests (R172). Safe. -/
  | knownCode
  deriving DecidableEq, Repr

/-- Why a command has no meaning. Safe: the machine stops. -/
inductive Refusal
  /-- Raised by `exec` for a row whose meaning is not written. Safe. -/
  | notModelled (mnemonic : String)
  deriving DecidableEq, Repr

/-- What a command does: the host's three outcomes over this machine. -/
abbrev Result (σ : Type) := Host.Outcome σ Fault Refusal

/-- The tally stream's store as bytes: address 5,120 × segment + 20 × slot + byte (R146). Listed addresses rise strictly and no
listed byte is 0, which is what an unlisted address reads as: the store holds zeros at power-on (R146, R158). -/
abbrev Memory := List Host.Cell

/-! ### Inputs and timebase -/

/-- Levels of the field inputs, true for active: a broken beam, a blade down, a falling board, a closed switch. -/
structure Inputs where
  lugTrimmer : Bool
  lugSorter : Bool
  scan : Bool
  pickup : Bool
  feedback : Vector Bool 13
  confirm : Vector Bool 48
  full : Vector Bool 48
  deriving DecidableEq, Repr

/-- The timebase (R16, R17) with the RESETN input (R18). -/
structure Timebase where
  /-- RESETN is held low. -/
  resetLow : Bool
  /-- First divider, 0 to 15. -/
  div1 : Nat
  /-- Second divider, 0 to 999. -/
  div2 : Nat
  /-- Ticks since power-on, stopping at 256. -/
  settle : Nat
  deriving DecidableEq, Repr

/-! ### Chain units -/

/-- Sync state of a chain unit. -/
inductive Sync
  | search | locked | coast | lost
  deriving DecidableEq, Repr

/-- A running stop timer: ticks since the last count and the stop time it runs against, fixed when it started (R11). -/
structure StopTimer where
  elapsed : Nat
  limit : Nat
  deriving DecidableEq, Repr

/-- One chain unit (01_chains_lugs_and_station_lines.md). Its parameters are in the settings table. -/
structure ChainUnit where
  count : Nat
  serial : Serial
  sync : Sync
  good : Nat
  miss : Nat
  stopped : Bool
  reverse : Bool
  /-- None when it stands expired, or has not run since power-on (R2, R12). -/
  stopTimer : Option StopTimer
  deriving DecidableEq, Repr

/-! ### Board records -/

inductive Origin
  | scanned | unknown
  deriving DecidableEq, Repr

/-- Life states (R20). -/
inductive Life
  | scanned | decided | set | cut | inTransfer | onSorter | dropping
  deriving DecidableEq, Repr

/-- Flags of a record (R21). -/
structure RecordFlags where
  suspect : Bool
  double : Bool
  miscut : Bool
  sawMiss : Bool
  gateMiss : Bool
  rerouted : Bool
  redecided : Bool
  deriving DecidableEq, Repr

/-- Scan summary: Ls in mm, thickness code, width code (R45). -/
structure ScanSummary where
  length : Nat
  thickness : Nat
  width : Nat
  deriving DecidableEq, Repr

/-- One trim option of a solution (R46). -/
structure Candidate where
  saw : Nat
  fence : Bool
  grade : Nat
  deriving DecidableEq, Repr

/-- A candidate list with its solution revision (R47). -/
structure Solution where
  candidates : List Candidate
  revision : Nat
  deriving DecidableEq, Repr

inductive Disposition
  | normal | reject | reman
  deriving DecidableEq, Repr

/-- A mark field's value with its setting position (R71). -/
structure Marked (α : Type) where
  value : α
  setBy : Position
  deriving DecidableEq, Repr

/-- A mark set (R71). -/
structure MarkSet where
  grade : Option (Marked Nat)
  cutback : Option (Marked Nat)
  disposition : Option (Marked Disposition)
  /-- The setting position when no-fence is set. -/
  noFence : Option Position
  byA : Bool
  byB : Bool
  deriving DecidableEq, Repr

inductive ForceKind
  | trim (saw : Nat) | noTrim | trash
  deriving DecidableEq, Repr

/-- A force's four optional fields (R79). Fence ON is true. -/
structure Force where
  kind : Option ForceKind
  fence : Option Bool
  grade : Option Nat
  disposition : Option Disposition
  deriving DecidableEq, Repr

inductive Kind
  | trim | noTrim | trash
  deriving DecidableEq, Repr

/-- Source of a decision; `byDefault` is DEFAULT. -/
inductive Source
  | force | mode | mark | optimizer | byDefault
  deriving DecidableEq, Repr

/-- The twelve reasons (R178). -/
inductive Reason
  | chosen | noScan | noSolution | noneFeasible | short | suspect | double | bypass | trashAll | fixedShort | forced | forceShort
  deriving DecidableEq, Repr

/-- The decision part of a record (R107). -/
structure Decision where
  kind : Kind
  saw : Option Nat
  fence : Bool
  grade : Option Nat
  cls : Option Nat
  volume : Nat
  value : Nat
  disposition : Disposition
  source : Source
  reason : Reason
  index : Option Nat
  deriving DecidableEq, Repr

/-- As-cut result (R119). -/
inductive AsCut
  | cls (j : Nat) | short | untrimmed
  deriving DecidableEq, Repr

/-- The saw outcome (R121). Patterns and snapshots hold true for DOWN, entry j for saw Sj. -/
structure SawOutcome where
  pattern : Vector Bool 13
  snapshot : Vector Bool 13
  result : AsCut
  grade : Option Nat
  disposition : Disposition
  volume : Nat
  value : Nat
  deriving DecidableEq, Repr

/-- Kind of a route (R133). -/
inductive RouteKind
  | group (n : Nat) | reject | reman | nowhere
  deriving DecidableEq, Repr

inductive DropResult
  | none | dropped | passed
  deriving DecidableEq, Repr

/-- The product key (R131). -/
structure ProductKey where
  grade : Option Nat
  cls : Option Nat
  width : Option Nat
  disposition : Disposition
  deriving DecidableEq, Repr

/-- The sort part (R133). Bin 0 is the runout. -/
structure SortPart where
  key : ProductKey
  route : RouteKind
  bin : Nat
  firstBin : Nat
  result : DropResult
  attempts : Nat
  deriving DecidableEq, Repr

/-- A board record (R19). An optional part is `none` until its owner writes it. -/
structure Record where
  tag : Nat
  origin : Origin
  creation : Serial
  sorterSerial : Option Serial
  life : Life
  flags : RecordFlags
  scan : Option ScanSummary
  solution : Option Solution
  marks : Option MarkSet
  force : Option Force
  decision : Option Decision
  outcome : Option SawOutcome
  sort : Option SortPart
  deriving DecidableEq, Repr

/-- Fates (R178). -/
inductive Fate
  | droppedGraded | droppedReject | droppedReman | trashed | runout | lost
  deriving DecidableEq, Repr

/-! ### Board map -/

/-- An entry of the transfer queue: a record and its age in sorter advances. -/
structure Waiting where
  board : Record
  age : Nat
  deriving DecidableEq, Repr

inductive LineState
  | config | run
  deriving DecidableEq, Repr

/-- The five posting counts (R53). -/
structure PostingCounts where
  taken : Nat
  noTag : Nat
  late : Nat
  range : Nat
  noticesLost : Nat
  deriving DecidableEq, Repr

/-- The five force counts (R84). -/
structure ForceCounts where
  taken : Nat
  redecided : Nat
  noTag : Nat
  late : Nat
  range : Nat
  deriving DecidableEq, Repr

/-- The board map. Both maps are listed oldest record first, so from the highest offset to the lowest; a record's slot is its
serial modulo 64 or 128 (R22) and is not stored a second time. The transfer queue is listed from its head. -/
structure BoardMap where
  trimmer : List Record
  transfer : List Waiting
  sorter : List Record
  nextTag : Nat
  line : LineState
  postings : PostingCounts
  forces : ForceCounts
  deriving DecidableEq, Repr

/-! ### Mark unit -/

/-- A slot of a mark stack (R62). -/
inductive Slot
  | empty | valid (key : MarkKey) | void (key : MarkKey)
  deriving DecidableEq, Repr

/-- Reply codes of a keypad line (R61). -/
inductive Reply
  | targetOn | targetOff | accept | refuse | missed
  deriving DecidableEq, Repr

/-- The eight counts of a position (R73). -/
structure MarkCounts where
  keys : Nat
  voids : Nat
  refusals : Nat
  commits : Nat
  passes : Nat
  missed : Nat
  badBytes : Nat
  repliesLost : Nat
  deriving DecidableEq, Repr

/-- One grading position. -/
structure Grading where
  slots : Vector Slot 6
  top : Fin 6
  /-- The target's tag. -/
  target : Option Nat
  replies : List Reply
  counts : MarkCounts
  deriving DecidableEq, Repr

/-! ### Decision engine -/

inductive SawPolicy
  | auto | fixed (saw : Nat) | trashAll | bypass
  deriving DecidableEq, Repr

inductive SortPolicy
  | byProduct | allReject | allRunout
  deriving DecidableEq, Repr

structure LineMode where
  saws : SawPolicy
  sort : SortPolicy
  deriving DecidableEq, Repr

/-- The last decision written (R108). -/
structure LastDecision where
  tag : Nat
  kind : Kind
  source : Source
  reason : Reason
  deriving DecidableEq, Repr

/-- The decision engine: the line mode and its counts (R75), and the counts of R108. -/
structure DecisionUnit where
  mode : LineMode
  modesTaken : Nat
  modesRefused : Nat
  atLine : Nat
  redecides : Nat
  /-- Entry n counts the reason of code n + 1 (R178). -/
  reasons : Vector Nat 12
  last : Option LastDecision
  deriving DecidableEq, Repr

/-! ### Saw unit -/

inductive Stage
  | idle | first | second
  deriving DecidableEq, Repr

/-- One saw record (R110), less the confirm mode, which the saw table holds. True is DOWN. -/
structure SawRec where
  enabled : Bool
  commanded : Bool
  feedback : Bool
  stage : Stage
  /-- Running time of the present window in ms, 0 while none runs. -/
  timer : Nat
  misses : Nat
  totalMisses : Nat
  retries : Nat
  /-- RESTART-TRACKING left the saw DOWN: the next pattern that commands it UP starts a window (R123, log 25). -/
  leftDown : Bool
  deriving DecidableEq, Repr

structure SawUnit where
  recs : Vector SawRec 13
  /-- The pattern owner's tag, or 0. -/
  owner : Nat
  deriving DecidableEq, Repr

/-! ### Sort unit -/

/-- Items of a bin that the bin table loads (R124). -/
structure BinItems where
  drop : Nat
  capacity : Nat
  hi : Nat
  lo : Nat
  pulse : Nat
  /-- Confirm mode CONFIRM rather than NONE. -/
  confirm : Bool
  window : Nat
  deriving DecidableEq, Repr

inductive BinState
  | opened | full | unloading | disabled
  deriving DecidableEq, Repr

/-- A fire awaiting confirmation: the record's tag and the running time of its confirm window. -/
structure PendingDrop where
  tag : Nat
  elapsed : Nat
  deriving DecidableEq, Repr

/-- One bin record (R124). `items` is none for a bin that is not fitted. -/
structure BinRec where
  items : Option BinItems
  state : BinState
  dropped : Nat
  reserved : Nat
  near : Bool
  misses : Nat
  gateOpen : Bool
  /-- Running time of the gate pulse while the pulse timer runs. -/
  pulse : Option Nat
  pending : List PendingDrop
  fullSwitch : Bool
  confirmInput : Bool
  deriving DecidableEq, Repr

/-- The twelve counts of R141. -/
structure SortCounts where
  group : Nat
  overflow : Nat
  reject : Nat
  reman : Nat
  runout : Nat
  reroutes : Nat
  pendingFull : Nat
  suspectPasses : Nat
  fires : Nat
  confirms : Nat
  misses : Nat
  strays : Nat
  deriving DecidableEq, Repr

structure SortUnit where
  /-- Entry n is bin n + 1. -/
  bins : Vector BinRec 48
  counts : SortCounts
  deriving DecidableEq, Repr

/-! ### Tally unit -/

structure TallyCell where
  pieces : Nat
  volume : Nat
  deriving DecidableEq, Repr

/-- A tally: the live one, and the closed image (R143). -/
structure Tally where
  /-- Entry 96 × (grade − 1) + 8 × (class − 1) + (width − 1). -/
  cells : Vector TallyCell 960
  reject : Nat
  reman : Nat
  trash : Nat
  runout : Nat
  lost : Nat
  unknown : Nat
  miscut : Nat
  suspect : Nat
  value : Nat
  written : Nat
  dropped : Nat
  saturated : Bool
  shift : Nat
  deriving DecidableEq, Repr

/-- A shift-end trailer waiting for its segment (R153). -/
structure PendingTrailer where
  shift : Nat
  dropped : Nat
  deriving DecidableEq, Repr

/-- The tally stream and its writer (R146). -/
structure Stream where
  store : Memory
  /-- Bit n is segment n's ready flag. -/
  ready : BitVec 4
  /-- The writer is BLOCKED rather than WRITING. -/
  blocked : Bool
  segment : Fin 4
  /-- Next slot, which is also the number of records in the current segment. -/
  slot : Nat
  sequence : BitVec 32
  trailer : Option PendingTrailer
  /-- The present BLOCKED spell has raised its STREAM-DROP (R149). -/
  spellDropped : Bool
  deriving DecidableEq, Repr

structure TallyUnit where
  live : Tally
  closed : Tally
  stream : Stream
  deriving DecidableEq, Repr

/-! ### Event queue and attention unit -/

inductive EventKind
  | eyeEarly | eyeMissed | syncChange | chainStop | chainRun | reverse | sawMiss | sawDisabled | gateMiss | binDisabled
  | binFullSwitch | boardLost | boardUnknown | streamDrop
  deriving DecidableEq, Repr

/-- An event queue entry (R159). -/
structure Event where
  kind : EventKind
  chain : Option Chain
  serial : Serial
  subject : Nat
  detail : Nat
  deriving DecidableEq, Repr

structure EventQueue where
  entries : List Event
  overflow : Bool
  lost : Nat
  deriving DecidableEq, Repr

/-- A role's latched edge requests and its enables, one bit a cause in the cause set layout of R180. Level requests are not held:
they follow their conditions (R163). -/
structure RoleFlags where
  edges : BitVec 8
  enables : BitVec 8
  deriving DecidableEq, Repr

structure Attention where
  optimizer : RoleFlags
  lineController : RoleFlags
  tallyStation : RoleFlags
  deriving DecidableEq, Repr

/-! ### Link unit -/

inductive BaudRate
  | b57600 | b115200 | b230400 | b460800
  deriving DecidableEq, Repr

/-- A link's receiver (R169). In FRAME it has the stored bytes of the frame in progress, in the order received, and whether the
last byte was an F7h. -/
inductive Receiver
  | hunt
  | frame (stored : List Byte) (escaped : Bool)
  | skip
  deriving DecidableEq, Repr

/-- The part's own control bytes (R168, R170). -/
inductive Control
  | pause | resume
  deriving DecidableEq, Repr

/-- One link (R167 to R173). `waiting` holds the bodies of the complete frames in the RX buffer, oldest first; `tx` the bodies of
the TX queue's frames, head first; `sending` says that the head frame has been begun; `control` the control bytes that are due at
the transmitter's next byte boundary. -/
structure LinkState where
  baud : BaudRate
  rx : Receiver
  waiting : List (List Byte)
  rxPause : Bool
  txPause : Bool
  tx : List (List Byte)
  sending : Bool
  control : List Control
  stray : Nat
  framing : Nat
  crcFaults : Nat
  overruns : Nat
  taken : Nat
  denied : Nat
  format : Nat
  breaks : Nat
  deriving DecidableEq, Repr

/-- The three links and link 0's notice counter (R54). -/
structure LinkUnit where
  optimizer : LinkState
  lineController : LinkState
  tallyStation : LinkState
  notice : Nat
  deriving DecidableEq, Repr

/-! ### Table store -/

/-- The eight loadable tables (R174), numbered 1 to 8 in this order (R180). -/
inductive TableId
  | settings | saw | size | grade | station | bin | binGroup | sortRule
  deriving DecidableEq, Repr

/-- A chain's parameters (R11): counts per lug C, tolerance E, stop time. -/
structure ChainParams where
  pitch : Nat
  tolerance : Nat
  stopTime : Nat
  valid : Bool
  deriving DecidableEq, Repr

/-- The settings table. -/
structure Settings where
  fence : Nat
  allowance : Nat
  window : Nat
  missLimit : Nat
  ageLimit : Nat
  trimmer : ChainParams
  sorter : ChainParams
  deriving DecidableEq, Repr

inductive ConfirmMode
  | none | confirm | retry
  deriving DecidableEq, Repr

/-- Position pk and nominal length Nk of a configured length saw (R88). -/
structure SawPlace where
  position : Nat
  nominal : Nat
  deriving DecidableEq, Repr

/-- The saw table: entry k − 1 of `places` is saw Sk, entry j of `modes` saw Sj. -/
structure SawTable where
  places : Vector (Option SawPlace) 12
  modes : Vector ConfirmMode 13
  deriving DecidableEq, Repr

/-- The size table: thickness of codes 1 to 4 and width of codes 1 to 8, none where the code is not defined. -/
structure SizeTable where
  thickness : Vector (Option Nat) 4
  width : Vector (Option Nat) 8
  deriving DecidableEq, Repr

/-- The grade table: bit g − 1 is set for an enabled grade g, and the default grade gd. -/
structure GradeTable where
  enabled : BitVec 10
  default : Nat
  deriving DecidableEq, Repr

/-- The station table (R13). -/
structure StationTable where
  aLo : Nat
  aHi : Nat
  bLo : Nat
  bHi : Nat
  decision : Nat
  sawSet : Nat
  outfeed : Nat
  runout : Nat
  deriving DecidableEq, Repr

/-- A sort rule (R130): bit g − 1 of `grades` for grade g, bit w − 1 of `widths` for width code w. -/
structure SortRule where
  grades : BitVec 10
  lo : Nat
  hi : Nat
  widths : BitVec 8
  group : Nat
  deriving DecidableEq, Repr

/-- The bin-group table: entry n − 1 is group n, and the special bins, 0 for none. -/
structure GroupTable where
  groups : Vector (Option (List Nat)) 24
  reject : Nat
  reman : Nat
  overflow : Nat
  deriving DecidableEq, Repr

/-- Valid flags of the loadable tables (R174). -/
structure ValidFlags where
  settings : Bool
  saw : Bool
  size : Bool
  grade : Bool
  station : Bool
  bin : Bool
  binGroup : Bool
  sortRule : Bool
  deriving DecidableEq, Repr

/-- The staging area when it holds a table: the bytes of the entries staged and the next part expected, if one is (R175). -/
structure Staging where
  table : TableId
  expected : Option Nat
  bytes : List Byte
  deriving DecidableEq, Repr

/-- The table store. The bin table's entries are held in the bin records, `SortUnit.bins`. Entry 12 × (g − 1) + (k − 1) of a bank
is P[g][k]. -/
structure TableStore where
  settings : Settings
  saw : SawTable
  size : SizeTable
  grade : GradeTable
  station : StationTable
  groups : GroupTable
  rules : List SortRule
  valid : ValidFlags
  staging : Option Staging
  bank0 : Vector Nat 120
  bank1 : Vector Nat 120
  /-- Bank 1 is active. -/
  active1 : Bool
  edits : Nat
  editsRefused : Nat
  switches : Nat
  deriving DecidableEq, Repr

/-! ### The whole state -/

/-- The state of the HK460. `pins` are the levels outside the part, `standing` the inputs that stood active at the end of the
settle period and have not been seen clear since (R17), and `pending` the commands that wait, first in, first out. -/
structure State where
  pins : Inputs
  standing : Inputs
  timebase : Timebase
  tcu : ChainUnit
  scu : ChainUnit
  board : BoardMap
  gradingA : Grading
  gradingB : Grading
  decision : DecisionUnit
  saws : SawUnit
  sort : SortUnit
  tally : TallyUnit
  events : EventQueue
  attention : Attention
  links : LinkUnit
  tables : TableStore
  pending : List Instr
  deriving DecidableEq, Repr

/-! ### Power-on values -/

/-- No input active. -/
def Inputs.clear : Inputs :=
  { lugTrimmer := false, lugSorter := false, scan := false, pickup := false, feedback := Vector.replicate 13 false,
    confirm := Vector.replicate 48 false, full := Vector.replicate 48 false }

/-- Dividers and settle counter from 0 (R16, R17). -/
def Timebase.powerOn (resetLow : Bool) : Timebase := { resetLow, div1 := 0, div2 := 0, settle := 0 }

/-- A chain unit after power-on (R12): STOPPED, with its stop timer not running. -/
def ChainUnit.powerOn : ChainUnit :=
  { count := 0, serial := 0, sync := .search, good := 0, miss := 0, stopped := true, reverse := false, stopTimer := none }

/-- The board map after power-on (R43, R53, R84). -/
def BoardMap.powerOn : BoardMap :=
  { trimmer := [], transfer := [], sorter := [], nextTag := 1, line := .config,
    postings := { taken := 0, noTag := 0, late := 0, range := 0, noticesLost := 0 },
    forces := { taken := 0, redecided := 0, noTag := 0, late := 0, range := 0 } }

/-- A grading position after power-on (R62, R74). -/
def Grading.powerOn : Grading :=
  { slots := Vector.replicate 6 .empty, top := 0, target := none, replies := [],
    counts := { keys := 0, voids := 0, refusals := 0, commits := 0, passes := 0, missed := 0, badBytes := 0, repliesLost := 0 } }

/-- The decision engine after power-on (R75, R86, R108). -/
def DecisionUnit.powerOn : DecisionUnit :=
  { mode := { saws := .auto, sort := .byProduct }, modesTaken := 0, modesRefused := 0, atLine := 0, redecides := 0,
    reasons := Vector.replicate 12 0, last := none }

/-- A saw record after power-on (R123). Its feedback is read at the end of settle; until then it holds UP (DESIGN CHOICE, log 2). -/
def SawRec.powerOn : SawRec :=
  { enabled := true, commanded := false, feedback := false, stage := .idle, timer := 0, misses := 0, totalMisses := 0,
    retries := 0, leftDown := false }

/-- A bin record after power-on (R142): not fitted, DISABLED. Its inputs are read at the end of settle (log 2). -/
def BinRec.powerOn : BinRec :=
  { items := none, state := .disabled, dropped := 0, reserved := 0, near := false, misses := 0, gateOpen := false, pulse := none,
    pending := [], fullSwitch := false, confirmInput := false }

def SortCounts.zero : SortCounts :=
  { group := 0, overflow := 0, reject := 0, reman := 0, runout := 0, reroutes := 0, pendingFull := 0, suspectPasses := 0,
    fires := 0, confirms := 0, misses := 0, strays := 0 }

/-- A tally with every quantity 0 and the given shift number (R143). -/
def Tally.zero (shift : Nat) : Tally :=
  { cells := Vector.replicate 960 { pieces := 0, volume := 0 }, reject := 0, reman := 0, trash := 0, runout := 0, lost := 0,
    unknown := 0, miscut := 0, suspect := 0, value := 0, written := 0, dropped := 0, saturated := false, shift }

/-- The stream after power-on (R146). -/
def Stream.powerOn : Stream :=
  { store := [], ready := 0, blocked := false, segment := 0, slot := 0, sequence := 1, trailer := none, spellDropped := false }

/-- The rate two baud-select pins choose (R167). -/
def baudRate (a b : Bool) : BaudRate :=
  match a, b with
  | false, false => .b57600
  | false, true => .b115200
  | true, false => .b230400
  | true, true => .b460800

/-- A link after power-on (R167, R172). -/
def LinkState.powerOn (baud : BaudRate) : LinkState :=
  { baud, rx := .hunt, waiting := [], rxPause := false, txPause := false, tx := [], sending := false, control := [], stray := 0,
    framing := 0, crcFaults := 0, overruns := 0, taken := 0, denied := 0, format := 0, breaks := 0 }

/-- A chain's parameters before they are first loaded: stop time 250 ms, not valid (R12, R174). C and E read 0 (DESIGN CHOICE,
log 2). -/
def ChainParams.powerOn : ChainParams := { pitch := 0, tolerance := 0, stopTime := 250, valid := false }

/-- The tables as held before their first load (R174). -/
def TableStore.powerOn : TableStore :=
  { settings := { fence := 20, allowance := 15, window := 120, missLimit := 3, ageLimit := 4, trimmer := .powerOn,
                  sorter := .powerOn },
    saw := { places := Vector.replicate 12 none, modes := Vector.replicate 13 .none },
    size := { thickness := Vector.replicate 4 none, width := Vector.replicate 8 none },
    grade := { enabled := BitVec.allOnes 10, default := 1 },
    station := { aLo := 3, aHi := 6, bLo := 7, bHi := 10, decision := 12, sawSet := 14, outfeed := 17, runout := 127 },
    groups := { groups := Vector.replicate 24 none, reject := 0, reman := 0, overflow := 0 },
    rules := [],
    valid := { settings := false, saw := false, size := false, grade := false, station := false, bin := false, binGroup := false,
               sortRule := false },
    staging := none, bank0 := Vector.replicate 120 0, bank1 := Vector.replicate 120 0, active1 := false, edits := 0,
    editsRefused := 0, switches := 0 }

/-- Every block at its power-on values, with the outside levels and the baud-select pins as they stand. -/
def State.powerOn (pins : Inputs) (resetLow : Bool) (baud : BaudPins) (pending : List Instr) : State :=
  { pins, standing := .clear, timebase := .powerOn resetLow, tcu := .powerOn, scu := .powerOn, board := .powerOn,
    gradingA := .powerOn, gradingB := .powerOn, decision := .powerOn,
    saws := { recs := Vector.replicate 13 .powerOn, owner := 0 },
    sort := { bins := Vector.replicate 48 .powerOn, counts := .zero },
    tally := { live := .zero 1, closed := .zero 0, stream := .powerOn },
    events := { entries := [], overflow := false, lost := 0 },
    attention := { optimizer := { edges := 0, enables := 0 }, lineController := { edges := 0, enables := 0 },
                   tallyStation := { edges := 0, enables := 0 } },
    links := { optimizer := .powerOn (baudRate baud.a0 baud.b0), lineController := .powerOn (baudRate baud.a1 baud.b1),
               tallyStation := .powerOn (baudRate baud.a2 baud.b2), notice := 0 },
    tables := .powerOn, pending }

/-- The machine right after power-on: the settle period begins (R17). No input is active and every baud-select pin is Low, since
the manual gives no levels (DESIGN CHOICE, log 2); no command waits. -/
def State.reset : State :=
  .powerOn .clear false { a0 := false, b0 := false, a1 := false, b1 := false, a2 := false, b2 := false } []

end Sys2Proof.Machine
end

