-- ==== Sys2Proof/Decode.lean ====
section
/-! DEFINITION. From bytes to commands: the request codes, the rights of each role and the form each code requires
(R172, R179, R180), the command a request body is, the body a request command carries, the command a keypad byte is
(R60, R183), and `decodeTableWord` over the rows of spec/opcode_table.json that give bits: none of the 59 does. -/

namespace Sys2Proof

/-- The requests of the part (R172, R179); `readTableTallyForm` is code 14h, the same request as `readTable`, 1Dh. -/
inductive Req
  | postScan | postSolution | readRecord | readStatus | ackAttention | setAttentionEnable | setLineMode | forceBoard
  | sawEnable | sawDisable | binUnload | binEmptied | binEnable | binDisable | readBins | readEvents
  | clearEventOverflow | start | restartTracking | loadTable | readTable | readTableTallyForm | readSegment
  | releaseSegment | flush | shiftClose | readMatrix | readClosed | priceEdit | priceSwitch
  deriving DecidableEq, Repr

/-- The codes R179 leaves unused, numbered from 0: 00h, 1Eh to 7Fh and 81h to FFh. 80h is the notice code, which no request
uses (R168). -/
def unusedCode (n : Nat) : Byte :=
  if n % 226 = 0 then 0x00
  else if n % 226 < 99 then BitVec.ofNat 8 (0x1D + n % 226)
  else BitVec.ofNat 8 (0x81 + (n % 226 - 99))

/-- BIN-UNLOAD's request code: one of the codes R179 leaves unused, which one being a free value (DESIGN CHOICE, log 6). -/
def binUnloadCode : Byte := unusedCode Config.binUnloadChoice

/-- The request code of each request (R179). -/
def requestCode : Req → Byte
  | .postScan => 0x01
  | .postSolution => 0x02
  | .readRecord => 0x03
  | .readStatus => 0x04
  | .ackAttention => 0x05
  | .setAttentionEnable => 0x06
  | .setLineMode => 0x07
  | .forceBoard => 0x08
  | .sawEnable => 0x09
  | .sawDisable => 0x0A
  | .binEmptied => 0x0B
  | .binEnable => 0x0C
  | .binDisable => 0x0D
  | .readBins => 0x0E
  | .readEvents => 0x0F
  | .clearEventOverflow => 0x10
  | .start => 0x11
  | .restartTracking => 0x12
  | .loadTable => 0x13
  | .readTableTallyForm => 0x14
  | .readSegment => 0x15
  | .releaseSegment => 0x16
  | .flush => 0x17
  | .shiftClose => 0x18
  | .readMatrix => 0x19
  | .readClosed => 0x1A
  | .priceEdit => 0x1B
  | .priceSwitch => 0x1C
  | .readTable => 0x1D
  | .binUnload => binUnloadCode

/-- The request a code names, or none where the code is not one of the part's requests (R172, check 1). The notice code 80h
names no request (R168). -/
def requestOfCode (code : Byte) : Option Req :=
  match code.toNat with
  | 0x01 => some .postScan
  | 0x02 => some .postSolution
  | 0x03 => some .readRecord
  | 0x04 => some .readStatus
  | 0x05 => some .ackAttention
  | 0x06 => some .setAttentionEnable
  | 0x07 => some .setLineMode
  | 0x08 => some .forceBoard
  | 0x09 => some .sawEnable
  | 0x0A => some .sawDisable
  | 0x0B => some .binEmptied
  | 0x0C => some .binEnable
  | 0x0D => some .binDisable
  | 0x0E => some .readBins
  | 0x0F => some .readEvents
  | 0x10 => some .clearEventOverflow
  | 0x11 => some .start
  | 0x12 => some .restartTracking
  | 0x13 => some .loadTable
  | 0x14 => some .readTableTallyForm
  | 0x15 => some .readSegment
  | 0x16 => some .releaseSegment
  | 0x17 => some .flush
  | 0x18 => some .shiftClose
  | 0x19 => some .readMatrix
  | 0x1A => some .readClosed
  | 0x1B => some .priceEdit
  | 0x1C => some .priceSwitch
  | 0x1D => some .readTable
  | 0x80 => none
  | _ => if code = binUnloadCode then some .binUnload else none

/-- The rights of the three roles (R172); the tally form of READ-TABLE stands wherever READ-TABLE does (R179). -/
def hasRight : LinkId → Req → Bool
  | .optimizer, r => r ∈ [.postScan, .postSolution, .readRecord, .readStatus, .ackAttention, .setAttentionEnable]
  | .lineController, r => r ∈ [.setLineMode, .forceBoard, .sawEnable, .sawDisable, .binUnload, .binEmptied, .binEnable,
      .binDisable, .readBins, .readEvents, .clearEventOverflow, .start, .restartTracking, .loadTable, .readTable,
      .readTableTallyForm, .readRecord, .readStatus, .ackAttention, .setAttentionEnable]
  | .tallyStation, r => r ∈ [.readSegment, .releaseSegment, .flush, .shiftClose, .readMatrix, .readClosed, .priceEdit,
      .priceSwitch, .readTable, .readTableTallyForm, .readRecord, .readStatus, .ackAttention, .setAttentionEnable]

/-- Whether a body with these field bytes has the length its code requires (R180). The body is the code, the request number and
the fields, so its length is that of the fields plus 2. -/
def formOk (r : Req) (fields : List Byte) : Bool :=
  let body := fields.length + 2
  match r with
  | .postScan => body = 8
  | .postSolution =>
    match fields[2]? with
    | none => false
    | some n => if 1 ≤ n.toNat ∧ n.toNat ≤ 8 then body = 5 + 3 * n.toNat else true
  | .priceEdit =>
    match fields[3]? with
    | none => false
    | some c => if 1 ≤ c.toNat ∧ c.toNat ≤ 12 then body = 6 + 4 * c.toNat else true
  | .loadTable => 5 ≤ body
  | .forceBoard => body = 9
  | .readMatrix | .readClosed => body = 6
  | .setLineMode | .readSegment => body = 5
  | .readRecord | .readBins | .readTable | .readTableTallyForm => body = 4
  | .readStatus | .ackAttention | .setAttentionEnable | .sawEnable | .sawDisable | .binUnload | .binEmptied | .binEnable
  | .binDisable | .readEvents | .releaseSegment | .priceSwitch => body = 3
  | .clearEventOverflow | .start | .restartTracking | .flush | .shiftClose => body = 2

/-- The command that request `r` is, on a link, with a request number and field bytes. -/
def requestInstr (r : Req) (link : LinkId) (num : Byte) (fields : List Byte) : Instr :=
  match r with
  | .postScan => .postScan link num fields
  | .postSolution => .postSolution link num fields
  | .readRecord => .readRecord link num fields
  | .readStatus => .readStatus link num fields
  | .ackAttention => .ackAttention link num fields
  | .setAttentionEnable => .setAttentionEnable link num fields
  | .setLineMode => .setLineMode link num fields
  | .forceBoard => .forceBoard link num fields
  | .sawEnable => .sawEnable link num fields
  | .sawDisable => .sawDisable link num fields
  | .binUnload => .binUnload link num fields
  | .binEmptied => .binEmptied link num fields
  | .binEnable => .binEnable link num fields
  | .binDisable => .binDisable link num fields
  | .readBins => .readBins link num fields
  | .readEvents => .readEvents link num fields
  | .clearEventOverflow => .clearEventOverflow link num fields
  | .start => .start link num fields
  | .restartTracking => .restartTracking link num fields
  | .loadTable => .loadTable link num fields
  | .readTable => .readTable link num fields
  | .readTableTallyForm => .readTableTallyForm link num fields
  | .readSegment => .readSegment link num fields
  | .releaseSegment => .releaseSegment link num fields
  | .flush => .flush link num fields
  | .shiftClose => .shiftClose link num fields
  | .readMatrix => .readMatrix link num fields
  | .readClosed => .readClosed link num fields
  | .priceEdit => .priceEdit link num fields
  | .priceSwitch => .priceSwitch link num fields

/-- The command a complete frame's body is (R168, R172): a request row, or UNKNOWN_REQUEST_CODE. A frame's body has at least the
code and the request number, since its length byte is at least 2; a shorter list is no body. -/
def decodeRequest (link : LinkId) (body : List Byte) : Option Instr :=
  match body with
  | code :: num :: fields =>
    match requestOfCode code with
    | some r => some (requestInstr r link num fields)
    | none => some (.unknownRequestCode link code num fields)
  | _ => none

/-- The link, code, request number and field bytes of a request command; none for a command that is no request. -/
def requestParts : Instr → Option (LinkId × Byte × Byte × List Byte)
  | .unknownRequestCode link code num fields => some (link, code, num, fields)
  | .postScan link num fields => some (link, requestCode .postScan, num, fields)
  | .postSolution link num fields => some (link, requestCode .postSolution, num, fields)
  | .readRecord link num fields => some (link, requestCode .readRecord, num, fields)
  | .readStatus link num fields => some (link, requestCode .readStatus, num, fields)
  | .ackAttention link num fields => some (link, requestCode .ackAttention, num, fields)
  | .setAttentionEnable link num fields => some (link, requestCode .setAttentionEnable, num, fields)
  | .setLineMode link num fields => some (link, requestCode .setLineMode, num, fields)
  | .forceBoard link num fields => some (link, requestCode .forceBoard, num, fields)
  | .sawEnable link num fields => some (link, requestCode .sawEnable, num, fields)
  | .sawDisable link num fields => some (link, requestCode .sawDisable, num, fields)
  | .binUnload link num fields => some (link, requestCode .binUnload, num, fields)
  | .binEmptied link num fields => some (link, requestCode .binEmptied, num, fields)
  | .binEnable link num fields => some (link, requestCode .binEnable, num, fields)
  | .binDisable link num fields => some (link, requestCode .binDisable, num, fields)
  | .readBins link num fields => some (link, requestCode .readBins, num, fields)
  | .readEvents link num fields => some (link, requestCode .readEvents, num, fields)
  | .clearEventOverflow link num fields => some (link, requestCode .clearEventOverflow, num, fields)
  | .start link num fields => some (link, requestCode .start, num, fields)
  | .restartTracking link num fields => some (link, requestCode .restartTracking, num, fields)
  | .loadTable link num fields => some (link, requestCode .loadTable, num, fields)
  | .readTable link num fields => some (link, requestCode .readTable, num, fields)
  | .readTableTallyForm link num fields => some (link, requestCode .readTableTallyForm, num, fields)
  | .readSegment link num fields => some (link, requestCode .readSegment, num, fields)
  | .releaseSegment link num fields => some (link, requestCode .releaseSegment, num, fields)
  | .flush link num fields => some (link, requestCode .flush, num, fields)
  | .shiftClose link num fields => some (link, requestCode .shiftClose, num, fields)
  | .readMatrix link num fields => some (link, requestCode .readMatrix, num, fields)
  | .readClosed link num fields => some (link, requestCode .readClosed, num, fields)
  | .priceEdit link num fields => some (link, requestCode .priceEdit, num, fields)
  | .priceSwitch link num fields => some (link, requestCode .priceSwitch, num, fields)
  | _ => none

/-- The body a request command's frame carries (R168). -/
def encodeRequest (i : Instr) : Option (LinkId × List Byte) :=
  (requestParts i).map fun (link, code, num, fields) => (link, code :: num :: fields)

/-- The byte codes of the mark keys (R183). -/
def markKeyCode : MarkKey → Byte
  | .grade g => BitVec.ofNat 8 g
  | .cutback c => BitVec.ofNat 8 (0x10 + c)
  | .reject => 0x21
  | .reman => 0x22
  | .noFence => 0x23

/-- The command a byte received on a keypad line is (R60, R183): one of the 28 keys, or a bad byte. A byte with a framing fault
is a bad byte whatever its value. -/
def keypadCommand (pos : Position) (byte : Byte) (framingFault : Bool) : Instr :=
  if framingFault then .keypadBadByte pos
  else
    let n := byte.toNat
    if 1 ≤ n ∧ n ≤ 10 then .keyMarkPush pos (.grade n)
    else if 0x11 ≤ n ∧ n ≤ 0x1C then .keyMarkPush pos (.cutback (n - 0x10))
    else if n = 0x21 then .keyMarkPush pos .reject
    else if n = 0x22 then .keyMarkPush pos .reman
    else if n = 0x23 then .keyMarkPush pos .noFence
    else if n = 0x30 then .keyUndo pos
    else if n = 0x31 then .keyClr pos
    else if n = 0x32 then .keyEnt pos
    else .keypadBadByte pos

/-- The command a word spells by the table's bits. No row of spec/opcode_table.json gives bits ("fields" is empty and no row has
"fixed"), so no word spells a command. -/
def decodeTableWord (_nbits _w : Nat) : Option Instr := none

end Sys2Proof
end

