-- ==== Sys2Proof/WellFormed.lean ====
section
/-! DEFINITION. Which commands name something the part has: a saw 0 to 12, a bin 1 to 48, one of the 28 keys, a body that fits a
frame, and an unknown code that is unknown. The machine's own checks of request fields (RANGE, STATE, ...) are not
well-formedness: a master may send those values and the part answers them. -/

namespace Sys2Proof

/-- The mark key is one of the 25 of R60. -/
def MarkKey.isKey : MarkKey → Bool
  | .grade g => 1 ≤ g ∧ g ≤ 10
  | .cutback c => 1 ≤ c ∧ c ≤ 12
  | .reject | .reman | .noFence => true

/-- Saws are numbered S0 to S12 (R110). -/
def sawExists (saw : Nat) : Bool := saw ≤ 12

/-- Bins are numbered 1 to 48 (R124). -/
def binExists (bin : Nat) : Bool := 1 ≤ bin ∧ bin ≤ 48

/-- The body of a frame has at most 240 bytes, two of them the code and the request number (R168). -/
def fieldsFit (fields : List Byte) : Bool := fields.length + 2 ≤ Config.bodyMax

/-- A command that the part's lines can carry. -/
def WellFormed (i : Instr) : Bool :=
  match i with
  | .sawFeedbackChange saw _ | .sawWindowExpiry saw => sawExists saw
  | .gatePulseExpiry bin | .gateConfirmOnEdge bin _ | .confirmWindowExpiry bin | .binFullSwitchOnEdge bin _ => binExists bin
  | .keyMarkPush _ key => key.isKey
  | .unknownRequestCode _ code _ fields => (requestOfCode code).isNone && fieldsFit fields
  | i =>
    match requestParts i with
    | some (_, _, _, fields) => fieldsFit fields
    | none => true

end Sys2Proof
end

