-- ==== Sys2Proof/Machine/Ops.lean ====
section
/-! DEFINITION. The named operations over the state: the stream store's bytes, arithmetic as the manual rounds and saturates it,
vectors by manual number, chains, links, positions and roles by name, and board records by tag and by offset. -/

namespace Sys2Proof.Machine

/-! ### Arithmetic (00_scope.md, "Units and arithmetic") -/

/-- Quotient to the nearest integer, an exact half rounded up. -/
def roundDiv (a b : Nat) : Nat := (2 * a + b) / (2 * b)

/-- One more, stopping at `max`. -/
def incTo (max n : Nat) : Nat := if n < max then n + 1 else n

/-- A 32-bit saturating count raised by 1. -/
def inc32 (n : Nat) : Nat := incTo Config.max32 n

/-- A sum that stops at `max`, and whether it was stopped (R145). -/
def satAdd (max n d : Nat) : Nat × Bool := if n + d ≤ max then (n + d, false) else (max, true)

/-- A number brought to the nearest limit of its range. -/
def clampTo (lo hi n : Nat) : Nat := if n < lo then lo else if hi < n then hi else n

/-! ### The stream store -/

/-- The byte at an address; an unlisted address reads 0 (R146). -/
def Memory.read : Memory → Nat → Byte
  | [], _ => 0
  | (k, v) :: rest, a => if k = a then v else Memory.read rest a

/-- Write one byte. Writing 0 leaves the address unlisted. -/
def Memory.write : Memory → Nat → Byte → Memory
  | [], a, b => if b = 0 then [] else [(a, b)]
  | (k, v) :: rest, a, b =>
    if a < k then (if b = 0 then (k, v) :: rest else (a, b) :: (k, v) :: rest)
    else if a = k then (if b = 0 then rest else (a, b) :: rest)
    else (k, v) :: Memory.write rest a b

/-- Write bytes from an address upward. -/
def Memory.writeBytes : Memory → Nat → List Byte → Memory
  | m, _, [] => m
  | m, a, b :: bs => Memory.writeBytes (Memory.write m a b) (a + 1) bs

/-- Read `n` bytes from an address upward. -/
def Memory.readBytes (m : Memory) (a n : Nat) : List Byte := (List.range n).map fun i => m.read (a + i)

/-- The canonical form: addresses rise strictly and no listed byte is 0. -/
def Memory.wf : Memory → Bool
  | [] => true
  | (_, v) :: [] => v != 0
  | (k, v) :: (k', v') :: rest => v != 0 && decide (k < k') && Memory.wf ((k', v') :: rest)

/-- Address of the first byte of a slot of a segment (R146). -/
def slotAddress (segment slot : Nat) : Nat := (Config.segmentSlots * segment + slot) * Config.slotBytes

/-! ### Vectors by the manual's numbers -/

/-- Every entry changed by a function of its own. -/
def mapVec {α β : Type} {n : Nat} (f : α → β) (v : Vector α n) : Vector β n := Vector.ofFn fun i => f v[i]

/-- The entry numbered `n`, counting from 0, or `d` where there is none. -/
def entryD {α : Type} {k : Nat} (v : Vector α k) (n : Nat) (d : α) : α := (v[n]?).getD d

/-- The entry numbered `n`, counting from 0, changed by `f`; nothing where there is none. -/
def modifyAt {α : Type} {k : Nat} (v : Vector α k) (n : Nat) (f : α → α) : Vector α k :=
  if h : n < k then v.set n (f v[n]) h else v

/-! ### Settle period and RESETN (R17, R18) -/

/-- Inputs are taken: RESETN is high and the settle period has ended. -/
def State.awake (s : State) : Bool := !s.timebase.resetLow && decide (Config.settleTicks ≤ s.timebase.settle)

/-- What an event does while inputs are taken; while they are not, it does nothing. -/
def whenAwake (s : State) (act : State → State) : Result State := .next (if s.awake then act s else s)

/-! ### Input lines -/

/-- The input lines that give edges. -/
inductive InputLine
  | lug (ch : Chain) | scan | pickup | confirm (bin : Nat) | full (bin : Nat)
  deriving DecidableEq, Repr

/-- The level of a line. -/
def Inputs.level (i : Inputs) : InputLine → Bool
  | .lug .trimmer => i.lugTrimmer
  | .lug .sorter => i.lugSorter
  | .scan => i.scan
  | .pickup => i.pickup
  | .confirm bin => entryD i.confirm (bin - 1) false
  | .full bin => entryD i.full (bin - 1) false

/-- The levels with one line's level set. -/
def Inputs.setLevel (i : Inputs) (level : Bool) : InputLine → Inputs
  | .lug .trimmer => { i with lugTrimmer := level }
  | .lug .sorter => { i with lugSorter := level }
  | .scan => { i with scan := level }
  | .pickup => { i with pickup := level }
  | .confirm bin => { i with confirm := modifyAt i.confirm (bin - 1) fun _ => level }
  | .full bin => { i with full := modifyAt i.full (bin - 1) fun _ => level }

/-- A change of an input line. The level outside follows it always. While inputs are taken, an on-edge has the effect `onEdge`
unless the line has stood active since the end of settle (R17), and an off-edge has the effect `offEdge` and marks the line as
seen clear. -/
def takeEdge (line : InputLine) (edge : Edge) (onEdge offEdge : State → State) (s : State) : Result State :=
  match edge with
  | .on =>
    let s1 := { s with pins := s.pins.setLevel true line }
    .next (if s.awake && !s.standing.level line then onEdge s1 else s1)
  | .off =>
    let s1 := { s with pins := s.pins.setLevel false line, standing := s.standing.setLevel false line }
    .next (if s.awake then offEdge s1 else s1)

/-! ### Blocks by name -/

/-- The chain unit of a chain. -/
def State.unit (s : State) : Chain → ChainUnit
  | .trimmer => s.tcu
  | .sorter => s.scu

/-- The state with one chain unit replaced. -/
def State.setUnit (s : State) (ch : Chain) (u : ChainUnit) : State :=
  match ch with
  | .trimmer => { s with tcu := u }
  | .sorter => { s with scu := u }

/-- A chain's parameters in the settings table. -/
def State.params (s : State) : Chain → ChainParams
  | .trimmer => s.tables.settings.trimmer
  | .sorter => s.tables.settings.sorter

/-- A grading position. -/
def State.grading (s : State) : Position → Grading
  | .a => s.gradingA
  | .b => s.gradingB

/-- The state with one grading position replaced. -/
def State.setGrading (s : State) (p : Position) (g : Grading) : State :=
  match p with
  | .a => { s with gradingA := g }
  | .b => { s with gradingB := g }

/-- A link. -/
def State.link (s : State) : LinkId → LinkState
  | .optimizer => s.links.optimizer
  | .lineController => s.links.lineController
  | .tallyStation => s.links.tallyStation

/-- The state with one link replaced. -/
def State.setLink (s : State) (l : LinkId) (k : LinkState) : State :=
  match l with
  | .optimizer => { s with links := { s.links with optimizer := k } }
  | .lineController => { s with links := { s.links with lineController := k } }
  | .tallyStation => { s with links := { s.links with tallyStation := k } }

/-- The attention flags of a link's role. -/
def State.role (s : State) : LinkId → RoleFlags
  | .optimizer => s.attention.optimizer
  | .lineController => s.attention.lineController
  | .tallyStation => s.attention.tallyStation

/-- The state with one role's attention flags replaced. -/
def State.setRole (s : State) (l : LinkId) (f : RoleFlags) : State :=
  match l with
  | .optimizer => { s with attention := { s.attention with optimizer := f } }
  | .lineController => { s with attention := { s.attention with lineController := f } }
  | .tallyStation => { s with attention := { s.attention with tallyStation := f } }

/-- Bin records by bin number 1 to 48. A number outside reads as a bin that is not fitted. -/
def State.bin (s : State) (bin : Nat) : BinRec := if bin = 0 then .powerOn else entryD s.sort.bins (bin - 1) .powerOn

/-- The state with one bin record changed; nothing for bin 0 or a bin over 48. -/
def State.modifyBin (s : State) (bin : Nat) (f : BinRec → BinRec) : State :=
  if bin = 0 then s else { s with sort := { s.sort with bins := modifyAt s.sort.bins (bin - 1) f } }

/-- The state with the sort unit's counts changed. -/
def State.modifySortCounts (s : State) (f : SortCounts → SortCounts) : State :=
  { s with sort := { s.sort with counts := f s.sort.counts } }

/-- Saw records by saw number 0 to 12. -/
def State.saw (s : State) (saw : Nat) : SawRec := entryD s.saws.recs saw .powerOn

/-- The state with one saw record changed. -/
def State.modifySaw (s : State) (saw : Nat) (f : SawRec → SawRec) : State :=
  { s with saws := { s.saws with recs := modifyAt s.saws.recs saw f } }

/-- The saws S0 to S12 in order. -/
def allSaws : List Nat := List.range 13

/-- The bins 1 to 48 in order. -/
def allBins : List Nat := (List.range 48).map (· + 1)

/-! ### Board records -/

/-- A record's offset at a lug serial, given the serial at which it was placed: their difference modulo 2³² (R4). -/
def offsetAt (now placed : Serial) : Nat := (now - placed).toNat

/-- A record's trimmer offset when the TCU lug serial is `now`. -/
def Record.trimmerOffset (r : Record) (now : Serial) : Nat := offsetAt now r.creation

/-- A record's sorter offset when the SCU lug serial is `now`. -/
def Record.sorterOffset (r : Record) (now : Serial) : Nat := offsetAt now (r.sorterSerial.getD 0)

/-- Where a live record is (R22): its offset on a map, or its position from the head and age in the transfer queue. -/
inductive Place
  | trimmer (offset : Nat) | transfer (position age : Nat) | sorter (offset : Nat)
  deriving DecidableEq, Repr

/-- The record on a map with a tag. -/
def byTag (records : List Record) (tag : Nat) : Option Record := records.find? fun r => r.tag = tag

/-- A live record and its place, by tag (R42). -/
def State.locate (s : State) (tag : Nat) : Option (Record × Place) :=
  match byTag s.board.trimmer tag with
  | some r => some (r, .trimmer (r.trimmerOffset s.tcu.serial))
  | none =>
    match s.board.transfer.findIdx? fun w => w.board.tag = tag with
    | some i => s.board.transfer[i]?.map fun w => (w.board, .transfer i w.age)
    | none => (byTag s.board.sorter tag).map fun r => (r, .sorter (r.sorterOffset s.scu.serial))

/-- Every live record, in its order along the line from the trimmer on. -/
def State.live (s : State) : List Record := s.board.trimmer ++ s.board.transfer.map (·.board) ++ s.board.sorter

/-- One record of a list changed, named by tag. -/
def mapTag (tag : Nat) (f : Record → Record) (records : List Record) : List Record :=
  records.map fun r => if r.tag = tag then f r else r

/-- A record of the trimmer map changed, named by tag. -/
def State.modifyTrimmer (s : State) (tag : Nat) (f : Record → Record) : State :=
  { s with board := { s.board with trimmer := mapTag tag f s.board.trimmer } }

/-- A record of the sorter map changed, named by tag. -/
def State.modifySorter (s : State) (tag : Nat) (f : Record → Record) : State :=
  { s with board := { s.board with sorter := mapTag tag f s.board.sorter } }

/-- A list without the record of a tag. -/
def dropTag (tag : Nat) (records : List Record) : List Record := records.filter fun r => !decide (r.tag = tag)

/-- The state with a record taken off the trimmer map. -/
def State.leaveTrimmer (s : State) (tag : Nat) : State :=
  { s with board := { s.board with trimmer := dropTag tag s.board.trimmer } }

/-- The state with a record taken off the sorter map. -/
def State.leaveSorter (s : State) (tag : Nat) : State :=
  { s with board := { s.board with sorter := dropTag tag s.board.sorter } }

/-- The trimmer record at an offset, when the TCU lug serial is `now`. -/
def State.trimmerAt (s : State) (now : Serial) (offset : Nat) : Option Record :=
  s.board.trimmer.find? fun r => r.trimmerOffset now = offset

/-- The sorter record at an offset, when the SCU lug serial is `now`. -/
def State.sorterAt (s : State) (now : Serial) (offset : Nat) : Option Record :=
  s.board.sorter.find? fun r => r.sorterOffset now = offset

/-- The tag after a tag, wrapping from 65,535 to 1 (R23). -/
def tagAfter (tag : Nat) : Nat := if tag < Config.tagMax then tag + 1 else 1

/-- The first tag from `tag` on that no record of `used` carries, looking at no more than `fuel` tags (R23). With at most 195 live
records a free tag is among any 196. -/
def freeTag (used : List Nat) : Nat → Nat → Nat
  | 0, tag => tag
  | fuel + 1, tag => if used.contains tag then freeTag used fuel (tagAfter tag) else tag

/-- The tag the next record takes (R23). -/
def State.nextFreeTag (s : State) : Nat :=
  let used := s.live.map (·.tag)
  freeTag used used.length s.board.nextTag

/-- A record of a new board: its identity, life state and creation flags, every other part absent (R19). -/
def newRecord (tag : Nat) (origin : Origin) (creation : Serial) (life : Life) (suspect : Bool) : Record :=
  { tag, origin, creation, sorterSerial := none, life,
    flags := { suspect, double := false, miscut := false, sawMiss := false, gateMiss := false, rerouted := false,
               redecided := false },
    scan := none, solution := none, marks := none, force := none, decision := none, outcome := none, sort := none }

/-- A chain unit's tracking is not trusted: SEARCH or LOST (R24, R36). -/
def Sync.untrusted : Sync → Bool
  | .search | .lost => true
  | .locked | .coast => false

/-- Mark every record of a list SUSPECT (R9). -/
def markSuspect (records : List Record) : List Record :=
  records.map fun r => { r with flags := { r.flags with suspect := true } }

/-! ### Saw positions and prices -/

/-- Position and nominal length of length saw k, 1 to 12, if the saw table gives it one. -/
def State.sawPlace (s : State) (k : Nat) : Option SawPlace :=
  if k = 0 then none else entryD s.tables.saw.places (k - 1) none

/-- Confirm mode of a saw (R110). -/
def State.sawMode (s : State) (saw : Nat) : ConfirmMode := entryD s.tables.saw.modes saw .none

/-- A length saw is usable when it is enabled and has a position; S0 when it is enabled (R88, R110). -/
def State.usable (s : State) (saw : Nat) : Bool :=
  (s.saw saw).enabled && decide (saw ≤ 12) && (decide (saw = 0) || (s.sawPlace saw).isSome)

/-- A grade is enabled in the grade table. -/
def State.gradeEnabled (s : State) (g : Nat) : Bool := 1 ≤ g && g ≤ 10 && s.tables.grade.enabled.getLsbD (g - 1)

/-- A bank's price P[g][k], 0 where there is no such cell. -/
def bankPrice (bank : Vector Nat 120) (g k : Nat) : Nat :=
  if 1 ≤ g ∧ g ≤ 10 ∧ 1 ≤ k ∧ k ≤ 12 then entryD bank (12 * (g - 1) + (k - 1)) 0 else 0

/-- P[g][k] of the active bank (R101). -/
def State.price (s : State) (g k : Nat) : Nat := bankPrice (if s.tables.active1 then s.tables.bank1 else s.tables.bank0) g k

/-- Nominal volume of class k for a scan summary's size codes, in cm³ (R99). -/
def State.volume (s : State) (scan : ScanSummary) (k : Nat) : Nat :=
  let t := (entryD s.tables.size.thickness (scan.thickness - 1) none).getD 0
  let w := (entryD s.tables.size.width (scan.width - 1) none).getD 0
  let n := ((s.sawPlace k).map (·.nominal)).getD 0
  roundDiv (t * w * n) 1000

/-- Value of a volume at grade g and class k, in counts (R100). -/
def State.value (s : State) (volume g k : Nat) : Nat := roundDiv (volume * s.price g k) 1000000

end Sys2Proof.Machine
end

