-- ==== Sys2Proof/Machine/Operands.lean ====
section
/-! DEFINITION. Operands and answers as bytes: byte order and widths (R178), the frame's CRC and escapes (R168), the codes of the
enumerations (R178, R180 to R183), how a request's field bytes are read, and the parts of a response. -/

namespace Sys2Proof.Machine

/-! ### Byte order and widths (R178) -/

def u8 (n : Nat) : List Byte := [BitVec.ofNat 8 n]
/-- Two bytes, the most significant first. -/
def u16 (n : Nat) : List Byte := [BitVec.ofNat 8 (n / 256), BitVec.ofNat 8 n]
/-- Three bytes, the most significant first. -/
def u24 (n : Nat) : List Byte := [BitVec.ofNat 8 (n / 65536), BitVec.ofNat 8 (n / 256), BitVec.ofNat 8 n]
/-- Four bytes, the most significant first. -/
def u32 (n : Nat) : List Byte :=
  [BitVec.ofNat 8 (n / 16777216), BitVec.ofNat 8 (n / 65536), BitVec.ofNat 8 (n / 256), BitVec.ofNat 8 n]
def flag8 (b : Bool) : List Byte := u8 b.toNat
/-- An absent small number is sent as 0. -/
def opt8 (o : Option Nat) : List Byte := u8 (o.getD 0)

/-- The number that bytes carry, the most significant first. -/
def number (bytes : List Byte) : Nat := bytes.foldl (fun n b => 256 * n + b.toNat) 0

/-- The number in the `n` bytes of a field list from offset `at_`; a missing byte reads 0. -/
def fieldAt (fields : List Byte) (at_ n : Nat) : Nat := number ((List.range n).map fun i => (fields[at_ + i]?).getD 0)

/-- A value carried by flag bits, bit n for entry n. -/
def packBits (bits : List Bool) : Nat := bits.foldr (fun b n => 2 * n + b.toNat) 0

/-! ### The frame on the wire (R168, R179) -/

/-- One bit of the CRC: polynomial 1021h, the most significant bit first. -/
def crcBit (crc : BitVec 16) : BitVec 16 := if crc.getLsbD 15 then (crc <<< 1) ^^^ 0x1021 else crc <<< 1

/-- The CRC with one more byte. -/
def crcByte (crc : BitVec 16) (b : Byte) : BitVec 16 :=
  Nat.repeat crcBit 8 (crc ^^^ (b.setWidth 16 <<< 8))

/-- The CRC of bytes: initial value FFFFh, no final inversion. -/
def crc16 (bytes : List Byte) : BitVec 16 := bytes.foldl crcByte 0xFFFF

/-- A CRC's two bytes, the high byte first. -/
def crcBytes (crc : BitVec 16) : List Byte := [crc.extractLsb' 8 8, crc.extractLsb' 0 8]

/-- The four byte values that are escaped inside a frame. -/
def needsEscape (b : Byte) : Bool := b = 0xF4 || b = 0xF5 || b = 0xF6 || b = 0xF7

/-- A frame byte as sent: itself, or F7h and its value XOR 20h. -/
def escapeByte (b : Byte) : List Byte := if needsEscape b then [0xF7, b ^^^ 0x20] else [b]

/-- The length byte and the body, over which the CRC is computed. -/
def framed (body : List Byte) : List Byte := BitVec.ofNat 8 body.length :: body

/-- A body's whole frame on the wire. -/
def wireFrame (body : List Byte) : List Byte :=
  0xF4 :: ((framed body ++ crcBytes (crc16 (framed body))).flatMap escapeByte)

/-! ### Enumerations -/

/-- Status codes (R178). -/
inductive Status
  | ok | okClamped | format | denied | state | noTag | late | range | combo | bank
  deriving DecidableEq, Repr

def Status.code : Status → Byte
  | .ok => 0x00
  | .okClamped => 0x01
  | .format => 0x02
  | .denied => 0x03
  | .state => 0x04
  | .noTag => 0x05
  | .late => 0x06
  | .range => 0x07
  | .combo => 0x08
  | .bank => 0x09

def Origin.code : Origin → Nat
  | .scanned => 1
  | .unknown => 2

def Life.code : Life → Nat
  | .scanned => 1
  | .decided => 2
  | .set => 3
  | .cut => 4
  | .inTransfer => 5
  | .onSorter => 6
  | .dropping => 7

def Fate.code : Fate → Nat
  | .droppedGraded => 1
  | .droppedReject => 2
  | .droppedReman => 3
  | .trashed => 4
  | .runout => 5
  | .lost => 6

def Kind.code : Kind → Nat
  | .trim => 1
  | .noTrim => 2
  | .trash => 3

def Disposition.code : Disposition → Nat
  | .normal => 1
  | .reject => 2
  | .reman => 3

def Source.code : Source → Nat
  | .force => 1
  | .mode => 2
  | .mark => 3
  | .optimizer => 4
  | .byDefault => 5

def Reason.code : Reason → Nat
  | .chosen => 1
  | .noScan => 2
  | .noSolution => 3
  | .noneFeasible => 4
  | .short => 5
  | .suspect => 6
  | .double => 7
  | .bypass => 8
  | .trashAll => 9
  | .fixedShort => 10
  | .forced => 11
  | .forceShort => 12

def AsCut.code : AsCut → Nat
  | .cls j => j
  | .short => 13
  | .untrimmed => 14

/-- Sync state numbers (10_field_events_and_attention.md, SYNC-CHANGE). -/
def Sync.code : Sync → Nat
  | .search => 0
  | .locked => 1
  | .coast => 2
  | .lost => 3

/-- Bin state numbers (R182). -/
def BinState.code : BinState → Nat
  | .opened => 0
  | .full => 1
  | .unloading => 2
  | .disabled => 3

def RouteKind.code : RouteKind → Nat
  | .group _ => 1
  | .reject => 2
  | .reman => 3
  | .nowhere => 4

def RouteKind.groupNumber : RouteKind → Nat
  | .group n => n
  | .reject | .reman | .nowhere => 0

def DropResult.code : DropResult → Nat
  | .none => 0
  | .dropped => 1
  | .passed => 2

def ConfirmMode.code : ConfirmMode → Nat
  | .none => 1
  | .confirm => 2
  | .retry => 3

def Position.code : Position → Nat
  | .a => 1
  | .b => 2

def TableId.code : TableId → Nat
  | .settings => 1
  | .saw => 2
  | .size => 3
  | .grade => 4
  | .station => 5
  | .bin => 6
  | .binGroup => 7
  | .sortRule => 8

def tableOfCode : Nat → Option TableId
  | 1 => some .settings
  | 2 => some .saw
  | 3 => some .size
  | 4 => some .grade
  | 5 => some .station
  | 6 => some .bin
  | 7 => some .binGroup
  | 8 => some .sortRule
  | _ => none

def chainCode : Option Chain → Nat
  | none => 0
  | some .trimmer => 1
  | some .sorter => 2

/-- Event kind numbers (R182). -/
def EventKind.code : EventKind → Nat
  | .eyeEarly => 1
  | .eyeMissed => 2
  | .syncChange => 3
  | .chainStop => 4
  | .chainRun => 5
  | .reverse => 6
  | .sawMiss => 7
  | .sawDisabled => 8
  | .gateMiss => 9
  | .binDisabled => 10
  | .binFullSwitch => 11
  | .boardLost => 12
  | .boardUnknown => 13
  | .streamDrop => 14

/-- Reply codes of a keypad line (R183). -/
def Reply.code : Reply → Byte
  | .targetOn => 0x41
  | .targetOff => 0x42
  | .accept => 0x43
  | .refuse => 0x44
  | .missed => 0x45

def Control.code : Control → Byte
  | .pause => 0xF5
  | .resume => 0xF6

def ForceKind.code : ForceKind → Nat
  | .trim _ => 1
  | .noTrim => 2
  | .trash => 3

/-- Saw policy and its saw number, and sort policy (R180). The saw number is 0 but under FIXED. -/
def LineMode.bytes (m : LineMode) : List Byte :=
  (match m.saws with
    | .auto => u8 1 ++ u8 0
    | .fixed k => u8 2 ++ u8 k
    | .trashAll => u8 3 ++ u8 0
    | .bypass => u8 4 ++ u8 0) ++
  (match m.sort with
    | .byProduct => u8 1
    | .allReject => u8 2
    | .allRunout => u8 3)

/-! ### Parts of a response -/

/-- What a request is answered: its status and the fields after it. -/
structure Answer where
  status : Status
  fields : List Byte
  deriving DecidableEq, Repr

/-- An answer with no fields. -/
def Answer.bare (status : Status) : Answer := { status, fields := [] }

/-- The record flags byte (R178). -/
def RecordFlags.byte (f : RecordFlags) : Nat :=
  packBits [f.suspect, f.double, f.miscut, f.sawMiss, f.gateMiss, f.rerouted, f.redecided]

/-- The 17-byte decision block (R181): kind, far saw, fence, grade, class, V, G, disposition, source, reason, index. -/
def Decision.bytes (d : Decision) : List Byte :=
  u8 d.kind.code ++ opt8 d.saw ++ flag8 d.fence ++ opt8 d.grade ++ opt8 d.cls ++ u32 d.volume ++ u32 d.value ++
  u8 d.disposition.code ++ u8 d.source.code ++ u8 d.reason.code ++ opt8 d.index

/-- `n` bytes of 0: an absent part. -/
def zeros (n : Nat) : List Byte := List.replicate n 0

/-- A part's bytes, or zeros while the part is absent (R178). -/
def partBytes {α : Type} (n : Nat) (f : α → List Byte) : Option α → List Byte
  | none => zeros n
  | some x => f x

def Candidate.bytes (c : Candidate) : List Byte := u8 c.saw ++ flag8 c.fence ++ u8 c.grade

/-- The candidate entries, eight places of three bytes. -/
def candidateBytes (cs : List Candidate) : List Byte :=
  let used := (cs.take 8).flatMap (·.bytes)
  used ++ zeros (24 - used.length)

/-- Setting positions: two bits a field in the order grade, cutback, disposition, no-fence (R181). -/
def MarkSet.setters (m : MarkSet) : Nat :=
  let p (o : Option Position) : Nat := (o.map Position.code).getD 0
  p (m.grade.map (·.setBy)) + 4 * p (m.cutback.map (·.setBy)) + 16 * p (m.disposition.map (·.setBy)) + 64 * p m.noFence

def MarkSet.bytes (m : MarkSet) : List Byte :=
  opt8 (m.grade.map (·.value)) ++ opt8 (m.cutback.map (·.value)) ++ opt8 (m.disposition.map (·.value.code)) ++
  flag8 m.noFence.isSome ++ u8 m.setters ++ u8 (packBits [m.byA, m.byB])

/-- Far saw of a forced TRIM. -/
def Force.saw (f : Force) : Option Nat :=
  match f.kind with
  | some (.trim k) => some k
  | _ => none

def Force.bytes (f : Force) : List Byte :=
  opt8 (f.kind.map (·.code)) ++ opt8 f.saw ++ opt8 (f.fence.map fun on => if on then 1 else 2) ++ opt8 f.grade ++
  opt8 (f.disposition.map (·.code))

/-- Thirteen saw states in two bytes, bit j for saw Sj (R181). -/
def sawBits (v : Vector Bool 13) : List Byte := u16 (packBits v.toList)

def SawOutcome.bytes (o : SawOutcome) : List Byte :=
  sawBits o.pattern ++ sawBits o.snapshot ++ u8 o.result.code ++ opt8 o.grade ++ u8 o.disposition.code ++ u32 o.volume ++
  u32 o.value

def SortPart.bytes (p : SortPart) : List Byte :=
  opt8 p.key.grade ++ opt8 p.key.cls ++ opt8 p.key.width ++ u8 p.key.disposition.code ++ u8 p.route.code ++
  u8 p.route.groupNumber ++ u8 p.bin ++ u8 p.firstBin ++ u8 p.result.code ++ u8 p.attempts

def ScanSummary.bytes (c : ScanSummary) : List Byte := u16 c.length ++ u8 c.thickness ++ u8 c.width

/-- Place, offset or position, age (R181). -/
def Place.bytes : Place → List Byte
  | .trimmer off => u8 1 ++ u8 off ++ u8 0
  | .transfer i age => u8 2 ++ u8 i ++ u8 age
  | .sorter off => u8 3 ++ u8 off ++ u8 0

/-- Parts present, in READ-RECORD's order (R181). -/
def Record.parts (r : Record) : Nat :=
  packBits [r.scan.isSome, r.solution.isSome, r.marks.isSome, r.force.isSome, r.decision.isSome, r.outcome.isSome,
    r.sort.isSome]

def Solution.bytes (x : Solution) : List Byte := u8 x.revision ++ u8 x.candidates.length ++ candidateBytes x.candidates

/-- The 100 bytes of a taken READ-RECORD (R181). -/
def recordBytes (r : Record) (place : Place) : List Byte :=
  u16 r.tag ++ u8 r.origin.code ++ u8 r.life.code ++ u8 r.flags.byte ++ u8 r.parts ++ u32 r.creation.toNat ++
  u32 (r.sorterSerial.getD 0).toNat ++ place.bytes ++ partBytes 4 ScanSummary.bytes r.scan ++
  partBytes 26 Solution.bytes r.solution ++ partBytes 6 MarkSet.bytes r.marks ++ partBytes 5 Force.bytes r.force ++
  partBytes 17 Decision.bytes r.decision ++ partBytes 15 SawOutcome.bytes r.outcome ++ partBytes 10 SortPart.bytes r.sort

/-- An event entry's nine bytes (R182). -/
def Event.bytes (e : Event) : List Byte :=
  u8 e.kind.code ++ u8 (chainCode e.chain) ++ u32 e.serial.toNat ++ u16 e.subject ++ u8 e.detail

/-- A tally stream record's 20 bytes (R146, R182). -/
def streamRecord (r : Record) (fate : Fate) : List Byte :=
  let grade := match r.outcome with
    | some o => o.grade
    | none => r.decision.bind (·.grade)
  let disposition := match r.sort, r.outcome with
    | some p, _ => p.key.disposition.code
    | none, some o => o.disposition.code
    | none, none => (r.decision.map (·.disposition.code)).getD 0
  let width := (r.scan.map (·.width)).getD 0
  let result := (r.sort.map (·.result.code)).getD 0
  let byA := (r.marks.map (·.byA)).getD false
  let byB := (r.marks.map (·.byB)).getD false
  u16 r.tag ++ u8 fate.code ++ u8 (r.flags.byte + (if r.origin = .unknown then 128 else 0)) ++
  u8 (packBits [r.scan.isSome, r.solution.isSome, byA, byB, r.force.isSome] + 32 * result) ++
  opt8 (r.solution.map (·.revision)) ++
  u8 (16 * (r.decision.map (·.kind.code)).getD 0 + (r.decision.map (·.source.code)).getD 0) ++
  opt8 (r.decision.map (·.reason.code)) ++ opt8 (r.outcome.map (·.result.code)) ++ opt8 grade ++
  u8 (16 * width + disposition) ++ opt8 (r.sort.map (·.bin)) ++ u24 ((r.outcome.map (·.volume)).getD 0) ++
  u24 ((r.outcome.map (·.value)).getD 0) ++ u16 r.creation.toNat

/-- A trailer's 20 bytes (R146, R182). -/
def trailerBytes (sequence : BitVec 32) (count dropped shift : Nat) (shiftEnd : Bool) : List Byte :=
  u16 0 ++ u32 sequence.toNat ++ u8 count ++ u32 dropped ++ u16 shift ++ flag8 shiftEnd ++ zeros 6

end Sys2Proof.Machine
end

