-- ==== Sys2Proof/Machine/Flags.lean ====
section
/-! DEFINITION. The part's flags: the event queue with its overflow flag (R159, R160), the attention causes, the requests and
lines of the three roles (R163, R165), and the NEAR flag of a bin (R132). -/

namespace Sys2Proof.Machine

/-! ### Attention (R163 to R165) -/

/-- The edge causes. -/
inductive Cause
  | trackSync | optimizerLineState | eventOverflow | binNear | binFull | sawFault | sync | controllerLineState | shiftClosed
  deriving DecidableEq, Repr

/-- The role of a cause. -/
def Cause.role : Cause → LinkId
  | .trackSync | .optimizerLineState => .optimizer
  | .eventOverflow | .binNear | .binFull | .sawFault | .sync | .controllerLineState => .lineController
  | .shiftClosed => .tallyStation

/-- A cause's bit in its role's cause set (R180). -/
def Cause.bit : Cause → Nat
  | .trackSync => 0
  | .optimizerLineState => 1
  | .eventOverflow => 1
  | .binNear => 2
  | .binFull => 3
  | .sawFault => 4
  | .sync => 5
  | .controllerLineState => 6
  | .shiftClosed => 2

/-- The cause set with one bit set. -/
def causeBit (n : Nat) : BitVec 8 := 1#8 <<< n

/-- The causes a role has (R180). -/
def ownCauses : LinkId → BitVec 8
  | .optimizer => 0x03
  | .lineController => 0x7F
  | .tallyStation => 0x07

/-- Raise an edge cause: its request is latched (R163). -/
def latch (c : Cause) (s : State) : State :=
  let f := s.role c.role
  s.setRole c.role { f with edges := f.edges ||| causeBit c.bit }

/-- The level requests of a role, which follow their conditions (R163): EVENT-PENDING, SEGMENT-READY and STREAM-BLOCKED. -/
def levelRequests (s : State) : LinkId → BitVec 8
  | .optimizer => 0
  | .lineController => if s.events.entries = [] then 0 else causeBit 0
  | .tallyStation =>
    (if s.tally.stream.ready = 0 then 0 else causeBit 0) ||| (if s.tally.stream.blocked then causeBit 1 else 0)

/-- A role's standing requests, latched and level. -/
def requests (s : State) (role : LinkId) : BitVec 8 := (s.role role).edges ||| levelRequests s role

/-- A role's attention line (R165), deasserted through the settle period (R17). -/
def attentionLine (s : State) (role : LinkId) : Bool := s.awake && (requests s role &&& (s.role role).enables) != 0

/-! ### Event queue (R159, R160) -/

/-- Offer one event: it is appended, or discarded when the queue holds 128 entries. The TCU lug serial is read as it stands; a TCU
advance raises its events before it raises the serial. -/
def raiseEvent (kind : EventKind) (chain : Option Chain) (subject detail : Nat) (s : State) : State :=
  if s.events.entries.length < Config.eventSlots then
    { s with events :=
        { s.events with entries := s.events.entries ++ [{ kind, chain, serial := s.tcu.serial, subject, detail }] } }
  else
    latch .eventOverflow { s with events := { s.events with overflow := true, lost := inc32 s.events.lost } }

/-! ### NEAR (R132) -/

/-- A bin's load: its dropped count plus its reserved count (R124). -/
def BinRec.load (b : BinRec) : Nat := b.dropped + b.reserved

/-- Judge a fitted bin's NEAR flag against its load. -/
def judgeNear (bin : Nat) (s : State) : State :=
  let b := s.bin bin
  match b.items with
  | none => s
  | some it =>
    if b.near = false ∧ it.hi ≤ b.load then latch .binNear (s.modifyBin bin fun b => { b with near := true })
    else if b.near = true ∧ b.load ≤ it.lo then s.modifyBin bin fun b => { b with near := false }
    else s

/-- A bin becomes FULL and raises BIN-FULL (R126). -/
def makeFull (bin : Nat) (s : State) : State := latch .binFull (s.modifyBin bin fun b => { b with state := .full })

end Sys2Proof.Machine
end

