-- ==== Sys2Proof/Machine/Tally.lean ====
section
/-! DEFINITION. The tally unit: posting a fate (R144, R145), the stream writer (R146 to R149), and retirement (R37). -/

namespace Sys2Proof.Machine

/-! ### Posting a fate -/

/-- Which counter of a tally. -/
inductive TallyCounter
  | reject | reman | trash | runout | lost | unknown | miscut | suspect | written | dropped
  deriving DecidableEq, Repr

/-- A counter raised by 1. At its largest value it stays there and the saturation flag is set (R145). -/
def Tally.count (t : Tally) (c : TallyCounter) : Tally :=
  let up (n : Nat) : Nat × Bool := satAdd Config.max32 n 1
  match c with
  | .reject => { t with reject := (up t.reject).1, saturated := t.saturated || (up t.reject).2 }
  | .reman => { t with reman := (up t.reman).1, saturated := t.saturated || (up t.reman).2 }
  | .trash => { t with trash := (up t.trash).1, saturated := t.saturated || (up t.trash).2 }
  | .runout => { t with runout := (up t.runout).1, saturated := t.saturated || (up t.runout).2 }
  | .lost => { t with lost := (up t.lost).1, saturated := t.saturated || (up t.lost).2 }
  | .unknown => { t with unknown := (up t.unknown).1, saturated := t.saturated || (up t.unknown).2 }
  | .miscut => { t with miscut := (up t.miscut).1, saturated := t.saturated || (up t.miscut).2 }
  | .suspect => { t with suspect := (up t.suspect).1, saturated := t.saturated || (up t.suspect).2 }
  | .written => { t with written := (up t.written).1, saturated := t.saturated || (up t.written).2 }
  | .dropped => { t with dropped := (up t.dropped).1, saturated := t.saturated || (up t.dropped).2 }

/-- Index of the matrix cell of a grade, class and width code, if there is one (R143). -/
def cellIndex (grade cls width : Nat) : Option Nat :=
  if 1 ≤ grade ∧ grade ≤ 10 ∧ 1 ≤ cls ∧ cls ≤ 12 ∧ 1 ≤ width ∧ width ≤ 8 then
    some (96 * (grade - 1) + 8 * (cls - 1) + (width - 1))
  else none

/-- The cell of a product key, when grade, class and width are all present. -/
def ProductKey.cell (k : ProductKey) : Option Nat :=
  match k.grade, k.cls, k.width with
  | some g, some c, some w => cellIndex g c w
  | _, _, _ => none

/-- Post a piece: the cell gains 1 piece and the volume, the value total gains the value, each saturating by itself (R144, R145). -/
def Tally.postPiece (t : Tally) (cell volume value : Nat) : Tally :=
  let old := entryD t.cells cell { pieces := 0, volume := 0 }
  let p := satAdd Config.max24 old.pieces 1
  let v := satAdd Config.max32 old.volume volume
  let g := satAdd Config.max32 t.value value
  { t with cells := modifyAt t.cells cell fun _ => { pieces := p.1, volume := v.1 }, value := g.1,
           saturated := t.saturated || p.2 || v.2 || g.2 }

/-- Post a record's fate and its three tags (R144). -/
def Tally.post (t : Tally) (r : Record) (fate : Fate) : Tally :=
  let t := match fate with
    | .droppedGraded =>
      match r.sort.bind (·.key.cell) with
      | some cell => t.postPiece cell ((r.outcome.map (·.volume)).getD 0) ((r.outcome.map (·.value)).getD 0)
      | none => t
    | .droppedReject => t.count .reject
    | .droppedReman => t.count .reman
    | .trashed => t.count .trash
    | .runout => t.count .runout
    | .lost => t.count .lost
  let t := if r.origin = .unknown then t.count .unknown else t
  let t := if r.flags.miscut then t.count .miscut else t
  if r.flags.suspect then t.count .suspect else t

/-! ### The stream writer -/

/-- The state with the live tally changed. -/
def State.modifyLive (s : State) (f : Tally → Tally) : State := { s with tally := { s.tally with live := f s.tally.live } }

/-- The state with the stream changed. -/
def State.modifyStream (s : State) (f : Stream → Stream) : State :=
  { s with tally := { s.tally with stream := f s.tally.stream } }

/-- Write bytes into a slot of the current segment. -/
def Stream.put (st : Stream) (slot : Nat) (bytes : List Byte) : Stream :=
  { st with store := st.store.writeBytes (slotAddress st.segment.val slot) bytes }

/-- Close the current segment with a trailer in its next slot, mark it ready and move the writer to the next segment, where it is
BLOCKED if that segment is ready (R148). -/
def Stream.close (st : Stream) (dropped shift : Nat) (shiftEnd : Bool) : Stream :=
  let st := st.put st.slot (trailerBytes st.sequence st.slot dropped shift shiftEnd)
  let ready := st.ready ||| (1#4 <<< st.segment.val)
  let next := st.segment + 1
  { st with ready, sequence := st.sequence + 1, segment := next, slot := 0, blocked := ready.getLsbD next.val,
            spellDropped := false }

/-- Close the current segment with an ordinary trailer, carrying the live dropped count and shift number. -/
def closeSegment (s : State) : State := s.modifyStream fun st => st.close s.tally.live.dropped s.tally.live.shift false

/-- A stream attempt (R147): the record is written and the segment closed if it was the 255th, or, while BLOCKED, the attempt is
dropped and counted, the first drop of a spell raising STREAM-DROP (R149). -/
def streamAttempt (r : Record) (fate : Fate) (s : State) : State :=
  if s.tally.stream.blocked then
    let first := !s.tally.stream.spellDropped
    let s := s.modifyLive fun t => t.count .dropped
    if first then
      raiseEvent .streamDrop none r.tag s.tally.stream.segment.val (s.modifyStream fun st => { st with spellDropped := true })
    else s
  else
    let s := s.modifyStream fun st => { st.put st.slot (streamRecord r fate) with slot := st.slot + 1 }
    let s := s.modifyLive fun t => t.count .written
    if s.tally.stream.slot = Config.segmentRecords then closeSegment s else s

/-! ### Retirement (R37) -/

/-- Hand a record that has left its place to the tally unit with its fate: the posting, then the stream attempt. -/
def handToTally (r : Record) (fate : Fate) (s : State) : State :=
  streamAttempt r fate (s.modifyLive fun t => t.post r fate)

/-- Release a reservation: the bin's reserved count falls by 1 and its NEAR flag is judged. Bin 0 holds none. -/
def releaseReservation (bin : Nat) (s : State) : State :=
  if bin = 0 then s else judgeNear bin (s.modifyBin bin fun b => { b with reserved := b.reserved - 1 })

/-- Take a reservation in a bin. -/
def takeReservation (bin : Nat) (s : State) : State :=
  judgeNear bin (s.modifyBin bin fun b => { b with reserved := b.reserved + 1 })

/-- The bin in which a record holds a reservation, 0 for none. -/
def Record.heldBin (r : Record) : Nat := (r.sort.map (·.bin)).getD 0

/-- Retire a record of the sorter map that still holds its reservation, if it has one: the reservation is released, its entry in
that bin's pending list is removed (R138), it leaves the map and is handed to the tally. -/
def retireFromSorter (r : Record) (fate : Fate) (s : State) : State :=
  let s := releaseReservation r.heldBin s
  let s := s.modifyBin r.heldBin fun b => { b with pending := b.pending.filter fun e => !decide (e.tag = r.tag) }
  handToTally r fate (s.leaveSorter r.tag)

/-- Retire a record of the trimmer map, which holds no reservation. -/
def retireFromTrimmer (r : Record) (fate : Fate) (s : State) : State := handToTally r fate (s.leaveTrimmer r.tag)

end Sys2Proof.Machine
end

