-- ==== Sys2Proof/Machine/Decide.lean ====
section
/-! DEFINITION. The trim decision (06_the_trim_decision.md): one procedure for the decision at D, the redecide and the preview
(R87), and the writing of a decision with its counts (R107, R108). -/

namespace Sys2Proof.Machine

/-! ### What the record carries -/

/-- The force field of a record, if its force carries it. -/
def Record.forceField {α : Type} (r : Record) (f : Force → Option α) : Option α := r.force.bind f

def Record.markGrade (r : Record) : Option Nat := (r.marks.bind (·.grade)).map (·.value)
def Record.markCutback (r : Record) : Option Nat := (r.marks.bind (·.cutback)).map (·.value)
def Record.markDisposition (r : Record) : Option Disposition := (r.marks.bind (·.disposition)).map (·.value)
def Record.markNoFence (r : Record) : Bool := (r.marks.bind (·.noFence)).isSome

/-- The replacement grade: the force grade, else the mark grade (R90, R96). -/
def Record.setGrade (r : Record) : Option Nat := (r.forceField (·.grade)).or r.markGrade

/-- The effective no-fence: a force fence settles it, else the mark set (R97). -/
def Record.noFence (r : Record) : Bool :=
  match r.forceField (·.fence) with
  | some on => !on
  | none => r.markNoFence

/-- Disposition of a TRIM decision: the force's, else the mark set's, else NORMAL (R106). -/
def Record.trimDisposition (r : Record) : Disposition :=
  ((r.forceField (·.disposition)).or r.markDisposition).getD .normal

/-! ### Feasibility, and the two shapes of a decision -/

/-- The feasibility test of R98 at a position and nominal length: the board reaches past the saw by A, and the piece left is at
least nominal. -/
def feasible (settings : Settings) (place : SawPlace) (fence : Bool) (ls : Nat) : Bool :=
  place.position + settings.allowance ≤ ls &&
    (if fence then place.nominal + settings.fence ≤ place.position else place.nominal ≤ place.position)

/-- Saw k passes R98 with a fence flag. A saw with no position does not. -/
def State.feasibleAt (s : State) (k : Nat) (fence : Bool) (ls : Nat) : Bool :=
  match s.sawPlace k with
  | some place => feasible s.tables.settings place fence ls
  | none => false

/-- A decision that cuts no class: no far saw, class or index, the fence clear, V and G 0 (R107). -/
def uncut (kind : Kind) (grade : Option Nat) (disposition : Disposition) (source : Source) (reason : Reason) : Decision :=
  { kind, saw := none, fence := false, grade, cls := none, volume := 0, value := 0, disposition, source, reason, index := none }

/-- A TRIM decision at saw k, valued by R99 and R100, with its disposition by R106. -/
def State.trimAt (s : State) (r : Record) (scan : ScanSummary) (k : Nat) (fence : Bool) (grade : Nat) (source : Source)
    (reason : Reason) (index : Option Nat) : Decision :=
  let v := s.volume scan k
  { kind := .trim, saw := some k, fence, grade := some grade, cls := some k, volume := v, value := s.value v grade k,
    disposition := r.trimDisposition, source, reason, index }

/-! ### Force (R90, R91) -/

/-- The fence of a forced trim (R91). -/
def State.forcedFence (s : State) (r : Record) : Bool :=
  ((r.forceField (·.fence)).getD (!r.markNoFence)) && (s.saw 0).enabled

/-- The grade of a forced trim at saw k (R91). -/
def State.forcedGrade (s : State) (r : Record) (k : Nat) : Nat :=
  let posted := ((r.solution.map (·.candidates)).getD []).find? fun c => c.saw = k && s.gradeEnabled c.grade
  (r.setGrade.or (posted.map (·.grade))).getD s.tables.grade.default

/-- The decision a force kind settles (R90, R91). A FORCE-SHORT decision keeps the grade of its forced trim, as R91 says, which R107's table
does not list for NO-TRIM (DESIGN CHOICE, log 23). -/
def State.decideForced (s : State) (r : Record) (kind : ForceKind) : Decision :=
  match kind, r.scan with
  | .trash, _ => uncut .trash r.setGrade .reject .force .forced
  | .noTrim, none | .trim _, none => uncut .noTrim r.setGrade .reject .force .noScan
  | .noTrim, some _ => uncut .noTrim r.setGrade ((r.forceField (·.disposition)).getD .reject) .force .forced
  | .trim k, some scan =>
    let fence := s.forcedFence r
    let grade := s.forcedGrade r k
    if s.usable k && s.feasibleAt k fence scan.length then s.trimAt r scan k fence grade .force .forced none
    else uncut .noTrim (some grade) .reject .force .forceShort

/-! ### The candidate set (R94 to R98) -/

/-- A member of the candidate set; the synthesized candidate has no index. -/
structure Member where
  saw : Nat
  fence : Bool
  grade : Nat
  index : Option Nat
  deriving DecidableEq, Repr

/-- The posted list with its indexes from 1. -/
def Record.members (r : Record) : List Member :=
  ((r.solution.map (·.candidates)).getD []).zipIdx.map fun (c, i) =>
    { saw := c.saw, fence := c.fence, grade := c.grade, index := some (i + 1) }

/-- R94: under FIXED k the candidates at k, or a synthesized one where none names k. -/
def startSet (policy : SawPolicy) (gd : Nat) (posted : List Member) : List Member :=
  match policy with
  | .fixed k =>
    let atK := posted.filter fun m => decide (m.saw = k)
    if atK = [] then [{ saw := k, fence := true, grade := gd, index := none }] else atK
  | .auto | .trashAll | .bypass => posted

/-- A far saw above the mark cutback. -/
def aboveCutback (cutback : Option Nat) (k : Nat) : Bool :=
  match cutback with
  | some c => decide (c < k)
  | none => false

/-- R95: drop what lies above the cutback or names a saw that is not usable. -/
def State.sawFilter (s : State) (r : Record) (set : List Member) : List Member :=
  set.filter fun m => !aboveCutback r.markCutback m.saw && s.usable m.saw

/-- R96: the replacement grade, then drop the grades that are not enabled. -/
def State.gradeFilter (s : State) (r : Record) (set : List Member) : List Member :=
  (set.map fun m => { m with grade := r.setGrade.getD m.grade }).filter fun m => s.gradeEnabled m.grade

/-- R97: clear the fence under the effective no-fence, or with S0 disabled. -/
def State.fenceFilter (s : State) (r : Record) (set : List Member) : List Member :=
  set.map fun m => { m with fence := m.fence && !r.noFence && (s.saw 0).enabled }

/-- R98: drop the infeasible. -/
def State.feasibleFilter (s : State) (scan : ScanSummary) (set : List Member) : List Member :=
  set.filter fun m => s.feasibleAt m.saw m.fence scan.length

/-- Whether the mark set acted on the set (R103): its cutback dropped a candidate, its grade replaced a different one, or its
no-fence cleared a fence flag, none of them set aside by the force. `start` is the set after R94, `afterSaws` after R95 and
`afterGrades` after R96. A force fence of either value sets the mark's no-fence aside here, of OFF too, which then clears the flags itself:
R97 says so of ON alone (DESIGN CHOICE, log 27). -/
def marksActed (r : Record) (start afterSaws afterGrades : List Member) : Bool :=
  (start.any fun m => aboveCutback r.markCutback m.saw) ||
  (match r.forceField (·.grade), r.markGrade with
    | none, some g => afterSaws.any fun m => m.grade != g
    | _, _ => false) ||
  ((r.forceField (·.fence)).isNone && r.markNoFence && afterGrades.any fun m => m.fence)

/-! ### Selection (R99 to R103) -/

/-- A candidate's value (R99, R100). -/
def State.memberValue (s : State) (scan : ScanSummary) (m : Member) : Nat := s.value (s.volume scan m.saw) m.grade m.saw

/-- The first of a list by R102: highest value, then highest far saw, then first posted. -/
def State.best (s : State) (scan : ScanSummary) : List Member → Option Member
  | [] => none
  | m :: rest =>
    match s.best scan rest with
    | none => some m
    | some b =>
      let gm := s.memberValue scan m
      let gb := s.memberValue scan b
      if gm < gb ∨ (gm = gb ∧ m.saw < b.saw) then some b else some m

/-- Source of a chosen TRIM (R103). -/
def chosenSource (acted : Bool) (m : Member) : Source :=
  if acted then .mark else if m.index.isSome then .optimizer else .mode

/-! ### Fallback (R104, R105) -/

/-- The saws the fallback looks at, longest first. -/
def fallbackSaws : List Nat := [12, 11, 10, 9, 8, 7, 6, 5, 4, 3, 2, 1]

/-- The fallback of R104, or SHORT where no saw is feasible (R105). -/
def State.decideFallback (s : State) (r : Record) (scan : ScanSummary) : Decision :=
  let fence := !r.noFence && (s.saw 0).enabled
  let grade := r.setGrade.getD s.tables.grade.default
  let fits k := s.usable k && !aboveCutback r.markCutback k && s.feasibleAt k fence scan.length
  match fallbackSaws.find? fits with
  | some k =>
    s.trimAt r scan k fence grade .byDefault (if r.solution.isSome then .noneFeasible else .noSolution) none
  | none => uncut .trash r.setGrade .reject .byDefault .short

/-- The valuation of a record that no override settles (R94 to R105). -/
def State.decideValued (s : State) (r : Record) (scan : ScanSummary) : Decision :=
  let policy := s.decision.mode.saws
  let start := startSet policy s.tables.grade.default r.members
  let afterSaws := s.sawFilter r start
  let afterGrades := s.gradeFilter r afterSaws
  match s.best scan (s.feasibleFilter scan (s.fenceFilter r afterGrades)) with
  | some m =>
    s.trimAt r scan m.saw m.fence m.grade (chosenSource (marksActed r start afterSaws afterGrades) m) .chosen m.index
  | none =>
    match policy with
    | .fixed _ => uncut .noTrim r.setGrade .reject .mode .fixedShort
    | .auto | .trashAll | .bypass => s.decideFallback r scan

/-! ### The order of precedence (R89 to R93) -/

/-- A DOUBLE record, a record with no scan, or the valuation (R93). -/
def State.decideUnforced (s : State) (r : Record) : Decision :=
  if r.flags.double then uncut .noTrim r.setGrade .reject .byDefault .double
  else
    match r.scan with
    | none => uncut .noTrim r.setGrade .reject .byDefault .noScan
    | some scan => s.decideValued r scan

/-- Disposition of a BYPASS decision (R92). BYPASS with BY-PRODUCT cannot be in force (R76). -/
def bypassDisposition : SortPolicy → Disposition
  | .allRunout => .normal
  | .allReject | .byProduct => .reject

/-- The decision procedure (R87): the first step of the order of precedence that applies. -/
def State.decideBoard (s : State) (r : Record) : Decision :=
  if r.flags.suspect then uncut .noTrim r.setGrade .reject .byDefault .suspect
  else
    match r.forceField (·.kind) with
    | some kind => s.decideForced r kind
    | none =>
      match s.decision.mode.saws with
      | .trashAll => uncut .trash r.setGrade .reject .mode .trashAll
      | .bypass => uncut .noTrim r.setGrade (bypassDisposition s.decision.mode.sort) .mode .bypass
      | .auto | .fixed _ => s.decideUnforced r

/-! ### Writing a decision (R107, R108) -/

/-- The counts and the last decision that follow a written decision; `redecide` tells a redecide from a decision at D (R108). -/
def DecisionUnit.written (u : DecisionUnit) (tag : Nat) (d : Decision) (redecide : Bool) : DecisionUnit :=
  { u with
    atLine := if redecide then u.atLine else inc32 u.atLine
    redecides := if redecide then inc32 u.redecides else u.redecides
    reasons := modifyAt u.reasons (d.reason.code - 1) inc32
    last := some { tag, kind := d.kind, source := d.source, reason := d.reason } }

/-- Decide a record of the trimmer map at D: write the decision, move it to DECIDED and count (R107, R108). -/
def decideAtLine (r : Record) (s : State) : State :=
  let d := s.decideBoard r
  let s1 := s.modifyTrimmer r.tag fun x => { x with decision := some d, life := .decided }
  { s1 with decision := s1.decision.written r.tag d false }

/-- Redecide a DECIDED record as it now stands (R82). -/
def redecide (r : Record) (s : State) : State :=
  let d := s.decideBoard r
  let s1 := s.modifyTrimmer r.tag fun x => { x with decision := some d, flags := { x.flags with redecided := true } }
  { s1 with decision := s1.decision.written r.tag d true }

end Sys2Proof.Machine
end

