-- ==== Sys2Proof/Machine/Saws.lean ====
section
/-! DEFINITION. The trimmer saws (07_trimmer_saws.md): windows, confirms and misses, patterns, the cut sample, and the commands
SAW_FEEDBACK_CHANGE and SAW_WINDOW_EXPIRY. -/

namespace Sys2Proof.Machine

/-! ### Confirms and misses (R114 to R116) -/

/-- A confirm ends the window and zeroes the consecutive misses (R114). -/
def SawRec.confirmed (r : SawRec) : SawRec := { r with stage := .idle, timer := 0, misses := 0 }

/-- The pattern owner's record gets SAW-MISS; owner 0 is no record (R116). -/
def markSawMiss (s : State) : State :=
  if s.saws.owner = 0 then s
  else s.modifyTrimmer s.saws.owner fun r => { r with flags := { r.flags with sawMiss := true } }

/-- A miss ends the window and is charged to the saw and the pattern owner; at the miss limit an enabled saw is disabled (R116). -/
def missSaw (saw : Nat) (s : State) : State :=
  let old := s.saw saw
  let misses := incTo Config.missHold old.misses
  let s := s.modifySaw saw fun r => { r with stage := .idle, timer := 0, misses, totalMisses := inc32 r.totalMisses }
  let s := markSawMiss (raiseEvent .sawMiss none saw old.commanded.toNat s)
  if old.enabled ∧ s.tables.settings.missLimit ≤ misses then
    latch .sawFault (raiseEvent .sawDisabled none saw misses (s.modifySaw saw fun r => { r with enabled := false }))
  else s

/-- A saw's window timer reaches W (R115): a RETRY saw's first window is followed by a second, any other window is a miss. An idle
window has nothing to end. -/
def expireWindow (saw : Nat) (s : State) : State :=
  match (s.saw saw).stage with
  | .idle => s
  | .second => missSaw saw s
  | .first =>
    match s.sawMode saw with
    | .retry => s.modifySaw saw fun r => { r with stage := .second, timer := 0, retries := inc32 r.retries }
    | .confirm | .none => missSaw saw s

/-- A feedback input is taken at a value (R114): a new value is recorded, and confirms a running window when it equals the
commanded state. A saw that has come UP is no longer left DOWN by a restart (log 25). -/
def takeFeedback (saw : Nat) (down : Bool) (s : State) : State :=
  let r := s.saw saw
  if r.feedback = down then s
  else
    let s := s.modifySaw saw fun r => { r with feedback := down, leftDown := r.leftDown && down }
    if r.stage ≠ .idle ∧ down = r.commanded then s.modifySaw saw SawRec.confirmed else s

/-- A trimmer advance ends every running window: a confirm where the feedback agrees, else a miss (R117). -/
def endWindow (saw : Nat) (s : State) : State :=
  let r := s.saw saw
  if r.stage = .idle then s
  else if r.feedback = r.commanded then s.modifySaw saw SawRec.confirmed
  else missSaw saw s

/-- End the windows of S0 to S12, in that order, which the order of their SAW-MISS and SAW-DISABLED shows (DESIGN CHOICE, log 22). -/
def endWindows (s : State) : State := allSaws.foldl (fun s saw => endWindow saw s) s

/-! ### Patterns (R111 to R113) -/

/-- A length saw reaches a board: it has a position below Ls, or the board has no scan summary (R112, R119). -/
def reaches (place : Option SawPlace) (scan : Option ScanSummary) : Bool :=
  match place, scan with
  | none, _ => false
  | some _, none => true
  | some p, some c => decide (p.position < c.length)

/-- Whether a record's pattern commands a saw DOWN (R111, R112). -/
def State.patternDown (s : State) (r : Record) (saw : Nat) : Bool :=
  !r.flags.suspect && s.usable saw &&
  match r.decision with
  | none => false
  | some d =>
    match d.kind with
    | .noTrim => false
    | .trash => decide (saw = 0) || reaches (s.sawPlace saw) r.scan
    | .trim =>
      if saw = 0 then d.fence
      else decide (d.saw.getD 0 ≤ saw) && reaches (s.sawPlace saw) r.scan

/-- The pattern of the lug at S: its record's, or all UP for an empty lug (R113). -/
def State.patternFor (s : State) (r : Option Record) : Vector Bool 13 :=
  Vector.ofFn fun i => match r with
    | some r => s.patternDown r i.val
    | none => false

/-- Drive one saw to a commanded state (R113, R114). A changed CONFIRM or RETRY saw starts its first window, or confirms at once
when the feedback already agrees; a changed saw of mode NONE starts none. A saw that a restart left DOWN, though commanded UP already, is
set by the next pattern as a changed saw is, so a command UP starts its window in the ordinary way (R123). -/
def SawRec.drive (mode : ConfirmMode) (down : Bool) (r : SawRec) : SawRec :=
  if r.commanded = down ∧ (down || !r.leftDown) then r
  else
    let r := { r with commanded := down, leftDown := false }
    match mode with
    | .none => { r with stage := .idle, timer := 0 }
    | .confirm | .retry => if r.feedback = down then r.confirmed else { r with stage := .first, timer := 0 }

/-- Apply a pattern to the outputs as one event (R113). -/
def applyPattern (pattern : Vector Bool 13) (s : State) : State :=
  { s with saws := { s.saws with recs := Vector.ofFn fun i => (s.saws.recs[i]).drive s.tables.saw.modes[i] pattern[i] } }

/-- Set the saws for the lug now at S, when the TCU lug serial is `now` (R113). -/
def setLine (now : Serial) (s : State) : State :=
  let found := s.trimmerAt now s.tables.station.sawSet
  let s1 := applyPattern (s.patternFor found) s
  match found with
  | some r =>
    let s2 := s1.modifyTrimmer r.tag fun x => { x with life := .set }
    { s2 with saws := { s2.saws with owner := r.tag } }
  | none => { s1 with saws := { s1.saws with owner := 0 } }

/-! ### The cut line (R118 to R121) -/

/-- The 13 feedback values. -/
def State.snapshot (s : State) : Vector Bool 13 := mapVec (·.feedback) s.saws.recs

/-- The 13 commanded states. -/
def State.commandedPattern (s : State) : Vector Bool 13 := mapVec (·.commanded) s.saws.recs

/-- The length saws in order from S1. -/
def lengthSaws : List Nat := [1, 2, 3, 4, 5, 6, 7, 8, 9, 10, 11, 12]

/-- The saw that cuts the piece's end: the first length saw DOWN that has a position and reaches the board (R119). -/
def State.endSaw (s : State) (snapshot : Vector Bool 13) (scan : Option ScanSummary) : Option Nat :=
  lengthSaws.find? fun j => entryD snapshot j false && reaches (s.sawPlace j) scan

/-- The as-cut result of a snapshot (R119). -/
def State.asCut (s : State) (snapshot : Vector Bool 13) (scan : Option ScanSummary) : AsCut :=
  let from_ := if entryD snapshot 0 false then s.tables.settings.fence else 0
  match s.endSaw snapshot scan with
  | none => .untrimmed
  | some j =>
    match s.sawPlace j with
    | none => .untrimmed
    | some place => if place.nominal + from_ ≤ place.position then .cls j else .short

/-- The volume and value of a recompute at class j and a grade; 0 for a record with no scan summary (R120). -/
def State.recompute (s : State) (scan : Option ScanSummary) (grade : Option Nat) (j : Nat) : Nat × Nat :=
  match scan with
  | none => (0, 0)
  | some scan =>
    let v := s.volume scan j
    (v, match grade with
      | some g => s.value v g j
      | none => 0)

/-- MISCUT and the saw outcome of a decision, a pattern and a snapshot (R120, R121). -/
def State.cutOutcome (s : State) (r : Record) (d : Decision) : Bool × SawOutcome :=
  let snapshot := s.snapshot
  let result := s.asCut snapshot r.scan
  let out (grade : Option Nat) (disposition : Disposition) (vg : Nat × Nat) : SawOutcome :=
    { pattern := s.commandedPattern, snapshot, result, grade, disposition, volume := vg.1, value := vg.2 }
  match d.kind, result with
  | .trim, .cls j =>
    if d.cls = some j then (false, out d.grade d.disposition (d.volume, d.value))
    else (true, out d.grade d.disposition (s.recompute r.scan d.grade j))
  | .trim, _ => (false, out d.grade .reject (0, 0))
  | .noTrim, .cls j =>
    let grade := some (d.grade.getD s.tables.grade.default)
    (true, out grade d.disposition (s.recompute r.scan grade j))
  | .noTrim, _ => (false, out d.grade d.disposition (0, 0))
  | .trash, _ => (false, out d.grade .reject (0, 0))

/-- The cut sample of the record at K, and the retirement of a TRASH record (R118 steps 2 and 3, R28). -/
def cutLine (now : Serial) (s : State) : State :=
  match s.trimmerAt now (s.tables.station.sawSet + 1) with
  | none => s
  | some r =>
    match r.decision with
    | none => s
    | some d =>
      let (miscut, outcome) := s.cutOutcome r d
      let cut : Record := { r with life := .cut, outcome := some outcome, flags := { r.flags with miscut := r.flags.miscut || miscut } }
      if d.kind = .trash then retireFromTrimmer cut .trashed s else s.modifyTrimmer r.tag fun _ => cut

/-! ### Commands -/

/-- SAW_FEEDBACK_CHANGE (R114). The level outside follows the event; it is taken only while inputs are taken (R17). -/
def execSawFeedbackChange (saw : Nat) (down : Bool) (s : State) : Result State :=
  if sawExists saw then
    let s1 := { s with pins := { s.pins with feedback := modifyAt s.pins.feedback saw fun _ => down } }
    whenAwake s1 (takeFeedback saw down)
  else .fault .noSuchLine

/-- SAW_WINDOW_EXPIRY (R115). -/
def execSawWindowExpiry (saw : Nat) (s : State) : Result State :=
  if sawExists saw then whenAwake s (expireWindow saw) else .fault .noSuchLine

end Sys2Proof.Machine
end

