-- ==== Sys2Proof/Machine/Marks.lean ====
section
/-! DEFINITION. Grader keypads and mark stacks (04_grader_keypads_and_mark_stacks.md): replies, stacks, targets, commits, what the
mark unit does on a trimmer advance, and the six keypad commands. -/

namespace Sys2Proof.Machine

/-! ### Replies and counts (R61, R73) -/

/-- Offer a reply code to a position's reply queue (R61). -/
def Grading.reply (code : Reply) (g : Grading) : Grading :=
  if g.replies.length < Config.replySlots then { g with replies := g.replies ++ [code] }
  else { g with counts := { g.counts with repliesLost := inc32 g.counts.repliesLost } }

/-- Refuse a key: REFUSE is sent and the refusal count rises (R60, R63, R65, R69). -/
def Grading.refuse (g : Grading) : Grading :=
  let g := g.reply .refuse
  { g with counts := { g.counts with refusals := inc32 g.counts.refusals } }

/-- Count a key taken (R73). -/
def Grading.keyTaken (g : Grading) : Grading := { g with counts := { g.counts with keys := inc32 g.counts.keys } }

/-- A bad byte is discarded and counted (R60). -/
def Grading.badByte (g : Grading) : Grading := { g with counts := { g.counts with badBytes := inc32 g.counts.badBytes } }

/-! ### The stack (R62 to R66) -/

/-- Slots not EMPTY (R62). -/
def Grading.depth (g : Grading) : Nat := (g.slots.toList.filter fun x => x != Slot.empty).length

/-- Every slot EMPTY, TOP kept (R66, R68, R69). -/
def Grading.cleared (g : Grading) : Grading := { g with slots := Vector.replicate 6 .empty }

/-- Whether a pushed key is VALID (R64). -/
def State.keyValid (s : State) : MarkKey → Bool
  | .grade g => s.gradeEnabled g
  | .cutback c => s.usable c
  | .reject | .reman | .noFence => true

/-- Push a mark key (R63, R64). -/
def Grading.push (key : MarkKey) (valid : Bool) (g : Grading) : Grading :=
  let slot := g.top - 1
  if g.slots[slot] ≠ .empty then g.refuse
  else
    let g := { g with slots := g.slots.set slot (if valid then .valid key else .void key), top := slot }
    let g := g.keyTaken
    if valid then g else { g with counts := { g.counts with voids := inc32 g.counts.voids } }

/-- UNDO (R65). -/
def Grading.undo (g : Grading) : Grading :=
  if g.depth = 0 then g.refuse
  else Grading.keyTaken { g with slots := g.slots.set g.top .empty, top := g.top + 1 }

/-- The keys of the stack from TOP on, newest first, VOID slots included (R62). -/
def Grading.stack (g : Grading) : List Slot := ((List.range 6).map fun (i : Nat) => g.slots[g.top + Fin.ofNat 6 i]).filter fun x => x != Slot.empty

/-! ### Targets (R67, R68) -/

/-- The window of a position, low line and high line (R59). -/
def State.gradingWindow (s : State) : Position → Nat × Nat
  | .a => (s.tables.station.aLo, s.tables.station.aHi)
  | .b => (s.tables.station.bLo, s.tables.station.bHi)

/-- A record carries a commit of a position (R67). -/
def Record.committedBy (r : Record) (p : Position) : Bool :=
  match r.marks, p with
  | none, _ => false
  | some m, .a => m.byA
  | some m, .b => m.byB

/-- A record may be a position's target: it is in the window and carries no commit of the position (R67). -/
def State.targetable (s : State) (now : Serial) (p : Position) (r : Record) : Bool :=
  let off := r.trimmerOffset now
  decide ((s.gradingWindow p).1 ≤ off) && decide (off ≤ (s.gradingWindow p).2) && !r.committedBy p

/-- The record of a list with the highest trimmer offset. -/
def highest (now : Serial) : List Record → Option Record
  | [] => none
  | r :: rest =>
    match highest now rest with
    | none => some r
    | some h => if r.trimmerOffset now < h.trimmerOffset now then some h else some r

/-- The tag of a position's target when the TCU lug serial is `now` (R67). -/
def State.chooseTarget (s : State) (now : Serial) (p : Position) : Option Nat :=
  (highest now (s.board.trimmer.filter fun r => s.targetable now p r)).map (·.tag)

/-- Set a chosen target, sending TARGET-ON or TARGET-OFF when it changes (R67). -/
def Grading.retarget (new : Option Nat) (g : Grading) : Grading :=
  if new = g.target then g
  else
    let g := { g with target := new }
    match new with
    | some _ => g.reply .targetOn
    | none => g.reply .targetOff

/-- Choose a position's target afresh. -/
def retarget (now : Serial) (p : Position) (s : State) : State :=
  s.setGrading p ((s.grading p).retarget (s.chooseTarget now p))

/-- The advance has carried the position's target to the offset after its high line (R68). -/
def State.targetLeft (s : State) (now : Serial) (p : Position) : Bool :=
  match (s.grading p).target.bind fun t => byTag s.board.trimmer t with
  | some r => decide (r.trimmerOffset now = (s.gradingWindow p).2 + 1)
  | none => false

/-- Keys stacked for a target that has left are lost with MISSED (R68). -/
def Grading.missTarget (g : Grading) : Grading :=
  if g.depth = 0 then g
  else
    let g := g.cleared.reply .missed
    { g with counts := { g.counts with missed := inc32 g.counts.missed } }

/-- What the mark unit does for one position on a trimmer advance to serial `now` (R68). -/
def markAdvance (now : Serial) (p : Position) (s : State) : State :=
  let s1 := if s.targetLeft now p then s.setGrading p (s.grading p).missTarget else s
  retarget now p s1

/-! ### Commit (R69 to R71) -/

/-- The mark set of a record that has none yet. -/
def MarkSet.blank : MarkSet :=
  { grade := none, cutback := none, disposition := none, noFence := none, byA := false, byB := false }

/-- Write one VALID key's kind into a mark set, for a position (R69, R71). -/
def MarkSet.write (p : Position) (m : MarkSet) : Slot → MarkSet
  | .valid (.grade g) => { m with grade := some { value := g, setBy := p } }
  | .valid (.cutback c) => { m with cutback := some { value := c, setBy := p } }
  | .valid .reject => { m with disposition := some { value := .reject, setBy := p } }
  | .valid .reman => { m with disposition := some { value := .reman, setBy := p } }
  | .valid .noFence => { m with noFence := some p }
  | .void _ | .empty => m

/-- A mark set after a position's commit: the keys from the oldest to the newest, then the commit flag. Writing key by key leaves the
collapsed value of each kind, since a later key of a kind replaces an earlier one (R69, R71). -/
def MarkSet.commit (p : Position) (newestFirst : List Slot) (m : MarkSet) : MarkSet :=
  let m := newestFirst.reverse.foldl (MarkSet.write p) m
  match p with
  | .a => { m with byA := true }
  | .b => { m with byB := true }

/-- Commit a position's stack, or a pass, to its target (R69, R70). -/
def commit (p : Position) (target : Nat) (s : State) : State :=
  let g := s.grading p
  let s := s.modifyTrimmer target fun r => { r with marks := some ((r.marks.getD .blank).commit p g.stack) }
  let g := (g.cleared.reply .accept).keyTaken
  let g := if (s.grading p).depth = 0 then { g with counts := { g.counts with passes := inc32 g.counts.passes } }
    else { g with counts := { g.counts with commits := inc32 g.counts.commits } }
  retarget s.tcu.serial p (s.setGrading p g)

/-! ### Commands -/

/-- A key event of a position: handled in RUN, refused in CONFIG (R60). -/
def keyEvent (p : Position) (act : State → State) (s : State) : State :=
  match s.board.line with
  | .run => act s
  | .config => s.setGrading p (s.grading p).refuse

/-- KEY_MARK_PUSH (R63, R64). A key number outside the keypad's is a byte that is no key code, so a bad byte (R60). -/
def execKeyMarkPush (p : Position) (key : MarkKey) (s : State) : Result State :=
  whenAwake s fun s =>
    if key.isKey then keyEvent p (fun s => s.setGrading p ((s.grading p).push key (s.keyValid key))) s
    else s.setGrading p (s.grading p).badByte

/-- KEY_UNDO (R65). -/
def execKeyUndo (p : Position) (s : State) : Result State :=
  whenAwake s (keyEvent p fun s => s.setGrading p (s.grading p).undo)

/-- KEY_CLR (R66). -/
def execKeyClr (p : Position) (s : State) : Result State :=
  whenAwake s (keyEvent p fun s => s.setGrading p (s.grading p).cleared.keyTaken)

/-- KEY_ENT (R69, R70). -/
def execKeyEnt (p : Position) (s : State) : Result State :=
  whenAwake s (keyEvent p fun s =>
    match (s.grading p).target with
    | none => s.setGrading p (s.grading p).refuse
    | some t => commit p t s)

/-- KEYPAD_BAD_BYTE (R60). -/
def execKeypadBadByte (p : Position) (s : State) : Result State :=
  whenAwake s fun s => s.setGrading p (s.grading p).badByte

/-- KEYPAD_REPLY_SENT (R61): the code at the head of the reply queue has been sent. -/
def execKeypadReplySent (p : Position) (s : State) : Result State :=
  whenAwake s fun s => s.setGrading p { s.grading p with replies := (s.grading p).replies.tail }

end Sys2Proof.Machine
end

