-- ==== Sys2Proof/Machine/Bins.lean ====
section
/-! DEFINITION. Sorter bins (08_sorter_bins.md): product keys and routes, allocation, the drop line, drops and misses, re-routing,
and the commands of the gate, confirm and full-switch lines. -/

namespace Sys2Proof.Machine

/-! ### Product key and route (R131, R133) -/

/-- The class of an as-cut result, absent for SHORT and UNTRIMMED. -/
def AsCut.cls? : AsCut → Option Nat
  | .cls j => some j
  | .short | .untrimmed => none

/-- The product key built at pickup (R131). A SCANNED record that reaches the sorter has a saw outcome. -/
def productKey (r : Record) : ProductKey :=
  match r.origin, r.outcome with
  | .scanned, some o =>
    { grade := o.grade, cls := o.result.cls?, width := r.scan.map (·.width), disposition := o.disposition }
  | .scanned, none | .unknown, _ => { grade := none, cls := none, width := none, disposition := .reject }

/-- A rule matches a key (R131). -/
def SortRule.fits (rule : SortRule) (key : ProductKey) : Bool :=
  match key.grade, key.cls, key.width with
  | some g, some c, some w =>
    1 ≤ g && rule.grades.getLsbD (g - 1) && rule.lo ≤ c && c ≤ rule.hi && 1 ≤ w && rule.widths.getLsbD (w - 1)
  | _, _, _ => false

/-- The kind of a key's route under the sort policy in force (R133). -/
def State.routeKind (s : State) (key : ProductKey) : RouteKind :=
  match s.decision.mode.sort, key.disposition with
  | .allRunout, _ => .nowhere
  | .allReject, _ => .reject
  | .byProduct, .reject => .reject
  | .byProduct, .reman => .reman
  | .byProduct, .normal =>
    match s.tables.rules.find? fun rule => rule.fits key with
    | some rule => .group rule.group
    | none => .reject

/-- A bin group's list, empty where the group is not defined. -/
def State.groupBins (s : State) (n : Nat) : List Nat :=
  if n = 0 then [] else (entryD s.tables.groups.groups (n - 1) none).getD []

/-- A special bin as a route, empty for bin 0 (R133). -/
def specialRoute (bin : Nat) : List Nat := if bin = 0 then [] else [bin]

/-- The bins of a route, in order (R133). -/
def State.routeBins (s : State) : RouteKind → List Nat
  | .group n =>
    let list := s.groupBins n
    if s.tables.groups.overflow = 0 ∨ s.tables.groups.overflow ∈ list then list else list ++ [s.tables.groups.overflow]
  | .reject => specialRoute s.tables.groups.reject
  | .reman => specialRoute s.tables.groups.reman
  | .nowhere => []

/-- A bin can be promised one more board: fitted, OPEN and of load below capacity (R133, R139). -/
def State.takes (s : State) (bin : Nat) : Bool :=
  match (s.bin bin).items with
  | none => false
  | some it => decide ((s.bin bin).state = .opened) && decide ((s.bin bin).load < it.capacity)

/-- The drop offset of a fitted bin. -/
def State.dropOffset (s : State) (bin : Nat) : Option Nat := (s.bin bin).items.map (·.drop)

/-- Which allocation count an allocation raises (R133). Where the overflow bin stands in the group's own list, both of R133's sentences fit
its allocation: the group-bin count alone rises (DESIGN CHOICE, log 28). -/
def countAllocation (s : State) (kind : RouteKind) (bin : Nat) (c : SortCounts) : SortCounts :=
  if bin = 0 then { c with runout := inc32 c.runout }
  else
    match kind with
    | .group n =>
      if bin ∈ s.groupBins n then { c with group := inc32 c.group } else { c with overflow := inc32 c.overflow }
    | .reject => { c with reject := inc32 c.reject }
    | .reman => { c with reman := inc32 c.reman }
    | .nowhere => { c with runout := inc32 c.runout }

/-- Build the key and route of a record just placed on the sorter map and allocate its bin (R131, R133). A SUSPECT record is
allocated bin 0. -/
def allocate (r : Record) (s : State) : State :=
  let key := productKey r
  let kind := s.routeKind key
  let bin := if r.flags.suspect then 0 else ((s.routeBins kind).find? fun b => s.takes b).getD 0
  let part : SortPart :=
    { key, route := kind, bin, firstBin := bin, result := if r.flags.suspect then .passed else .none, attempts := 0 }
  let s1 := s.modifySorter r.tag fun x => { x with sort := some part }
  let s2 := s1.modifySortCounts (countAllocation s kind bin)
  if bin = 0 then s2 else takeReservation bin s2

/-! ### Re-routing (R139) -/

/-- The entries of a route after a bin. -/
def afterBin (bin : Nat) : List Nat → List Nat
  | [] => []
  | b :: rest => if b = bin then rest else afterBin bin rest

/-- The bin a re-route finds for a record at a sorter offset, or 0 (R139). -/
def State.rerouteBin (s : State) (p : SortPart) (offset : Nat) : Nat :=
  let fits b := s.takes b && match s.dropOffset b with
    | some d => decide (offset < d)
    | none => false
  ((afterBin p.bin (s.routeBins p.route)).find? fits).getD 0

/-- A record's sort part changed. -/
def Record.mapSort (f : SortPart → SortPart) (r : Record) : Record := { r with sort := r.sort.map f }

/-- Move a record's place to a bin further down the chain, or release it (R139). -/
def reroute (r : Record) (offset : Nat) (s : State) : State :=
  match r.sort with
  | none => s
  | some p =>
    let new := s.rerouteBin p offset
    let s := releaseReservation p.bin s
    let s := if new = 0 then s else takeReservation new s
    let s := s.modifySorter r.tag fun x =>
      { x.mapSort (fun q => { q with bin := new }) with flags := { x.flags with rerouted := true } }
    s.modifySortCounts fun c => { c with reroutes := inc32 c.reroutes }

/-! ### Fires and drops (R135 to R137) -/

/-- The fate of a completed drop follows the route kind (R136). A record of route NONE holds no bin and drops nowhere. -/
def dropFate : RouteKind → Fate
  | .group _ => .droppedGraded
  | .reject | .nowhere => .droppedReject
  | .reman => .droppedReman

/-- Complete a drop into a bin (R136): one place moves from the reserved to the dropped count, an OPEN bin that reaches capacity
becomes FULL, and the record retires with the fate of its route. -/
def completeDrop (r : Record) (bin : Nat) (s : State) : State :=
  let s := s.modifyBin bin fun b => { b with dropped := b.dropped + 1, reserved := b.reserved - 1 }
  let b := s.bin bin
  let s := match b.items with
    | some it => if b.state = BinState.opened ∧ it.capacity ≤ b.dropped then makeFull bin s else s
    | none => s
  let r := r.mapSort fun p => { p with result := .dropped }
  handToTally r (dropFate ((r.sort.map (·.route)).getD .nowhere)) (s.leaveSorter r.tag)

/-- Fire a bin's gate for a record (R135): the gate opens, its pulse is started or restarted, and the attempt is counted. -/
def fireGate (r : Record) (bin : Nat) (s : State) : State :=
  let s := s.modifyBin bin fun b => { b with gateOpen := true, pulse := some 0 }
  let s := s.modifySorter r.tag fun x => x.mapSort fun p => { p with attempts := p.attempts + 1 }
  s.modifySortCounts fun c => { c with fires := inc32 c.fires }

/-- What the sort unit does for a record brought to the drop line of its bin (R134). -/
def dropLine (r : Record) (bin offset : Nat) (s : State) : State :=
  if r.flags.suspect then
    let s := releaseReservation bin s
    let s := s.modifySorter r.tag fun x => x.mapSort fun p => { p with bin := 0, result := .passed }
    s.modifySortCounts fun c => { c with suspectPasses := inc32 c.suspectPasses }
  else
    let b := s.bin bin
    let confirms := (b.items.map (·.confirm)).getD false
    if b.state ≠ BinState.opened then reroute r offset s
    else if confirms ∧ Config.pendingSlots ≤ b.pending.length then
      reroute r offset (s.modifySortCounts fun c => { c with pendingFull := inc32 c.pendingFull })
    else
      let s := fireGate r bin s
      if confirms then
        let s := s.modifySorter r.tag fun x => { x with life := .dropping }
        s.modifyBin bin fun b => { b with pending := b.pending ++ [{ tag := r.tag, elapsed := 0 }] }
      else
        match byTag s.board.sorter r.tag with
        | some r => completeDrop r bin s
        | none => s

/-- A bin's gate closes when its pulse timer expires (R135). -/
def closeGate (bin : Nat) (s : State) : State :=
  match (s.bin bin).pulse with
  | some _ => s.modifyBin bin fun b => { b with gateOpen := false, pulse := none }
  | none => s

/-- A gate-confirm on-edge (R136, R137): the oldest pending drop completes, or the confirm is stray. -/
def confirmEdge (bin : Nat) (s : State) : State :=
  let s := s.modifyBin bin fun b => { b with confirmInput := true }
  match (s.bin bin).pending with
  | [] => s.modifySortCounts fun c => { c with strays := inc32 c.strays }
  | e :: rest =>
    let s := s.modifyBin bin fun b => { b with pending := rest, misses := 0 }
    let s := s.modifySortCounts fun c => { c with confirms := inc32 c.confirms }
    match byTag s.board.sorter e.tag with
    | some r => completeDrop r bin s
    | none => s

/-- A bin's consecutive misses have reached the limit: a fitted bin that is not DISABLED is disabled (R138). -/
def judgeMisses (bin misses : Nat) (s : State) : State :=
  let b := s.bin bin
  if b.items.isSome ∧ b.state ≠ .disabled ∧ Config.gateMissLimit ≤ misses then
    raiseEvent .binDisabled none bin misses (s.modifyBin bin fun b => { b with state := .disabled })
  else s

/-- The oldest pending entry's confirm window expires (R138): the drop is missed and its record re-routed. -/
def expireConfirm (bin : Nat) (s : State) : State :=
  match (s.bin bin).pending with
  | [] => s
  | e :: rest =>
    let misses := incTo Config.missHold (s.bin bin).misses
    let s := s.modifyBin bin fun b => { b with pending := rest, misses }
    let s := s.modifySortCounts fun c => { c with misses := inc32 c.misses }
    let s := s.modifySorter e.tag fun r => { r with flags := { r.flags with gateMiss := true }, life := .onSorter }
    let s := raiseEvent .gateMiss none bin misses s
    let s := match byTag s.board.sorter e.tag with
      | some r => reroute r (r.sorterOffset s.scu.serial) s
      | none => s
    judgeMisses bin misses s

/-- A full-switch on-edge (R127). -/
def fullSwitchEdge (bin : Nat) (s : State) : State :=
  let b := s.bin bin
  let s := s.modifyBin bin fun b => { b with fullSwitch := true }
  let s := raiseEvent .binFullSwitch none bin b.state.code s
  if b.state = .opened then makeFull bin s else s

/-! ### Commands -/

/-- GATE_PULSE_EXPIRY (R135). -/
def execGatePulseExpiry (bin : Nat) (s : State) : Result State :=
  if binExists bin then whenAwake s (closeGate bin) else .fault .noSuchLine

/-- GATE_CONFIRM_ON_EDGE (R137). An off-edge is ignored but for the input's level, which READ-BINS shows. -/
def execGateConfirmOnEdge (bin : Nat) (edge : Edge) (s : State) : Result State :=
  if binExists bin then
    takeEdge (.confirm bin) edge (confirmEdge bin) (fun s => s.modifyBin bin fun b => { b with confirmInput := false }) s
  else .fault .noSuchLine

/-- CONFIRM_WINDOW_EXPIRY (R138). -/
def execConfirmWindowExpiry (bin : Nat) (s : State) : Result State :=
  if binExists bin then whenAwake s (expireConfirm bin) else .fault .noSuchLine

/-- BIN_FULL_SWITCH_ON_EDGE (R127). An off-edge is ignored but for the switch's level, which BIN-EMPTIED and READ-BINS read. -/
def execBinFullSwitchOnEdge (bin : Nat) (edge : Edge) (s : State) : Result State :=
  if binExists bin then
    takeEdge (.full bin) edge (fullSwitchEdge bin) (fun s => s.modifyBin bin fun b => { b with fullSwitch := false }) s
  else .fault .noSuchLine

end Sys2Proof.Machine
end

