-- ==== Sys2Proof/Machine/Chains.lean ====
section
/-! DEFINITION. Chains, lugs and station lines (01_chains_lugs_and_station_lines.md) with the travel of the records
(02_board_records_and_the_lug_maps.md): what an advance of each chain does, the sync states, and the six chain commands. -/

namespace Sys2Proof.Machine

/-! ### A trimmer advance (R15, R27, R118) -/

/-- The decision line: decide the SCANNED record that the advance brings to D (R107). -/
def decisionLine (now : Serial) (s : State) : State :=
  match s.trimmerAt now s.tables.station.decision with
  | some r => if r.life = .scanned then decideAtLine r s else s
  | none => s

/-- Append a record to the transfer queue; a full queue first retires its head LOST with BOARD-LOST, detail 1 (R29). -/
def appendTransfer (r : Record) (s : State) : State :=
  let s :=
    if Config.transferSlots ≤ s.board.transfer.length then
      match s.board.transfer with
      | [] => s
      | head :: rest =>
        let s := handToTally head.board .lost { s with board := { s.board with transfer := rest } }
        raiseEvent .boardLost (some .trimmer) head.board.tag 1 s
    else s
  let entry : Waiting := { board := { r with life := .inTransfer }, age := 0 }
  { s with board := { s.board with transfer := s.board.transfer ++ [entry] } }

/-- The outfeed line: the record brought to O leaves the trimmer map for the transfer queue (R29). -/
def outfeedLine (now : Serial) (s : State) : State :=
  match s.trimmerAt now s.tables.station.outfeed with
  | some r => appendTransfer r (s.leaveTrimmer r.tag)
  | none => s

/-- The lines of one trimmer advance to serial `now`, taken in RUN: the decision at D, which reads the state as the advance finds it
(R87), then the saw unit's work in the order of R118 with the outfeed after its step 3 (R28). The order of D and O among these is
the model's (DESIGN CHOICE, log 9). -/
def trimmerLines (now : Serial) (s : State) : State :=
  setLine now (outfeedLine now (cutLine now (endWindows (decisionLine now s))))

/-- One advance of the trimmer map (R4): the lines act, then the mark unit (R68). The lug serial is raised after them, so that every
event they raise carries the serial before the advance (R159). -/
def advanceTrimmer (s : State) : State :=
  let now := s.tcu.serial + 1
  let s := match s.board.line with
    | .run => trimmerLines now s
    | .config => s
  markAdvance now .b (markAdvance now .a s)

/-! ### A sorter advance (R30, R35) -/

/-- Age the transfer queue and retire every head older than H, with BOARD-LOST, detail 2 (R30). -/
def ageTransfer (s : State) : State :=
  let aged := s.board.transfer.map fun w => { w with age := w.age + 1 }
  let old := aged.takeWhile fun w => decide (s.tables.settings.ageLimit < w.age)
  let s := { s with board := { s.board with transfer := aged.dropWhile fun w => decide (s.tables.settings.ageLimit < w.age) } }
  old.foldl (fun s w => raiseEvent .boardLost (some .sorter) w.board.tag 2 (handToTally w.board .lost s)) s

/-- What a sorter advance to serial `now` does for one record, named by tag: it retires at the runout line, or the sort unit acts at
its bin's drop line (R35, R134). -/
def sorterLine (now : Serial) (tag : Nat) (s : State) : State :=
  match byTag s.board.sorter tag with
  | none => s
  | some r =>
    let off := r.sorterOffset now
    if off = s.tables.station.runout then retireFromSorter r .runout s
    else if r.life = .onSorter ∧ r.heldBin ≠ 0 ∧ s.dropOffset r.heldBin = some off then dropLine r r.heldBin off s
    else s

/-- One advance of the sorter map: the transfer queue ages, then the records act from the highest offset to the lowest (DESIGN
CHOICE, log 9). -/
def advanceSorter (s : State) : State :=
  let now := s.scu.serial + 1
  let s := ageTransfer s
  (s.board.sorter.map (·.tag)).foldl (fun s tag => sorterLine now tag s) s

/-- What one advance of a chain does to the records, before its lug serial is raised. -/
def advanceLines : Chain → State → State
  | .trimmer => advanceTrimmer
  | .sorter => advanceSorter

/-- Raise a chain's lug serial, wrapping (R4). -/
def raiseSerial (ch : Chain) (s : State) : State :=
  s.setUnit ch { s.unit ch with serial := (s.unit ch).serial + 1 }

/-! ### Sync states (R5 to R10) -/

/-- A chain's half pitch (R5). -/
def ChainParams.halfPitch (p : ChainParams) : Nat := roundDiv p.pitch 2
/-- Window low, C − E. -/
def ChainParams.windowLow (p : ChainParams) : Nat := p.pitch - p.tolerance
/-- Window high, C + E. -/
def ChainParams.windowHigh (p : ChainParams) : Nat := p.pitch + p.tolerance

/-- Change a chain's sync state: SYNC-CHANGE with the new state, SYNC, and TRACK-SYNC for the TCU. A change to the state it is in
raises nothing (R10). -/
def changeSync (ch : Chain) (new : Sync) (s : State) : State :=
  if (s.unit ch).sync = new then s
  else
    let s := raiseEvent .syncChange (some ch) 0 new.code (s.setUnit ch { s.unit ch with sync := new })
    let s := latch .sync s
    match ch with
    | .trimmer => latch .trackSync s
    | .sorter => s

/-- Mark every record of a chain's own map SUSPECT (R9). -/
def suspectMap (ch : Chain) (s : State) : State :=
  match ch with
  | .trimmer => { s with board := { s.board with trimmer := markSuspect s.board.trimmer } }
  | .sorter => { s with board := { s.board with sorter := markSuspect s.board.sorter } }

/-- A synthetic advance (R7, R9): c to E, the miss count raised, EYE-MISSED, then COAST, or at the third miss LOST with the map
marked SUSPECT before the advance moves it. -/
def syntheticAdvance (ch : Chain) (s : State) : State :=
  let miss := (s.unit ch).miss + 1
  let s := s.setUnit ch { s.unit ch with count := (s.params ch).tolerance, miss }
  let s := raiseEvent .eyeMissed (some ch) 0 miss s
  let s :=
    if 3 ≤ miss then suspectMap ch (changeSync ch .lost (s.setUnit ch { s.unit ch with good := 0 }))
    else changeSync ch .coast s
  raiseSerial ch (advanceLines ch s)

/-- An encoder count of either direction restarts the stop timer and ends a stop with CHAIN-RUN (R2). -/
def countTaken (ch : Chain) (s : State) : State :=
  let was := (s.unit ch).stopped
  let timer : StopTimer := { elapsed := 0, limit := (s.params ch).stopTime }
  let s := s.setUnit ch { s.unit ch with stopped := false, stopTimer := some timer }
  if was then raiseEvent .chainRun (some ch) 0 0 s else s

/-- A forward count would bring c to the window high in LOCKED or COAST (R7). -/
def syntheticDue (s : State) (ch : Chain) : Bool :=
  decide ((s.unit ch).sync = .locked ∨ (s.unit ch).sync = .coast) &&
    decide ((s.params ch).windowHigh ≤ incTo Config.countMax (s.unit ch).count)

/-- A forward count (R1, R2), with the synthetic advance it gives when it brings c to the window high (R7). A count that also ends a stop
raises CHAIN-RUN before what the synthetic advance raises (DESIGN CHOICE, log 22). -/
def forwardCount (ch : Chain) (s : State) : State :=
  let due := syntheticDue s ch
  let s := countTaken ch s
  let s := s.setUnit ch { s.unit ch with reverse := false, count := incTo Config.countMax (s.unit ch).count }
  if due then syntheticAdvance ch s else s

/-- A reverse count (R1, R2): REVERSE is raised by the first of a stretch, after the CHAIN-RUN of a stop it ends (DESIGN CHOICE,
log 22). -/
def reverseCount (ch : Chain) (s : State) : State :=
  let was := (s.unit ch).reverse
  let s := countTaken ch s
  let s := s.setUnit ch { s.unit ch with reverse := true, count := (s.unit ch).count - 1 }
  if was then s else raiseEvent .reverse (some ch) 0 0 s

/-- The stop timer has run out (R2). -/
def stopChain (ch : Chain) (s : State) : State :=
  match (s.unit ch).stopTimer with
  | none => s
  | some _ => raiseEvent .chainStop (some ch) 0 0 (s.setUnit ch { s.unit ch with stopped := true, stopTimer := none })

/-- An on-edge in SEARCH or LOST at or above the half pitch: an advance, the spacing judged good or bad, and the fourth good spacing
locks the chain (R5, R9). SYNC-CHANGE follows what the advance raised and carries the serial before it (R10). -/
def acquireEdge (ch : Chain) (s : State) : State :=
  let p := s.params ch
  let c := (s.unit ch).count
  let good := if p.windowLow ≤ c ∧ c ≤ p.windowHigh then (s.unit ch).good + 1 else 0
  let s := advanceLines ch (s.setUnit ch { s.unit ch with count := 0, good })
  let s := if 4 ≤ good then changeSync ch .locked (s.setUnit ch { s.unit ch with good := 0, miss := 0 }) else s
  raiseSerial ch s

/-- An on-edge in LOCKED or COAST (R6, R8): early and spurious below the window low, else an advance that leaves the chain
LOCKED. -/
def trackEdge (ch : Chain) (s : State) : State :=
  let p := s.params ch
  let c := (s.unit ch).count
  if c < p.windowLow then raiseEvent .eyeEarly (some ch) 0 (min 255 (roundDiv c 16)) s
  else
    let s := advanceLines ch (s.setUnit ch { s.unit ch with count := 0, miss := 0 })
    raiseSerial ch (changeSync ch .locked s)

/-- A lug-eye on-edge (R3, R5 to R9). With parameters not valid, or the reverse flag set, it is ignored. -/
def lugEdge (ch : Chain) (s : State) : State :=
  if (s.params ch).valid = false ∨ (s.unit ch).reverse = true then s
  else
    match (s.unit ch).sync with
    | .search | .lost => if (s.unit ch).count < (s.params ch).halfPitch then s else acquireEdge ch s
    | .locked | .coast => trackEdge ch s

/-! ### Commands -/

/-- ENCODER_FORWARD_COUNT (R1, R2, R7). -/
def execEncoderForwardCount (ch : Chain) (s : State) : Result State := whenAwake s (forwardCount ch)

/-- ENCODER_REVERSE_COUNT (R1, R2). -/
def execEncoderReverseCount (ch : Chain) (s : State) : Result State := whenAwake s (reverseCount ch)

/-- STOP_TIMER_EXPIRY (R2). A timer that does not run does not expire (R16). -/
def execStopTimerExpiry (ch : Chain) (s : State) : Result State := whenAwake s (stopChain ch)

/-- LUG_EYE_ON_EDGE (R3 to R9). The off-edge is ignored (R3). -/
def execLugEyeOnEdge (ch : Chain) (edge : Edge) (s : State) : Result State := takeEdge (.lug ch) edge (lugEdge ch) id s

/-- SYNTHETIC_ADVANCE (R7): the forward count that brings c to the window high in LOCKED or COAST. Where none is due, there is no
such count and nothing changes (log 5). -/
def execSyntheticAdvance (ch : Chain) (s : State) : Result State :=
  whenAwake s fun s => if syntheticDue s ch then forwardCount ch s else s

end Sys2Proof.Machine
end

