-- ==== Sys2Proof/Machine/Links.lean ====
section
/-! DEFINITION. Master links (11_master_links_and_tables.md): the receiver, the RX buffer and its pause, the TX queue, the taking of
a request with its checks and its one response, and the link commands. -/

namespace Sys2Proof.Machine

/-! ### RX buffer (R170) -/

/-- Bytes a complete frame holds in the RX buffer: length, body and CRC. -/
def frameBytes (body : List Byte) : Nat := body.length + 3

/-- Stored bytes of the frame in progress. -/
def Receiver.stored : Receiver → Nat
  | .frame stored _ => stored.length
  | .hunt | .skip => 0

/-- The fill of the RX buffer: complete frames and the frame in progress. -/
def LinkState.fill (k : LinkState) : Nat := (k.waiting.map frameBytes).sum + k.rx.stored

/-- After a byte is stored: above 768, RX pause is set and PAUSE is sent. -/
def LinkState.pauseIfHigh (k : LinkState) : LinkState :=
  if k.rxPause = false ∧ Config.pauseAbove < k.fill then { k with rxPause := true, control := k.control ++ [.pause] } else k

/-- After a frame leaves the buffer: at 256 or less, RX pause is cleared and RESUME is sent. -/
def LinkState.resumeIfLow (k : LinkState) : LinkState :=
  if k.rxPause = true ∧ k.fill ≤ Config.resumeAt then { k with rxPause := false, control := k.control ++ [.resume] } else k

/-! ### Receiver (R169) -/

/-- A framing fault is counted. -/
def LinkState.framingFault (k : LinkState) : LinkState := { k with framing := inc32 k.framing }

/-- The frame in progress is discarded and the receiver goes to a state. -/
def LinkState.discard (k : LinkState) (nxt : Receiver) : LinkState := ({ k with rx := nxt }).resumeIfLow

/-- PAUSE received: TX pause is set; the frame begun is finished (R171). -/
def LinkState.paused (k : LinkState) : LinkState := { k with txPause := true }

/-- The transmitter begins the frame at the head when it is free to (R171). -/
def LinkState.beginSending (k : LinkState) : LinkState :=
  if k.txPause = false ∧ k.tx ≠ [] then { k with sending := true } else k

/-- RESUME received: TX pause is cleared and sending resumes with the frame at the head (R171). -/
def LinkState.resumed (k : LinkState) : LinkState := ({ k with txPause := false }).beginSending

/-- The frame in progress is complete when its length byte, that many body bytes and two CRC bytes are stored. -/
def frameComplete (stored : List Byte) : Bool :=
  match stored with
  | [] => false
  | len :: rest => rest.length = len.toNat + 2

/-- A complete frame: with its CRC right its body waits in the buffer, else it is discarded and the CRC fault counted. -/
def LinkState.finishFrame (k : LinkState) (stored : List Byte) : LinkState :=
  let body := (stored.drop 1).take (stored.length - 3)
  if stored.drop (stored.length - 2) = crcBytes (crc16 (stored.take (stored.length - 2))) then
    { k with rx := .hunt, waiting := k.waiting ++ [body] }
  else { k with rx := .hunt, crcFaults := inc32 k.crcFaults }.resumeIfLow

/-- Store a byte of the frame in progress, whose bytes before it are `stored`: a length byte outside 2 to 240 is a framing fault, a
byte that finds the buffer full is an OVERRUN (R169, R170). -/
def LinkState.store (k : LinkState) (stored : List Byte) (b : Byte) : LinkState :=
  if stored = [] ∧ (b.toNat < 2 ∨ Config.bodyMax < b.toNat) then k.framingFault.discard .skip
  else if Config.rxBytes ≤ k.fill then { k with overruns := inc32 k.overruns }.discard .skip
  else
    let stored := stored ++ [b]
    let k := { k with rx := .frame stored false }.pauseIfHigh
    if frameComplete stored then k.finishFrame stored else k

/-- A received character with its stop bit (R169). PAUSE and RESUME are taken in every state and never stored. -/
def LinkState.receive (k : LinkState) (b : Byte) : LinkState :=
  if b = 0xF5 then k.paused
  else if b = 0xF6 then k.resumed
  else
    match k.rx with
    | .hunt => if b = 0xF4 then { k with rx := .frame [] false } else { k with stray := inc32 k.stray }
    | .skip => if b = 0xF4 then { k with rx := .frame [] false } else k
    | .frame stored escaped =>
      if b = 0xF4 then k.framingFault.discard (.frame [] false)
      else if escaped then
        let v := b ^^^ 0x20
        if needsEscape v then k.store stored v else k.framingFault.discard .skip
      else if b = 0xF7 then { k with rx := .frame stored true }
      else k.store stored b

/-- A received character without its stop bit (R169). -/
def LinkState.receiveBroken (k : LinkState) : LinkState :=
  match k.rx with
  | .frame _ _ => k.framingFault.discard .skip
  | .hunt | .skip => k.framingFault

/-! ### TX queue (R171) -/

/-- Free slots of the TX queue. -/
def LinkState.freeSlots (k : LinkState) : Nat := Config.txSlots - k.tx.length

/-- Queue a frame with a body. -/
def LinkState.enqueue (k : LinkState) (body : List Byte) : LinkState := { k with tx := k.tx ++ [body] }.beginSending

/-- The last byte of the frame at the head has been sent: its slot is free, and the next frame is begun unless TX pause is set. -/
def LinkState.frameSent (k : LinkState) : LinkState :=
  if k.sending then { k with tx := k.tx.tail, sending := false }.beginSending else k

/-- A break of 20 bit times (R173). -/
def LinkState.broken (k : LinkState) : LinkState :=
  { k with rx := .hunt, waiting := [], rxPause := false, txPause := false, tx := [], sending := false, breaks := inc32 k.breaks }

/-! ### Taking a request (R172) -/

/-- A link changed. -/
def State.modifyLink (s : State) (l : LinkId) (f : LinkState → LinkState) : State := s.setLink l (f (s.link l))

/-- The oldest complete frame of a link has this body, and a TX slot is free. -/
def State.takeable (s : State) (l : LinkId) (body : List Byte) : Bool :=
  decide ((s.link l).waiting.head? = some body) && decide (0 < (s.link l).freeSlots)

/-- Remove the oldest complete frame from the RX buffer and count the request taken. -/
def LinkState.takeFrame (k : LinkState) : LinkState :=
  { { k with waiting := k.waiting.tail }.resumeIfLow with taken := inc32 k.taken }

/-- Queue a response: request code, request number, status, fields (R168). -/
def respond (l : LinkId) (code num : Byte) (a : Answer) (s : State) : State :=
  s.modifyLink l fun k => k.enqueue (code :: num :: a.status.code :: a.fields)

/-- Receive every character of a frame. -/
def receiveAll (l : LinkId) (bytes : List Byte) (s : State) : State :=
  s.modifyLink l fun k => bytes.foldl LinkState.receive k

/-- The master's frame stands in the RX buffer: its characters are received now, but for the frame that is to be taken, which stands there
already (log 3). -/
def deliver (l : LinkId) (body : List Byte) (s : State) : State :=
  if s.takeable l body then s else receiveAll l (wireFrame body) s

/-- What a taken request does after checks 1 to 3 of R172: the owning block changes the state and gives the answer. -/
abbrev Handler := LinkId → List Byte → State → State × Answer

/-- The response of a refused form: the body length received (R172). -/
def formAnswer (fields : List Byte) : Answer := { status := .format, fields := u8 (fields.length + 2) }

/-- Checks 2 and 3 of R172, then the owning block's rule. -/
def judgeRequest (r : Req) (l : LinkId) (fields : List Byte) (act : Handler) (s : State) : State × Answer :=
  if hasRight l r = false then
    (s.modifyLink l fun k => { k with denied := inc32 k.denied }, .bare .denied)
  else if formOk r fields = false then
    (s.modifyLink l fun k => { k with format := inc32 k.format }, formAnswer fields)
  else act l fields s

/-- A request taken as one event: its frame leaves the buffer, the checks and the owning block judge it, its response is queued
(R172). -/
def takeRequest (r : Req) (l : LinkId) (num : Byte) (fields : List Byte) (act : Handler) (s : State) : State :=
  let (s, answer) := judgeRequest r l fields act (s.modifyLink l LinkState.takeFrame)
  respond l (requestCode r) num answer s

/-- A request command: the frame stands in the RX buffer and, when it is the oldest and a TX slot is free, it is taken (R172).
Otherwise it waits in the buffer, and is taken as the slot frees (`takeOldest`). -/
def serve (r : Req) (l : LinkId) (num : Byte) (fields : List Byte) (act : Handler) (s : State) : Result State :=
  if fieldsFit fields = false then .fault .noSuchFrame
  else
    whenAwake s fun s =>
      let body := requestCode r :: num :: fields
      let s := deliver l body s
      if s.takeable l body then takeRequest r l num fields act s else s

/-! ### Commands -/

/-- PAUSE_RECEIVED (R171). -/
def execPauseReceived (l : LinkId) (s : State) : Result State := whenAwake s fun s => s.modifyLink l LinkState.paused

/-- RESUME_RECEIVED (R171). -/
def execResumeReceived (l : LinkId) (s : State) : Result State := whenAwake s fun s => s.modifyLink l LinkState.resumed

/-- The staging area after a break of a link: a break on link 1 abandons the load being staged (R173, R175). -/
def abandonStaging (l : LinkId) (s : State) : State :=
  match l with
  | .lineController => { s with tables := { s.tables with staging := none } }
  | .optimizer | .tallyStation => s

/-- LINK_BREAK (R173). -/
def execLinkBreak (l : LinkId) (s : State) : Result State :=
  whenAwake s fun s => abandonStaging l (s.modifyLink l LinkState.broken)

/-- UNKNOWN_REQUEST_CODE (R172, check 1): the frame is taken and refused FORMAT. -/
def execUnknownRequestCode (l : LinkId) (code num : Byte) (fields : List Byte) (s : State) : Result State :=
  if (requestOfCode code).isSome then .fault .knownCode
  else if fieldsFit fields = false then .fault .noSuchFrame
  else
    whenAwake s fun s =>
      let body := code :: num :: fields
      let s := deliver l body s
      if s.takeable l body then
        let s := s.modifyLink l LinkState.takeFrame
        let s := s.modifyLink l fun k => { k with format := inc32 k.format }
        respond l code num (formAnswer fields) s
      else s

end Sys2Proof.Machine
end

