-- ==== Sys2Proof/Machine/Boards.lean ====
section
/-! DEFINITION. Creation at the scan line with its lug notice, pickup onto the sorter, READ-RECORD, START's change of line state and
RESTART-TRACKING (02_board_records_and_the_lug_maps.md, R54 and R55), and their commands. -/

namespace Sys2Proof.Machine

/-! ### Creation at the scan line (R24, R25) -/

/-- A lug notice's body: notice code, tag, creation lug serial, SUSPECT flag, notice number (R54, R179). -/
def noticeBody (r : Record) (number_ : Nat) : List Byte :=
  [0x80] ++ u16 r.tag ++ u32 r.creation.toNat ++ flag8 r.flags.suspect ++ u16 number_

/-- Offer a record's lug notice to link 0: it takes the next number, and is queued with two or more slots free, else dropped and
counted lost (R54, R55). So it is where the response to a request has just taken one of two free slots, of which R56 says that both frames
are queued: R55 is followed (DESIGN CHOICE, log 29). -/
def offerNotice (r : Record) (s : State) : State :=
  let n := s.links.notice
  let s := { s with links := { s.links with notice := if n < 65535 then n + 1 else 0 } }
  if 2 ≤ (s.link .optimizer).freeSlots then s.modifyLink .optimizer fun k => k.enqueue (noticeBody r n)
  else
    let p := s.board.postings
    { s with board := { s.board with postings := { p with noticesLost := inc32 p.noticesLost } } }

/-- Create the record of the board on the lug at the scan line (R23, R24). -/
def createScanned (s : State) : State :=
  let tag := s.nextFreeTag
  let r := newRecord tag .scanned s.tcu.serial .scanned s.tcu.sync.untrusted
  offerNotice r { s with board := { s.board with trimmer := s.board.trimmer ++ [r], nextTag := tagAfter tag } }

/-- A scan-eye on-edge (R24, R25): ignored in CONFIG and in reverse, else a new record, or DOUBLE on the one already there. -/
def scanEdge (s : State) : State :=
  if s.board.line = .config ∨ s.tcu.reverse = true then s
  else
    match s.trimmerAt s.tcu.serial 0 with
    | some r => s.modifyTrimmer r.tag fun x => { x with flags := { x.flags with double := true } }
    | none => createScanned s

/-! ### Pickup (R31 to R33) -/

/-- Place a record on the sorter lug at offset 0 and allocate it a bin (R32, R33, R36). -/
def placeOnSorter (r : Record) (s : State) : State :=
  let r := { r with sorterSerial := some s.scu.serial, life := .onSorter,
                    flags := { r.flags with suspect := r.flags.suspect || s.scu.sync.untrusted } }
  allocate r { s with board := { s.board with sorter := s.board.sorter ++ [r] } }

/-- An UNKNOWN record for a board that no record matches, with BOARD-UNKNOWN (R33). -/
def createUnknown (s : State) : State :=
  let tag := s.nextFreeTag
  let r := newRecord tag .unknown s.tcu.serial .onSorter false
  placeOnSorter r (raiseEvent .boardUnknown (some .sorter) tag 0 { s with board := { s.board with nextTag := tagAfter tag } })

/-- A pickup-eye on-edge (R31): ignored in CONFIG, in reverse and on a lug that carries a record, else a pickup event. -/
def pickupEdge (s : State) : State :=
  if s.board.line = .config ∨ s.scu.reverse = true ∨ (s.sorterAt s.scu.serial 0).isSome then s
  else
    match s.board.transfer with
    | [] => createUnknown s
    | head :: rest => placeOnSorter head.board { s with board := { s.board with transfer := rest } }

/-! ### READ-RECORD (R42) -/

/-- The record named by a tag, or NO-TAG. -/
def readRecord : Handler := fun _ fields s =>
  match s.locate (fieldAt fields 0 2) with
  | some (r, place) => (s, { status := .ok, fields := recordBytes r place })
  | none => (s, .bare .noTag)

/-! ### Line state (R38 to R41) -/

/-- A changed line state latches LINE-STATE for the optimizer and for the line controller (R38). -/
def setLineState (line : LineState) (s : State) : State :=
  if s.board.line = line then s
  else latch .controllerLineState (latch .optimizerLineState { s with board := { s.board with line } })

/-- The first check of START that fails, as table and check number (R177). -/
def State.startFault (s : State) : Option (TableId × Nat) :=
  let t := s.tables
  let fitted bin := (s.bin bin).items.isSome
  let late := allBins.any fun bin => match s.dropOffset bin with
    | some d => decide (t.station.runout ≤ d)
    | none => false
  let named := ((List.range 24).flatMap fun i => s.groupBins (i + 1)) ++
    ([t.groups.reject, t.groups.reman, t.groups.overflow].filter fun b => b != 0)
  if !t.valid.settings then some (.settings, 1)
  else if !(t.settings.trimmer.valid && t.settings.sorter.valid) then some (.settings, 2)
  else if !t.valid.saw then some (.saw, 1)
  else if !t.valid.size then some (.size, 1)
  else if !t.valid.grade then some (.grade, 1)
  else if !s.gradeEnabled t.grade.default then some (.grade, 2)
  else if !t.valid.station then some (.station, 1)
  else if !t.valid.bin then some (.bin, 1)
  else if late then some (.bin, 2)
  else if !t.valid.binGroup then some (.binGroup, 1)
  else if !(named.all fitted) then some (.binGroup, 2)
  else if !t.valid.sortRule then some (.sortRule, 1)
  else if t.rules.any fun rule => s.groupBins rule.group = [] then some (.sortRule, 2)
  else none

/-- START (R39, R177). -/
def startLine : Handler := fun _ _ s =>
  match s.board.line with
  | .run => (s, { status := .state, fields := u8 0 ++ u8 0 })
  | .config =>
    match s.startFault with
    | some (table, check) => (s, { status := .state, fields := u8 table.code ++ u8 check })
    | none => (setLineState .run { s with tables := { s.tables with staging := none } }, .bare .ok)

/-- Retire every live record LOST in the order of R41: the sorter map, the transfer queue, the trimmer map, each from its oldest
record. The reservations and pending drops go with step 3 of R40, which does not judge NEAR (R132). -/
def loseAll (s : State) : State :=
  let lost := s.board.sorter ++ s.board.transfer.map (·.board) ++ s.board.trimmer
  lost.foldl (fun s r => handToTally r .lost s) { s with board := { s.board with sorter := [], transfer := [], trimmer := [] } }

/-- A position after RESTART-TRACKING: stack empty, TOP 0, no target, with TARGET-OFF where there was one (R74). -/
def Grading.restarted (g : Grading) : Grading := ({ g with slots := Vector.replicate 6 .empty, top := 0 }).retarget none

/-- A bin after RESTART-TRACKING: no reservation, gate closed, timers stopped, nothing pending (R142). -/
def BinRec.restarted (b : BinRec) : BinRec := { b with reserved := 0, gateOpen := false, pulse := none, pending := [] }

/-- A saw after RESTART-TRACKING: UP, its window idle, and left DOWN where its feedback reads DOWN (R123). The manual does not say whether
that takes in a saw that was commanded UP already; the model takes it in (DESIGN CHOICE, log 25). -/
def SawRec.restarted (r : SawRec) : SawRec := { r with commanded := false, stage := .idle, timer := 0, leftDown := r.feedback }

/-- A chain unit's tracking after RESTART-TRACKING or a load of its parameters: c, good and miss counts 0; its sync state is changed
by `changeSync` (R11, R12). -/
def ChainUnit.untracked (u : ChainUnit) : ChainUnit := { u with count := 0, good := 0, miss := 0 }

/-- RESTART-TRACKING's event (R40). Both SYNC-CHANGEs carry the TCU lug serial as it stood before it is set to 0 (DESIGN CHOICE,
log 12). -/
def restart (s : State) : State :=
  let s := loseAll s
  let s := { s with gradingA := s.gradingA.restarted, gradingB := s.gradingB.restarted }
  let s := { s with sort := { s.sort with bins := mapVec BinRec.restarted s.sort.bins } }
  let s := { s with saws := { recs := mapVec SawRec.restarted s.saws.recs, owner := 0 } }
  let s := changeSync .sorter .search (changeSync .trimmer .search s)
  let s := { s with tcu := { s.tcu.untracked with serial := 0 }, scu := { s.scu.untracked with serial := 0 } }
  setLineState .config s

/-- RESTART-TRACKING (R40, R41). -/
def restartTracking : Handler := fun _ _ s => (restart s, { status := .ok, fields := u8 s.live.length })

/-! ### Commands -/

/-- SCAN_EYE_ON_EDGE (R24, R25). The change from broken to clear is ignored (R24). -/
def execScanEyeOnEdge (edge : Edge) (s : State) : Result State := takeEdge .scan edge scanEdge id s

/-- PICKUP_EYE_ON_EDGE (R31). The change from broken to clear is ignored (R31). -/
def execPickupEyeOnEdge (edge : Edge) (s : State) : Result State := takeEdge .pickup edge pickupEdge id s

/-- READ_RECORD (R42). -/
def execReadRecord (l : LinkId) (num : Byte) (fields : List Byte) (s : State) : Result State :=
  serve .readRecord l num fields readRecord s

/-- START (R39, R177). -/
def execStart (l : LinkId) (num : Byte) (fields : List Byte) (s : State) : Result State :=
  serve .start l num fields startLine s

/-- RESTART_TRACKING (R40, R41). -/
def execRestartTracking (l : LinkId) (num : Byte) (fields : List Byte) (s : State) : Result State :=
  serve .restartTracking l num fields restartTracking s

end Sys2Proof.Machine
end

