-- ==== Sys2Proof/Machine/Postings.lean ====
section
/-! DEFINITION. Optimizer postings (03_optimizer_postings.md): the record checks, POST-SCAN and POST-SOLUTION with their stores,
revisions, responses, preview and counts. -/

namespace Sys2Proof.Machine

/-! ### Record checks and refusals (R44, R50, R53) -/

/-- The posting counts changed. -/
def State.modifyPostings (s : State) (f : PostingCounts → PostingCounts) : State :=
  { s with board := { s.board with postings := f s.board.postings } }

/-- The record a request's tag names, if it is on the trimmer map below a line: its record and its offset, or the status and fields
of the refusal (R44, R80). -/
def State.onTrimmerBelow (s : State) (tag line : Nat) : Except Answer (Record × Nat) :=
  match s.locate tag with
  | none => .error { status := .noTag, fields := u16 tag }
  | some (r, .trimmer off) =>
    if off < line then .ok (r, off)
    else .error { status := .late, fields := u16 tag ++ u32 r.creation.toNat ++ u8 r.life.code }
  | some (r, .transfer _ _) | some (r, .sorter _) =>
    .error { status := .late, fields := u16 tag ++ u32 r.creation.toNat ++ u8 r.life.code }

/-- The count a posting's outcome raises (R53). -/
def PostingCounts.after (status : Status) (c : PostingCounts) : PostingCounts :=
  match status with
  | .noTag => { c with noTag := inc32 c.noTag }
  | .late => { c with late := inc32 c.late }
  | .range => { c with range := inc32 c.range }
  | .ok | .okClamped | .format | .denied | .state | .combo | .bank => { c with taken := inc32 c.taken }

/-- A RANGE refusal of a posting: tag, candidate index, field number (R50). -/
def postingRange (tag index field : Nat) : Answer := { status := .range, fields := u16 tag ++ u8 index ++ u8 field }

/-- The SUSPECT and DOUBLE flags in their places of the record flags byte (R180). -/
def RecordFlags.doubtByte (f : RecordFlags) : Nat := packBits [f.suspect, f.double]

/-- The 13 bytes of a taken posting, of the record as the posting left it (R49, R180). -/
def postingBytes (r : Record) (offset decision : Nat) : List Byte :=
  u16 r.tag ++ u32 r.creation.toNat ++ u8 offset ++ u8 (decision - offset) ++ u8 ((r.solution.map (·.revision)).getD 0) ++
  u8 r.flags.doubtByte

/-- The record of a tag judged for a posting, then a store that may be refused, then the counts (R44 to R53). -/
def posting (tag : Nat) (store : Record → Nat → State → State × Answer) (s : State) : State × Answer :=
  let (s, a) :=
    match s.onTrimmerBelow tag s.tables.station.decision with
    | .error a => (s, a)
    | .ok (r, off) => store r off s
  (s.modifyPostings (PostingCounts.after a.status), a)

/-! ### POST-SCAN (R45) -/

/-- The size table defines a thickness for a code 1 to 4. -/
def State.thicknessDefined (s : State) (code : Nat) : Bool :=
  1 ≤ code && code ≤ 4 && (entryD s.tables.size.thickness (code - 1) none).isSome

/-- The size table defines a width for a code 1 to 8. -/
def State.widthDefined (s : State) (code : Nat) : Bool :=
  1 ≤ code && code ≤ 8 && (entryD s.tables.size.width (code - 1) none).isSome

/-- A revision raised by 1, saturating at 255 (R45, R47). -/
def revisionAfter (n : Nat) : Nat := incTo 255 n

/-- A record with a posted scan summary: a candidate list under a replaced summary has its revision raised (R45). -/
def Record.withScan (scan : ScanSummary) (r : Record) : Record :=
  { r with
    scan := some scan
    solution := if r.scan.isSome then r.solution.map fun x => { x with revision := revisionAfter x.revision } else r.solution }

/-- Store a scan summary, or refuse RANGE naming its first field out of range (R45, R50). -/
def storeScan (tag : Nat) (scan : ScanSummary) (r : Record) (offset : Nat) (s : State) : State × Answer :=
  if scan.length < 300 ∨ 7500 < scan.length then (s, postingRange tag 0 1)
  else if s.thicknessDefined scan.thickness = false then (s, postingRange tag 0 2)
  else if s.widthDefined scan.width = false then (s, postingRange tag 0 3)
  else
    (s.modifyTrimmer tag (Record.withScan scan),
      { status := .ok, fields := postingBytes (r.withScan scan) offset s.tables.station.decision })

/-- POST-SCAN's fields: tag, Ls, thickness code, width code (R180). -/
def postScan : Handler := fun _ fields s =>
  let tag := fieldAt fields 0 2
  posting tag (storeScan tag { length := fieldAt fields 2 2, thickness := fieldAt fields 4 1, width := fieldAt fields 5 1 }) s

/-! ### POST-SOLUTION (R46, R47, R51) -/

/-- A candidate entry as posted, before its range checks: far saw, fence, grade. -/
structure Posted where
  saw : Nat
  fence : Nat
  grade : Nat
  deriving DecidableEq, Repr

/-- The `n` entries posted after the tag and the count. -/
def postedEntries (fields : List Byte) (n : Nat) : List Posted :=
  (List.range n).map fun i =>
    { saw := fieldAt fields (3 + 3 * i) 1, fence := fieldAt fields (4 + 3 * i) 1, grade := fieldAt fields (5 + 3 * i) 1 }

/-- The first field of an entry that is out of range (R46). -/
def Posted.fault (p : Posted) : Option Nat :=
  if p.saw < 1 ∨ 12 < p.saw then some 1
  else if 1 < p.fence then some 2
  else if p.grade < 1 ∨ 10 < p.grade then some 3
  else none

/-- The first fault of a list of entries, the first of which has index `i`: its index and field. -/
def postedFault (i : Nat) : List Posted → Option (Nat × Nat)
  | [] => none
  | p :: rest =>
    match p.fault with
    | some field => some (i, field)
    | none => postedFault (i + 1) rest

def Posted.candidate (p : Posted) : Candidate := { saw := p.saw, fence := p.fence = 1, grade := p.grade }

/-- A record with a posted candidate list, at revision 1 or one above its last (R47). -/
def Record.withSolution (candidates : List Candidate) (r : Record) : Record :=
  { r with solution := some { candidates, revision := match r.solution with
                                                      | none => 1
                                                      | some x => revisionAfter x.revision } }

/-- Store a candidate list and compute the preview on the record as it then stands, or refuse RANGE (R46, R47, R51). -/
def storeSolution (tag n : Nat) (entries : List Posted) (r : Record) (offset : Nat) (s : State) : State × Answer :=
  if n < 1 ∨ 8 < n then (s, postingRange tag 0 1)
  else
    match postedFault 1 entries with
    | some (index, field) => (s, postingRange tag index field)
    | none =>
      let candidates := entries.map Posted.candidate
      let stored := r.withSolution candidates
      (s.modifyTrimmer tag (Record.withSolution candidates),
        { status := .ok,
          fields := postingBytes stored offset s.tables.station.decision ++ (s.decideBoard stored).bytes })

/-- POST-SOLUTION's fields: tag, count n, then the entries (R180). -/
def postSolution : Handler := fun _ fields s =>
  let tag := fieldAt fields 0 2
  let n := fieldAt fields 2 1
  posting tag (storeSolution tag n (postedEntries fields n)) s

/-! ### Commands -/

/-- POST_SCAN (R45). -/
def execPostScan (l : LinkId) (num : Byte) (fields : List Byte) (s : State) : Result State :=
  serve .postScan l num fields postScan s

/-- POST_SOLUTION (R46, R47). -/
def execPostSolution (l : LinkId) (num : Byte) (fields : List Byte) (s : State) : Result State :=
  serve .postSolution l num fields postSolution s

end Sys2Proof.Machine
end

