-- ==== Sys2Proof/Machine/Modes.lean ====
section
/-! DEFINITION. Line modes and operator force (05_line_modes_and_operator_force.md): SET-LINE-MODE, FORCE-BOARD, SAW-ENABLE and
SAW-DISABLE. -/

namespace Sys2Proof.Machine

/-! ### SET-LINE-MODE (R75, R76) -/

/-- The saw policy of a code and its saw number, checks 1 and 2 of R76: the policy, or a fault number. -/
def sawPolicyOf (code k : Nat) : Except Nat SawPolicy :=
  match code with
  | 1 => .ok .auto
  | 2 => if 1 ≤ k ∧ k ≤ 12 then .ok (.fixed k) else .error 2
  | 3 => .ok .trashAll
  | 4 => .ok .bypass
  | _ => .error 1

/-- The sort policy of a code, check 3 of R76. -/
def sortPolicyOf : Nat → Option SortPolicy
  | 1 => some .byProduct
  | 2 => some .allReject
  | 3 => some .allRunout
  | _ => none

/-- Checks 4 to 6 of R76: the fault number of a combination that is not accepted. -/
def State.modeClash (s : State) (m : LineMode) : Option Nat :=
  match m.saws with
  | .bypass => if m.sort = .byProduct then some 1 else none
  | .fixed k => if !(s.saw k).enabled then some 2 else if (s.sawPlace k).isNone then some 3 else none
  | .auto | .trashAll => none

/-- The mode a request carries, or the status and fault number of its refusal (R76). -/
def State.judgeMode (s : State) (sawCode k sortCode : Nat) : Except (Status × Nat) LineMode :=
  match sawPolicyOf sawCode k with
  | .error n => .error (.range, n)
  | .ok saws =>
    match sortPolicyOf sortCode with
    | none => .error (.range, 3)
    | some sort =>
      match s.modeClash { saws, sort } with
      | some n => .error (.combo, n)
      | none => .ok { saws, sort }

/-- SET-LINE-MODE (R76): the response carries the mode in force after the request, and a refusal its fault number. -/
def setLineMode : Handler := fun _ fields s =>
  let u := s.decision
  match s.judgeMode (fieldAt fields 0 1) (fieldAt fields 1 1) (fieldAt fields 2 1) with
  | .ok mode =>
    ({ s with decision := { u with mode, modesTaken := inc32 u.modesTaken } }, { status := .ok, fields := mode.bytes })
  | .error (status, n) =>
    ({ s with decision := { u with modesRefused := inc32 u.modesRefused } }, { status, fields := u.mode.bytes ++ u8 n })

/-! ### FORCE-BOARD (R79 to R84) -/

/-- The force counts changed. -/
def State.modifyForces (s : State) (f : ForceCounts → ForceCounts) : State :=
  { s with board := { s.board with forces := f s.board.forces } }

/-- The count a force's outcome raises, with the redecide it made (R84). -/
def ForceCounts.after (status : Status) (redecided : Bool) (c : ForceCounts) : ForceCounts :=
  match status with
  | .noTag => { c with noTag := inc32 c.noTag }
  | .late => { c with late := inc32 c.late }
  | .range => { c with range := inc32 c.range }
  | .ok | .okClamped | .format | .denied | .state | .combo | .bank =>
    { c with taken := inc32 c.taken, redecided := if redecided then inc32 c.redecided else c.redecided }

/-- A force kind as sent: 0 absent, 1 TRIM with its saw, 2 NO-TRIM, 3 TRASH; or the field number of its fault, checks 3 and 4 of
R80. -/
def State.forceKindOf (s : State) (code k : Nat) : Except Nat (Option ForceKind) :=
  match code with
  | 0 => .ok none
  | 1 => if 1 ≤ k ∧ k ≤ 12 ∧ s.usable k then .ok (some (.trim k)) else .error 2
  | 2 => .ok (some .noTrim)
  | 3 => .ok (some .trash)
  | _ => .error 1

/-- A disposition as sent, 0 absent; check 7 of R80. -/
def dispositionOf : Nat → Except Nat (Option Disposition)
  | 0 => .ok none
  | 1 => .ok (some .normal)
  | 2 => .ok (some .reject)
  | 3 => .ok (some .reman)
  | _ => .error 5

/-- A force fence as sent, 0 absent, 1 ON, 2 OFF; check 5 of R80. -/
def forceFenceOf : Nat → Except Nat (Option Bool)
  | 0 => .ok none
  | 1 => .ok (some true)
  | 2 => .ok (some false)
  | _ => .error 3

/-- A force grade as sent, 0 absent; check 6 of R80. -/
def State.forceGradeOf (s : State) (g : Nat) : Except Nat (Option Nat) :=
  if g = 0 then .ok none else if s.gradeEnabled g then .ok (some g) else .error 4

/-- A force as sent, or the field number of its first fault (R80). -/
def State.judgeForce (s : State) (kind k fence grade disposition : Nat) : Except Nat Force := do
  let kind ← s.forceKindOf kind k
  let fence ← forceFenceOf fence
  let grade ← s.forceGradeOf grade
  let disposition ← dispositionOf disposition
  return { kind, fence, grade, disposition }

/-- The 29 bytes of a taken force (R81, R180). -/
def forceBytes (r : Record) (offset : Nat) (d : Decision) : List Byte :=
  u16 r.tag ++ u32 r.creation.toNat ++ u8 offset ++ u8 r.life.code ++ flag8 r.flags.redecided ++ d.bytes

/-- Store a force in its record: a DECIDED record is redecided, any other below S is previewed (R81, R82). -/
def storeForce (force : Force) (r : Record) (offset : Nat) (s : State) : State × Answer :=
  let forced := { r with force := some force }
  let s := s.modifyTrimmer r.tag fun x => { x with force := some force }
  let d := s.decideBoard forced
  if r.life = .decided then
    (redecide forced s,
      { status := .ok, fields := forceBytes { forced with flags := { r.flags with redecided := true } } offset d })
  else (s, { status := .ok, fields := forceBytes forced offset d })

/-- FORCE-BOARD's fields: tag, kind, saw k, fence, grade, disposition (R180). -/
def forceBoard : Handler := fun _ fields s =>
  let tag := fieldAt fields 0 2
  match s.onTrimmerBelow tag s.tables.station.sawSet with
  | .error a => (s.modifyForces (ForceCounts.after a.status false), a)
  | .ok (r, off) =>
    match s.judgeForce (fieldAt fields 2 1) (fieldAt fields 3 1) (fieldAt fields 4 1) (fieldAt fields 5 1)
        (fieldAt fields 6 1) with
    | .error field => (s.modifyForces (ForceCounts.after .range false), { status := .range, fields := u16 tag ++ u8 field })
    | .ok force =>
      let (s, a) := storeForce force r off s
      (s.modifyForces (ForceCounts.after .ok (r.life = .decided)), a)

/-! ### SAW-ENABLE and SAW-DISABLE (R85) -/

/-- Change a named saw's record and answer its enabled flag and consecutive misses, or refuse RANGE. -/
def sawService (change : SawRec → SawRec) : Handler := fun _ fields s =>
  let saw := fieldAt fields 0 1
  if sawExists saw then
    let s := s.modifySaw saw change
    (s, { status := .ok, fields := u8 saw ++ flag8 (s.saw saw).enabled ++ u8 (s.saw saw).misses })
  else (s, .bare .range)

/-! ### Commands -/

/-- SET_LINE_MODE (R76). -/
def execSetLineMode (l : LinkId) (num : Byte) (fields : List Byte) (s : State) : Result State :=
  serve .setLineMode l num fields setLineMode s

/-- FORCE_BOARD (R80 to R82). -/
def execForceBoard (l : LinkId) (num : Byte) (fields : List Byte) (s : State) : Result State :=
  serve .forceBoard l num fields forceBoard s

/-- SAW_ENABLE (R85): the flag set, the consecutive misses 0. -/
def execSawEnable (l : LinkId) (num : Byte) (fields : List Byte) (s : State) : Result State :=
  serve .sawEnable l num fields (sawService fun r => { r with enabled := true, misses := 0 }) s

/-- SAW_DISABLE (R85): the flag cleared. -/
def execSawDisable (l : LinkId) (num : Byte) (fields : List Byte) (s : State) : Result State :=
  serve .sawDisable l num fields (sawService fun r => { r with enabled := false }) s

end Sys2Proof.Machine
end

