-- ==== Sys2Proof/Machine/BinCommands.lean ====
section
/-! DEFINITION. The requests about bins (R128, R129, R141): BIN-UNLOAD, BIN-EMPTIED, BIN-ENABLE, BIN-DISABLE and READ-BINS. -/

namespace Sys2Proof.Machine

/-! ### BIN-UNLOAD and BIN-EMPTIED (R128) -/

/-- State, count, reserved count and NEAR flag of a bin. -/
def BinRec.pileBytes (b : BinRec) : List Byte := u8 b.state.code ++ u16 b.dropped ++ u16 b.reserved ++ flag8 b.near

/-- BIN-UNLOAD: a fitted bin that is not DISABLED becomes UNLOADING. -/
def unloadBin : Handler := fun _ fields s =>
  let bin := fieldAt fields 0 1
  if !binExists bin then (s, .bare .range)
  else if (s.bin bin).items.isNone ∨ (s.bin bin).state = .disabled then (s, .bare .state)
  else
    let s := s.modifyBin bin fun b => { b with state := .unloading }
    (s, { status := .ok, fields := (s.bin bin).pileBytes })

/-- Empty a fitted bin: count 0, and OPEN, or FULL where its switch reads closed, unless it is DISABLED; then NEAR is judged. -/
def emptyBin (bin : Nat) (s : State) : State :=
  let b := s.bin bin
  let s := s.modifyBin bin fun b => { b with dropped := 0 }
  let s :=
    if b.state = .disabled then s
    else if b.fullSwitch then makeFull bin s
    else s.modifyBin bin fun b => { b with state := .opened }
  judgeNear bin s

/-- BIN-EMPTIED. -/
def emptiedBin : Handler := fun _ fields s =>
  let bin := fieldAt fields 0 1
  if !binExists bin then (s, .bare .range)
  else if (s.bin bin).items.isNone then (s, .bare .state)
  else
    let s := emptyBin bin s
    (s, { status := .ok, fields := (s.bin bin).pileBytes })

/-! ### BIN-ENABLE and BIN-DISABLE (R129) -/

/-- State and consecutive gate misses of a bin. -/
def BinRec.gateBytes (b : BinRec) : List Byte := u8 b.state.code ++ u8 b.misses

/-- Bring a fitted bin back: misses 0, and a DISABLED bin becomes OPEN, or FULL where its count has reached capacity. -/
def enableFitted (bin : Nat) (items : BinItems) (s : State) : State :=
  let b := s.bin bin
  let s := s.modifyBin bin fun b => { b with misses := 0 }
  if b.state = .disabled then
    if b.dropped < items.capacity then s.modifyBin bin fun b => { b with state := .opened } else makeFull bin s
  else s

/-- BIN-ENABLE. -/
def enableBin : Handler := fun _ fields s =>
  let bin := fieldAt fields 0 1
  if !binExists bin then (s, .bare .range)
  else
    match (s.bin bin).items with
    | none => (s, .bare .state)
    | some items =>
      let s := enableFitted bin items s
      (s, { status := .ok, fields := (s.bin bin).gateBytes })

/-- BIN-DISABLE. A bin that is not fitted is DISABLED already, so the same change leaves it as it is. -/
def disableBin : Handler := fun _ fields s =>
  let bin := fieldAt fields 0 1
  if !binExists bin then (s, .bare .range)
  else
    let s := if (s.bin bin).items.isSome then s.modifyBin bin fun b => { b with state := .disabled } else s
    (s, { status := .ok, fields := (s.bin bin).gateBytes })

/-! ### READ-BINS (R141, R182) -/

/-- A bin's 17 bytes. -/
def BinRec.bytes (b : BinRec) : List Byte :=
  let item (f : BinItems → Nat) : Nat := (b.items.map f).getD 0
  u8 (b.state.code + (if b.items.isSome then 128 else 0)) ++ u16 b.dropped ++ u16 b.reserved ++ u16 b.load ++
  u16 (item (·.capacity)) ++ u16 (item (·.hi)) ++ u16 (item (·.lo)) ++ flag8 b.near ++ u8 b.misses ++ u8 b.pending.length ++
  u8 (packBits [b.gateOpen, b.fullSwitch, b.confirmInput])

/-- READ-BINS' fields: first bin, number of bins. -/
def readBins : Handler := fun _ fields s =>
  let first := fieldAt fields 0 1
  let n := fieldAt fields 1 1
  if first < 1 ∨ 48 < first ∨ n < 1 ∨ 12 < n ∨ 49 < first + n then (s, .bare .range)
  else
    let g := s.tables.groups
    (s, { status := .ok,
          fields := ((List.range n).flatMap fun i => (s.bin (first + i)).bytes) ++ u8 g.reject ++ u8 g.reman ++ u8 g.overflow })

/-! ### Commands -/

/-- BIN_UNLOAD (R128). -/
def execBinUnload (l : LinkId) (num : Byte) (fields : List Byte) (s : State) : Result State :=
  serve .binUnload l num fields unloadBin s

/-- BIN_EMPTIED (R128). -/
def execBinEmptied (l : LinkId) (num : Byte) (fields : List Byte) (s : State) : Result State :=
  serve .binEmptied l num fields emptiedBin s

/-- BIN_ENABLE (R129). -/
def execBinEnable (l : LinkId) (num : Byte) (fields : List Byte) (s : State) : Result State :=
  serve .binEnable l num fields enableBin s

/-- BIN_DISABLE (R129). -/
def execBinDisable (l : LinkId) (num : Byte) (fields : List Byte) (s : State) : Result State :=
  serve .binDisable l num fields disableBin s

/-- READ_BINS (R141). -/
def execReadBins (l : LinkId) (num : Byte) (fields : List Byte) (s : State) : Result State :=
  serve .readBins l num fields readBins s

end Sys2Proof.Machine
end

