-- ==== Sys2Proof/Machine/TallyRequests.lean ====
section
/-! DEFINITION. The tally station's requests (09_tally.md): the stream, the shift, the matrix and the price banks. -/

namespace Sys2Proof.Machine

/-! ### The stream (R150 to R152) -/

/-- READ-SEGMENT's fields: segment, first slot, count. -/
def readSegment : Handler := fun _ fields s =>
  let n := fieldAt fields 0 1
  let first := fieldAt fields 1 1
  let count := fieldAt fields 2 1
  if 3 < n ∨ count < 1 ∨ 10 < count ∨ Config.segmentSlots < first + count then (s, .bare .range)
  else
    let st := s.tally.stream
    (s, { status := .ok,
          fields := flag8 (st.ready.getLsbD n) ++ st.store.readBytes (slotAddress n first) (Config.slotBytes * count) })

/-- Bytes of the four ready flags, the writer state (1 WRITING, 2 BLOCKED) and the current segment (R180). -/
def Stream.bytes (st : Stream) : List Byte := u8 st.ready.toNat ++ u8 (if st.blocked then 2 else 1) ++ u8 st.segment.val

/-- Clear a ready flag, and end a BLOCKED spell on that segment: the writer is WRITING at its slot 0, and a pending trailer closes
it at once (R150). -/
def Stream.release (n : Nat) (st : Stream) : Stream :=
  let freed := { st with ready := st.ready &&& ~~~(1#4 <<< n) }
  if st.blocked ∧ st.segment.val = n then
    let writing := { freed with blocked := false, slot := 0, spellDropped := false }
    match st.trailer with
    | none => writing
    | some t => { writing with trailer := none }.close t.dropped t.shift true
  else freed

/-- RELEASE-SEGMENT (R150). -/
def releaseSegment : Handler := fun _ fields s =>
  let n := fieldAt fields 0 1
  if 3 < n then (s, .bare .range)
  else
    let was := s.tally.stream.ready.getLsbD n
    let s := s.modifyStream (Stream.release n)
    (s, { status := .ok, fields := flag8 was ++ s.tally.stream.bytes })

/-- FLUSH (R151): the segment closed and the number of records flushed. One that closes nothing answers the current segment, which is the
blocking one while BLOCKED (DESIGN CHOICE, log 24). -/
def flushStream : Handler := fun _ _ s =>
  let st := s.tally.stream
  if st.blocked ∨ st.slot = 0 then (s, { status := .ok, fields := u8 st.segment.val ++ u8 0 })
  else (closeSegment s, { status := .ok, fields := u8 st.segment.val ++ u8 st.slot })

/-! ### The shift (R153) -/

/-- The shift number after a shift number, wrapping from 65,535 to 1. -/
def shiftAfter (n : Nat) : Nat := if n < 65535 then n + 1 else 1

/-- The stream after a SHIFT-CLOSE of a shift: its trailer is written at once, or held pending while BLOCKED. -/
def Stream.closeShift (shift dropped : Nat) (st : Stream) : Stream :=
  if st.blocked then { st with trailer := some { shift, dropped } } else st.close dropped shift true

/-- SHIFT-CLOSE's event, steps 1 to 4 of R153. -/
def closeShift (s : State) : State :=
  let old := s.tally.live
  let s := { s with tally := { s.tally with closed := old, live := .zero (shiftAfter old.shift) } }
  latch .shiftClosed (s.modifyStream (Stream.closeShift old.shift old.dropped))

/-- SHIFT-CLOSE (R153): the closed shift's number and counts, and whether its trailer is written (1) or pending (2). -/
def shiftClose : Handler := fun _ _ s =>
  if s.tally.stream.trailer.isSome then (s, .bare .state)
  else
    let old := s.tally.live
    (closeShift s,
      { status := .ok,
        fields := u16 old.shift ++ u32 old.written ++ u32 old.dropped ++ u8 (if s.tally.stream.blocked then 2 else 1) })

/-! ### The matrix (R154) -/

/-- TOTALS of a tally (R180). -/
def Tally.totals (t : Tally) : List Byte :=
  u16 t.shift ++ flag8 t.saturated ++ u32 t.reject ++ u32 t.reman ++ u32 t.trash ++ u32 t.runout ++ u32 t.lost ++ u32 t.unknown ++
  u32 t.miscut ++ u32 t.suspect ++ u32 t.value ++ u32 t.written ++ u32 t.dropped

/-- A cell's pieces and volume. -/
def TallyCell.bytes (c : TallyCell) : List Byte := u24 c.pieces ++ u32 c.volume

/-- The eight width cells of a grade and class. -/
def Tally.classBytes (t : Tally) (grade cls : Nat) : List Byte :=
  (List.range 8).flatMap fun w => (entryD t.cells (96 * (grade - 1) + 8 * (cls - 1) + w) { pieces := 0, volume := 0 }).bytes

/-- CELLS of a tally: a run of classes of one grade. -/
def Tally.cellsBytes (t : Tally) (grade first n : Nat) : List Byte :=
  u16 t.shift ++ flag8 t.saturated ++ (List.range n).flatMap fun i => t.classBytes grade (first + i)

/-- Read a tally: part, grade, first class, number of classes. -/
def readTally (which : TallyUnit → Tally) : Handler := fun _ fields s =>
  let t := which s.tally
  let grade := fieldAt fields 1 1
  let first := fieldAt fields 2 1
  let n := fieldAt fields 3 1
  match fieldAt fields 0 1 with
  | 1 => (s, { status := .ok, fields := t.totals })
  | 2 =>
    if grade < 1 ∨ 10 < grade ∨ first < 1 ∨ 12 < first ∨ n < 1 ∨ 3 < n ∨ 13 < first + n then (s, .bare .range)
    else (s, { status := .ok, fields := t.cellsBytes grade first n })
  | _ => (s, .bare .range)

/-! ### The price banks (R155, R156) -/

/-- Write prices of one grade into a bank from a class upward. -/
def writePrices (grade first : Nat) : List Nat → Vector Nat 120 → Vector Nat 120
  | [], bank => bank
  | p :: rest, bank => writePrices grade (first + 1) rest (modifyAt bank (12 * (grade - 1) + (first - 1)) fun _ => p)

/-- The status of the first check of R155 that fails. -/
def TableStore.editFault (t : TableStore) (bank grade first n : Nat) : Option Status :=
  if 1 < bank then some .range
  else if bank = t.active1.toNat then some .bank
  else if grade < 1 ∨ 10 < grade then some .range
  else if first < 1 ∨ 12 < first ∨ n < 1 ∨ 12 < n ∨ 13 < first + n then some .range
  else none

/-- Store an edit's prices in a bank and count it taken. -/
def TableStore.edit (t : TableStore) (bank grade first : Nat) (prices : List Nat) : TableStore :=
  let t := { t with edits := inc32 t.edits }
  if bank = 0 then { t with bank0 := writePrices grade first prices t.bank0 }
  else { t with bank1 := writePrices grade first prices t.bank1 }

/-- PRICE-EDIT's fields: bank, grade, first class, count, then the prices of four bytes each (R155). -/
def priceEdit : Handler := fun _ fields s =>
  let bank := fieldAt fields 0 1
  let grade := fieldAt fields 1 1
  let first := fieldAt fields 2 1
  let n := fieldAt fields 3 1
  match s.tables.editFault bank grade first n with
  | some status => ({ s with tables := { s.tables with editsRefused := inc32 s.tables.editsRefused } }, .bare status)
  | none =>
    let sent := (List.range n).map fun i => fieldAt fields (4 + 4 * i) 4
    let stored := sent.map fun p => min p Config.priceMax
    ({ s with tables := s.tables.edit bank grade first stored },
      { status := if sent = stored then .ok else .okClamped, fields := stored.flatMap u32 })

/-- Make a bank active; the switch count rises when that changes the active bank (R156). -/
def TableStore.activate (t : TableStore) (bank1 : Bool) : TableStore :=
  if t.active1 = bank1 then t else { t with active1 := bank1, switches := inc32 t.switches }

/-- PRICE-SWITCH (R156). -/
def priceSwitch : Handler := fun _ fields s =>
  let bank := fieldAt fields 0 1
  if 1 < bank then (s, .bare .range)
  else
    let tables := s.tables.activate (decide (bank = 1))
    ({ s with tables }, { status := .ok, fields := flag8 tables.active1 ++ u32 tables.switches })

/-! ### Commands -/

/-- READ_SEGMENT (R152). -/
def execReadSegment (l : LinkId) (num : Byte) (fields : List Byte) (s : State) : Result State :=
  serve .readSegment l num fields readSegment s

/-- RELEASE_SEGMENT (R150). -/
def execReleaseSegment (l : LinkId) (num : Byte) (fields : List Byte) (s : State) : Result State :=
  serve .releaseSegment l num fields releaseSegment s

/-- FLUSH (R151). -/
def execFlush (l : LinkId) (num : Byte) (fields : List Byte) (s : State) : Result State :=
  serve .flush l num fields flushStream s

/-- SHIFT_CLOSE (R153). -/
def execShiftClose (l : LinkId) (num : Byte) (fields : List Byte) (s : State) : Result State :=
  serve .shiftClose l num fields shiftClose s

/-- READ_MATRIX (R154): the live tally. -/
def execReadMatrix (l : LinkId) (num : Byte) (fields : List Byte) (s : State) : Result State :=
  serve .readMatrix l num fields (readTally (·.live)) s

/-- READ_CLOSED (R154): the closed image. -/
def execReadClosed (l : LinkId) (num : Byte) (fields : List Byte) (s : State) : Result State :=
  serve .readClosed l num fields (readTally (·.closed)) s

/-- PRICE_EDIT (R155). -/
def execPriceEdit (l : LinkId) (num : Byte) (fields : List Byte) (s : State) : Result State :=
  serve .priceEdit l num fields priceEdit s

/-- PRICE_SWITCH (R156). -/
def execPriceSwitch (l : LinkId) (num : Byte) (fields : List Byte) (s : State) : Result State :=
  serve .priceSwitch l num fields priceSwitch s

end Sys2Proof.Machine
end

