-- ==== Sys2Proof/Machine/Status.lean ====
section
/-! DEFINITION. The requests of every role or of the line controller that read the part or its flags: READ-STATUS and its eight pages
(R180), READ-EVENTS and CLEAR-EVENT-OVERFLOW (R161, R162), ACK-ATTENTION and SET-ATTENTION-ENABLE (R164). -/

namespace Sys2Proof.Machine

/-! ### Attention (R164) -/

/-- A role's request set, then its enable set. -/
def attentionBytes (s : State) (role : LinkId) : List Byte := [requests s role, (s.role role).enables]

/-- A request that carries a cause set and changes the sender's flags with it, or is refused RANGE for a cause outside the role. -/
def attentionRequest (change : BitVec 8 → RoleFlags → RoleFlags) : Handler := fun l fields s =>
  let set := BitVec.ofNat 8 (fieldAt fields 0 1)
  if set &&& ~~~(ownCauses l) ≠ 0 then (s, .bare .range)
  else
    let s := s.setRole l (change set (s.role l))
    (s, { status := .ok, fields := attentionBytes s l })

/-- Clear the latched requests of the causes named. A level cause named follows its condition: it is not held here. -/
def RoleFlags.acknowledge (set : BitVec 8) (f : RoleFlags) : RoleFlags := { f with edges := f.edges &&& ~~~set }

/-- Replace the enable set. -/
def RoleFlags.enable (set : BitVec 8) (f : RoleFlags) : RoleFlags := { f with enables := set }

/-! ### Events (R161, R162) -/

/-- READ-EVENTS' field: n. -/
def readEvents : Handler := fun _ fields s =>
  let n := fieldAt fields 0 1
  if n < 1 ∨ 8 < n then (s, .bare .range)
  else
    let q := s.events
    let out := q.entries.take n
    ({ s with events := { q with entries := q.entries.drop n } },
      { status := .ok,
        fields := u8 out.length ++ u8 (q.entries.length - out.length) ++ flag8 q.overflow ++ u32 q.lost ++
          out.flatMap Event.bytes })

/-- CLEAR-EVENT-OVERFLOW: the flag and count as they stood. -/
def clearEventOverflow : Handler := fun _ _ s =>
  ({ s with events := { s.events with overflow := false, lost := 0 } },
    { status := .ok, fields := flag8 s.events.overflow ++ u32 s.events.lost })

/-! ### READ-STATUS (R180) -/

/-- A chain unit's items of page 0 (R11). -/
def chainStatus (u : ChainUnit) (p : ChainParams) : List Byte :=
  u8 u.sync.code ++ u32 u.serial.toNat ++ u16 u.count ++ u8 u.good ++ u8 u.miss ++ flag8 u.stopped ++ flag8 u.reverse ++
  flag8 p.valid

/-- Page 0 (R22, R11). -/
def statusLine (s : State) : List Byte :=
  [Config.lineStateCode (decide (s.board.line = .run))] ++ u16 s.board.nextTag ++ u8 s.board.trimmer.length ++
  u8 s.board.transfer.length ++ u8 s.board.sorter.length ++ u8 ((s.board.transfer.head?.map (·.age)).getD 0) ++
  chainStatus s.tcu (s.params .trimmer) ++ chainStatus s.scu (s.params .sorter)

/-- The eight counts of a position (R73). -/
def MarkCounts.bytes (c : MarkCounts) : List Byte :=
  u32 c.keys ++ u32 c.voids ++ u32 c.refusals ++ u32 c.commits ++ u32 c.passes ++ u32 c.missed ++ u32 c.badBytes ++
  u32 c.repliesLost

/-- A slot's tag (0 EMPTY, 1 VALID, 2 VOID). -/
def Slot.tagByte : Slot → Byte
  | .empty => 0
  | .valid _ => 1
  | .void _ => 2

/-- A slot's key code, 0 for none. -/
def Slot.keyByte : Slot → Byte
  | .empty => 0
  | .valid k | .void k => markKeyCode k

/-- A grading position's items of page 1; the slots are shown on link 1 only (R62). -/
def gradingStatus (s : State) (l : LinkId) (p : Position) : List Byte :=
  let g := s.grading p
  let target := g.target.bind fun t => byTag s.board.trimmer t
  u8 g.depth ++ u8 g.top.val ++ u16 (g.target.getD 0) ++
  u8 ((target.map fun r => r.trimmerOffset s.tcu.serial).getD 0) ++ g.counts.bytes ++
  (match l with
    | .lineController => g.slots.toList.map Slot.tagByte ++ g.slots.toList.map Slot.keyByte
    | .optimizer | .tallyStation => [])

def Stage.number : Stage → Nat
  | .idle => 0
  | .first => 1
  | .second => 2

/-- A saw record's items of page 2, in the order of R110's table. -/
def sawStatus (s : State) (saw : Nat) : List Byte :=
  let r := s.saw saw
  flag8 r.enabled ++ u8 (s.sawMode saw).code ++ flag8 r.commanded ++ flag8 r.feedback ++
  [Config.windowStageCode r.stage.number] ++ u16 r.timer ++ u8 r.misses ++ u32 r.totalMisses ++ u32 r.retries

/-- Page 2 (R110). -/
def statusSaws (s : State) : List Byte :=
  allSaws.flatMap (sawStatus s) ++ u16 s.saws.owner ++ u16 s.tables.settings.window ++ u8 s.tables.settings.missLimit

/-- Page 3 (R75, R53, R84, R108), its reason counts in the order of the reason codes of R178 (DESIGN CHOICE, log 26). -/
def statusDecisions (s : State) : List Byte :=
  let p := s.board.postings
  let f := s.board.forces
  let d := s.decision
  d.mode.bytes ++ u32 d.modesTaken ++ u32 d.modesRefused ++ u32 p.taken ++ u32 p.noTag ++ u32 p.late ++ u32 p.range ++
  u32 p.noticesLost ++ u32 f.taken ++ u32 f.redecided ++ u32 f.noTag ++ u32 f.late ++ u32 f.range ++ u32 d.atLine ++
  u32 d.redecides ++ d.reasons.toList.flatMap u32 ++
  (match d.last with
    | none => zeros 5
    | some x => u16 x.tag ++ u8 x.kind.code ++ u8 x.source.code ++ u8 x.reason.code)

/-- Page 4 (R149, R155, R156), its four ready flags in one byte as RELEASE-SEGMENT answers them, and the pending trailer and the sequence
counter after them, in the order of R149, where R180 names the writer as one item before them (DESIGN CHOICE, log 26). -/
def statusTally (s : State) : List Byte :=
  let st := s.tally.stream
  let t := s.tally.live
  u8 (if st.blocked then 2 else 1) ++ u8 st.segment.val ++ u8 st.slot ++ u8 st.ready.toNat ++ flag8 st.trailer.isSome ++
  u32 st.sequence.toNat ++ u16 t.shift ++ u32 t.written ++ u32 t.dropped ++ flag8 t.saturated ++ flag8 s.tables.active1 ++
  u32 s.tables.edits ++ u32 s.tables.editsRefused ++ u32 s.tables.switches

def Receiver.number : Receiver → Nat
  | .hunt => 0
  | .frame _ _ => 1
  | .skip => 2

/-- A link's items of page 5 (R172). -/
def linkStatus (k : LinkState) : List Byte :=
  [Config.receiverStateCode k.rx.number] ++ u16 k.fill ++ flag8 k.rxPause ++ flag8 k.txPause ++ u8 k.tx.length ++ u32 k.stray ++
  u32 k.framing ++ u32 k.crcFaults ++ u32 k.overruns ++ u32 k.taken ++ u32 k.denied ++ u32 k.format ++ u32 k.breaks

/-- Page 6 (R163, R160): each role's request set and then its enable set, role by role (DESIGN CHOICE, log 26). -/
def statusAttention (s : State) : List Byte :=
  attentionBytes s .optimizer ++ attentionBytes s .lineController ++ attentionBytes s .tallyStation ++
  u8 s.events.entries.length ++ flag8 s.events.overflow ++ u32 s.events.lost

/-- Page 7: the counts in the order R141 lists them. -/
def SortCounts.bytes (c : SortCounts) : List Byte :=
  u32 c.group ++ u32 c.overflow ++ u32 c.reject ++ u32 c.reman ++ u32 c.runout ++ u32 c.reroutes ++ u32 c.pendingFull ++
  u32 c.suspectPasses ++ u32 c.fires ++ u32 c.confirms ++ u32 c.misses ++ u32 c.strays

/-- The items of a page, for a link. -/
def statusPage (s : State) (l : LinkId) : Nat → Option (List Byte)
  | 0 => some (statusLine s)
  | 1 => some (gradingStatus s l .a ++ gradingStatus s l .b)
  | 2 => some (statusSaws s)
  | 3 => some (statusDecisions s)
  | 4 => some (statusTally s)
  | 5 => some (linkStatus (s.link .optimizer) ++ linkStatus (s.link .lineController) ++ linkStatus (s.link .tallyStation))
  | 6 => some (statusAttention s)
  | 7 => some s.sort.counts.bytes
  | _ => none

/-- READ-STATUS' field: the page. -/
def readStatus : Handler := fun l fields s =>
  match statusPage s l (fieldAt fields 0 1) with
  | some bytes => (s, { status := .ok, fields := bytes })
  | none => (s, .bare .range)

/-! ### Commands -/

/-- READ_STATUS (R180). -/
def execReadStatus (l : LinkId) (num : Byte) (fields : List Byte) (s : State) : Result State :=
  serve .readStatus l num fields readStatus s

/-- READ_EVENTS (R161). -/
def execReadEvents (l : LinkId) (num : Byte) (fields : List Byte) (s : State) : Result State :=
  serve .readEvents l num fields readEvents s

/-- CLEAR_EVENT_OVERFLOW (R162). -/
def execClearEventOverflow (l : LinkId) (num : Byte) (fields : List Byte) (s : State) : Result State :=
  serve .clearEventOverflow l num fields clearEventOverflow s

/-- ACK_ATTENTION (R164). -/
def execAckAttention (l : LinkId) (num : Byte) (fields : List Byte) (s : State) : Result State :=
  serve .ackAttention l num fields (attentionRequest RoleFlags.acknowledge) s

/-- SET_ATTENTION_ENABLE (R164). -/
def execSetAttentionEnable (l : LinkId) (num : Byte) (fields : List Byte) (s : State) : Result State :=
  serve .setAttentionEnable l num fields (attentionRequest RoleFlags.enable) s

end Sys2Proof.Machine
end

