-- ==== Sys2Proof/Machine/Tables.lean ====
section
/-! DEFINITION. The table store (R174 to R176): the entries of each table as bytes (R180), their validation (R11, R13, R125, R130,
R176), what a taken load does, and LOAD-TABLE and READ-TABLE in its two forms. -/

namespace Sys2Proof.Machine

/-- Where a load's first fault lies: the entry and the item (R180). -/
abbrev Locator := Nat × Nat

/-- The locator of the first check that fails; a check is whether it fails, and where. -/
def firstFault (checks : List (Bool × Locator)) : Option Locator := (checks.find? (·.1)).map (·.2)

/-- A number lies outside a range. -/
def outside (lo hi n : Nat) : Bool := n < lo || hi < n

/-- The state with the tables changed. -/
def State.modifyTables (s : State) (f : TableStore → TableStore) : State := { s with tables := f s.tables }

/-! ### Entries as bytes (R180) -/

/-- Bytes of an entry of a table whose entries have one size, 0 for the bin-group table. -/
def entryBytes : TableId → Nat
  | .settings => 22
  | .saw => 73
  | .size => 36
  | .grade => 3
  | .station => 8
  | .bin => 13
  | .binGroup => 0
  | .sortRule => 6

/-- The most entries a load may stage (R175). -/
def maxEntries : TableId → Nat
  | .bin => 48
  | .sortRule => 64
  | .settings | .saw | .size | .grade | .station | .binGroup => 1

/-- The group entries of a bin-group load, each a number, a length and that many bins; none where they do not end on a whole entry.
`fuel` is at least the number of bytes. -/
def splitGroups : Nat → List Byte → Option (List (List Byte))
  | _, [] => some []
  | fuel + 1, number_ :: n :: rest =>
    if rest.length < n.toNat then none
    else (splitGroups fuel (rest.drop n.toNat)).map fun groups => (number_ :: n :: rest.take n.toNat) :: groups
  | _, _ => none

/-- The group entries that follow the three special bins. -/
def groupEntries (bytes : List Byte) : Option (List (List Byte)) := splitGroups bytes.length (bytes.drop 3)

/-- A part's bytes end on a whole entry (R175). A part of the bin-group table is empty or a whole entry set: the three special bins and
then group entries (log 13). -/
def wholeEntries (table : TableId) (bytes : List Byte) : Bool :=
  match table with
  | .binGroup => decide (bytes = []) || (decide (3 ≤ bytes.length) && (groupEntries bytes).isSome)
  | .settings | .saw | .size | .grade | .station | .bin | .sortRule => decide (bytes.length % entryBytes table = 0)

/-- The entries that bytes which end on a whole entry make. A bin-group entry set is one entry (log 13). -/
def entryCount (table : TableId) (bytes : List Byte) : Nat :=
  match table with
  | .binGroup => if bytes = [] then 0 else 1
  | .settings | .saw | .size | .grade | .station | .bin | .sortRule => bytes.length / entryBytes table

/-- The entries of a table whose entries have one size. -/
def entriesOf (size : Nat) (bytes : List Byte) : List (List Byte) :=
  (List.range (bytes.length / size)).map fun i => (bytes.drop (size * i)).take size

/-! ### Settings (R11, R176) -/

/-- The faults of a chain's parameters at an offset of the entry, whose load mark is the item `item`. -/
def chainChecks (bytes : List Byte) (at_ item : Nat) : List (Bool × Locator) :=
  let mark := fieldAt bytes at_ 1
  [(decide (1 < mark), (1, item)),
   (decide (mark = 1) && outside 64 4096 (fieldAt bytes (at_ + 1) 2), (1, item + 1)),
   (decide (mark = 1) && outside 20 2000 (fieldAt bytes (at_ + 5) 2), (1, item + 3))]

/-- The first fault of a settings load. -/
def settingsFault (bytes : List Byte) : Option Locator :=
  firstFault ([
    (outside 0 100 (fieldAt bytes 0 2), (1, 1)),
    (outside 0 200 (fieldAt bytes 2 2), (1, 2)),
    (outside 10 1000 (fieldAt bytes 4 2), (1, 3)),
    (outside 1 15 (fieldAt bytes 6 1), (1, 4)),
    (outside 1 16 (fieldAt bytes 7 1), (1, 5))] ++ chainChecks bytes 8 6 ++ chainChecks bytes 15 10)

/-- A chain's parameters as loaded, E clamped to 1 to C/4 (R11), or as they are under a load mark of 0. -/
def chainLoaded (bytes : List Byte) (at_ : Nat) (old : ChainParams) : ChainParams :=
  let pitch := fieldAt bytes (at_ + 1) 2
  if fieldAt bytes at_ 1 = 1 then
    { pitch, tolerance := clampTo 1 (roundDiv pitch 4) (fieldAt bytes (at_ + 3) 2), stopTime := fieldAt bytes (at_ + 5) 2,
      valid := true }
  else old

/-- E of a chain that a load carries was brought to a limit. -/
def chainClamped (bytes : List Byte) (at_ : Nat) : Bool :=
  decide (fieldAt bytes at_ 1 = 1) && outside 1 (roundDiv (fieldAt bytes (at_ + 1) 2) 4) (fieldAt bytes (at_ + 3) 2)

/-- The settings table of a load, over the table held. -/
def settingsOf (bytes : List Byte) (old : Settings) : Settings :=
  { fence := fieldAt bytes 0 2, allowance := fieldAt bytes 2 2, window := fieldAt bytes 4 2, missLimit := fieldAt bytes 6 1,
    ageLimit := fieldAt bytes 7 1, trimmer := chainLoaded bytes 8 old.trimmer, sorter := chainLoaded bytes 15 old.sorter }

/-- A chain whose parameters were loaded returns to SEARCH with c, the good and the miss count at 0 (R11). -/
def returnToSearch (ch : Chain) (s : State) : State :=
  changeSync ch .search (s.setUnit ch (s.unit ch).untracked)

/-- Take a settings load. Where it carries both chains, the trimmer chain's SYNC-CHANGE is raised first (DESIGN CHOICE, log 22). -/
def loadSettings (bytes : List Byte) (s : State) : State :=
  let s := s.modifyTables fun t => { t with settings := settingsOf bytes t.settings }
  let s := if fieldAt bytes 8 1 = 1 then returnToSearch .trimmer s else s
  if fieldAt bytes 15 1 = 1 then returnToSearch .sorter s else s

/-- A chain's bytes: the valid flag as the load mark, C, E, stop time. -/
def ChainParams.bytes (p : ChainParams) : List Byte := flag8 p.valid ++ u16 p.pitch ++ u16 p.tolerance ++ u16 p.stopTime

def Settings.bytes (t : Settings) : List Byte :=
  u16 t.fence ++ u16 t.allowance ++ u16 t.window ++ u8 t.missLimit ++ u8 t.ageLimit ++ t.trimmer.bytes ++ t.sorter.bytes

/-! ### Saw, size, grade and station (R13, R176) -/

/-- A confirm mode's code. -/
def confirmModeOf : Nat → Option ConfirmMode
  | 1 => some .none
  | 2 => some .confirm
  | 3 => some .retry
  | _ => none

/-- Position and nominal of saw k in a saw load, if its configured mark is 1. -/
def sawPlaceOf (bytes : List Byte) (k : Nat) : Option SawPlace :=
  let at_ := 1 + 6 * (k - 1)
  if fieldAt bytes at_ 1 = 1 then some { position := fieldAt bytes (at_ + 1) 2, nominal := fieldAt bytes (at_ + 3) 2 } else none

/-- The faults of length saw k in a saw load, whose items are its mark, position, nominal and confirm mode. -/
def sawChecks (bytes : List Byte) (k : Nat) : List (Bool × Locator) :=
  let at_ := 1 + 6 * (k - 1)
  let item := 2 + 4 * (k - 1)
  let lower := (List.range (k - 1)).filterMap fun i => sawPlaceOf bytes (i + 1)
  let place := sawPlaceOf bytes k
  let badPosition := match place with
    | some p => outside 300 7000 p.position || lower.any fun q => decide (p.position ≤ q.position)
    | none => false
  let badNominal := match place with
    | some p => outside 1 p.position p.nominal || lower.any fun q => decide (p.nominal ≤ q.nominal)
    | none => false
  [(decide (1 < fieldAt bytes at_ 1), (1, item)), (badPosition, (1, item + 1)), (badNominal, (1, item + 2)),
   ((confirmModeOf (fieldAt bytes (at_ + 5) 1)).isNone, (1, item + 3))]

/-- The first fault of a saw load. -/
def sawFault (bytes : List Byte) : Option Locator :=
  firstFault ([((confirmModeOf (fieldAt bytes 0 1)).isNone, (1, 1))] ++ lengthSaws.flatMap (sawChecks bytes))

/-- The saw table of a load. -/
def sawTableOf (bytes : List Byte) : SawTable :=
  { places := Vector.ofFn fun i => sawPlaceOf bytes (i.val + 1)
    modes := Vector.ofFn fun i => (confirmModeOf (fieldAt bytes (6 * i.val) 1)).getD .none }

/-- The saw table as READ-TABLE sends it, position and nominal length 0 under a configured mark of 0 (DESIGN CHOICE, log 13). -/
def SawTable.bytes (t : SawTable) : List Byte :=
  u8 (entryD t.modes 0 .none).code ++ lengthSaws.flatMap fun k =>
    (match entryD t.places (k - 1) none with
      | some p => u8 1 ++ u16 p.position ++ u16 p.nominal
      | none => zeros 5) ++ u8 (entryD t.modes k .none).code

/-- A measurement of a size load, if its defined mark is 1. -/
def sizeOf_ (bytes : List Byte) (i : Nat) : Option Nat :=
  if fieldAt bytes (3 * i) 1 = 1 then some (fieldAt bytes (3 * i + 1) 2) else none

/-- The faults of one code of a size load, whose items are its mark and its measurement. -/
def sizeChecks (bytes : List Byte) (i lo hi : Nat) : List (Bool × Locator) :=
  [(decide (1 < fieldAt bytes (3 * i) 1), (1, 1 + 2 * i)),
   (match sizeOf_ bytes i with
    | some n => outside lo hi n
    | none => false, (1, 2 + 2 * i))]

/-- The first fault of a size load: thickness codes 1 to 4, then width codes 1 to 8. -/
def sizeFault (bytes : List Byte) : Option Locator :=
  firstFault (((List.range 4).flatMap fun i => sizeChecks bytes i 10 150) ++
    (List.range 8).flatMap fun i => sizeChecks bytes (i + 4) 25 400)

/-- The size table of a load. -/
def sizeTableOf (bytes : List Byte) : SizeTable :=
  { thickness := Vector.ofFn fun i => sizeOf_ bytes i.val, width := Vector.ofFn fun i => sizeOf_ bytes (i.val + 4) }

/-- The size table as READ-TABLE sends it, the measurement 0 under a defined mark of 0 (DESIGN CHOICE, log 13). -/
def SizeTable.bytes (t : SizeTable) : List Byte :=
  (t.thickness.toList ++ t.width.toList).flatMap fun
    | some n => u8 1 ++ u16 n
    | none => zeros 3

/-- The first fault of a grade load. -/
def gradeFault (bytes : List Byte) : Option Locator := firstFault [(outside 1 10 (fieldAt bytes 2 1), (1, 2))]

/-- The grade table of a load. Bits of the set that name no grade are ignored (R178). -/
def gradeTableOf (bytes : List Byte) : GradeTable :=
  { enabled := BitVec.ofNat 10 (fieldAt bytes 0 2), default := fieldAt bytes 2 1 }

def GradeTable.bytes (t : GradeTable) : List Byte := u16 t.enabled.toNat ++ u8 t.default

/-- The station table of a load. -/
def stationTableOf (bytes : List Byte) : StationTable :=
  { aLo := fieldAt bytes 0 1, aHi := fieldAt bytes 1 1, bLo := fieldAt bytes 2 1, bHi := fieldAt bytes 3 1,
    decision := fieldAt bytes 4 1, sawSet := fieldAt bytes 5 1, outfeed := fieldAt bytes 6 1, runout := fieldAt bytes 7 1 }

/-- The first fault of a station table (R13). Where two fields clash the later one is named: the high line of a window, D, S or O (DESIGN
CHOICE, log 13). -/
def stationFault (t : StationTable) : Option Locator :=
  firstFault [
    (decide (t.aLo < 1), (1, 1)),
    (decide (t.aHi < t.aLo), (1, 2)),
    (decide (t.bLo < 1), (1, 3)),
    (decide (t.bHi < t.bLo), (1, 4)),
    (decide (t.decision ≤ t.aHi) || decide (t.decision ≤ t.bHi), (1, 5)),
    (decide (t.sawSet ≤ t.decision), (1, 6)),
    (decide (t.outfeed < t.sawSet + 1) || decide (60 < t.outfeed), (1, 7)),
    (outside 1 127 t.runout, (1, 8))]

def StationTable.bytes (t : StationTable) : List Byte :=
  u8 t.aLo ++ u8 t.aHi ++ u8 t.bLo ++ u8 t.bHi ++ u8 t.decision ++ u8 t.sawSet ++ u8 t.outfeed ++ u8 t.runout

/-! ### Bins (R125) -/

/-- The bin number of a bin entry. -/
def entryBin (entry : List Byte) : Nat := fieldAt entry 0 1

/-- The items of a bin entry, gate pulse and confirm window clamped. -/
def binItemsOf (entry : List Byte) : BinItems :=
  { drop := fieldAt entry 1 1, capacity := fieldAt entry 2 2, hi := fieldAt entry 4 2, lo := fieldAt entry 6 2,
    pulse := clampTo 20 1000 (fieldAt entry 8 2), confirm := fieldAt entry 10 1 = 2,
    window := clampTo 5 500 (fieldAt entry 11 2) }

/-- A bin entry's pulse or window was clamped. -/
def binClamped (entry : List Byte) : Bool := outside 20 1000 (fieldAt entry 8 2) || outside 5 500 (fieldAt entry 11 2)

/-- The faults of a bin entry after the bins named by the entries before it (R125). A hi above capacity is named at hi, and a lo not below
hi at lo (DESIGN CHOICE, log 13). -/
def State.binChecks (s : State) (earlier : List Nat) (entry : List Byte) : List (Bool × Locator) :=
  let bin := entryBin entry
  let it := binItemsOf entry
  [(!binExists bin || earlier.contains bin, (bin, 1)),
   (outside 1 126 it.drop, (bin, 2)),
   (outside 1 4000 it.capacity || decide (it.capacity < (s.bin bin).dropped), (bin, 3)),
   (decide (it.capacity < it.hi), (bin, 4)),
   (decide (it.hi ≤ it.lo), (bin, 5)),
   (outside 1 2 (fieldAt entry 10 1), (bin, 7))]

/-- The first fault of a bin load's entries, in order. -/
def State.binFault (s : State) (earlier : List Nat) : List (List Byte) → Option Locator
  | [] => none
  | entry :: rest =>
    match firstFault (s.binChecks earlier entry) with
    | some at_ => some at_
    | none => s.binFault (entryBin entry :: earlier) rest

/-- A bin record after a load that names it or not, by the state table of R125; FULL is told apart by `loadBin`. -/
def BinRec.loaded (items : Option BinItems) (b : BinRec) : BinRec :=
  match items with
  | none => { b with items := none, state := .disabled }
  | some it =>
    if b.items.isNone then
      { b with items, misses := 0, state := if b.dropped < it.capacity then .opened else .full }
    else { b with items, state := if b.state = .opened ∧ b.dropped = it.capacity then .full else b.state }

/-- Load one bin: BIN-FULL is raised when the load makes it FULL, and NEAR is judged when it is fitted. -/
def loadBin (entries : List (List Byte)) (s : State) (bin : Nat) : State :=
  let items := (entries.find? fun e => entryBin e = bin).map binItemsOf
  let was := (s.bin bin).state
  let fittedBefore := (s.bin bin).items.isSome
  let s := s.modifyBin bin (BinRec.loaded items)
  let s := if (s.bin bin).state = .full ∧ (was ≠ .full ∨ !fittedBefore) then latch .binFull s else s
  judgeNear bin s

/-- Take a bin load. -/
def loadBins (entries : List (List Byte)) (s : State) : State := allBins.foldl (loadBin entries) s

/-- A fitted bin's entry as stored. -/
def binEntry (bin : Nat) (it : BinItems) : List Byte :=
  u8 bin ++ u8 it.drop ++ u16 it.capacity ++ u16 it.hi ++ u16 it.lo ++ u16 it.pulse ++ u8 (if it.confirm then 2 else 1) ++
  u16 it.window

/-! ### Bin groups and sort rules (R130) -/

/-- The faults of a group entry, the `n`th, after the groups defined by the entries before it (R130). A group defined twice or a bin named
twice is named where it stands the second time (DESIGN CHOICE, log 13). -/
def groupChecks (n : Nat) (earlier : List Nat) (entry : List Byte) : List (Bool × Locator) :=
  let group := fieldAt entry 0 1
  let bins := (entry.drop 2).map (·.toNat)
  [(outside 1 24 group || earlier.contains group, (n, 1)), (outside 1 4 (fieldAt entry 1 1), (n, 2))] ++
  bins.zipIdx.map fun (b, i) => (!binExists b || (bins.take i).contains b, (n, 3 + i))

/-- The first fault of group entries, numbered from `n`. -/
def groupFault (n : Nat) (earlier : List Nat) : List (List Byte) → Option Locator
  | [] => none
  | entry :: rest =>
    match firstFault (groupChecks n earlier entry) with
    | some at_ => some at_
    | none => groupFault (n + 1) (fieldAt entry 0 1 :: earlier) rest

/-- The first fault of a bin-group load: the special bins, as entry 0, then the groups. -/
def binGroupFault (bytes : List Byte) : Option Locator :=
  (firstFault ((List.range 3).map fun i => (decide (48 < fieldAt bytes i 1), (0, i + 1)))).or
    (groupFault 1 [] ((groupEntries bytes).getD []))

/-- The bin-group table of a load. -/
def groupTableOf (bytes : List Byte) : GroupTable :=
  let entries := (groupEntries bytes).getD []
  { groups := Vector.ofFn fun i =>
      (entries.find? fun e => fieldAt e 0 1 = i.val + 1).map fun e => (e.drop 2).map (·.toNat)
    reject := fieldAt bytes 0 1, reman := fieldAt bytes 1 1, overflow := fieldAt bytes 2 1 }

/-- The bin-group table as READ-TABLE sends it: its groups by rising number, in whatever order they were loaded (DESIGN CHOICE, log 13). -/
def GroupTable.bytes (t : GroupTable) : List Byte :=
  u8 t.reject ++ u8 t.reman ++ u8 t.overflow ++ (List.range 24).flatMap fun i =>
    match entryD t.groups i none with
    | some bins => u8 (i + 1) ++ u8 bins.length ++ bins.flatMap u8
    | none => []

/-- A sort rule of an entry. Bits that name no grade are ignored (R178). -/
def ruleOf (entry : List Byte) : SortRule :=
  { grades := BitVec.ofNat 10 (fieldAt entry 0 2), lo := fieldAt entry 2 1, hi := fieldAt entry 3 1,
    widths := BitVec.ofNat 8 (fieldAt entry 4 1), group := fieldAt entry 5 1 }

/-- The faults of the `n`th sort rule. A class range out of order is named at its class hi (DESIGN CHOICE, log 13). -/
def ruleChecks (n : Nat) (r : SortRule) : List (Bool × Locator) :=
  [(decide (r.grades = 0), (n, 1)), (outside 1 12 r.lo, (n, 2)), (decide (r.hi < r.lo) || decide (12 < r.hi), (n, 3)),
   (decide (r.widths = 0), (n, 4)), (outside 1 24 r.group, (n, 5))]

/-- The first fault of a sort-rule load. -/
def ruleFault (rules : List SortRule) : Option Locator :=
  firstFault (rules.zipIdx.flatMap fun (r, i) => ruleChecks (i + 1) r)

def SortRule.bytes (r : SortRule) : List Byte :=
  u16 r.grades.toNat ++ u8 r.lo ++ u8 r.hi ++ u8 r.widths.toNat ++ u8 r.group

/-! ### A completed load (R175, R176) -/

/-- The first fault of a completed load. A single-entry table completed with no entry set is a fault of the part as a whole (DESIGN
CHOICE, log 13). -/
def State.loadFault (s : State) (table : TableId) (bytes : List Byte) : Option Locator :=
  match table with
  | .bin => s.binFault [] (entriesOf 13 bytes)
  | .sortRule => ruleFault ((entriesOf 6 bytes).map ruleOf)
  | .settings => if bytes = [] then some (0, 0) else settingsFault bytes
  | .saw => if bytes = [] then some (0, 0) else sawFault bytes
  | .size => if bytes = [] then some (0, 0) else sizeFault bytes
  | .grade => if bytes = [] then some (0, 0) else gradeFault bytes
  | .station => if bytes = [] then some (0, 0) else stationFault (stationTableOf bytes)
  | .binGroup => if bytes = [] then some (0, 0) else binGroupFault bytes

/-- A load that passes was clamped. -/
def loadClamped (table : TableId) (bytes : List Byte) : Bool :=
  match table with
  | .settings => chainClamped bytes 8 || chainClamped bytes 15
  | .bin => (entriesOf 13 bytes).any binClamped
  | .saw | .size | .grade | .station | .binGroup | .sortRule => false

/-- A table's valid flag set. -/
def ValidFlags.set (v : ValidFlags) : TableId → ValidFlags
  | .settings => { v with settings := true }
  | .saw => { v with saw := true }
  | .size => { v with size := true }
  | .grade => { v with grade := true }
  | .station => { v with station := true }
  | .bin => { v with bin := true }
  | .binGroup => { v with binGroup := true }
  | .sortRule => { v with sortRule := true }

/-- A table's valid flag. -/
def ValidFlags.get (v : ValidFlags) : TableId → Bool
  | .settings => v.settings
  | .saw => v.saw
  | .size => v.size
  | .grade => v.grade
  | .station => v.station
  | .bin => v.bin
  | .binGroup => v.binGroup
  | .sortRule => v.sortRule

/-- Replace a stored table whole with a load that passed. -/
def storeTable (table : TableId) (bytes : List Byte) (s : State) : State :=
  match table with
  | .settings => loadSettings bytes s
  | .saw => s.modifyTables fun t => { t with saw := sawTableOf bytes }
  | .size => s.modifyTables fun t => { t with size := sizeTableOf bytes }
  | .grade => s.modifyTables fun t => { t with grade := gradeTableOf bytes }
  | .station => s.modifyTables fun t => { t with station := stationTableOf bytes }
  | .bin => loadBins (entriesOf 13 bytes) s
  | .binGroup => s.modifyTables fun t => { t with groups := groupTableOf bytes }
  | .sortRule => s.modifyTables fun t => { t with rules := (entriesOf 6 bytes).map ruleOf }

/-- Take a load that passed: the table replaced, its valid flag set, the staging area emptied. -/
def takeLoad (table : TableId) (bytes : List Byte) (s : State) : State :=
  (storeTable table bytes s).modifyTables fun t => { t with valid := t.valid.set table, staging := none }

/-- The entries of the part just sent, as stored (R180). -/
def storedPart (s : State) (table : TableId) (part : List Byte) : List Byte :=
  if part = [] then []
  else
    match table with
    | .settings => s.tables.settings.bytes
    | .saw => s.tables.saw.bytes
    | .size => s.tables.size.bytes
    | .grade => s.tables.grade.bytes
    | .station => s.tables.station.bytes
    | .bin => (entriesOf 13 part).flatMap fun e => binEntry (entryBin e) (binItemsOf e)
    | .binGroup => part
    | .sortRule => (entriesOf 6 part).flatMap fun e => (ruleOf e).bytes

/-! ### LOAD-TABLE (R175) -/

/-- The staging area as a STATE refusal names it: the table staged, 0 for none, and the part expected. -/
def stagingBytes : Option Staging → List Byte
  | none => u8 0 ++ u8 0
  | some st => u8 st.table.code ++ u8 (st.expected.getD 0)

/-- A RANGE refusal of LOAD-TABLE with its locator. -/
def loadRange (at_ : Locator) : Answer := { status := .range, fields := u8 at_.1 ++ u8 at_.2 }

/-- The staging area holds a table with a part expected. -/
def stagingExpects (st : Option Staging) (table : TableId) (part : Nat) : Bool :=
  match st with
  | some st => decide (st.table = table) && decide (st.expected = some part)
  | none => false

/-- Judge and complete a load whose staged bytes are `total`, the last part's among them (R175). -/
def completeLoad (table : TableId) (part : Nat) (bytes total : List Byte) (count : Nat) (s : State) : State × Answer :=
  match s.loadFault table total with
  | some at_ => (s.modifyTables fun t => { t with staging := some { table, expected := none, bytes := total } }, loadRange at_)
  | none =>
    let s := takeLoad table total s
    (s, { status := if loadClamped table total then .okClamped else .ok,
          fields := u8 table.code ++ u8 part ++ u8 count ++ storedPart s table bytes })

/-- Judge a part of a loadable table, from the case of R175 after the table and part numbers on. -/
def judgePart (table : TableId) (part : Nat) (last : Bool) (bytes : List Byte) (s : State) : State × Answer :=
  let st := s.tables.staging
  if part = 7 ∧ last = false then (s, loadRange (0, 0))
  else if part ≠ 0 ∧ stagingExpects st table part = false then (s, { status := .state, fields := stagingBytes st })
  else
    let staged := if part = 0 then [] else (st.map (·.bytes)).getD []
    let count := entryCount table staged + entryCount table bytes
    if wholeEntries table bytes = false ∨ maxEntries table < count then (s, loadRange (0, 0))
    else if last then completeLoad table part bytes (staged ++ bytes) count s
    else
      (s.modifyTables fun t => { t with staging := some { table, expected := some (part + 1), bytes := staged ++ bytes } },
        { status := .ok, fields := u8 table.code ++ u8 part ++ u8 count })

/-- LOAD-TABLE's fields: table, part, last-part flag, then entries (R175). A last-part flag other than 0 and 1 is out of range
(DESIGN CHOICE, log 13). -/
def loadTable : Handler := fun _ fields s =>
  match s.board.line with
  | .run => (s, .bare .state)
  | .config =>
    let part := fieldAt fields 1 1
    let last := fieldAt fields 2 1
    match tableOfCode (fieldAt fields 0 1) with
    | none => (s, loadRange (0, 0))
    | some table =>
      if 7 < part ∨ 1 < last then (s, loadRange (0, 0)) else judgePart table part (decide (last = 1)) (fields.drop 3) s

/-! ### READ-TABLE (R174) -/

/-- A part of a loadable table as stored; a bin part lists its bins by rising number (DESIGN CHOICE, log 13). -/
def State.tablePart (s : State) (table : TableId) (part : Nat) : Option (List Byte) :=
  let single (bytes : List Byte) : Option (List Byte) := if part = 0 then some bytes else none
  match table with
  | .settings => single s.tables.settings.bytes
  | .saw => single s.tables.saw.bytes
  | .size => single s.tables.size.bytes
  | .grade => single s.tables.grade.bytes
  | .station => single s.tables.station.bytes
  | .binGroup => single s.tables.groups.bytes
  | .bin =>
    if 7 < part then none
    else some ((List.range 6).flatMap fun i =>
      let bin := 6 * part + i + 1
      match (s.bin bin).items with
      | some it => binEntry bin it
      | none => [])
  | .sortRule => if 7 < part then none else some (((s.tables.rules.drop (8 * part)).take 8).flatMap (·.bytes))

/-- A part of a price bank: the 12 prices of a grade. -/
def bankPart (bank : Vector Nat 120) (part : Nat) : Option (List Byte) :=
  if 9 < part then none else some (lengthSaws.flatMap fun k => u32 (bankPrice bank (part + 1) k))

/-- Valid flag and bytes of the part that a read names. -/
def State.readPart (s : State) (table part : Nat) : Option (Bool × List Byte) :=
  match table with
  | 9 => (bankPart s.tables.bank0 part).map fun b => (true, b)
  | 10 => (bankPart s.tables.bank1 part).map fun b => (true, b)
  | n => (tableOfCode n).bind fun t => (s.tablePart t part).map fun b => (s.tables.valid.get t, b)

/-- READ-TABLE's fields: table, part. -/
def readTable : Handler := fun _ fields s =>
  let table := fieldAt fields 0 1
  let part := fieldAt fields 1 1
  match s.readPart table part with
  | some (valid, bytes) => (s, { status := .ok, fields := u8 table ++ u8 part ++ flag8 valid ++ bytes })
  | none => (s, .bare .range)

/-! ### Commands -/

/-- LOAD_TABLE (R175). -/
def execLoadTable (l : LinkId) (num : Byte) (fields : List Byte) (s : State) : Result State :=
  serve .loadTable l num fields loadTable s

/-- READ_TABLE (R174). -/
def execReadTable (l : LinkId) (num : Byte) (fields : List Byte) (s : State) : Result State :=
  serve .readTable l num fields readTable s

/-- READ_TABLE_TALLY_FORM (R179): code 14h, answered as READ-TABLE. -/
def execReadTableTallyForm (l : LinkId) (num : Byte) (fields : List Byte) (s : State) : Result State :=
  serve .readTableTallyForm l num fields readTable s

end Sys2Proof.Machine
end

