-- ==== Sys2Proof/Machine/Timebase.lean ====
section
/-! DEFINITION. Power, RESETN, the settle period and the timebase (R16 to R18): the four power commands, the 1 ms tick with the timers
it drives, and one period of the reference clock. -/

namespace Sys2Proof.Machine

/-! ### Power-on and RESETN (R17, R18) -/

/-- A power-on with RESETN as it stands: every block at its power-on values, the baud-select pins sampled. The levels outside the part
and the commands that wait are not the part's and stay. -/
def State.powered (s : State) (baud : BaudPins) (resetLow : Bool) : State := .powerOn s.pins resetLow baud s.pending

/-- RESETN driven low: every block at its power-on values, each link at the rate last sampled, until the release (R18, R167). -/
def State.held (s : State) : State :=
  let t := s.powered { a0 := false, b0 := false, a1 := false, b1 := false, a2 := false, b2 := false } true
  { t with links :=
      { t.links with
        optimizer := { t.links.optimizer with baud := s.links.optimizer.baud }
        lineController := { t.links.lineController with baud := s.links.lineController.baud }
        tallyStation := { t.links.tallyStation with baud := s.links.tallyStation.baud } } }

/-- The end of the settle period: every field input is read as a level, and an active one gives no on-edge until it has been seen clear
(R17). -/
def endSettle (s : State) : State :=
  { s with
    timebase := { s.timebase with settle := Config.settleTicks }
    standing := s.pins
    saws := { s.saws with recs := Vector.ofFn fun i => { s.saws.recs[i] with feedback := s.pins.feedback[i] } }
    sort := { s.sort with bins := Vector.ofFn fun i =>
      { s.sort.bins[i] with confirmInput := s.pins.confirm[i], fullSwitch := s.pins.full[i] } } }

/-- The settle period runs: RESETN is high and the 256th tick is still to come. -/
def State.settling (s : State) : Bool := !s.timebase.resetLow && decide (s.timebase.settle < Config.settleTicks)

/-! ### The tick (R16) -/

/-- A chain's stop timer at a tick. -/
def tickStop (ch : Chain) (s : State) : State :=
  match (s.unit ch).stopTimer with
  | none => s
  | some t =>
    let s := s.setUnit ch { s.unit ch with stopTimer := some { t with elapsed := t.elapsed + 1 } }
    if t.limit ≤ t.elapsed + 1 then stopChain ch s else s

/-- A saw's window timer at a tick. -/
def tickSaw (s : State) (saw : Nat) : State :=
  let r := s.saw saw
  if r.stage = .idle then s
  else
    let s := s.modifySaw saw fun r => { r with timer := r.timer + 1 }
    if s.tables.settings.window ≤ r.timer + 1 then expireWindow saw s else s

/-- A bin's gate pulse at a tick. -/
def tickPulse (s : State) (bin : Nat) : State :=
  let b := s.bin bin
  match b.pulse with
  | none => s
  | some t =>
    let s := s.modifyBin bin fun b => { b with pulse := some (t + 1) }
    if (b.items.map (·.pulse)).getD 0 ≤ t + 1 then closeGate bin s else s

/-- Expire a bin's pending drops whose confirm window has run out, oldest first, no more than `n` of them. -/
def expireDue (bin : Nat) : Nat → State → State
  | 0, s => s
  | n + 1, s =>
    match (s.bin bin).pending with
    | [] => s
    | e :: _ =>
      if (((s.bin bin).items.map (·.window)).getD 0) ≤ e.elapsed then expireDue bin n (expireConfirm bin s) else s

/-- A bin's confirm windows at a tick. -/
def tickConfirm (s : State) (bin : Nat) : State :=
  let s := s.modifyBin bin fun b => { b with pending := b.pending.map fun e => { e with elapsed := e.elapsed + 1 } }
  expireDue bin (s.bin bin).pending.length s

/-- One 1 ms tick (R16): the settle counter, or after it the stop timers, the saw windows, the gate pulses and the confirm windows.
Timers that expire on one tick expire in this order (DESIGN CHOICE, log 8). -/
def tick (s : State) : State :=
  if s.settling then
    if s.timebase.settle + 1 < Config.settleTicks then
      { s with timebase := { s.timebase with settle := s.timebase.settle + 1 } }
    else endSettle s
  else
    let s := tickStop .sorter (tickStop .trimmer s)
    let s := allSaws.foldl tickSaw s
    let s := allBins.foldl tickPulse s
    allBins.foldl tickConfirm s

/-- A link's PAUSE and RESUME bytes that are due have gone out (R170). -/
def LinkState.controlSent (k : LinkState) : LinkState := { k with control := [] }

/-- One period of the 16 MHz reference clock: the dividers count (R16), and control bytes that are due go out. With RESETN low nothing
moves (R18). -/
def clockPeriod (s : State) : State :=
  if s.timebase.resetLow then s
  else
    let s := { s with links :=
      { s.links with optimizer := s.links.optimizer.controlSent, lineController := s.links.lineController.controlSent,
                     tallyStation := s.links.tallyStation.controlSent } }
    let t := s.timebase
    if t.div1 < Config.divider1 then { s with timebase := { t with div1 := t.div1 + 1 } }
    else if t.div2 < Config.divider2 then { s with timebase := { t with div1 := 0, div2 := t.div2 + 1 } }
    else tick { s with timebase := { t with div1 := 0, div2 := 0 } }

/-! ### Commands -/

/-- POWER_ON (R17). -/
def execPowerOn (baud : BaudPins) (s : State) : Result State := .next (s.powered baud s.timebase.resetLow)

/-- RESETN_ASSERT (R18). -/
def execResetnAssert (s : State) : Result State := .next s.held

/-- RESETN_RELEASE (R18): a power-on. -/
def execResetnRelease (baud : BaudPins) (s : State) : Result State := .next (s.powered baud false)

/-- SETTLE_PERIOD_END (R17). It comes once after a power-on, so with the settle period over, or RESETN low, there is none to end. -/
def execSettlePeriodEnd (s : State) : Result State := .next (if s.settling then endSettle s else s)

end Sys2Proof.Machine
end

