-- ==== Sys2Proof/Machine/Taking.lean ====
section
/-! DEFINITION. The taking of a frame that waits (R172): the two events that let a link take its oldest complete frame, a character that
completes one while a TX slot is free and a TX slot that becomes free while one waits, take it as part of themselves. -/

namespace Sys2Proof.Machine

/-- A request of a link, by its owning command's meaning. -/
def serveRequest (r : Req) (l : LinkId) (num : Byte) (fields : List Byte) (s : State) : Result State :=
  match r with
  | .postScan => execPostScan l num fields s
  | .postSolution => execPostSolution l num fields s
  | .readRecord => execReadRecord l num fields s
  | .readStatus => execReadStatus l num fields s
  | .ackAttention => execAckAttention l num fields s
  | .setAttentionEnable => execSetAttentionEnable l num fields s
  | .setLineMode => execSetLineMode l num fields s
  | .forceBoard => execForceBoard l num fields s
  | .sawEnable => execSawEnable l num fields s
  | .sawDisable => execSawDisable l num fields s
  | .binUnload => execBinUnload l num fields s
  | .binEmptied => execBinEmptied l num fields s
  | .binEnable => execBinEnable l num fields s
  | .binDisable => execBinDisable l num fields s
  | .readBins => execReadBins l num fields s
  | .readEvents => execReadEvents l num fields s
  | .clearEventOverflow => execClearEventOverflow l num fields s
  | .start => execStart l num fields s
  | .restartTracking => execRestartTracking l num fields s
  | .loadTable => execLoadTable l num fields s
  | .readTable => execReadTable l num fields s
  | .readTableTallyForm => execReadTableTallyForm l num fields s
  | .readSegment => execReadSegment l num fields s
  | .releaseSegment => execReleaseSegment l num fields s
  | .flush => execFlush l num fields s
  | .shiftClose => execShiftClose l num fields s
  | .readMatrix => execReadMatrix l num fields s
  | .readClosed => execReadClosed l num fields s
  | .priceEdit => execPriceEdit l num fields s
  | .priceSwitch => execPriceSwitch l num fields s

/-- Take the oldest complete frame of a link, if one waits and a TX slot is free (R172): a request of the part is judged by its own
command's meaning, any other code by UNKNOWN_REQUEST_CODE's. A body is a code, a request number and fields, since a length byte is at
least 2 (R168). -/
def takeOldest (l : LinkId) (s : State) : Result State :=
  match (s.link l).waiting with
  | (code :: num :: fields) :: _ =>
    if (s.link l).freeSlots = 0 then .next s
    else
      match requestOfCode code with
      | some r => serveRequest r l num fields s
      | none => execUnknownRequestCode l code num fields s
  | _ => .next s

/-- LINK_BYTE_RECEIVED (R169). A frame that the character completes is taken at once where a TX slot is free (R172). During the settle
period bytes are discarded uncounted (R17). -/
def execLinkByteReceived (l : LinkId) (b : Byte) (stopBit : Bool) (s : State) : Result State :=
  if s.awake then takeOldest l (s.modifyLink l fun k => if stopBit then k.receive b else k.receiveBroken) else .next s

/-- TX_FRAME_SENT (R171). A frame that waits is taken as the slot frees (R172). With no frame begun, none is sent. -/
def execTxFrameSent (l : LinkId) (s : State) : Result State :=
  if s.awake then takeOldest l (s.modifyLink l LinkState.frameSent) else .next s

end Sys2Proof.Machine
end

