-- ==== Sys2Proof/Machine/Dispatch.lean ====
section
/-! DEFINITION. The command each constructor stands for: one arm per row of spec/opcode_table.json, each a call of its meaning. -/

namespace Sys2Proof.Machine

def exec (i : Instr) (s : State) : Host.Outcome State Fault Refusal :=
  match i with
  | .powerOn baud => Sys2Proof.Machine.execPowerOn baud s
  | .resetnAssert => Sys2Proof.Machine.execResetnAssert s
  | .resetnRelease baud => Sys2Proof.Machine.execResetnRelease baud s
  | .settlePeriodEnd => Sys2Proof.Machine.execSettlePeriodEnd s
  | .encoderForwardCount ch => Sys2Proof.Machine.execEncoderForwardCount ch s
  | .encoderReverseCount ch => Sys2Proof.Machine.execEncoderReverseCount ch s
  | .stopTimerExpiry ch => Sys2Proof.Machine.execStopTimerExpiry ch s
  | .lugEyeOnEdge ch edge => Sys2Proof.Machine.execLugEyeOnEdge ch edge s
  | .syntheticAdvance ch => Sys2Proof.Machine.execSyntheticAdvance ch s
  | .scanEyeOnEdge edge => Sys2Proof.Machine.execScanEyeOnEdge edge s
  | .pickupEyeOnEdge edge => Sys2Proof.Machine.execPickupEyeOnEdge edge s
  | .sawFeedbackChange saw down => Sys2Proof.Machine.execSawFeedbackChange saw down s
  | .sawWindowExpiry saw => Sys2Proof.Machine.execSawWindowExpiry saw s
  | .gatePulseExpiry bin => Sys2Proof.Machine.execGatePulseExpiry bin s
  | .gateConfirmOnEdge bin edge => Sys2Proof.Machine.execGateConfirmOnEdge bin edge s
  | .confirmWindowExpiry bin => Sys2Proof.Machine.execConfirmWindowExpiry bin s
  | .binFullSwitchOnEdge bin edge => Sys2Proof.Machine.execBinFullSwitchOnEdge bin edge s
  | .keyMarkPush pos key => Sys2Proof.Machine.execKeyMarkPush pos key s
  | .keyUndo pos => Sys2Proof.Machine.execKeyUndo pos s
  | .keyClr pos => Sys2Proof.Machine.execKeyClr pos s
  | .keyEnt pos => Sys2Proof.Machine.execKeyEnt pos s
  | .keypadBadByte pos => Sys2Proof.Machine.execKeypadBadByte pos s
  | .keypadReplySent pos => Sys2Proof.Machine.execKeypadReplySent pos s
  | .linkByteReceived link byte stopBit => Sys2Proof.Machine.execLinkByteReceived link byte stopBit s
  | .pauseReceived link => Sys2Proof.Machine.execPauseReceived link s
  | .resumeReceived link => Sys2Proof.Machine.execResumeReceived link s
  | .txFrameSent link => Sys2Proof.Machine.execTxFrameSent link s
  | .linkBreak link => Sys2Proof.Machine.execLinkBreak link s
  | .unknownRequestCode link code num fields => Sys2Proof.Machine.execUnknownRequestCode link code num fields s
  | .postScan link num fields => Sys2Proof.Machine.execPostScan link num fields s
  | .postSolution link num fields => Sys2Proof.Machine.execPostSolution link num fields s
  | .readRecord link num fields => Sys2Proof.Machine.execReadRecord link num fields s
  | .readStatus link num fields => Sys2Proof.Machine.execReadStatus link num fields s
  | .ackAttention link num fields => Sys2Proof.Machine.execAckAttention link num fields s
  | .setAttentionEnable link num fields => Sys2Proof.Machine.execSetAttentionEnable link num fields s
  | .setLineMode link num fields => Sys2Proof.Machine.execSetLineMode link num fields s
  | .forceBoard link num fields => Sys2Proof.Machine.execForceBoard link num fields s
  | .sawEnable link num fields => Sys2Proof.Machine.execSawEnable link num fields s
  | .sawDisable link num fields => Sys2Proof.Machine.execSawDisable link num fields s
  | .binUnload link num fields => Sys2Proof.Machine.execBinUnload link num fields s
  | .binEmptied link num fields => Sys2Proof.Machine.execBinEmptied link num fields s
  | .binEnable link num fields => Sys2Proof.Machine.execBinEnable link num fields s
  | .binDisable link num fields => Sys2Proof.Machine.execBinDisable link num fields s
  | .readBins link num fields => Sys2Proof.Machine.execReadBins link num fields s
  | .readEvents link num fields => Sys2Proof.Machine.execReadEvents link num fields s
  | .clearEventOverflow link num fields => Sys2Proof.Machine.execClearEventOverflow link num fields s
  | .start link num fields => Sys2Proof.Machine.execStart link num fields s
  | .restartTracking link num fields => Sys2Proof.Machine.execRestartTracking link num fields s
  | .loadTable link num fields => Sys2Proof.Machine.execLoadTable link num fields s
  | .readTable link num fields => Sys2Proof.Machine.execReadTable link num fields s
  | .readTableTallyForm link num fields => Sys2Proof.Machine.execReadTableTallyForm link num fields s
  | .readSegment link num fields => Sys2Proof.Machine.execReadSegment link num fields s
  | .releaseSegment link num fields => Sys2Proof.Machine.execReleaseSegment link num fields s
  | .flush link num fields => Sys2Proof.Machine.execFlush link num fields s
  | .shiftClose link num fields => Sys2Proof.Machine.execShiftClose link num fields s
  | .readMatrix link num fields => Sys2Proof.Machine.execReadMatrix link num fields s
  | .readClosed link num fields => Sys2Proof.Machine.execReadClosed link num fields s
  | .priceEdit link num fields => Sys2Proof.Machine.execPriceEdit link num fields s
  | .priceSwitch link num fields => Sys2Proof.Machine.execPriceSwitch link num fields s

end Sys2Proof.Machine
end

