-- ==== Sys2Proof/Safety.lean ====
section
/-! DEFINITION. The terms the statements use: when a request is ready to be taken and what answering it leaves, and the invariants of
the part: the stream store's form, the queues' sizes, the boards' places and tags, the tally's sum and the mark stacks' shape. -/

namespace Sys2Proof.Machine

/-! ### Requests -/

/-- A request with this body is the next a link takes: inputs are taken, a TX slot is free, and its frame is about to arrive with no other
waiting, or has arrived as the oldest (R172). -/
def State.Ready (s : State) (l : LinkId) (body : List Byte) : Prop :=
  s.awake = true ∧ ((s.link l).waiting = [] ∨ (s.link l).waiting.head? = some body) ∧ (s.link l).tx.length < Config.txSlots

/-- A link whose next request's frame has arrived, but for that frame itself: where none stood waiting the receiver has come from any state
to HUNT, with a framing fault where it was within a frame (R169). -/
def LinkState.arrived (k : LinkState) : LinkState :=
  if k.waiting = [] then
    match k.rx with
    | .hunt | .skip => { k with rx := .hunt }
    | .frame _ _ => { k with rx := .hunt, framing := inc32 k.framing }
  else k

/-- The state in which a link's next request has arrived and been taken and a response queued, everything else as it is (R172). -/
def State.answered (s : State) (l : LinkId) (response : List Byte) : State :=
  s.modifyLink l fun k => k.arrived.takeFrame.enqueue response

/-- The commands by which a link receives the characters of a body's frame. -/
def frameCommands (l : LinkId) (body : List Byte) : List Instr := (wireFrame body).map fun b => .linkByteReceived l b true

/-- An input line may give an on-edge: inputs are taken and the line has not stood active since the end of settle (R17). -/
def State.edgeTaken (s : State) (line : InputLine) : Prop := s.awake = true ∧ s.standing.level line = false

/-- The state with an input line seen clear: its level outside is down and it no longer stands active since the end of settle. -/
def State.seenClear (s : State) (line : InputLine) : State :=
  { s with pins := s.pins.setLevel false line, standing := s.standing.setLevel false line }

/-- Run commands one after another, stopping at the first fault or refusal. -/
def execAll : List Instr → State → Result State
  | [], s => .next s
  | i :: rest, s =>
    match exec i s with
    | .next t => execAll rest t
    | .fault f => .fault f
    | .refused f => .refused f

/-- The state with the level outside of a line set. -/
def State.withPin (s : State) (line : InputLine) (level : Bool) : State := { s with pins := s.pins.setLevel level line }

/-! ### Advances (R4 to R10) -/

/-- A lug-eye on-edge of a chain gives an advance (R3, R5, R6, R8): it is taken, the parameters are valid, the chain is not in reverse, and c
is from the half pitch on in SEARCH and LOST, and from the window low on in LOCKED and COAST. -/
def State.edgeAdvances (s : State) (ch : Chain) : Prop :=
  s.edgeTaken (.lug ch) ∧ (s.params ch).valid = true ∧ (s.unit ch).reverse = false ∧
  match (s.unit ch).sync with
  | .search | .lost => roundDiv (s.params ch).pitch 2 ≤ (s.unit ch).count
  | .locked | .coast => (s.params ch).pitch - (s.params ch).tolerance ≤ (s.unit ch).count

/-- A forward count of a chain gives a synthetic advance (R7): it brings c to the window high in LOCKED or COAST. -/
def State.countAdvances (s : State) (ch : Chain) : Prop :=
  s.awake = true ∧ ((s.unit ch).sync = .locked ∨ (s.unit ch).sync = .coast) ∧
  (s.params ch).pitch + (s.params ch).tolerance ≤ if (s.unit ch).count < 65535 then (s.unit ch).count + 1 else (s.unit ch).count

/-- A chain is about to advance, by a lug-eye edge or by a count. -/
def State.advances (s : State) (ch : Chain) (edge : Bool) : Prop := if edge then s.edgeAdvances ch else s.countAdvances ch

/-- The command that gives the advance. -/
def advanceCommand (ch : Chain) (edge : Bool) : Instr := if edge then .lugEyeOnEdge ch .on else .encoderForwardCount ch

/-- An advance by a count that is the third miss in a row, on which the chain enters LOST (R9). -/
def State.losesTrack (s : State) (ch : Chain) (edge : Bool) : Bool := !edge && decide (3 ≤ (s.unit ch).miss + 1)

/-- SYNC-CHANGE of a chain to the state of a number, with SYNC and, for the TCU, TRACK-SYNC latched (R10). -/
def State.syncRaised (s : State) (ch : Chain) (number_ : Nat) : State :=
  let t := raiseEvent .syncChange (some ch) 0 number_ s
  { t with attention := { t.attention with
      lineController := { t.attention.lineController with edges := t.attention.lineController.edges ||| 0x20#8 }
      optimizer := match ch with
        | .trimmer => { t.attention.optimizer with edges := t.attention.optimizer.edges ||| 0x01#8 }
        | .sorter => t.attention.optimizer } }

/-- The state in which the lines of an advance find the boards and the event queue: a count has raised CHAIN-RUN after a stop, then EYE-MISSED
and the SYNC-CHANGE to COAST or LOST (R2, R7, R10; CHAIN-RUN first is the model's, log 22), and LOST has marked the chain's own map SUSPECT
(R9). An edge has done none of this. -/
def State.foundByLines (s : State) (ch : Chain) (edge : Bool) : State :=
  if edge then s
  else
    let u := s.unit ch
    let t := raiseEvent .eyeMissed (some ch) 0 (u.miss + 1) (if u.stopped then raiseEvent .chainRun (some ch) 0 0 s else s)
    if 3 ≤ u.miss + 1 then
      let t := t.syncRaised ch 3
      let mark (r : Record) : Record := { r with flags := { r.flags with suspect := true } }
      { t with board := match ch with
          | .trimmer => { t.board with trimmer := t.board.trimmer.map mark }
          | .sorter => { t.board with sorter := t.board.sorter.map mark } }
    else if u.sync = .coast then t
    else t.syncRaised ch 2

/-- What follows the lines of an advance in the event queue: an edge that locks the chain raises SYNC-CHANGE (R5, R8, R9, R10). -/
def State.afterLines (s : State) (ch : Chain) (edge : Bool) (lines : State) : State :=
  let u := s.unit ch
  let p := s.params ch
  let good := if p.pitch - p.tolerance ≤ u.count ∧ u.count ≤ p.pitch + p.tolerance then u.good + 1 else 0
  let locks : Bool := match u.sync with
    | .search | .lost => decide (4 ≤ good)
    | .coast => true
    | .locked => false
  if edge && locks then lines.syncRaised ch 1 else lines

/-! ### NEAR (R132) -/

/-- A bin with its NEAR flag judged against its load. -/
def BinRec.judged (b : BinRec) : BinRec :=
  match b.items with
  | none => b
  | some it =>
    { b with near := (!b.near && decide (it.hi ≤ b.dropped + b.reserved)) || (b.near && !decide (b.dropped + b.reserved ≤ it.lo)) }

/-- The attention flags after line controller causes are raised: BIN-NEAR, BIN-FULL (R180). -/
def State.binCauses (s : State) (near full : Bool) : Attention :=
  { s.attention with lineController := { s.attention.lineController with
      edges := s.attention.lineController.edges ||| ((if near then 0x04#8 else 0) ||| (if full then 0x08#8 else 0)) } }

/-- NEAR rises from one bin record to another: BIN-NEAR is raised. -/
def BinRec.nearRises (before after : BinRec) : Bool := !before.near && after.near

/-! ### Table loads (R175) -/

/-- A part of a table load, marked last or not, is the next request of the line controller in CONFIG, its body within a frame, and is the part
to be taken: part 0, or the part that the staging area expects of this table. `staged` holds the entries of the parts before it. -/
def State.loads (s : State) (num : Byte) (table : TableId) (part : Nat) (last : Bool) (staged bytes : List Byte) : Prop :=
  s.Ready .lineController (0x13 :: num :: BitVec.ofNat 8 table.code :: BitVec.ofNat 8 part :: BitVec.ofNat 8 last.toNat :: bytes) ∧
  bytes.length ≤ 235 ∧ s.board.line = .config ∧ part ≤ 7 ∧ (part = 7 → last = true) ∧
  ((part = 0 ∧ staged = []) ∨ (part ≠ 0 ∧ s.tables.staging = some { table := table, expected := some part, bytes := staged }))

/-- What a part of a table load does, by exec. -/
def State.loadPart (s : State) (num : Byte) (table : TableId) (part : Nat) (last : Bool) (bytes : List Byte) : Result State :=
  exec (.loadTable .lineController num
    (BitVec.ofNat 8 table.code :: BitVec.ofNat 8 part :: BitVec.ofNat 8 last.toNat :: bytes)) s

/-- A last part refused RANGE: the entry and the item of the first fault are answered and the staging area is kept with no part expected
(R175). -/
def State.loadRefused (s : State) (num : Byte) (table : TableId) (total : List Byte) (run : Result State) : Prop :=
  ∃ entry item,
    run = .next (({ s with tables := { s.tables with
        staging := some { table := table, expected := none, bytes := total } } } : State).answered .lineController
      [0x13, num, 0x07, entry, item])

/-! ### Power-on -/

/-- A tally with every quantity 0 (R143). -/
def Tally.AllZero (t : Tally) (shift : Nat) : Prop :=
  (∀ i, i < 960 → entryD t.cells i { pieces := 1, volume := 1 } = { pieces := 0, volume := 0 }) ∧
  [t.reject, t.reman, t.trash, t.runout, t.lost, t.unknown, t.miscut, t.suspect, t.value, t.written, t.dropped] = List.replicate 11 0 ∧
  t.saturated = false ∧ t.shift = shift

/-- The power-on values the manual states, block by block (R12, R17, R23, R43, R53, R62, R73 to R75, R84, R108, R123, R141 to R143, R146,
R155, R156, R160, R163, R166, R172, R174). -/
structure AtPowerOn (t : State) : Prop where
  timebase : t.timebase.div1 = 0 ∧ t.timebase.div2 = 0 ∧ t.timebase.settle = 0
  chains : ∀ ch, t.unit ch = { count := 0, serial := 0, sync := .search, good := 0, miss := 0, stopped := true, reverse := false,
                               stopTimer := none }
  boards : t.live = [] ∧ t.board.nextTag = 1 ∧ t.board.line = .config
  postings : t.board.postings = { taken := 0, noTag := 0, late := 0, range := 0, noticesLost := 0 }
  forces : t.board.forces = { taken := 0, redecided := 0, noTag := 0, late := 0, range := 0 }
  gradings : ∀ p, (∀ i : Fin 6, (t.grading p).slots[i] = .empty) ∧ (t.grading p).top = 0 ∧ (t.grading p).target = none ∧
    (t.grading p).replies = [] ∧
    (t.grading p).counts = { keys := 0, voids := 0, refusals := 0, commits := 0, passes := 0, missed := 0, badBytes := 0,
                             repliesLost := 0 }
  mode : t.decision.mode = { saws := .auto, sort := .byProduct } ∧ t.decision.last = none
  decisions : t.decision.modesTaken = 0 ∧ t.decision.modesRefused = 0 ∧ t.decision.atLine = 0 ∧ t.decision.redecides = 0 ∧
    ∀ i, i < 12 → entryD t.decision.reasons i 1 = 0
  saws : ∀ k ≤ 12, (t.saw k).enabled = true ∧ (t.saw k).commanded = false ∧ (t.saw k).stage = .idle ∧ (t.saw k).timer = 0 ∧
    (t.saw k).misses = 0 ∧ (t.saw k).totalMisses = 0 ∧ (t.saw k).retries = 0 ∧ (t.saw k).leftDown = false
  owner : t.saws.owner = 0
  bins : ∀ n, 1 ≤ n → n ≤ 48 → (t.bin n).items = none ∧ (t.bin n).state = .disabled ∧ (t.bin n).dropped = 0 ∧
    (t.bin n).reserved = 0 ∧ (t.bin n).near = false ∧ (t.bin n).misses = 0 ∧ (t.bin n).gateOpen = false ∧ (t.bin n).pulse = none ∧
    (t.bin n).pending = []
  sorts : t.sort.counts = { group := 0, overflow := 0, reject := 0, reman := 0, runout := 0, reroutes := 0, pendingFull := 0,
                            suspectPasses := 0, fires := 0, confirms := 0, misses := 0, strays := 0 }
  tallies : t.tally.live.AllZero 1 ∧ t.tally.closed.AllZero 0
  stream : t.tally.stream = { store := [], ready := 0, blocked := false, segment := 0, slot := 0, sequence := 1, trailer := none,
                              spellDropped := false }
  events : t.events.entries = [] ∧ t.events.overflow = false ∧ t.events.lost = 0
  attention : ∀ l, t.role l = { edges := 0, enables := 0 }
  links : ∀ l, t.link l = { baud := (t.link l).baud, rx := .hunt, waiting := [], rxPause := false, txPause := false, tx := [],
                            sending := false, control := [], stray := 0, framing := 0, crcFaults := 0, overruns := 0, taken := 0,
                            denied := 0, format := 0, breaks := 0 }
  notice : t.links.notice = 0
  settings : t.tables.settings.fence = 20 ∧ t.tables.settings.allowance = 15 ∧ t.tables.settings.window = 120 ∧
    t.tables.settings.missLimit = 3 ∧ t.tables.settings.ageLimit = 4
  params : ∀ ch, (t.params ch).valid = false ∧ (t.params ch).stopTime = 250
  sawTable : (∀ k, 1 ≤ k → k ≤ 12 → t.sawPlace k = none) ∧ ∀ k, k ≤ 12 → t.sawMode k = .none
  sizeTable : (∀ i, i < 4 → entryD t.tables.size.thickness i (some 0) = none) ∧ ∀ i, i < 8 → entryD t.tables.size.width i (some 0) = none
  gradeTable : (∀ g, g < 10 → t.tables.grade.enabled.getLsbD g = true) ∧ t.tables.grade.default = 1
  stationTable : t.tables.station =
    { aLo := 3, aHi := 6, bLo := 7, bHi := 10, decision := 12, sawSet := 14, outfeed := 17, runout := 127 }
  groupTable : (∀ i, i < 24 → entryD t.tables.groups.groups i (some []) = none) ∧ t.tables.groups.reject = 0 ∧ t.tables.groups.reman = 0 ∧
    t.tables.groups.overflow = 0
  rules : t.tables.rules = []
  valid : ∀ table, t.tables.valid.get table = false
  banks : t.tables.active1 = false ∧ t.tables.staging = none ∧ t.tables.edits = 0 ∧ t.tables.editsRefused = 0 ∧ t.tables.switches = 0
  prices : ∀ i, i < 120 → entryD t.tables.bank0 i 1 = 0 ∧ entryD t.tables.bank1 i 1 = 0

/-! ### The stream store -/

/-- The stream store is in its canonical form. -/
def StoreCanonical (s : State) : Prop := s.tally.stream.store.wf = true

/-! ### Queues -/

/-- A link's queue and buffer are within their sizes (R170, R171), no complete frame waits while a TX slot is free (R172), and the bodies
that wait and the frame in progress are of a length that R168 allows. -/
structure LinkState.Bounded (k : LinkState) : Prop where
  queue : k.tx.length ≤ Config.txSlots
  buffer : k.fill ≤ Config.rxBytes
  taken : k.waiting ≠ [] → k.tx.length = Config.txSlots
  bodies : ∀ body ∈ k.waiting, 2 ≤ body.length ∧ body.length ≤ Config.bodyMax
  progress : match k.rx with
    | .frame (len :: _) _ => 2 ≤ len.toNat ∧ len.toNat ≤ Config.bodyMax
    | .frame [] _ | .hunt | .skip => True

/-- Every queue and buffer is within its size, and no link leaves a request waiting that it could take (R29, R61, R160, R170 to R172). -/
def QueuesBounded (s : State) : Prop :=
  s.events.entries.length ≤ Config.eventSlots ∧ s.board.transfer.length ≤ Config.transferSlots ∧
  (∀ p, (s.grading p).replies.length ≤ Config.replySlots) ∧ ∀ l, (s.link l).Bounded

/-! ### Boards (R22, R23) -/

/-- The board map's invariant: every live record has a tag of its own from 1 to 65,535; the records of each map stand at offsets of
their own that fall along the list and lie below O or R; the transfer queue holds at most 8; in CONFIG no record is live. -/
structure BoardsPlaced (s : State) : Prop where
  distinct : (s.live.map (·.tag)).Nodup
  tags : ∀ r ∈ s.live, 1 ≤ r.tag ∧ r.tag ≤ Config.tagMax
  counter : 1 ≤ s.board.nextTag ∧ s.board.nextTag ≤ Config.tagMax
  trimmerOrder : s.board.trimmer.Pairwise fun a b => b.trimmerOffset s.tcu.serial < a.trimmerOffset s.tcu.serial
  trimmerReach : ∀ r ∈ s.board.trimmer, r.trimmerOffset s.tcu.serial < s.tables.station.outfeed
  sorterOrder : s.board.sorter.Pairwise fun a b => b.sorterOffset s.scu.serial < a.sorterOffset s.scu.serial
  sorterReach : ∀ r ∈ s.board.sorter, r.sorterOffset s.scu.serial < s.tables.station.runout
  transferSize : s.board.transfer.length ≤ Config.transferSlots
  stations : stationFault s.tables.station = none
  idleLine : s.board.line = .config → s.live = []

/-- The life of every live record is the one its place gives (R15, R20): SCANNED before D, DECIDED from D, SET at S, CUT from K,
IN-TRANSFER in the queue, ON-SORTER or DROPPING on the sorter, with the parts that go with it. -/
structure LivesPlaced (s : State) : Prop where
  placed : BoardsPlaced s
  scanned : ∀ r ∈ s.board.trimmer, r.trimmerOffset s.tcu.serial < s.tables.station.decision → r.life = .scanned ∧ r.decision = none
  decided : ∀ r ∈ s.board.trimmer, s.tables.station.decision ≤ r.trimmerOffset s.tcu.serial →
    r.trimmerOffset s.tcu.serial < s.tables.station.sawSet → r.life = .decided ∧ r.decision.isSome = true
  set : ∀ r ∈ s.board.trimmer, r.trimmerOffset s.tcu.serial = s.tables.station.sawSet → r.life = .set ∧ r.decision.isSome = true
  cut : ∀ r ∈ s.board.trimmer, s.tables.station.sawSet < r.trimmerOffset s.tcu.serial →
    r.life = .cut ∧ r.decision.isSome = true ∧ r.outcome.isSome = true
  transfer : ∀ w ∈ s.board.transfer, w.board.life = .inTransfer ∧ w.board.outcome.isSome = true
  sorter : ∀ r ∈ s.board.sorter, (r.life = .onSorter ∨ r.life = .dropping) ∧ r.sort.isSome = true

/-! ### Reservations and pending drops (R124, R133, R134) -/

/-- Every bin's reserved count is the number of sorter records allocated to it, its dropped and reserved counts together are within its
capacity, and every pending drop is of a DROPPING record allocated to its bin. -/
structure PlacesCounted (s : State) : Prop where
  placed : BoardsPlaced s
  counted : ∀ n, 1 ≤ n → n ≤ 48 → (s.bin n).reserved = (s.board.sorter.filter fun r => r.heldBin = n).length
  within : ∀ n, 1 ≤ n → n ≤ 48 → ∀ it, (s.bin n).items = some it → (s.bin n).dropped + (s.bin n).reserved ≤ it.capacity
  inRange : ∀ r ∈ s.board.sorter, r.heldBin ≤ 48
  pendingHeld : ∀ n, 1 ≤ n → n ≤ 48 → ∀ e ∈ (s.bin n).pending, ∃ r ∈ s.board.sorter, r.tag = e.tag ∧ r.heldBin = n ∧ r.life = .dropping
  pendingOnce : ∀ n, 1 ≤ n → n ≤ 48 → ((s.bin n).pending.map (·.tag)).Nodup

/-! ### The tally (R147) -/

/-- Pieces of a tally's matrix, summed over its cells. -/
def Tally.pieces (t : Tally) : Nat := (t.cells.toList.map (·.pieces)).sum

/-- The sum of R147: every fate posted is a record written or dropped, unless a quantity has saturated. -/
def Tally.Balanced (t : Tally) : Prop :=
  t.saturated = false → t.pieces + t.reject + t.reman + t.trash + t.runout + t.lost = t.written + t.dropped

/-- A record whose route is a group has a whole product key (R136). -/
def GroupKeysWhole (s : State) : Prop :=
  ∀ r ∈ s.board.sorter, ∀ p n, r.sort = some p → p.route = .group n → p.key.cell.isSome = true

/-- Every sort rule's class range lies within 1 to 12 (R130). -/
def RulesBounded (s : State) : Prop := ∀ rule ∈ s.tables.rules, 1 ≤ rule.lo ∧ rule.hi ≤ 12

/-- The invariant under which the sum of R147 holds. -/
structure TallyKept (s : State) : Prop where
  live : s.tally.live.Balanced
  closed : s.tally.closed.Balanced
  keys : GroupKeysWhole s
  rules : RulesBounded s

/-! ### Mark stacks (R62) -/

/-- The non-empty slots of a stack are exactly a run that starts at TOP. -/
def Grading.Contiguous (g : Grading) : Prop :=
  ∃ n ≤ 6, ∀ i : Fin 6, g.slots[g.top + i] ≠ .empty ↔ i.val < n

/-- Both stacks are contiguous. -/
def StacksContiguous (s : State) : Prop := ∀ p, (s.grading p).Contiguous

end Sys2Proof.Machine
end

