-- ==== Sys2Proof/Certificates/Slice0/Obligations.lean ====
section
/-! DEFINITION. The statements for the provers. Each docstring names the rules of spec/ that the statement rests on; one that rests on a
choice of the model names its log entry. -/

open Sys2Proof Sys2Proof.Machine

/-! ### The step, the clock, power (R16 to R18) -/

/-- A step takes the command at the front of the queue and runs it on the state with the rest of the queue. -/
def Obligations.StepRunsFrontCommand : Prop :=
  ∀ (c : Instr) (rest : List Instr) (s : State), s.pending = c :: rest → step s = exec c { s with pending := rest }

/-- R2, R16, R17, R18, R115, R135, R138, with the model's choice of log 1 (a step with no command is one period of the reference clock): the
first divider counts 0 to 15, the second 0 to 999 at each wrap of the first, and the wrap of both is the tick. Up to the 255th the tick only
raises the settle counter, and the 256th ends the settle period. Every later tick raises each running stop timer, saw window, gate pulse and
confirm window by 1 ms and is then the expiry of those that have reached their duration, the stop timers first, then the saw windows, the
gate pulses and the confirm windows (the order is the model's choice, log 8). With RESETN low nothing moves. -/
def Obligations.ClockPeriods : Prop :=
  ∀ s : State, s.pending = [] → (∀ l, (s.link l).control = []) →
    (s.timebase.resetLow = true → step s = .next s) ∧
    (s.timebase.resetLow = false →
      (s.timebase.div1 < 15 → step s = .next { s with timebase := { s.timebase with div1 := s.timebase.div1 + 1 } }) ∧
      (15 ≤ s.timebase.div1 → s.timebase.div2 < 999 →
        step s = .next { s with timebase := { s.timebase with div1 := 0, div2 := s.timebase.div2 + 1 } }) ∧
      (15 ≤ s.timebase.div1 → 999 ≤ s.timebase.div2 →
        let rolled : State := { s with timebase := { s.timebase with div1 := 0, div2 := 0 } }
        (s.timebase.settle + 1 < 256 →
          step s = .next { rolled with timebase := { rolled.timebase with settle := s.timebase.settle + 1 } }) ∧
        (s.timebase.settle = 255 → step s = exec .settlePeriodEnd rolled) ∧
        (256 ≤ s.timebase.settle →
          let stop (u : ChainUnit) : ChainUnit := { u with stopTimer := u.stopTimer.map fun t => { t with elapsed := t.elapsed + 1 } }
          let saw (r : SawRec) : SawRec := if r.stage = .idle then r else { r with timer := r.timer + 1 }
          let bin (b : BinRec) : BinRec :=
            { b with pulse := b.pulse.map fun t => t + 1, pending := b.pending.map fun e => { e with elapsed := e.elapsed + 1 } }
          let raised : State := { rolled with
            tcu := stop s.tcu, scu := stop s.scu, saws := { s.saws with recs := s.saws.recs.map saw },
            sort := { s.sort with bins := s.sort.bins.map bin } }
          let bins : List Nat := (List.range 48).map fun i => i + 1
          let stops := [Chain.trimmer, Chain.sorter].filter fun ch => match (s.unit ch).stopTimer with
            | some t => decide (t.limit ≤ t.elapsed + 1)
            | none => false
          let windows := (List.range 13).filter fun k =>
            decide ((s.saw k).stage ≠ .idle) && decide (s.tables.settings.window ≤ (s.saw k).timer + 1)
          let pulses := bins.filter fun n => match (s.bin n).pulse with
            | some t => decide (((s.bin n).items.map (·.pulse)).getD 0 ≤ t + 1)
            | none => false
          let drops := bins.flatMap fun n =>
            ((s.bin n).pending.takeWhile fun e => decide (((s.bin n).items.map (·.window)).getD 0 ≤ e.elapsed + 1)).map fun _ => n
          step s = execAll
            (stops.map .stopTimerExpiry ++ windows.map .sawWindowExpiry ++ pulses.map .gatePulseExpiry ++ drops.map .confirmWindowExpiry)
            raised) ∧
        ∀ ch timer, 256 ≤ s.timebase.settle → (s.unit ch).stopTimer = some timer →
          ∃ u, step s = .next u ∧
            u.unit ch =
              if timer.elapsed + 1 < timer.limit then
                { s.unit ch with stopTimer := some { timer with elapsed := timer.elapsed + 1 } }
              else { s.unit ch with stopped := true, stopTimer := none }))

/-- R12, R17, R18, R23, R43, R53, R62, R73 to R75, R84, R108, R123, R141 to R143, R146, R155, R156, R160, R166, R167, R172, R174: POWER_ON,
RESETN_ASSERT and RESETN_RELEASE leave every block at the power-on values that AtPowerOn lists: the registers, the counts, the queues, the
timers, the tables with their reference contents, and the price banks. A power-on and a release sample the baud-select pins, and RESETN held
low keeps the part held. The levels outside and the commands waiting are not the part's (log 10). -/
def Obligations.PowerOnValues : Prop :=
  ∀ (baud : BaudPins) (s : State),
    (∃ t, exec (.powerOn baud) s = .next t ∧ AtPowerOn t ∧ t.timebase.resetLow = s.timebase.resetLow ∧ t.pins = s.pins ∧
      t.pending = s.pending ∧ t.links.optimizer.baud = baudRate baud.a0 baud.b0 ∧
      t.links.lineController.baud = baudRate baud.a1 baud.b1 ∧ t.links.tallyStation.baud = baudRate baud.a2 baud.b2) ∧
    (∃ t, exec (.resetnRelease baud) s = .next t ∧ AtPowerOn t ∧ t.timebase.resetLow = false ∧ t.pins = s.pins ∧
      t.pending = s.pending ∧ t.links.optimizer.baud = baudRate baud.a0 baud.b0 ∧
      t.links.lineController.baud = baudRate baud.a1 baud.b1 ∧ t.links.tallyStation.baud = baudRate baud.a2 baud.b2) ∧
    (∃ t, exec .resetnAssert s = .next t ∧ AtPowerOn t ∧ t.timebase.resetLow = true ∧ t.pins = s.pins ∧ t.pending = s.pending)

/-- R17, R18: the settle period. Its end reads every field input as a level and changes nothing else, and from then on inputs are taken;
with no settle period running there is none to end (log 8). While it runs or RESETN is low, no field input, key, byte or request is taken:
every command but the power commands and the settle period's end completes and leaves the part as it is. The levels outside follow their
lines all the same, and no line newly stands active (log 4). -/
def Obligations.SettlePeriod : Prop :=
  (∀ s : State,
    (s.settling = true →
      ∃ t, exec .settlePeriodEnd s = .next t ∧ t.awake = true ∧
        t = { s with timebase := { s.timebase with settle := 256 }, standing := s.pins,
                     saws := { s.saws with recs := t.saws.recs }, sort := { s.sort with bins := t.sort.bins } } ∧
        (∀ k, k ≤ 12 → t.saw k = { s.saw k with feedback := entryD s.pins.feedback k false }) ∧
        ∀ n, 1 ≤ n → n ≤ 48 →
          t.bin n = { s.bin n with confirmInput := entryD s.pins.confirm (n - 1) false,
                                   fullSwitch := entryD s.pins.full (n - 1) false }) ∧
    (s.settling = false → exec .settlePeriodEnd s = .next s)) ∧
  ∀ (i : Instr) (s : State), WellFormed i = true → s.awake = false →
    (∀ baud, i ≠ .powerOn baud) → i ≠ .resetnAssert → (∀ baud, i ≠ .resetnRelease baud) → i ≠ .settlePeriodEnd →
    let line : Option (InputLine × Edge) := match i with
      | .lugEyeOnEdge ch edge => some (.lug ch, edge)
      | .scanEyeOnEdge edge => some (.scan, edge)
      | .pickupEyeOnEdge edge => some (.pickup, edge)
      | .gateConfirmOnEdge bin edge => some (.confirm bin, edge)
      | .binFullSwitchOnEdge bin edge => some (.full bin, edge)
      | _ => none
    let feedback : Option (Nat × Bool) := match i with
      | .sawFeedbackChange saw down => some (saw, down)
      | _ => none
    exec i s = .next (match line, feedback with
      | some (l, .on), _ => s.withPin l true
      | some (l, .off), _ => s.seenClear l
      | none, some (saw, down) => { s with pins := { s.pins with feedback := modifyAt s.pins.feedback saw fun _ => down } }
      | none, none => s)

/-- R3, R11, R17, R24, R31, R127, R137: the edges that are ignored. A lug-eye on-edge with parameters not valid or in reverse, a scan-eye
on-edge in CONFIG or in reverse, a pickup-eye on-edge in CONFIG, in reverse or on a lug that carries a record, and an on-edge of any line
that has stood active since the end of settle change nothing but the level outside. An off-edge only shows the line clear, and for a gate
confirm or a full switch the level in the bin record. That the off-edge is a command too, that the level outside follows every change, and
that an off-edge ends a line's standing active since the end of settle, are the model's choice (log 4). -/
def Obligations.EdgesIgnored : Prop :=
  ∀ s : State, s.awake = true →
    (∀ ch, (s.params ch).valid = false ∨ (s.unit ch).reverse = true → exec (.lugEyeOnEdge ch .on) s = .next (s.withPin (.lug ch) true)) ∧
    (s.board.line = .config ∨ s.tcu.reverse = true → exec (.scanEyeOnEdge .on) s = .next (s.withPin .scan true)) ∧
    (s.board.line = .config ∨ s.scu.reverse = true ∨ (∃ r ∈ s.board.sorter, r.sorterOffset s.scu.serial = 0) →
      exec (.pickupEyeOnEdge .on) s = .next (s.withPin .pickup true)) ∧
    (∀ ch, s.standing.level (.lug ch) = true → exec (.lugEyeOnEdge ch .on) s = .next (s.withPin (.lug ch) true)) ∧
    (s.standing.level .scan = true → exec (.scanEyeOnEdge .on) s = .next (s.withPin .scan true)) ∧
    (s.standing.level .pickup = true → exec (.pickupEyeOnEdge .on) s = .next (s.withPin .pickup true)) ∧
    (∀ n, 1 ≤ n → n ≤ 48 → s.standing.level (.confirm n) = true →
      exec (.gateConfirmOnEdge n .on) s = .next (s.withPin (.confirm n) true)) ∧
    (∀ n, 1 ≤ n → n ≤ 48 → s.standing.level (.full n) = true →
      exec (.binFullSwitchOnEdge n .on) s = .next (s.withPin (.full n) true)) ∧
    (∀ ch, exec (.lugEyeOnEdge ch .off) s = .next (s.seenClear (.lug ch))) ∧
    exec (.scanEyeOnEdge .off) s = .next (s.seenClear .scan) ∧
    exec (.pickupEyeOnEdge .off) s = .next (s.seenClear .pickup) ∧
    (∀ n, 1 ≤ n → n ≤ 48 →
      exec (.gateConfirmOnEdge n .off) s =
        .next ((s.seenClear (.confirm n)).modifyBin n fun b => { b with confirmInput := false })) ∧
    ∀ n, 1 ≤ n → n ≤ 48 →
      exec (.binFullSwitchOnEdge n .off) s = .next ((s.seenClear (.full n)).modifyBin n fun b => { b with fullSwitch := false })

/-! ### Chains (R1 to R10) -/

/-- R1, R2: encoder counts and the stop timer. A forward count that does not bring c to the window high in LOCKED or COAST raises c by 1 up
to 65,535 and clears the reverse flag; a reverse count lowers c by 1, not below 0, and sets the reverse flag, with REVERSE when it was
clear. Each restarts the stop timer and, after a stop, clears STOPPED with CHAIN-RUN, which is raised first (log 22). The stop timer's
expiry sets STOPPED and raises one CHAIN-STOP; a timer that stands expired does not expire again. Nothing else changes. -/
def Obligations.EncoderCounts : Prop :=
  ∀ (ch : Chain) (s : State), s.awake = true →
    let u := s.unit ch
    let c := if u.count < 65535 then u.count + 1 else u.count
    let timer : StopTimer := { elapsed := 0, limit := (s.params ch).stopTime }
    let run (t : State) : State := if u.stopped then raiseEvent .chainRun (some ch) 0 0 t else t
    let back := run (s.setUnit ch { u with count := u.count - 1, stopped := false, reverse := true, stopTimer := some timer })
    (¬ ((u.sync = .locked ∨ u.sync = .coast) ∧ (s.params ch).pitch + (s.params ch).tolerance ≤ c) →
      exec (.encoderForwardCount ch) s =
        .next (run (s.setUnit ch { u with count := c, stopped := false, reverse := false, stopTimer := some timer }))) ∧
    exec (.encoderReverseCount ch) s = .next (if u.reverse then back else raiseEvent .reverse (some ch) 0 0 back) ∧
    exec (.stopTimerExpiry ch) s =
      .next (if u.stopTimer.isSome then
          raiseEvent .chainStop (some ch) 0 0 (s.setUnit ch { u with stopped := true, stopTimer := none })
        else s)

/-- R5, R6, R8, R9, R10: a lug-eye on-edge. In SEARCH and LOST, below the half pitch it is ignored; from there it gives an advance with c to
0, a spacing in the window raising the good count and any other setting it to 0, and the fourth good spacing locks the chain and raises SYNC
and, for the TCU, TRACK-SYNC. In LOCKED and COAST, below the window low it is spurious: EYE-EARLY with c over 16, capped at 255, and nothing
more; from the window low it gives an advance, with c and the miss count to 0, and leaves the chain LOCKED, which from COAST raises SYNC and
TRACK-SYNC. Links, tables, timebase, counts of postings and forces, the line state and the other chain unit stay. What the advance does to
the records is TrimmerAdvance's, PatternSet's, MarkAdvance's and SorterAdvance's to say. -/
def Obligations.LugEdges : Prop :=
  (∀ (ch : Chain) (s : State), s.edgeTaken (.lug ch) → (s.params ch).valid = true → (s.unit ch).reverse = false →
    (s.unit ch).sync = .search ∨ (s.unit ch).sync = .lost →
    let u := s.unit ch
    let p := s.params ch
    (u.count < roundDiv p.pitch 2 → exec (.lugEyeOnEdge ch .on) s = .next (s.withPin (.lug ch) true)) ∧
    (roundDiv p.pitch 2 ≤ u.count →
      let good := if p.pitch - p.tolerance ≤ u.count ∧ u.count ≤ p.pitch + p.tolerance then u.good + 1 else 0
      ∃ t, exec (.lugEyeOnEdge ch .on) s = .next t ∧
        t.unit ch =
          (if 4 ≤ good then { u with count := 0, serial := u.serial + 1, sync := .locked, good := 0, miss := 0 }
           else { u with count := 0, serial := u.serial + 1, good := good }) ∧
        (∀ other, other ≠ ch → t.unit other = s.unit other) ∧
        (4 ≤ good → t.attention.lineController.edges.getLsbD 5 = true ∧
          (ch = .trimmer → t.attention.optimizer.edges.getLsbD 0 = true)) ∧
        t.pins = s.pins.setLevel true (.lug ch) ∧ t.standing = s.standing ∧ t.timebase = s.timebase ∧ t.links = s.links ∧
        t.tables = s.tables ∧ t.board.line = s.board.line ∧ t.board.nextTag = s.board.nextTag ∧
        t.board.postings = s.board.postings ∧ t.board.forces = s.board.forces ∧ t.pending = s.pending)) ∧
  ∀ (ch : Chain) (s : State), s.edgeTaken (.lug ch) → (s.params ch).valid = true → (s.unit ch).reverse = false →
    (s.unit ch).sync = .locked ∨ (s.unit ch).sync = .coast →
    let u := s.unit ch
    let p := s.params ch
    (u.count < p.pitch - p.tolerance →
      exec (.lugEyeOnEdge ch .on) s =
        .next (raiseEvent .eyeEarly (some ch) 0 (if roundDiv u.count 16 < 255 then roundDiv u.count 16 else 255)
          (s.withPin (.lug ch) true))) ∧
    (p.pitch - p.tolerance ≤ u.count →
      ∃ t, exec (.lugEyeOnEdge ch .on) s = .next t ∧
        t.unit ch = { u with count := 0, serial := u.serial + 1, sync := .locked, miss := 0 } ∧
        (∀ other, other ≠ ch → t.unit other = s.unit other) ∧
        (u.sync = .coast → t.attention.lineController.edges.getLsbD 5 = true ∧
          (ch = .trimmer → t.attention.optimizer.edges.getLsbD 0 = true)) ∧
        t.pins = s.pins.setLevel true (.lug ch) ∧ t.standing = s.standing ∧ t.timebase = s.timebase ∧ t.links = s.links ∧
        t.tables = s.tables ∧ t.board.line = s.board.line ∧ t.board.nextTag = s.board.nextTag ∧
        t.board.postings = s.board.postings ∧ t.board.forces = s.board.forces ∧ t.pending = s.pending)

/-- R7, R9: the count that brings c to the window high in LOCKED or COAST gives a synthetic advance: c to E, the miss count raised, COAST,
and at the third miss LOST with the good count 0 and every record of the chain's own map SUSPECT. SYNTHETIC_ADVANCE is that count, and with
none due it does nothing (the model's choice, log 5). What the advance does to the records is TrimmerAdvance's, PatternSet's, MarkAdvance's
and SorterAdvance's to say. -/
def Obligations.SyntheticAdvance : Prop :=
  ∀ (ch : Chain) (s : State), s.awake = true →
    let u := s.unit ch
    let p := s.params ch
    let c := if u.count < 65535 then u.count + 1 else u.count
    ((u.sync = .locked ∨ u.sync = .coast) ∧ p.pitch + p.tolerance ≤ c →
      ∃ t, exec (.syntheticAdvance ch) s = .next t ∧ exec (.encoderForwardCount ch) s = .next t ∧
        t.unit ch =
          { u with count := p.tolerance, serial := u.serial + 1, miss := u.miss + 1, stopped := false, reverse := false,
                   sync := if 3 ≤ u.miss + 1 then .lost else .coast, good := if 3 ≤ u.miss + 1 then 0 else u.good,
                   stopTimer := some { elapsed := 0, limit := p.stopTime } } ∧
        (∀ other, other ≠ ch → t.unit other = s.unit other) ∧
        (3 ≤ u.miss + 1 → ch = .trimmer → ∀ r ∈ t.board.trimmer, r.flags.suspect = true) ∧
        (3 ≤ u.miss + 1 → ch = .sorter → ∀ r ∈ t.board.sorter, r.flags.suspect = true) ∧
        t.pins = s.pins ∧ t.standing = s.standing ∧ t.timebase = s.timebase ∧ t.links = s.links ∧ t.tables = s.tables ∧
        t.board.line = s.board.line ∧ t.board.nextTag = s.board.nextTag ∧ t.board.postings = s.board.postings ∧
        t.board.forces = s.board.forces ∧ t.pending = s.pending) ∧
    (¬ ((u.sync = .locked ∨ u.sync = .coast) ∧ p.pitch + p.tolerance ≤ c) → exec (.syntheticAdvance ch) s = .next s)

/-! ### What an advance does to the records (R27 to R31, R35, R67, R68, R107, R108, R113 to R121, R134 to R139) -/

/-- R28, R29, R107, R108, R116, R117, R118: what a trimmer advance in RUN does to the records at D, S, K and O, by a lug-eye edge or by a
count. The record brought to D is decided, and the decision is written, counted and kept as the last; every running window whose saw stands
wrong is a miss, charged to the owner's record; the record brought to K takes its outcome, MISCUT when the cut says so, and is CUT, or
TRASHED with its fate handed to the tally; the record brought to O, which may be the one just cut, goes IN-TRANSFER to the end of the
transfer queue, whose head is LOST first where it holds 8; the record brought to S is SET. In CONFIG nothing is decided, cut or set. The
events stand in the order of these lines, S0 to S12 among the misses (logs 9 and 22). -/
def Obligations.TrimmerAdvance : Prop :=
  ∀ (edge : Bool) (s : State), LivesPlaced s → s.advances .trimmer edge →
    let now := s.tcu.serial + 1
    let line := s.tables.station
    let off (r : Record) := r.trimmerOffset now
    let found := s.foundByLines .trimmer edge
    let missed (k : Nat) : Bool := decide ((s.saw k).stage ≠ .idle) && decide ((s.saw k).feedback ≠ (s.saw k).commanded)
    let charged : Bool := decide (s.saws.owner ≠ 0) && (List.range 13).any missed
    let charge (r : Record) : Record :=
      if charged = true ∧ r.tag = s.saws.owner then { r with flags := { r.flags with sawMiss := true } } else r
    let cut (r : Record) : Record :=
      match r.decision with
      | some d =>
        { charge r with life := .cut, outcome := some (s.cutOutcome r d).2,
                        flags := { (charge r).flags with miscut := r.flags.miscut || (s.cutOutcome r d).1 } }
      | none => r
    let trashed (r : Record) : Bool := decide (off r = line.sawSet + 1) && decide (r.decision.map (·.kind) = some .trash)
    let out : Option Record := (found.board.trimmer.find? fun r => decide (off r = line.outfeed) && !trashed r).map fun r =>
      if off r = line.sawSet + 1 then cut r else charge r
    let full : Bool := out.isSome && decide (8 ≤ s.board.transfer.length)
    let decided := found.board.trimmer.find? fun r => off r = line.decision
    let sawMissed (x : State) (k : Nat) : State :=
      let r := s.saw k
      let m := if r.misses < 15 then r.misses + 1 else r.misses
      let x := raiseEvent .sawMiss none k r.commanded.toNat x
      if r.enabled = true ∧ s.tables.settings.missLimit ≤ m then latch .sawFault (raiseEvent .sawDisabled none k m x) else x
    let afterSaws := ((List.range 13).filter missed).foldl sawMissed found
    let afterCut := match found.board.trimmer.find? trashed with
      | some r => handToTally (cut r) .trashed afterSaws
      | none => afterSaws
    let afterOut := match s.board.transfer.head? with
      | some head =>
        if full then raiseEvent .boardLost (some .trimmer) head.board.tag 1 (handToTally head.board .lost afterCut) else afterCut
      | none => afterCut
    ∃ t, exec (advanceCommand .trimmer edge) s = .next t ∧
      t.sort = s.sort ∧ t.scu = s.scu ∧ t.links = s.links ∧ t.tables = s.tables ∧ t.timebase = s.timebase ∧ t.standing = s.standing ∧
      t.pending = s.pending ∧
      (s.board.line = .config →
        t.board = found.board ∧ t.saws = s.saws ∧ t.decision = s.decision ∧ t.tally = s.tally ∧
        t.events = (s.afterLines .trimmer edge found).events ∧ t.attention = (s.afterLines .trimmer edge found).attention) ∧
      (s.board.line = .run →
        t.board = { s.board with
          trimmer := found.board.trimmer.filterMap fun r =>
            if off r = line.decision then some { charge r with life := .decided, decision := some (s.decideBoard r) }
            else if off r = line.sawSet then some { charge r with life := .set }
            else if trashed r = true ∨ off r = line.outfeed then none
            else if off r = line.sawSet + 1 then some (cut r)
            else some (charge r)
          transfer := (if full then s.board.transfer.drop 1 else s.board.transfer) ++
            out.toList.map fun r => { board := { r with life := .inTransfer }, age := 0 } } ∧
        t.decision = (match decided with
          | none => s.decision
          | some r =>
            let d := s.decideBoard r
            { s.decision with
              atLine := inc32 s.decision.atLine, reasons := modifyAt s.decision.reasons (d.reason.code - 1) inc32,
              last := some { tag := r.tag, kind := d.kind, source := d.source, reason := d.reason } }) ∧
        t.tally = afterOut.tally ∧
        t.events = (s.afterLines .trimmer edge afterOut).events ∧ t.attention = (s.afterLines .trimmer edge afterOut).attention)

/-- R111 to R114, R116, R117, R123: the pattern a record gives, and the saw records after a trimmer advance in RUN. A SUSPECT, undecided or
NO-TRIM record raises every saw; a TRIM record lowers S0 with its fence and each usable length saw from its far saw on that reaches the
board; a TRASH record lowers S0 and every usable length saw that reaches it. The advance ends every running window, with a confirm where the
feedback agrees and else a miss; then each saw is driven to the pattern of the record it brings to S, or UP for an empty lug, and a changed
CONFIRM or RETRY saw starts its first window or confirms at once, as does one that RESTART-TRACKING left DOWN when it is commanded UP (R123;
which saws a restart leaves DOWN is the model's choice, log 25). The record at S owns the pattern. -/
def Obligations.PatternSet : Prop :=
  (∀ (s : State) (r : Record),
    (∀ j, r.flags.suspect = true ∨ r.decision = none ∨ (∃ d, r.decision = some d ∧ d.kind = .noTrim) → s.patternDown r j = false) ∧
    (∀ d k, r.flags.suspect = false → r.decision = some d → d.kind = .trim → d.saw = some k →
      (s.patternDown r 0 = true ↔ (s.saw 0).enabled = true ∧ d.fence = true) ∧
      ∀ j, 1 ≤ j → j ≤ 12 →
        (s.patternDown r j = true ↔ (s.saw j).enabled = true ∧ k ≤ j ∧
          ∃ p, s.sawPlace j = some p ∧ ∀ c, r.scan = some c → p.position < c.length)) ∧
    (∀ d, r.flags.suspect = false → r.decision = some d → d.kind = .trash →
      (s.patternDown r 0 = true ↔ (s.saw 0).enabled = true) ∧
      ∀ j, 1 ≤ j → j ≤ 12 →
        (s.patternDown r j = true ↔ (s.saw j).enabled = true ∧
          ∃ p, s.sawPlace j = some p ∧ ∀ c, r.scan = some c → p.position < c.length))) ∧
  ∀ (edge : Bool) (s : State), LivesPlaced s → s.advances .trimmer edge → s.board.line = .run →
    ∃ t, exec (advanceCommand .trimmer edge) s = .next t ∧
      let at_ := t.board.trimmer.find? fun r => r.trimmerOffset t.tcu.serial = t.tables.station.sawSet
      t.saws.owner = (at_.map (·.tag)).getD 0 ∧
      ∀ j, j ≤ 12 →
        let r := s.saw j
        let m := if r.misses < 15 then r.misses + 1 else r.misses
        let w : SawRec :=
          if r.stage = .idle then r
          else if r.feedback = r.commanded then { r with stage := .idle, timer := 0, misses := 0 }
          else { r with stage := .idle, timer := 0, misses := m, totalMisses := inc32 r.totalMisses,
                        enabled := r.enabled && !decide (s.tables.settings.missLimit ≤ m) }
        let down : Bool := match at_ with
          | some x => t.patternDown x j
          | none => false
        t.saw j =
          if w.commanded = down ∧ ¬ (down = false ∧ w.leftDown = true) then w
          else if s.sawMode j = .none then { w with commanded := down, leftDown := false, stage := .idle, timer := 0 }
          else if w.feedback = down then { w with commanded := down, leftDown := false, stage := .idle, timer := 0, misses := 0 }
          else { w with commanded := down, leftDown := false, stage := .first, timer := 0 }

/-- R119, R120, R121: the outcome of a cut, which TrimmerAdvance writes into the record at K. Its pattern is the commanded states and its
snapshot the feedback; the end saw is the first length saw down that has a position and reaches the board, and the piece is its class where
it makes the nominal length from the fence or the end, else SHORT, or UNTRIMMED with no such saw. A TRIM cut at its class keeps its figures,
one at another class is MISCUT and recomputed, and one SHORT or UNTRIMMED is a REJECT; a NO-TRIM board cut to a class is MISCUT with its
grade or the default grade; a TRASH board is a REJECT. So where every saw stands as the decision commands, the outcome is the decision's. -/
def Obligations.CutAsDecided : Prop :=
  (∀ (s : State) (r : Record) (d : Decision),
    let miscut := (s.cutOutcome r d).1
    let o := (s.cutOutcome r d).2
    let reaches (j : Nat) : Prop := 1 ≤ j ∧ j ≤ 12 ∧ (s.saw j).feedback = true ∧
      ∃ p, s.sawPlace j = some p ∧ ∀ c, r.scan = some c → p.position < c.length
    let fence := if (s.saw 0).feedback then s.tables.settings.fence else 0
    let recut (grade : Option Nat) (j : Nat) : Prop :=
      (r.scan = none → o.volume = 0 ∧ o.value = 0) ∧
      ∀ c, r.scan = some c → o.volume = s.volume c j ∧
        o.value = match grade with
          | some g => roundDiv (s.volume c j * s.price g j) 1000000
          | none => 0
    (∀ j, j ≤ 12 → entryD o.pattern j false = (s.saw j).commanded ∧ entryD o.snapshot j false = (s.saw j).feedback) ∧
    ((∀ j, j ≤ 12 → ¬ reaches j) → o.result = .untrimmed) ∧
    (∀ j p, reaches j → (∀ i, i < j → ¬ reaches i) → s.sawPlace j = some p →
      o.result = if p.nominal + fence ≤ p.position then .cls j else .short) ∧
    (d.kind = .trim →
      o.grade = d.grade ∧
      (∀ j, o.result = .cls j →
        o.disposition = d.disposition ∧ miscut = decide (d.cls ≠ some j) ∧
        (d.cls = some j → o.volume = d.volume ∧ o.value = d.value) ∧ (d.cls ≠ some j → recut d.grade j)) ∧
      (o.result = .short ∨ o.result = .untrimmed → o.disposition = .reject ∧ o.volume = 0 ∧ o.value = 0 ∧ miscut = false)) ∧
    (d.kind = .noTrim →
      o.disposition = d.disposition ∧
      (∀ j, o.result = .cls j →
        miscut = true ∧ o.grade = some (d.grade.getD s.tables.grade.default) ∧ recut (some (d.grade.getD s.tables.grade.default)) j) ∧
      (o.result = .short ∨ o.result = .untrimmed → miscut = false ∧ o.grade = d.grade ∧ o.volume = 0 ∧ o.value = 0)) ∧
    (d.kind = .trash → miscut = false ∧ o.grade = d.grade ∧ o.disposition = .reject ∧ o.volume = 0 ∧ o.value = 0)) ∧
  ∀ (s : State) (r : Record) (d : Decision) (k : Nat) (p : SawPlace) (scan : ScanSummary), r.flags.suspect = false →
    r.scan = some scan → r.decision = some d → d.kind = .trim → d.saw = some k → d.cls = some k → 1 ≤ k → k ≤ 12 →
    (s.saw k).enabled = true → s.sawPlace k = some p → p.position < scan.length → p.nominal ≤ p.position →
    (d.fence = true → p.nominal + s.tables.settings.fence ≤ p.position) →
    (∀ j, j ≤ 12 → (s.saw j).feedback = s.patternDown r j) →
    (s.cutOutcome r d).1 = false ∧ (s.cutOutcome r d).2.result = .cls k ∧ (s.cutOutcome r d).2.grade = d.grade ∧
      (s.cutOutcome r d).2.disposition = d.disposition ∧ (s.cutOutcome r d).2.volume = d.volume ∧
      (s.cutOutcome r d).2.value = d.value

/-- R67, R68: the mark unit on a trimmer advance. A position's target is the record of its window that carries no commit of the position and
has the highest offset, or none. Where the advance has carried the target to the offset after the high line and keys are stacked, the stack
is emptied with TOP kept, MISSED is sent and counted; then the target is chosen again, and TARGET-ON or TARGET-OFF is sent only where it
changes. A code offered to a full reply queue is lost and counted (R61). -/
def Obligations.MarkAdvance : Prop :=
  (∀ (s : State) (now : Serial) (p : Position),
    let lo := match p with
      | .a => s.tables.station.aLo
      | .b => s.tables.station.bLo
    let hi := match p with
      | .a => s.tables.station.aHi
      | .b => s.tables.station.bHi
    let open_ (r : Record) : Prop := lo ≤ r.trimmerOffset now ∧ r.trimmerOffset now ≤ hi ∧
      ¬ ∃ m, r.marks = some m ∧ (match p with
        | .a => m.byA
        | .b => m.byB) = true
    (s.chooseTarget now p = none ↔ ∀ r ∈ s.board.trimmer, ¬ open_ r) ∧
    ∀ tag, s.chooseTarget now p = some tag →
      ∃ r ∈ s.board.trimmer, r.tag = tag ∧ open_ r ∧ ∀ x ∈ s.board.trimmer, open_ x → x.trimmerOffset now ≤ r.trimmerOffset now) ∧
  ∀ (edge : Bool) (p : Position) (s : State), s.advances .trimmer edge →
    let g := s.grading p
    let hi := match p with
      | .a => s.tables.station.aHi
      | .b => s.tables.station.bHi
    let send (code : Reply) (g : Grading) : Grading :=
      if g.replies.length < 8 then { g with replies := g.replies ++ [code] }
      else { g with counts := { g.counts with repliesLost := inc32 g.counts.repliesLost } }
    ∃ t, exec (advanceCommand .trimmer edge) s = .next t ∧
      let new := t.chooseTarget t.tcu.serial p
      let left : Bool := match g.target.bind fun tag => byTag t.board.trimmer tag with
        | some r => decide (r.trimmerOffset t.tcu.serial = hi + 1)
        | none => false
      let emptied := send .missed { g with slots := Vector.replicate 6 .empty }
      let g1 : Grading :=
        if left = true ∧ ∃ i : Fin 6, g.slots[i] ≠ .empty then
          { emptied with counts := { emptied.counts with missed := inc32 emptied.counts.missed } }
        else g
      t.grading p =
        if new = g.target then g1 else send (if new.isSome then .targetOn else .targetOff) { g1 with target := new }

/-- R9, R30, R35: what a sorter advance does, by a lug-eye edge or by a count, in either line state. Every entry of the transfer queue ages
by 1 and the heads older than H are LOST, each with BOARD-LOST, detail 2; then each record of the sorter map, from the highest offset to the
lowest, meets its drop line or the runout line as DropLine says (the order of the steps and of the records is the model's, log 9). Nothing
else moves. -/
def Obligations.SorterAdvance : Prop :=
  ∀ (edge : Bool) (s : State), s.advances .sorter edge →
    let now := s.scu.serial + 1
    let found := s.foundByLines .sorter edge
    let aged : List Waiting := s.board.transfer.map fun w => { w with age := w.age + 1 }
    let tooOld (w : Waiting) : Bool := decide (s.tables.settings.ageLimit < w.age)
    let retired := (aged.takeWhile tooOld).foldl
      (fun x w => raiseEvent .boardLost (some .sorter) w.board.tag 2 (handToTally w.board .lost x))
      { found with board := { found.board with transfer := aged.dropWhile tooOld } }
    let lines := (found.board.sorter.map (·.tag)).foldl (fun x tag => sorterLine now tag x) retired
    ∃ t, exec (advanceCommand .sorter edge) s = .next t ∧
      t.board = lines.board ∧ t.sort = lines.sort ∧ t.tally = lines.tally ∧
      t.events = (s.afterLines .sorter edge lines).events ∧ t.attention = (s.afterLines .sorter edge lines).attention ∧
      t.board.trimmer = s.board.trimmer ∧ t.board.transfer = aged.dropWhile tooOld ∧ t.tcu = s.tcu ∧ t.gradingA = s.gradingA ∧
      t.gradingB = s.gradingB ∧ t.decision = s.decision ∧ t.saws = s.saws ∧ t.links = s.links ∧ t.tables = s.tables ∧
      t.timebase = s.timebase ∧ t.standing = s.standing ∧ t.pending = s.pending

/-- R34 to R37, R132, R134 to R137, R139: what the sorter lines do for the record of a tag. At the runout line it retires RUNOUT, its place
released. At the drop line of its bin a SUSPECT record gives up its place and passes; one whose bin is not OPEN, or holds 4 pending drops,
is re-routed to the first bin after its own in its route that can take it further down, or to bin 0; else the gate fires, and the drop is
pending, or completes at once in mode NONE. A place taken or given up judges NEAR. A record with no bin, not ON-SORTER or at no line of its
own stays. A drop of route NONE, which holds no bin, counts as reject (the model's choice, log 11). -/
def Obligations.DropLine : Prop :=
  (∀ (s : State) (p : SortPart) (offset : Nat),
    let after := ((s.routeBins p.route).dropWhile fun b => b != p.bin).drop 1
    let fits (b : Nat) : Bool := match (s.bin b).items with
      | some it => decide ((s.bin b).state = .opened) && decide ((s.bin b).dropped + (s.bin b).reserved < it.capacity) &&
        decide (offset < it.drop)
      | none => false
    s.rerouteBin p offset = (after.find? fits).getD 0) ∧
  ∀ (s : State) (now : Serial) (tag bin : Nat) (r : Record) (p : SortPart),
    byTag s.board.sorter tag = some r → r.sort = some p → p.bin = bin → bin ≤ 48 →
    let off := r.sorterOffset now
    let b := s.bin bin
    let t := sorterLine now tag s
    let given : BinRec := ({ b with reserved := b.reserved - 1 } : BinRec).judged
    let others (but : List Nat) : Prop := ∀ n, 1 ≤ n → n ≤ 48 → n ∉ but → t.bin n = s.bin n
    let sorter (f : Record → Record) := s.board.sorter.map fun x => if x.tag = tag then f x else x
    let left := s.board.sorter.filter fun x => x.tag != tag
    let quiet : Prop := t = { s with board := { s.board with sorter := t.board.sorter }, sort := t.sort, attention := t.attention }
    let near (x : State) (rises : Bool) := t.attention = x.binCauses rises false
    (off = s.tables.station.runout →
      let base : State := if bin ≠ 0 then { s with attention := s.binCauses (b.nearRises given) false } else s
      let tallied := handToTally r .runout base
      t = { tallied with board := { s.board with sorter := left }, sort := t.sort } ∧ t.sort.counts = s.sort.counts ∧
      others [bin] ∧ (bin ≠ 0 → t.bin bin = { given with pending := b.pending.filter fun e => e.tag != r.tag })) ∧
    (off ≠ s.tables.station.runout → bin = 0 ∨ r.life ≠ .onSorter ∨ (∀ it, b.items = some it → it.drop ≠ off) → t = s) ∧
    ∀ it, off ≠ s.tables.station.runout → bin ≠ 0 → r.life = .onSorter → b.items = some it → it.drop = off →
      let holds : Bool := it.confirm && decide (4 ≤ b.pending.length)
      (r.flags.suspect = true →
        quiet ∧ t.board.sorter = sorter (fun x => { x with sort := x.sort.map fun q => { q with bin := 0, result := .passed } }) ∧
        t.bin bin = given ∧ others [bin] ∧ near s (b.nearRises given) ∧
        t.sort.counts = { s.sort.counts with suspectPasses := inc32 s.sort.counts.suspectPasses }) ∧
      (r.flags.suspect = false → b.state ≠ .opened ∨ holds = true →
        let new := s.rerouteBin p off
        let taken : BinRec := ({ s.bin new with reserved := (s.bin new).reserved + 1 } : BinRec).judged
        quiet ∧ (new ≠ 0 → new ≠ bin ∧ t.bin new = taken) ∧ t.bin bin = given ∧ others [bin, new] ∧
        t.board.sorter = sorter (fun x => { x with sort := x.sort.map fun q => { q with bin := new },
                                                   flags := { x.flags with rerouted := true } }) ∧
        near s (b.nearRises given || (decide (new ≠ 0) && (s.bin new).nearRises taken)) ∧
        t.sort.counts = { s.sort.counts with
          reroutes := inc32 s.sort.counts.reroutes,
          pendingFull := if b.state = .opened then inc32 s.sort.counts.pendingFull else s.sort.counts.pendingFull }) ∧
      (r.flags.suspect = false → b.state = .opened → holds = false →
        let fired : Record := { r with sort := some { p with attempts := p.attempts + 1 } }
        t.sort.counts = { s.sort.counts with fires := inc32 s.sort.counts.fires } ∧ others [bin] ∧
        (it.confirm = true →
          quiet ∧ t.attention = s.attention ∧
          t.board.sorter = sorter (fun x => { x with life := .dropping, sort := x.sort.map fun q => { q with attempts := q.attempts + 1 } }) ∧
          t.bin bin = { b with gateOpen := true, pulse := some 0, pending := b.pending ++ [{ tag := tag, elapsed := 0 }] }) ∧
        (it.confirm = false →
          let full : Bool := decide (it.capacity ≤ b.dropped + 1)
          let fate : Fate := match p.route with
            | .group _ => .droppedGraded
            | .reman => .droppedReman
            | .reject | .nowhere => .droppedReject
          let tallied := handToTally { fired with sort := fired.sort.map fun q => { q with result := .dropped } } fate
            { s with attention := s.binCauses false full }
          t = { tallied with board := { s.board with sorter := left }, sort := t.sort } ∧
          t.bin bin = { b with gateOpen := true, pulse := some 0, dropped := b.dropped + 1, reserved := b.reserved - 1,
                               state := if full then .full else .opened }))

/-! ### Boards (R23 to R36, R130 to R133) -/

/-- R23, R24, R25, R54, R55: a scan-eye on-edge in RUN. On a lug that carries a record it sets DOUBLE on that record alone. On an empty lug
it creates a SCANNED record with the next free tag and the TCU serial, SUSPECT in SEARCH or LOST, and its notice takes the next number and
is queued on link 0 with 2 or more slots free, else counted lost (R55, kept by the model's choice of log 29 where the spec also says
otherwise, after a response that took one of 2 free slots); a queued frame is begun at once unless TX pause is set (log 15). The next free
tag is the first from the tag counter on, wrapping from 65,535 to 1, that no live record carries. -/
def Obligations.ScanEye : Prop :=
  (∀ s : State, s.edgeTaken .scan → s.board.line = .run → s.tcu.reverse = false →
    (∀ r, s.trimmerAt s.tcu.serial 0 = some r →
      exec (.scanEyeOnEdge .on) s =
        .next ((s.withPin .scan true).modifyTrimmer r.tag fun x => { x with flags := { x.flags with double := true } })) ∧
    ((∀ r ∈ s.board.trimmer, r.trimmerOffset s.tcu.serial ≠ 0) →
      let tag := s.nextFreeTag
      let suspect := decide (s.tcu.sync = .search ∨ s.tcu.sync = .lost)
      let r : Record :=
        { tag := tag, origin := .scanned, creation := s.tcu.serial, sorterSerial := none, life := .scanned,
          flags := { suspect := suspect, double := false, miscut := false, sawMiss := false, gateMiss := false, rerouted := false,
                     redecided := false },
          scan := none, solution := none, marks := none, force := none, decision := none, outcome := none, sort := none }
      let k := s.links.optimizer
      let p := s.board.postings
      let notice := 0x80#8 :: (u16 tag ++ u32 s.tcu.serial.toNat ++ flag8 suspect ++ u16 s.links.notice)
      let room : Bool := decide (k.tx.length + 2 ≤ 16)
      exec (.scanEyeOnEdge .on) s =
        .next { s.withPin .scan true with
          board := { s.board with
            trimmer := s.board.trimmer ++ [r], nextTag := if tag < 65535 then tag + 1 else 1,
            postings := if room then p else { p with noticesLost := inc32 p.noticesLost } }
          links := { s.links with
            notice := if s.links.notice < 65535 then s.links.notice + 1 else 0,
            optimizer := if room then { k with tx := k.tx ++ [notice], sending := k.sending || !k.txPause } else k } })) ∧
  ∀ s : State, 1 ≤ s.board.nextTag → s.board.nextTag ≤ 65535 → s.live.length < 65535 →
    1 ≤ s.nextFreeTag ∧ s.nextFreeTag ≤ 65535 ∧ (∀ r ∈ s.live, r.tag ≠ s.nextFreeTag) ∧
    ∃ k, s.nextFreeTag = Nat.repeat (fun tag => if tag < 65535 then tag + 1 else 1) k s.board.nextTag ∧
      ∀ j < k, ∃ r ∈ s.live, r.tag = Nat.repeat (fun tag => if tag < 65535 then tag + 1 else 1) j s.board.nextTag

/-- R31, R32, R33, R36, R131, R132, R133: a pickup on an empty lug in RUN. It takes the head of the transfer queue onto the sorter lug at
offset 0; with the queue empty it creates an UNKNOWN record with the next free tag, both serials as they stand and disposition REJECT with
no grade, class or width, and raises BOARD-UNKNOWN with its tag, and no notice is offered. The record is SUSPECT if the SCU is in SEARCH or
LOST, and is allocated the first bin of its route that is fitted, OPEN and below capacity, or bin 0, with a place reserved there and the
bin's NEAR flag judged, BIN-NEAR raised where it rises; a SUSPECT record takes bin 0. ProductRoute says what key and route are. -/
def Obligations.PickupAllocates : Prop :=
  ∀ s : State, s.edgeTaken .pickup → s.board.line = .run → s.scu.reverse = false →
    (∀ r ∈ s.board.sorter, r.sorterOffset s.scu.serial ≠ 0) →
    let placed (r : Record) (base : State) (t : State) : Prop :=
      let suspect := r.flags.suspect || decide (s.scu.sync = .search ∨ s.scu.sync = .lost)
      let key := productKey r
      let kind := s.routeKind key
      let bin := if suspect then 0 else ((s.routeBins kind).find? fun b => s.takes b).getD 0
      let taken : BinRec := ({ s.bin bin with reserved := (s.bin bin).reserved + 1 } : BinRec).judged
      t = { base with
            board := { base.board with
              sorter := s.board.sorter ++ [{ r with
                sorterSerial := some s.scu.serial, life := .onSorter, flags := { r.flags with suspect := suspect },
                sort := some { key := key, route := kind, bin := bin, firstBin := bin,
                               result := if suspect then .passed else .none, attempts := 0 } }] }
            sort := t.sort,
            attention := base.binCauses (decide (bin ≠ 0) && (s.bin bin).nearRises taken) false } ∧
      t.sort.counts = countAllocation s kind bin s.sort.counts ∧
      (bin ≠ 0 → t.bin bin = taken) ∧
      ∀ n, 1 ≤ n → n ≤ 48 → n ≠ bin → t.bin n = s.bin n
    (∀ head rest, s.board.transfer = head :: rest → (∀ r ∈ s.board.sorter, r.tag ≠ head.board.tag) →
      ∃ t, exec (.pickupEyeOnEdge .on) s = .next t ∧
        placed head.board { s.withPin .pickup true with board := { s.board with transfer := rest } } t) ∧
    (s.board.transfer = [] → (∀ r ∈ s.board.sorter, r.tag ≠ s.nextFreeTag) →
      let tag := s.nextFreeTag
      let raised := raiseEvent .boardUnknown (some .sorter) tag 0 s
      let r : Record :=
        { tag := tag, origin := .unknown, creation := s.tcu.serial, sorterSerial := none, life := .onSorter,
          flags := { suspect := false, double := false, miscut := false, sawMiss := false, gateMiss := false, rerouted := false,
                     redecided := false },
          scan := none, solution := none, marks := none, force := none, decision := none, outcome := none, sort := none }
      productKey r = { grade := none, cls := none, width := none, disposition := .reject } ∧
      ∃ t, exec (.pickupEyeOnEdge .on) s = .next t ∧
        placed r { s.withPin .pickup true with
          board := { s.board with nextTag := if tag < 65535 then tag + 1 else 1 }, events := raised.events,
          attention := raised.attention } t)

/-- R130, R131, R133, R141: the product key, the route and the allocation's count, which PickupAllocates applies. A SCANNED record's key is
its as-cut grade and class, its posted width and its disposition; an UNKNOWN record's is REJECT alone. ALL-RUNOUT routes NONE, ALL-REJECT
routes REJECT, and BY-PRODUCT routes by the disposition: a NORMAL key goes to the group of the first rule whose grade set, class range and
width set it meets, and to REJECT where none matches or a field is absent. A group's bins are followed by the overflow bin unless it is 0 or
among them; a special bin 0 is no bin. A bin takes a board while fitted, OPEN and of load below capacity. Of the counts, the group-bin count
rises for every bin of the group's own list, the overflow bin included where it stands there (the model's choice, log 28). -/
def Obligations.ProductRoute : Prop :=
  (∀ r : Record,
    (r.origin = .unknown → productKey r = { grade := none, cls := none, width := none, disposition := .reject }) ∧
    ∀ o, r.origin = .scanned → r.outcome = some o →
      productKey r = { grade := o.grade, width := r.scan.map (·.width), disposition := o.disposition,
                       cls := match o.result with
                         | .cls j => some j
                         | .short | .untrimmed => none }) ∧
  ∀ (s : State) (key : ProductKey),
    let mode := s.decision.mode.sort
    let groups := s.tables.groups
    let special (bin : Nat) : List Nat := if bin = 0 then [] else [bin]
    let meets (rule : SortRule) : Bool := match key.grade, key.cls, key.width with
      | some g, some c, some w => decide (1 ≤ g) && rule.grades.getLsbD (g - 1) && decide (rule.lo ≤ c) && decide (c ≤ rule.hi) &&
        decide (1 ≤ w) && rule.widths.getLsbD (w - 1)
      | _, _, _ => false
    (mode = .allRunout → s.routeKind key = .nowhere) ∧
    (mode = .allReject → s.routeKind key = .reject) ∧
    (mode = .byProduct →
      (key.disposition = .reject → s.routeKind key = .reject) ∧
      (key.disposition = .reman → s.routeKind key = .reman) ∧
      (key.disposition = .normal →
        ((∀ rule ∈ s.tables.rules, meets rule = false) → s.routeKind key = .reject) ∧
        ∀ i, (h : i < s.tables.rules.length) → meets s.tables.rules[i] = true →
          (∀ rule ∈ s.tables.rules.take i, meets rule = false) → s.routeKind key = .group s.tables.rules[i].group)) ∧
    s.routeBins .nowhere = [] ∧ s.routeBins .reject = special groups.reject ∧ s.routeBins .reman = special groups.reman ∧
    (∀ n, 1 ≤ n → n ≤ 24 →
      let bins := (entryD groups.groups (n - 1) none).getD []
      s.routeBins (.group n) = bins ++ if groups.overflow ∈ bins then [] else special groups.overflow) ∧
    (∀ bin, 1 ≤ bin → bin ≤ 48 →
      (s.takes bin = true ↔ ∃ it, (s.bin bin).items = some it ∧ (s.bin bin).state = .opened ∧
        (s.bin bin).dropped + (s.bin bin).reserved < it.capacity)) ∧
    ∀ bin (c : SortCounts),
      (∀ kind, bin = 0 → countAllocation s kind bin c = { c with runout := inc32 c.runout }) ∧
      (bin ≠ 0 →
        countAllocation s .reject bin c = { c with reject := inc32 c.reject } ∧
        countAllocation s .reman bin c = { c with reman := inc32 c.reman } ∧
        ∀ n, 1 ≤ n → n ≤ 24 → countAllocation s (.group n) bin c =
          if bin ∈ (entryD groups.groups (n - 1) none).getD [] then { c with group := inc32 c.group }
          else { c with overflow := inc32 c.overflow })

/-! ### Saws (R114 to R116) -/

/-- R114, R115, R116: saw feedback and windows. A feedback input taken at a new value is recorded, and confirms a running window when it
equals the commanded state; a saw taken UP is no longer left DOWN by a restart (R123, log 25), and nothing else changes. A window that runs
out: a RETRY saw's first window is followed by a second, with the retry count raised; any other is a miss: the window ends, both miss counts
rise, the owner's record gets SAW-MISS, SAW-MISS is raised with the commanded state, and an enabled saw at the miss limit is disabled with
SAW-DISABLED and SAW-FAULT. With no window running nothing happens (log 8). -/
def Obligations.SawWindows : Prop :=
  ∀ (saw : Nat) (s : State), saw ≤ 12 → s.awake = true →
    let r := s.saw saw
    let m := if r.misses < 15 then r.misses + 1 else r.misses
    let out := r.enabled && decide (s.tables.settings.missLimit ≤ m)
    let missed := raiseEvent .sawMiss none saw r.commanded.toNat s
    let after := if out then latch .sawFault (raiseEvent .sawDisabled none saw m missed) else missed
    (∀ down : Bool,
      ∃ t, exec (.sawFeedbackChange saw down) s = .next t ∧
        t = { s with pins := { s.pins with feedback := modifyAt s.pins.feedback saw fun _ => down },
                     saws := { s.saws with recs := t.saws.recs } } ∧
        t.saw saw =
          (if r.feedback = down then r
           else if r.stage ≠ .idle ∧ down = r.commanded then
             { r with feedback := down, stage := .idle, timer := 0, misses := 0, leftDown := r.leftDown && down }
           else { r with feedback := down, leftDown := r.leftDown && down }) ∧
        ∀ k, k ≤ 12 → k ≠ saw → t.saw k = s.saw k) ∧
    (r.stage = .idle → exec (.sawWindowExpiry saw) s = .next s) ∧
    (r.stage = .first → s.sawMode saw = .retry →
      exec (.sawWindowExpiry saw) s = .next (s.modifySaw saw fun x => { x with stage := .second, timer := 0, retries := inc32 x.retries })) ∧
    (r.stage = .second ∨ (r.stage = .first ∧ s.sawMode saw ≠ .retry) →
      ∃ t, exec (.sawWindowExpiry saw) s = .next t ∧
        t = { s with events := after.events, attention := after.attention, saws := { s.saws with recs := t.saws.recs },
                     board := { s.board with trimmer := t.board.trimmer } } ∧
        t.saw saw = { r with stage := .idle, timer := 0, misses := m, totalMisses := inc32 r.totalMisses,
                             enabled := r.enabled && !out } ∧
        (∀ k, k ≤ 12 → k ≠ saw → t.saw k = s.saw k) ∧
        t.board.trimmer =
          if s.saws.owner = 0 then s.board.trimmer
          else s.board.trimmer.map fun x =>
            if x.tag = s.saws.owner then { x with flags := { x.flags with sawMiss := true } } else x)

/-! ### The trim decision (R88 to R106) -/

/-- R89 to R106: the decision. The order of precedence is SUSPECT, a force kind, TRASH-ALL and BYPASS, DOUBLE, the want of a scan; each
settles the kind, disposition, source and reason, with no far saw, class or index, the fence clear, V and G 0, and the replacement grade. A
forced TRIM has its fence and grade by R91 and is FORCED where its saw is usable and feasible, else a NO-TRIM FORCE-SHORT, which keeps that
grade (log 23). Else, under AUTO or FIXED k, the candidate set is filtered by cutback and saw, grade, fence and feasibility in turn; the
best of what is left is CHOSEN, its source MARK where the marks acted, else OPTIMIZER, or MODE for the synthesized candidate (a mark's
no-fence counts as acting only where the force carries no fence, the model's choice, log 27); with none left, FIXED k gives FIXED-SHORT, and
AUTO the highest feasible saw within the cutback with NO-SOLUTION or NONE-FEASIBLE, or TRASH with SHORT. -/
def Obligations.DecisionPrecedence : Prop :=
  ∀ (s : State) (r : Record),
    let forced {α : Type} (f : Force → Option α) : Option α := r.force.bind f
    let markGrade := (r.marks.bind (·.grade)).map (·.value)
    let markNoFence := (r.marks.bind (·.noFence)).isSome
    let setGrade := (forced (·.grade)).or markGrade
    let noFence : Bool := match forced (·.fence) with
      | some on => !on
      | none => markNoFence
    let disposition := ((forced (·.disposition)).or ((r.marks.bind (·.disposition)).map (·.value))).getD .normal
    let plain (kind : Kind) (disposition : Disposition) (source : Source) (reason : Reason) : Decision :=
      { kind := kind, saw := none, fence := false, grade := setGrade, cls := none, volume := 0, value := 0, disposition := disposition,
        source := source, reason := reason, index := none }
    let usable (k : Nat) : Bool := decide (1 ≤ k) && decide (k ≤ 12) && (s.saw k).enabled && (s.sawPlace k).isSome
    let enabled (g : Nat) : Bool := decide (1 ≤ g) && decide (g ≤ 10) && s.tables.grade.enabled.getLsbD (g - 1)
    let feasible (scan : ScanSummary) (k : Nat) (fence : Bool) : Bool := match s.sawPlace k with
      | some p => decide (p.position + s.tables.settings.allowance ≤ scan.length) &&
        decide (p.nominal + (if fence then s.tables.settings.fence else 0) ≤ p.position)
      | none => false
    let trim (scan : ScanSummary) (k : Nat) (fence : Bool) (g : Nat) (source : Source) (reason : Reason) (index : Option Nat) : Decision :=
      { kind := .trim, saw := some k, fence := fence, grade := some g, cls := some k, volume := s.volume scan k,
        value := roundDiv (s.volume scan k * s.price g k) 1000000, disposition := disposition, source := source, reason := reason,
        index := index }
    let posted := (r.solution.map (·.candidates)).getD []
    (r.flags.suspect = true → s.decideBoard r = plain .noTrim .reject .byDefault .suspect) ∧
    (r.flags.suspect = false →
      (∀ f, r.force = some f → f.kind = some .trash → s.decideBoard r = plain .trash .reject .force .forced) ∧
      (∀ f, r.force = some f → f.kind = some .noTrim →
        s.decideBoard r =
          if r.scan.isSome then plain .noTrim (f.disposition.getD .reject) .force .forced
          else plain .noTrim .reject .force .noScan) ∧
      (∀ f k, r.force = some f → f.kind = some (.trim k) → 1 ≤ k →
        (r.scan = none → s.decideBoard r = plain .noTrim .reject .force .noScan) ∧
        ∀ scan, r.scan = some scan →
          let fence := f.fence.getD (!markNoFence) && (s.saw 0).enabled
          let g := (setGrade.or ((posted.find? fun c => decide (c.saw = k) && enabled c.grade).map (·.grade))).getD s.tables.grade.default
          s.decideBoard r =
            if usable k = true ∧ feasible scan k fence = true then trim scan k fence g .force .forced none
            else { plain .noTrim .reject .force .forceShort with grade := some g }) ∧
      (forced (·.kind) = none →
        (s.decision.mode.saws = .trashAll → s.decideBoard r = plain .trash .reject .mode .trashAll) ∧
        (s.decision.mode.saws = .bypass → s.decision.mode.sort ≠ .byProduct →
          s.decideBoard r =
            plain .noTrim (if s.decision.mode.sort = .allRunout then .normal else .reject) .mode .bypass) ∧
        (s.decision.mode.saws = .auto ∨ (∃ k, s.decision.mode.saws = .fixed k) →
          (r.flags.double = true → s.decideBoard r = plain .noTrim .reject .byDefault .double) ∧
          (r.flags.double = false → r.scan = none → s.decideBoard r = plain .noTrim .reject .byDefault .noScan) ∧
          (∀ scan, r.flags.double = false → r.scan = some scan →
            (∀ c ∈ posted, 1 ≤ c.saw) → (∀ k, s.decision.mode.saws = .fixed k → 1 ≤ k) →
            let above (k : Nat) : Bool := match (r.marks.bind (·.cutback)).map (·.value) with
              | some c => decide (c < k)
              | none => false
            let all : List Member := posted.zipIdx.map fun (c, i) => { saw := c.saw, fence := c.fence, grade := c.grade, index := some (i + 1) }
            let start : List Member := match s.decision.mode.saws with
              | .fixed k =>
                if all.any fun m => m.saw = k then all.filter fun m => m.saw = k
                else [{ saw := k, fence := true, grade := s.tables.grade.default, index := none }]
              | .auto | .trashAll | .bypass => all
            let bySaw := start.filter fun m => !above m.saw && usable m.saw
            let byGrade := (bySaw.map fun m => { m with grade := setGrade.getD m.grade }).filter fun m => enabled m.grade
            let byFence := byGrade.map fun m => { m with fence := m.fence && !noFence && (s.saw 0).enabled }
            let marked : Bool := (start.any fun m => above m.saw) ||
              ((forced (·.grade)).isNone && bySaw.any fun m => decide (markGrade.getD m.grade ≠ m.grade)) ||
              ((forced (·.fence)).isNone && markNoFence && byGrade.any fun m => m.fence)
            let fallFence := !noFence && (s.saw 0).enabled
            let falls (k : Nat) : Bool := usable k && !above k && feasible scan k fallFence
            let best := s.best scan (byFence.filter fun m => feasible scan m.saw m.fence)
            (∀ m, best = some m →
              s.decideBoard r =
                trim scan m.saw m.fence m.grade (if marked then .mark else if m.index.isSome then .optimizer else .mode) .chosen m.index) ∧
            (best = none →
              (∀ k, s.decision.mode.saws = .fixed k → s.decideBoard r = plain .noTrim .reject .mode .fixedShort) ∧
              (s.decision.mode.saws = .auto →
                (∀ k, k ≤ 12 → falls k = true → (∀ j, j ≤ 12 → k < j → falls j = false) →
                  s.decideBoard r =
                    trim scan k fallFence (setGrade.getD s.tables.grade.default) .byDefault
                      (if r.solution.isSome then .noneFeasible else .noSolution) none) ∧
                ((∀ k, k ≤ 12 → falls k = false) → s.decideBoard r = plain .trash .reject .byDefault .short)))))))

/-- R88, R91, R94 to R101, R104: every TRIM decision, whatever its source, is of an unsuspected record with a scan, at a usable length saw
whose position plus A does not pass Ls, making its nominal length from the fence when it is set and from the end else, with the fence only
under an enabled S0, its class the saw's, V its nominal volume and G its value at its grade, from the size table, the saw table and the
active price bank as SelectionRule has them. -/
def Obligations.TrimDecisionsFeasible : Prop :=
  ∀ (s : State) (r : Record), (s.decideBoard r).kind = .trim →
    let d := s.decideBoard r
    r.flags.suspect = false ∧
    ∃ k p scan g, r.scan = some scan ∧ 1 ≤ k ∧ k ≤ 12 ∧ d.saw = some k ∧ d.cls = some k ∧ d.grade = some g ∧
      (s.saw k).enabled = true ∧ s.sawPlace k = some p ∧ p.position + s.tables.settings.allowance ≤ scan.length ∧
      (d.fence = true → (s.saw 0).enabled = true ∧ p.nominal + s.tables.settings.fence ≤ p.position) ∧
      (d.fence = false → p.nominal ≤ p.position) ∧
      d.volume = s.volume scan k ∧ d.value = (d.volume * s.price g k + 500000) / 1000000 ∧
      ∀ tc wc, 1 ≤ scan.thickness → 1 ≤ scan.width → entryD s.tables.size.thickness (scan.thickness - 1) none = some tc →
        entryD s.tables.size.width (scan.width - 1) none = some wc → d.volume = (tc * wc * p.nominal + 500) / 1000

/-- R99 to R102: what a candidate is worth, and the member chosen. Its volume is tc × wc × Nk over 1,000, of the thickness and width of its
size codes in the size table and the nominal length of its saw in the saw table; its value is the volume times the price of its grade and
saw in the active bank over 1,000,000; each rounded to the nearest, a half up. The member chosen is of the set, no member has a higher
value, and among members of its value none has a higher far saw and none of its far saw was posted before it. -/
def Obligations.SelectionRule : Prop :=
  (∀ (s : State) (g k : Nat), 1 ≤ g → g ≤ 10 → 1 ≤ k → k ≤ 12 →
    let cell := 12 * (g - 1) + (k - 1)
    s.price g k = if s.tables.active1 then entryD s.tables.bank1 cell 0 else entryD s.tables.bank0 cell 0) ∧
  (∀ (s : State) (scan : ScanSummary) (k tc wc : Nat) (p : SawPlace), 1 ≤ scan.thickness → 1 ≤ scan.width → 1 ≤ k →
    entryD s.tables.size.thickness (scan.thickness - 1) none = some tc → entryD s.tables.size.width (scan.width - 1) none = some wc →
    entryD s.tables.saw.places (k - 1) none = some p →
    s.volume scan k = (tc * wc * p.nominal + 500) / 1000 ∧
    ∀ m : Member, m.saw = k →
      s.memberValue scan m = ((tc * wc * p.nominal + 500) / 1000 * s.price m.grade k + 500000) / 1000000) ∧
  ∀ (s : State) (scan : ScanSummary) (set : List Member),
    (s.best scan set = none ↔ set = []) ∧
    ∀ m, s.best scan set = some m →
      ∃ before after, set = before ++ m :: after ∧
        (∀ x ∈ before, s.memberValue scan x < s.memberValue scan m ∨ (s.memberValue scan x = s.memberValue scan m ∧ x.saw < m.saw)) ∧
        ∀ x ∈ after, s.memberValue scan x < s.memberValue scan m ∨ (s.memberValue scan x = s.memberValue scan m ∧ x.saw ≤ m.saw)

/-! ### Keypads (R60 to R71) -/

/-- R60, R61, R63, R64: mark keys. In RUN, with slot (TOP − 1) mod 6 not EMPTY the key is refused; else TOP moves there and the key is
stored, VOID for a grade not enabled or a cutback whose saw is disabled or has no position, VALID else, and the counts rise. In CONFIG every
key is refused; a bad byte is only counted; a code sent leaves the reply queue. A code offered to a full reply queue is dropped and counted.
-/
def Obligations.MarkKeys : Prop :=
  ∀ (p : Position) (key : MarkKey) (s : State), s.awake = true → key.isKey = true →
    let g := s.grading p
    let slot : Fin 6 := g.top - 1
    let valid : Bool := match key with
      | .grade n => s.tables.grade.enabled.getLsbD (n - 1)
      | .cutback c => (s.saw c).enabled && (s.sawPlace c).isSome
      | .reject | .reman | .noFence => true
    let refused :=
      s.setGrading p (if g.replies.length < 8 then
        { g with replies := g.replies ++ [.refuse], counts := { g.counts with refusals := inc32 g.counts.refusals } }
      else { g with counts := { g.counts with refusals := inc32 g.counts.refusals, repliesLost := inc32 g.counts.repliesLost } })
    (s.board.line = .run →
      (g.slots[slot] ≠ .empty → exec (.keyMarkPush p key) s = .next refused) ∧
      (g.slots[slot] = .empty →
        exec (.keyMarkPush p key) s =
          .next (s.setGrading p { g with
            slots := g.slots.set slot (if valid then .valid key else .void key), top := slot,
            counts := { g.counts with keys := inc32 g.counts.keys,
                                      voids := if valid then g.counts.voids else inc32 g.counts.voids } }))) ∧
    (s.board.line = .config →
      exec (.keyMarkPush p key) s = .next refused ∧ exec (.keyUndo p) s = .next refused ∧ exec (.keyClr p) s = .next refused ∧
      exec (.keyEnt p) s = .next refused) ∧
    exec (.keypadBadByte p) s = .next (s.setGrading p { g with counts := { g.counts with badBytes := inc32 g.counts.badBytes } }) ∧
    exec (.keypadReplySent p) s = .next (s.setGrading p { g with replies := g.replies.drop 1 })

/-- R65, R66: UNDO in RUN empties the slot at TOP and moves TOP to the next; with depth 0 it is refused. CLR in RUN empties every slot,
keeping TOP, and sends nothing. Neither changes a target or a record. -/
def Obligations.MarkUndoClr : Prop :=
  ∀ (p : Position) (s : State), s.awake = true → s.board.line = .run →
    let g := s.grading p
    let counts := { g.counts with keys := inc32 g.counts.keys }
    ((∃ i : Fin 6, g.slots[i] ≠ .empty) →
      exec (.keyUndo p) s = .next (s.setGrading p { g with slots := g.slots.set g.top .empty, top := g.top + 1, counts := counts }) ∧
      (g.Contiguous → ({ g with slots := g.slots.set g.top .empty, top := g.top + 1 } : Grading).depth = g.depth - 1)) ∧
    ((∀ i : Fin 6, g.slots[i] = .empty) →
      exec (.keyUndo p) s =
        .next (s.setGrading p
          (if g.replies.length < 8 then
            { g with replies := g.replies ++ [.refuse], counts := { g.counts with refusals := inc32 g.counts.refusals } }
           else { g with counts := { g.counts with refusals := inc32 g.counts.refusals, repliesLost := inc32 g.counts.repliesLost } }))) ∧
    exec (.keyClr p) s = .next (s.setGrading p { g with slots := Vector.replicate 6 .empty, counts := counts })

/-- R61, R62, R67, R69, R70, R71: ENT in RUN. With no target it is refused. Else the newest VALID key of each kind, the slot at TOP being
the newest and those at TOP + 1 and on modulo 6 the older ones, is written into the target's mark set with its setting position, kinds
without one keeping their value, the commit flag is set, the stack is emptied with TOP kept, ACCEPT is sent, the key and a commit or, on an
empty stack, a pass are counted, and the target is chosen again, with TARGET-ON or TARGET-OFF where it changes. -/
def Obligations.MarkEnt : Prop :=
  ∀ (p : Position) (s : State), s.awake = true → s.board.line = .run →
    let g := s.grading p
    let send (code : Reply) (g : Grading) : Grading :=
      if g.replies.length < 8 then { g with replies := g.replies ++ [code] }
      else { g with counts := { g.counts with repliesLost := inc32 g.counts.repliesLost } }
    let refused := send .refuse g
    (g.target = none →
      exec (.keyEnt p) s =
        .next (s.setGrading p { refused with counts := { refused.counts with refusals := inc32 refused.counts.refusals } })) ∧
    ∀ tag, g.target = some tag →
      let stack : List Slot := [g.slots[g.top], g.slots[g.top + 1], g.slots[g.top + 2], g.slots[g.top + 3], g.slots[g.top + 4],
        g.slots[g.top + 5]]
      let written (m : MarkSet) : MarkSet :=
        { grade := ((stack.findSome? fun
            | .valid (.grade n) => some n
            | _ => none).map fun n => ({ value := n, setBy := p } : Marked Nat)).or m.grade
          cutback := ((stack.findSome? fun
            | .valid (.cutback c) => some c
            | _ => none).map fun c => ({ value := c, setBy := p } : Marked Nat)).or m.cutback
          disposition := ((stack.findSome? fun
            | .valid .reject => some Disposition.reject
            | .valid .reman => some Disposition.reman
            | _ => none).map fun x => ({ value := x, setBy := p } : Marked Disposition)).or m.disposition
          noFence := if Slot.valid .noFence ∈ stack then some p else m.noFence
          byA := m.byA || decide (p = .a), byB := m.byB || decide (p = .b) }
      let passes : Bool := decide (∀ i : Fin 6, g.slots[i] = .empty)
      let sent := send .accept { g with slots := Vector.replicate 6 .empty }
      let counted : Grading := { sent with counts := { sent.counts with
        keys := inc32 sent.counts.keys, passes := if passes then inc32 sent.counts.passes else sent.counts.passes,
        commits := if passes then sent.counts.commits else inc32 sent.counts.commits } }
      ∃ t, exec (.keyEnt p) s = .next t ∧
        t = ({ s with board := { s.board with trimmer := t.board.trimmer } } : State).setGrading p (t.grading p) ∧
        t.board.trimmer = (s.board.trimmer.map fun r =>
          if r.tag = tag then { r with marks := some (written (r.marks.getD
            { grade := none, cutback := none, disposition := none, noFence := none, byA := false, byB := false })) } else r) ∧
        let new := t.chooseTarget s.tcu.serial p
        t.grading p =
          if new = g.target then counted else send (if new.isSome then .targetOn else .targetOff) { counted with target := new }

/-! ### Gates and full switches (R127, R135 to R139) -/

/-- R127, R135, R136, R137: a gate pulse's expiry closes the gate; with no pulse running it does nothing (log 8). A confirm on-edge
completes the oldest pending drop: the entry leaves, the misses go to 0, one place moves from the reserved to the dropped count, an OPEN bin
that reaches capacity becomes FULL with BIN-FULL, and the record leaves the sorter and is handed to the tally with the fate of its route,
where route NONE, which holds no bin, counts as reject (the model's choice, log 11). With no drop pending the confirm is counted stray. A
full switch's on-edge raises BIN-FULL-SWITCH with the bin's state before it, makes an OPEN bin FULL with BIN-FULL, keeps every other state,
and changes no count. -/
def Obligations.GateInputs : Prop :=
  (∀ (bin : Nat) (s : State), 1 ≤ bin → bin ≤ 48 → s.awake = true →
    let b := s.bin bin
    exec (.gatePulseExpiry bin) s =
      .next (if b.pulse.isSome then s.modifyBin bin fun x => { x with gateOpen := false, pulse := none } else s) ∧
    (s.edgeTaken (.confirm bin) → b.pending = [] →
      exec (.gateConfirmOnEdge bin .on) s =
        .next (((s.withPin (.confirm bin) true).modifyBin bin fun x => { x with confirmInput := true }).modifySortCounts
          fun c => { c with strays := inc32 c.strays })) ∧
    ∀ e rest r p, s.edgeTaken (.confirm bin) → b.pending = e :: rest → byTag s.board.sorter e.tag = some r → r.sort = some p →
      let fate : Fate := match p.route with
        | .group _ => .droppedGraded
        | .reman => .droppedReman
        | .reject | .nowhere => .droppedReject
      ∃ t, exec (.gateConfirmOnEdge bin .on) s = .next t ∧
        t.bin bin = { b with confirmInput := true, pending := rest, misses := 0, dropped := b.dropped + 1, reserved := b.reserved - 1,
                             state := if b.state = .opened ∧ ∃ it, b.items = some it ∧ it.capacity ≤ b.dropped + 1 then .full
                               else b.state } ∧
        (∀ n, 1 ≤ n → n ≤ 48 → n ≠ bin → t.bin n = s.bin n) ∧
        t.sort.counts = { s.sort.counts with confirms := inc32 s.sort.counts.confirms } ∧
        t.board = { s.board with sorter := s.board.sorter.filter fun x => x.tag != e.tag } ∧
        (let full : Bool := decide (b.state = .opened) && ((b.items.map fun it => decide (it.capacity ≤ b.dropped + 1)).getD false)
          let tallied := handToTally { r with sort := some { p with result := .dropped } } fate
            { s with attention := s.binCauses false full }
          t.tally = tallied.tally ∧ t.events = tallied.events ∧ t.attention = tallied.attention) ∧
        t.pins = s.pins.setLevel true (.confirm bin) ∧ t.tcu = s.tcu ∧ t.scu = s.scu ∧ t.saws = s.saws ∧ t.links = s.links ∧
        t.tables = s.tables ∧ t.decision = s.decision ∧ t.pending = s.pending) ∧
  ∀ (bin : Nat) (s : State), 1 ≤ bin → bin ≤ 48 → s.edgeTaken (.full bin) →
    let b := s.bin bin
    let number := match b.state with
      | .opened => 0
      | .full => 1
      | .unloading => 2
      | .disabled => 3
    let raised := raiseEvent .binFullSwitch none bin number s
    ∃ t, exec (.binFullSwitchOnEdge bin .on) s = .next t ∧
      t = { s.withPin (.full bin) true with
            events := raised.events,
            attention := if b.state = .opened then
                { raised.attention with lineController :=
                    { raised.attention.lineController with edges := raised.attention.lineController.edges ||| 8#8 } }
              else raised.attention,
            sort := { s.sort with bins := t.sort.bins } } ∧
      t.bin bin = { b with fullSwitch := true, state := if b.state = .opened then .full else b.state } ∧
      ∀ n, 1 ≤ n → n ≤ 48 → n ≠ bin → t.bin n = s.bin n

/-- R132, R138, R139: a confirm window that runs out misses the oldest pending drop; with none pending nothing happens (log 8). The entry
leaves, the misses rise, held at 15, and at 3 or more a fitted bin that is not DISABLED is disabled; the record gets GATE-MISS and REROUTED,
returns to ON-SORTER and is allocated the next bin of its route that takes it further down, or bin 0, its place given up in the old bin and
taken in the new, each judged for NEAR. GATE-MISS is raised, then BIN-DISABLED. -/
def Obligations.ConfirmWindowExpiry : Prop :=
  ∀ (bin : Nat) (s : State), 1 ≤ bin → bin ≤ 48 → s.awake = true →
    let b := s.bin bin
    let m := if b.misses < 15 then b.misses + 1 else b.misses
    let out : Bool := b.items.isSome && decide (b.state ≠ .disabled) && decide (3 ≤ m)
    let missed := raiseEvent .gateMiss none bin m s
    let raised := if out then raiseEvent .binDisabled none bin m missed else missed
    (b.pending = [] → exec (.confirmWindowExpiry bin) s = .next s) ∧
    ∀ e rest r p, b.pending = e :: rest → byTag s.board.sorter e.tag = some r → r.sort = some p →
      let new := s.rerouteBin p (r.sorterOffset s.scu.serial)
      ∃ t, exec (.confirmWindowExpiry bin) s = .next t ∧
        t = { s with board := { s.board with sorter := t.board.sorter }, sort := t.sort, events := t.events, attention := t.attention } ∧
        (t.bin bin).pending = rest ∧ (t.bin bin).misses = m ∧ (t.bin bin).state = (if out then .disabled else b.state) ∧
        (t.bin bin).dropped = b.dropped ∧
        (p.bin = bin → new ≠ bin →
          let given : BinRec := ({ b with reserved := b.reserved - 1 } : BinRec).judged
          let taken : BinRec := ({ s.bin new with reserved := (s.bin new).reserved + 1 } : BinRec).judged
          t.bin bin = { given with pending := rest, misses := m, state := if out then .disabled else b.state } ∧
          (new ≠ 0 → t.bin new = taken) ∧ (∀ n, 1 ≤ n → n ≤ 48 → n ≠ bin → n ≠ new → t.bin n = s.bin n) ∧
          t.attention = raised.binCauses (b.nearRises given || (decide (new ≠ 0) && (s.bin new).nearRises taken)) false) ∧
        byTag t.board.sorter e.tag =
          some { r with life := .onSorter, flags := { r.flags with gateMiss := true, rerouted := true },
                        sort := some { p with bin := new } } ∧
        (∀ x ∈ t.board.sorter, x.tag ≠ e.tag → x ∈ s.board.sorter) ∧
        t.sort.counts = { s.sort.counts with misses := inc32 s.sort.counts.misses, reroutes := inc32 s.sort.counts.reroutes } ∧
        t.events = raised.events

/-! ### Posting to the tally (R143 to R149) -/

/-- R143, R144, R145, R147: what handing a retired record to the tally unit posts, as GateInputs, DropLine, TrimmerAdvance, SorterAdvance
and LineStateRequests do. The counter of its fate rises by 1, or for DROPPED-GRADED the cell of its key by 1 piece and its V and the value
total by its G; the unknown, MISCUT and SUSPECT counters rise with the record's origin and flags; the written count rises, or the dropped
count while the writer is BLOCKED. A quantity that would pass its largest value stays there and sets the saturation flag. The shift number,
the closed image and every other block stay, but for STREAM-DROP, which StreamAttempt gives. -/
def Obligations.TallyPosting : Prop :=
  ∀ (r : Record) (fate : Fate) (s : State),
    let old := s.tally.live
    let t := handToTally r fate s
    let new := t.tally.live
    let top : Nat := 4294967295
    let raise (yes : Bool) (n : Nat) : Nat := if yes = true then (if n < top then n + 1 else top) else n
    let stuck (yes : Bool) (n : Nat) : Bool := yes && decide (top ≤ n)
    let is (f : Fate) : Bool := decide (fate = f)
    let unknown : Bool := decide (r.origin = .unknown)
    let blocked := s.tally.stream.blocked
    let key := r.sort.map (·.key)
    let matrix (g c w : Nat) : Option Nat :=
      if 1 ≤ g ∧ g ≤ 10 ∧ 1 ≤ c ∧ c ≤ 12 ∧ 1 ≤ w ∧ w ≤ 8 then some (96 * (g - 1) + 8 * (c - 1) + (w - 1)) else none
    let cell : Option Nat := if is .droppedGraded then
        key.bind fun k => k.grade.bind fun g => k.cls.bind fun c => k.width.bind fun w => matrix g c w
      else none
    let V := (r.outcome.map (·.volume)).getD 0
    let G := (r.outcome.map (·.value)).getD 0
    let z : TallyCell := { pieces := 0, volume := 0 }
    t = { s with tally := t.tally, events := t.events, attention := t.attention } ∧ t.tally.closed = s.tally.closed ∧
    new.shift = old.shift ∧
    new.reject = raise (is .droppedReject) old.reject ∧ new.reman = raise (is .droppedReman) old.reman ∧
    new.trash = raise (is .trashed) old.trash ∧ new.runout = raise (is .runout) old.runout ∧ new.lost = raise (is .lost) old.lost ∧
    new.unknown = raise unknown old.unknown ∧ new.miscut = raise r.flags.miscut old.miscut ∧
    new.suspect = raise r.flags.suspect old.suspect ∧
    new.written = raise (!blocked) old.written ∧ new.dropped = raise blocked old.dropped ∧
    (∀ i : Nat, i < 960 →
      entryD new.cells i z =
        if cell = some i then
          ({ pieces := if (entryD old.cells i z).pieces + 1 ≤ 16777215 then (entryD old.cells i z).pieces + 1 else 16777215,
             volume := if (entryD old.cells i z).volume + V ≤ top then (entryD old.cells i z).volume + V else top } : TallyCell)
        else entryD old.cells i z) ∧
    new.value = (if cell.isSome then (if old.value + G ≤ top then old.value + G else top) else old.value) ∧
    new.saturated =
      (old.saturated || stuck (is .droppedReject) old.reject || stuck (is .droppedReman) old.reman || stuck (is .trashed) old.trash ||
        stuck (is .runout) old.runout || stuck (is .lost) old.lost || stuck unknown old.unknown || stuck r.flags.miscut old.miscut ||
        stuck r.flags.suspect old.suspect || stuck (!blocked) old.written || stuck blocked old.dropped ||
        (match cell with
          | some i => decide (16777215 < (entryD old.cells i z).pieces + 1) || decide (top < (entryD old.cells i z).volume + V) ||
            decide (top < old.value + G)
          | none => false))

/-- R146 to R149, R182: the stream attempt of a retired record. While WRITING its 20 bytes go into the next slot of the current segment, the
layout R182's; the 255th closes the segment at once with an ordinary trailer and its ready flag, the sequence rises, and the writer moves to
slot 0 of the next segment, where it is BLOCKED if that segment is ready. While BLOCKED nothing is written, and the first drop of the spell
raises STREAM-DROP with the record's tag and the segment. -/
def Obligations.StreamAttempt : Prop :=
  ∀ (r : Record) (fate : Fate) (s : State),
    let st := s.tally.stream
    let t := handToTally r fate s
    let bit (b : Bool) (n : Nat) : Nat := if b then n else 0
    let f := r.flags
    let decided {α : Type} (f : Decision → α) : Option α := r.decision.map f
    let disposition : Nat := match r.sort, r.outcome, r.decision with
      | some p, _, _ => p.key.disposition.code
      | none, some o, _ => o.disposition.code
      | none, none, some d => d.disposition.code
      | none, none, none => 0
    let grade : Option Nat := if r.outcome.isSome then r.outcome.bind (·.grade) else r.decision.bind (·.grade)
    let record : List Byte :=
      u16 r.tag ++ u8 fate.code ++
      u8 (bit f.suspect 1 + bit f.double 2 + bit f.miscut 4 + bit f.sawMiss 8 + bit f.gateMiss 16 + bit f.rerouted 32 +
        bit f.redecided 64 + bit (decide (r.origin = .unknown)) 128) ++
      u8 (bit r.scan.isSome 1 + bit r.solution.isSome 2 + bit ((r.marks.map (·.byA)).getD false) 4 +
        bit ((r.marks.map (·.byB)).getD false) 8 + bit r.force.isSome 16 + 32 * (r.sort.map (·.result.code)).getD 0) ++
      u8 ((r.solution.map (·.revision)).getD 0) ++ u8 (16 * (decided (·.kind.code)).getD 0 + (decided (·.source.code)).getD 0) ++
      u8 ((decided (·.reason.code)).getD 0) ++ u8 ((r.outcome.map (·.result.code)).getD 0) ++ u8 (grade.getD 0) ++
      u8 (16 * (r.scan.map (·.width)).getD 0 + disposition) ++ u8 ((r.sort.map (·.bin)).getD 0) ++
      u24 ((r.outcome.map (·.volume)).getD 0) ++ u24 ((r.outcome.map (·.value)).getD 0) ++ u16 r.creation.toNat
    let raised := raiseEvent .streamDrop none r.tag st.segment.val s
    let drops : Bool := st.blocked && !st.spellDropped
    let written := st.store.writeBytes (20 * (256 * st.segment.val + st.slot)) record
    record.length = 20 ∧
    t.events = (if drops then raised.events else s.events) ∧ t.attention = (if drops then raised.attention else s.attention) ∧
    t.tally.stream =
      if st.blocked then { st with spellDropped := true }
      else if st.slot + 1 ≠ 255 then { st with store := written, slot := st.slot + 1 }
      else
        let ready := st.ready ||| (1#4 <<< st.segment.val)
        { st with
          store := written.writeBytes (20 * (256 * st.segment.val + 255)) (trailerBytes st.sequence 255 s.tally.live.dropped s.tally.live.shift false),
          ready := ready, segment := st.segment + 1, slot := 0, sequence := st.sequence + 1,
          blocked := ready.getLsbD (st.segment + 1).val, spellDropped := false }

/-! ### Links (R168 to R173) -/

/-- R171, R172, R173: PAUSE holds back the frames not begun, RESUME begins the frame at the head, a frame sent frees its slot and begins the
next unless TX pause is set, and a complete frame that waits for the slot is taken as it frees, by its own command's effect. A break empties
the buffer and the queue, clears both pauses, puts the receiver in HUNT, counts itself and, on link 1, abandons a table being staged. That
frames are begun at once, that a frame sent with none begun changes nothing, and that a break keeps the control bytes that are due, are log
15's. -/
def Obligations.LinkControls : Prop :=
  ∀ (l : LinkId) (s : State), s.awake = true →
    let k := s.link l
    exec (.pauseReceived l) s = .next (s.setLink l { k with txPause := true }) ∧
    exec (.resumeReceived l) s = .next (s.setLink l { k with txPause := false, sending := k.sending || decide (k.tx ≠ []) }) ∧
    (let freed := s.setLink l { k with tx := k.tx.drop 1, sending := !k.txPause && decide (k.tx.drop 1 ≠ []) }
      let run := exec (.txFrameSent l) s
      (k.sending = false → k.waiting = [] ∨ k.tx.length = 16 → run = .next s) ∧
      (k.sending = true → k.waiting = [] → run = .next freed) ∧
      ∀ body rest i, k.sending = true → k.tx.length = 16 → k.waiting = body :: rest → decodeRequest l body = some i →
        run = exec i freed) ∧
    ∃ t, exec (.linkBreak l) s = .next t ∧
      t.link l = { k with rx := .hunt, waiting := [], rxPause := false, txPause := false, tx := [], sending := false,
                          breaks := inc32 k.breaks } ∧
      (∀ other, other ≠ l → t.link other = s.link other) ∧ t.links.notice = s.links.notice ∧
      t = { s with links := t.links,
                   tables := { s.tables with staging := if l = .lineController then none else s.tables.staging } }

/-- R168 to R172: a character received on a link that has no request left to take. PAUSE and RESUME act in every state, a RESUME beginning
the frame at the head at once (log 15). In HUNT a start byte opens a frame and any other byte is counted stray; in SKIP a start byte opens a
frame and any other is discarded. In FRAME a start byte counts a framing fault and opens the next frame; F7h only waits for the byte it
escapes, and an escaped byte that is none of the four, or a first byte outside 2 to 240, counts a framing fault and skips. A stored byte
that finds the buffer full is an OVERRUN and skips; else it is stored, and RX pause is set with one PAUSE where the fill passes 768. The
byte that completes the frame puts the receiver in HUNT, with the body waiting where the CRC is right, and taken at once, by its own
command's effect, where a TX slot is free (R172); else with a CRC fault counted. A character without its stop bit counts a framing fault,
and in FRAME skips. Where a frame in progress is discarded, RX pause is cleared with one RESUME when the fill is 256 or less. -/
def Obligations.ByteReceived : Prop :=
  ∀ (l : LinkId) (b : Byte) (s : State), s.awake = true → (s.link l).waiting = [] ∨ (s.link l).tx.length = 16 →
    let k := s.link l
    let fault := { k with framing := inc32 k.framing }
    let plain := b ≠ 0xF5 ∧ b ≠ 0xF6
    let held := (k.waiting.map fun body => body.length + 3).sum
    let leave (next : Receiver) (x : LinkState) : LinkState :=
      if x.rxPause = true ∧ held ≤ 256 then { x with rx := next, rxPause := false, control := x.control ++ [.resume] }
      else { x with rx := next }
    let run (stop : Bool) := exec (.linkByteReceived l b stop) s
    (b = 0xF5 → run true = exec (.pauseReceived l) s) ∧
    (b = 0xF6 → run true = exec (.resumeReceived l) s) ∧
    (k.rx = .hunt → plain →
      run true = .next (s.setLink l (if b = 0xF4 then { k with rx := .frame [] false } else { k with stray := inc32 k.stray }))) ∧
    (k.rx = .skip → plain → run true = .next (s.setLink l (if b = 0xF4 then { k with rx := .frame [] false } else k))) ∧
    (k.rx = .hunt ∨ k.rx = .skip → run false = .next (s.setLink l fault)) ∧
    ∀ stored escaped, k.rx = .frame stored escaped →
      run false = .next (s.setLink l (leave .skip fault)) ∧
      (b = 0xF4 → run true = .next (s.setLink l (leave (.frame [] false) fault))) ∧
      (escaped = false → b = 0xF7 → run true = .next (s.setLink l { k with rx := .frame stored true })) ∧
      let v := if escaped then b ^^^ 0x20 else b
      let special := v = 0xF4 ∨ v = 0xF5 ∨ v = 0xF6 ∨ v = 0xF7
      let now := stored ++ [v]
      let fill := held + now.length
      (plain → b ≠ 0xF4 → escaped = true → ¬ special → run true = .next (s.setLink l (leave .skip fault))) ∧
      (plain → b ≠ 0xF4 → (escaped = true → special) → (escaped = false → b ≠ 0xF7) →
        (stored = [] → v.toNat < 2 ∨ 240 < v.toNat → run true = .next (s.setLink l (leave .skip fault))) ∧
        ((stored ≠ [] ∨ (2 ≤ v.toNat ∧ v.toNat ≤ 240)) →
          let crosses : Bool := !k.rxPause && decide (768 < fill)
          let k1 : LinkState := { k with rxPause := k.rxPause || crosses, control := if crosses then k.control ++ [.pause] else k.control }
          let length := (now.head?.map (·.toNat)).getD 0
          let crc := crc16 (now.take (now.length - 2))
          (1024 ≤ held + stored.length → run true = .next (s.setLink l (leave .skip { k with overruns := inc32 k.overruns }))) ∧
          (held + stored.length < 1024 →
            (now.length ≠ length + 3 → run true = .next (s.setLink l { k1 with rx := .frame now false })) ∧
            (now.length = length + 3 →
              (now.drop (now.length - 2) = [crc.extractLsb' 8 8, crc.extractLsb' 0 8] →
                let body := (now.drop 1).take length
                let done := s.setLink l { k1 with rx := .hunt, waiting := k.waiting ++ [body] }
                (k.tx.length = 16 → run true = .next done) ∧
                ∀ i, k.waiting = [] → k.tx.length < 16 → decodeRequest l body = some i → run true = exec i done) ∧
              (now.drop (now.length - 2) ≠ [crc.extractLsb' 8 8, crc.extractLsb' 0 8] →
                run true = .next (s.setLink l (leave .hunt { k1 with crcFaults := inc32 k.crcFaults })))))))

/-- R168, R169, R170, R172: frames on the wire. A body of 2 to 240 bytes, sent as its frame of start byte, length, body and CRC with escapes
to a receiver in HUNT with room for it while the TX queue is full, becomes the youngest complete frame waiting, and RX pause is set with one
PAUSE exactly when the fill passes 768; nothing else of the part changes. On a link that has no request left to take, in any receiver state,
a request command is the receiving of its frame's characters one by one (so the model reads its row, log 3): its frame waits while the queue
is full and is taken at once else. -/
def Obligations.WireFrameReceived : Prop :=
  (∀ (l : LinkId) (body : List Byte) (s : State), s.awake = true → 2 ≤ body.length → body.length ≤ 240 → (s.link l).rx = .hunt →
    (s.link l).tx.length = 16 → (s.link l).fill + (body.length + 3) ≤ 1024 →
    let k := s.link l
    let crosses : Bool := !k.rxPause && decide (768 < k.fill + (body.length + 3))
    execAll (frameCommands l body) s =
      .next (s.setLink l { k with waiting := k.waiting ++ [body], rxPause := k.rxPause || crosses,
                                  control := if crosses then k.control ++ [.pause] else k.control })) ∧
  ∀ (i : Instr) (l : LinkId) (body : List Byte) (s : State), WellFormed i = true → encodeRequest i = some (l, body) → s.awake = true →
    (s.link l).waiting = [] ∨ (s.link l).tx.length = 16 → exec i s = execAll (frameCommands l body) s

/-- R168, R172, R179: the body a well-formed request command carries decodes to that command, and every body of 2 bytes or more decodes to a
command that carries it. BIN-UNLOAD's code is a free value, which no other request has (log 6). -/
def Obligations.DecodeEncodeRequests : Prop :=
  (∀ (i : Instr) (l : LinkId) (body : List Byte), WellFormed i = true → encodeRequest i = some (l, body) →
    decodeRequest l body = some i) ∧
  ∀ (l : LinkId) (body : List Byte), 2 ≤ body.length →
    ∃ i, decodeRequest l body = some i ∧ encodeRequest i = some (l, body)

/-- R168 to R170, R172: how a request is taken. While the TX queue holds 16 frames its frame waits in the buffer and nothing is taken or
queued. With a slot free and its frame the oldest, or arriving with none waiting, it is taken at once: it leaves the RX buffer and is
counted, RX pause is cleared with one RESUME where the fill is then 256 or less, and exactly one frame with its code and number is queued,
begun at once unless TX pause is set (log 15); no other link moves. A frame that arrives within another counts that one as a framing fault.
First come the three checks: an unknown code (UNKNOWN_REQUEST_CODE) is refused FORMAT, a request outside the rights of the link's role
DENIED, and a form that is not the code's FORMAT; each is counted and answered, and passes nothing on. -/
def Obligations.RequestChecks : Prop :=
  ∀ (i : Instr) (l : LinkId) (code num : Byte) (fields : List Byte) (s : State),
    requestParts i = some (l, code, num, fields) → WellFormed i = true → s.awake = true →
    ((s.link l).tx.length = 16 →
      ∃ x, exec i s = .next (s.setLink l x) ∧ x.tx = (s.link l).tx ∧ x.taken = (s.link l).taken ∧ (s.link l).waiting <+: x.waiting) ∧
    ((s.link l).waiting = [] ∨ (s.link l).waiting.head? = some (code :: num :: fields) →
    ((s.link l).tx.length < 16 → requestOfCode code = none →
      exec i s = .next ((s.modifyLink l fun k => { k with format := inc32 k.format }).answered l
        [code, num, 0x02, BitVec.ofNat 8 (fields.length + 2)])) ∧
    (∀ r, (s.link l).tx.length < 16 → requestOfCode code = some r →
      (hasRight l r = false →
        exec i s = .next ((s.modifyLink l fun k => { k with denied := inc32 k.denied }).answered l [code, num, 0x03])) ∧
      (hasRight l r = true → formOk r fields = false →
        exec i s = .next ((s.modifyLink l fun k => { k with format := inc32 k.format }).answered l
          [code, num, 0x02, BitVec.ofNat 8 (fields.length + 2)]))) ∧
    ((s.link l).tx.length < 16 →
      let k := (s.link l).arrived
      let fill := ((k.waiting.drop 1).map fun body => body.length + 3).sum + k.rx.stored
      let resumes : Bool := k.rxPause && decide (fill ≤ 256)
      let right : Bool := ((requestOfCode code).map fun r => hasRight l r).getD true
      let form : Bool := ((requestOfCode code).map fun r => formOk r fields).getD false
      ∃ t answer, exec i s = .next t ∧
        t.link l = { k with
          waiting := k.waiting.drop 1, taken := inc32 k.taken, rxPause := k.rxPause && !resumes,
          control := if resumes then k.control ++ [.resume] else k.control,
          tx := k.tx ++ [code :: num :: answer], sending := k.sending || !k.txPause,
          denied := if right then k.denied else inc32 k.denied,
          format := if right && !form then inc32 k.format else k.format } ∧
        (∀ other, other ≠ l → t.link other = s.link other) ∧ t.links.notice = s.links.notice ∧ t.pins = s.pins ∧
        t.timebase = s.timebase ∧ t.pending = s.pending))

/-! ### Postings, modes and force (R44 to R53, R76, R80 to R85) -/

/-- R44, R45, R50, R53: POST-SCAN. A tag no live record carries is refused NO-TAG; a record at D or past it, in the queue or on the sorter
is refused LATE with its creation serial and life; Ls outside 300 to 7,500 or a size code that is not defined is refused RANGE with its
field. Else the summary is stored, raising the revision of a candidate list under a replaced one, and the 13 bytes are answered. Each
outcome raises its count. -/
def Obligations.PostScan : Prop :=
  ∀ (num : Byte) (fields : List Byte) (s : State), fields.length = 6 → s.Ready .optimizer (0x01 :: num :: fields) →
    let tag := fieldAt fields 0 2
    let scan : ScanSummary := { length := fieldAt fields 2 2, thickness := fieldAt fields 4 1, width := fieldAt fields 5 1 }
    let c := s.board.postings
    let D := s.tables.station.decision
    let outcome (trimmer : List Record) (counts : PostingCounts) (status : Byte) (bytes : List Byte) : Result State :=
      .next (({ s with board := { s.board with trimmer := trimmer, postings := counts } } : State).answered .optimizer
        (0x01 :: num :: status :: bytes))
    (s.locate tag = none →
      exec (.postScan .optimizer num fields) s =
        outcome s.board.trimmer { c with noTag := inc32 c.noTag } 0x05 (u16 tag)) ∧
    ∀ r place, s.locate tag = some (r, place) →
      ((∀ off, place = .trimmer off → D ≤ off) →
        exec (.postScan .optimizer num fields) s =
          outcome s.board.trimmer { c with late := inc32 c.late } 0x06 (u16 tag ++ u32 r.creation.toNat ++ u8 r.life.code)) ∧
      ∀ off, place = .trimmer off → off < D →
        let lengthOk : Bool := decide (300 ≤ scan.length) && decide (scan.length ≤ 7500)
        let revision (x : Solution) : Solution :=
          if r.scan.isSome then { x with revision := if x.revision < 255 then x.revision + 1 else x.revision } else x
        (lengthOk = false →
          exec (.postScan .optimizer num fields) s =
            outcome s.board.trimmer { c with range := inc32 c.range } 0x07 (u16 tag ++ [0, 1])) ∧
        (lengthOk = true → s.thicknessDefined scan.thickness = false →
          exec (.postScan .optimizer num fields) s =
            outcome s.board.trimmer { c with range := inc32 c.range } 0x07 (u16 tag ++ [0, 2])) ∧
        (lengthOk = true → s.thicknessDefined scan.thickness = true → s.widthDefined scan.width = false →
          exec (.postScan .optimizer num fields) s =
            outcome s.board.trimmer { c with range := inc32 c.range } 0x07 (u16 tag ++ [0, 3])) ∧
        (lengthOk = true → s.thicknessDefined scan.thickness = true → s.widthDefined scan.width = true →
          (∀ x ∈ s.board.trimmer, x.tag = tag → x = r) →
          exec (.postScan .optimizer num fields) s =
            outcome
              (s.board.trimmer.map fun x =>
                if x.tag = tag then { x with scan := some scan, solution := x.solution.map revision } else x)
              { c with taken := inc32 c.taken } 0x00
              (u16 tag ++ u32 r.creation.toNat ++ u8 off ++ u8 (D - off) ++
                u8 (((r.solution.map revision).map (·.revision)).getD 0) ++
                u8 (r.flags.suspect.toNat + 2 * r.flags.double.toNat)))

/-- R44, R46, R47, R50, R51, R53: POST-SOLUTION. A tag no live record carries is refused NO-TAG, and a record at D or past it, in the queue
or on the sorter LATE. A count n outside 1 to 8 is refused RANGE, and so is the first entry whose far saw, fence or grade is out of range,
by its index and field. Else the list is stored, at revision 1 or one above its last up to 255, and the answer carries the preview, the
decision of the record as it now stands, which is not recorded. Each outcome raises its count. -/
def Obligations.PostSolution : Prop :=
  ∀ (num : Byte) (fields : List Byte) (s : State), s.Ready .optimizer (0x02 :: num :: fields) →
    let tag := fieldAt fields 0 2
    let n := fieldAt fields 2 1
    let c := s.board.postings
    let D := s.tables.station.decision
    let run := exec (.postSolution .optimizer num fields) s
    let refused (counts : PostingCounts) (bytes : List Byte) : Result State :=
      .next (({ s with board := { s.board with postings := counts } } : State).answered .optimizer (0x02 :: num :: bytes))
    3 ≤ fields.length → (1 ≤ n → n ≤ 8 → fields.length = 3 + 3 * n) → fieldsFit fields = true →
    (s.locate tag = none → run = refused { c with noTag := inc32 c.noTag } (0x05 :: u16 tag)) ∧
    ∀ r place, s.locate tag = some (r, place) →
      ((∀ off, place = .trimmer off → D ≤ off) →
        run = refused { c with late := inc32 c.late } (0x06 :: (u16 tag ++ u32 r.creation.toNat ++ u8 r.life.code))) ∧
      ∀ off, place = .trimmer off → off < D →
        let saw (i : Nat) := fieldAt fields (3 + 3 * i) 1
        let fence (i : Nat) := fieldAt fields (4 + 3 * i) 1
        let grade (i : Nat) := fieldAt fields (5 + 3 * i) 1
        let good (i : Nat) : Prop := 1 ≤ saw i ∧ saw i ≤ 12 ∧ fence i ≤ 1 ∧ 1 ≤ grade i ∧ grade i ≤ 10
        (n < 1 ∨ 8 < n → run = refused { c with range := inc32 c.range } (0x07 :: (u16 tag ++ [0, 1]))) ∧
        (1 ≤ n → n ≤ 8 → ∀ i, i < n → (∀ j, j < i → good j) → ¬ good i →
          run = refused { c with range := inc32 c.range } (0x07 :: (u16 tag ++ u8 (i + 1) ++
            [if saw i < 1 ∨ 12 < saw i then 1 else if 1 < fence i then 2 else 3]))) ∧
        (1 ≤ n → n ≤ 8 → (∀ i, i < n → good i) → (∀ x ∈ s.board.trimmer, x.tag = tag → x = r) →
          let list : List Candidate := (List.range n).map fun i => { saw := saw i, fence := decide (fence i = 1), grade := grade i }
          let revision := match r.solution with
            | none => 1
            | some x => if x.revision < 255 then x.revision + 1 else x.revision
          let stored : Record := { r with solution := some { candidates := list, revision := revision } }
          run = .next (({ s with board := { s.board with
                trimmer := s.board.trimmer.map fun x => if x.tag = tag then stored else x,
                postings := { c with taken := inc32 c.taken } } } : State).answered .optimizer
            (0x02 :: num :: 0x00 :: (u16 tag ++ u32 r.creation.toNat ++ u8 off ++ u8 (D - off) ++ u8 revision ++
              u8 (r.flags.suspect.toNat + 2 * r.flags.double.toNat) ++ (s.decideBoard stored).bytes))))

/-- R80, R81, R82, R84: FORCE-BOARD. NO-TAG, and LATE at S and past it, are refused. Below S the first field out of range is refused RANGE
with its number: a kind over 3, TRIM with a saw outside 1 to 12, disabled or with no position, a fence over 2, a grade that is not enabled,
a disposition over 3. Else the force is stored: a SCANNED record keeps its life and is answered the preview; a DECIDED record is redecided,
with the new decision, REDECIDED and the redecide counts. Each outcome raises its count. -/
def Obligations.ForceBoard : Prop :=
  ∀ (num : Byte) (fields : List Byte) (s : State), fields.length = 7 → s.Ready .lineController (0x08 :: num :: fields) →
    let tag := fieldAt fields 0 2
    let kind := fieldAt fields 2 1
    let k := fieldAt fields 3 1
    let fence := fieldAt fields 4 1
    let grade := fieldAt fields 5 1
    let disposition := fieldAt fields 6 1
    let c := s.board.forces
    let S := s.tables.station.sawSet
    let run := exec (.forceBoard .lineController num fields) s
    let refused (counts : ForceCounts) (bytes : List Byte) : Result State :=
      .next (({ s with board := { s.board with forces := counts } } : State).answered .lineController (0x08 :: num :: bytes))
    (s.locate tag = none → run = refused { c with noTag := inc32 c.noTag } (0x05 :: u16 tag)) ∧
    ∀ r place, s.locate tag = some (r, place) →
      ((∀ off, place = .trimmer off → S ≤ off) →
        run = refused { c with late := inc32 c.late } (0x06 :: (u16 tag ++ u32 r.creation.toNat ++ u8 r.life.code))) ∧
      ∀ off, place = .trimmer off → off < S →
        let fault : Byte :=
          if 3 < kind then 1
          else if kind = 1 ∧ ¬ (1 ≤ k ∧ k ≤ 12 ∧ (s.saw k).enabled = true ∧ s.sawPlace k ≠ none) then 2
          else if 2 < fence then 3
          else if grade ≠ 0 ∧ ¬ (grade ≤ 10 ∧ s.tables.grade.enabled.getLsbD (grade - 1) = true) then 4
          else if 3 < disposition then 5
          else 0
        (fault ≠ 0 → run = refused { c with range := inc32 c.range } (0x07 :: (u16 tag ++ [fault]))) ∧
        (fault = 0 → (∀ x ∈ s.board.trimmer, x.tag = tag → x = r) →
          let force : Force :=
            { kind := if kind = 0 then none else if kind = 1 then some (.trim k) else if kind = 2 then some .noTrim else some .trash,
              fence := if fence = 0 then none else some (decide (fence = 1)),
              grade := if grade = 0 then none else some grade,
              disposition := if disposition = 0 then none else if disposition = 1 then some .normal
                else if disposition = 2 then some .reject else some .reman }
          let forced : Record := { r with force := some force }
          let d := s.decideBoard forced
          (r.life ≠ .decided →
            run = .next (({ s with board := { s.board with
                  trimmer := s.board.trimmer.map fun x => if x.tag = tag then forced else x,
                  forces := { c with taken := inc32 c.taken } } } : State).answered .lineController
              (0x08 :: num :: 0x00 :: (u16 tag ++ u32 r.creation.toNat ++ u8 off ++ u8 r.life.code ++ flag8 r.flags.redecided ++
                d.bytes)))) ∧
          (r.life = .decided →
            run = .next (({ s with
                board := { s.board with
                  trimmer := s.board.trimmer.map fun x =>
                    if x.tag = tag then { forced with decision := some d, flags := { r.flags with redecided := true } } else x,
                  forces := { c with taken := inc32 c.taken, redecided := inc32 c.redecided } }
                decision := { s.decision with
                  redecides := inc32 s.decision.redecides,
                  reasons := modifyAt s.decision.reasons (d.reason.code - 1) inc32,
                  last := some { tag := tag, kind := d.kind, source := d.source, reason := d.reason } } } : State).answered .lineController
              (0x08 :: num :: 0x00 :: (u16 tag ++ u32 r.creation.toNat ++ u8 off ++ [2, 1] ++ d.bytes)))))

/-- R75, R76, R85: SET-LINE-MODE, SAW-ENABLE and SAW-DISABLE. The first check that fails, of saw policy, saw number, sort policy, BYPASS
with BY-PRODUCT, a disabled saw and a saw with no position, refuses the mode with its fault number, the mode kept; else the mode is set.
Each outcome is counted and answers the mode in force. SAW-ENABLE sets the enabled flag and the consecutive misses to 0, SAW-DISABLE clears
the flag; the answer carries both. A saw number over 12 is refused RANGE. -/
def Obligations.ModesAndSaws : Prop :=
  (∀ (num a k b : Byte) (s : State), s.Ready .lineController [0x07, num, a, k, b] →
    let u := s.decision
    let refused (status : Byte) (n : Nat) : Result State :=
      .next (({ s with decision := { u with modesRefused := inc32 u.modesRefused } } : State).answered .lineController
        (0x07 :: num :: status :: (u.mode.bytes ++ u8 n)))
    let set (saws : SawPolicy) (sort : SortPolicy) (bytes : List Byte) : Result State :=
      .next (({ s with decision := { u with mode := { saws := saws, sort := sort }, modesTaken := inc32 u.modesTaken } } : State).answered
        .lineController (0x07 :: num :: 0x00 :: bytes))
    let run := exec (.setLineMode .lineController num [a, k, b]) s
    (a.toNat < 1 ∨ 4 < a.toNat → run = refused 0x07 1) ∧
    (a = 2 → k.toNat < 1 ∨ 12 < k.toNat → run = refused 0x07 2) ∧
    ((a = 1 ∨ (a = 2 ∧ 1 ≤ k.toNat ∧ k.toNat ≤ 12) ∨ a = 3 ∨ a = 4) → b.toNat < 1 ∨ 3 < b.toNat → run = refused 0x07 3) ∧
    (∀ sort : SortPolicy, (sort = .byProduct ∧ b = 1) ∨ (sort = .allReject ∧ b = 2) ∨ (sort = .allRunout ∧ b = 3) →
      (a = 4 → b = 1 → run = refused 0x08 1) ∧
      (a = 2 → 1 ≤ k.toNat → k.toNat ≤ 12 →
        ((s.saw k.toNat).enabled = false → run = refused 0x08 2) ∧
        ((s.saw k.toNat).enabled = true → s.sawPlace k.toNat = none → run = refused 0x08 3) ∧
        ((s.saw k.toNat).enabled = true → s.sawPlace k.toNat ≠ none → run = set (.fixed k.toNat) sort [2, k, b])) ∧
      (a = 1 → run = set .auto sort [1, 0, b]) ∧
      (a = 3 → run = set .trashAll sort [3, 0, b]) ∧
      (a = 4 → b ≠ 1 → run = set .bypass sort [4, 0, b]))) ∧
  ∀ (num saw : Byte) (s : State),
    (s.Ready .lineController [0x09, num, saw] →
      exec (.sawEnable .lineController num [saw]) s =
        if saw.toNat ≤ 12 then
          .next ((s.modifySaw saw.toNat fun r => { r with enabled := true, misses := 0 }).answered .lineController
            [0x09, num, 0x00, saw, 1, 0])
        else .next (s.answered .lineController [0x09, num, 0x07])) ∧
    (s.Ready .lineController [0x0A, num, saw] →
      exec (.sawDisable .lineController num [saw]) s =
        if saw.toNat ≤ 12 then
          .next ((s.modifySaw saw.toNat fun r => { r with enabled := false }).answered .lineController
            [0x0A, num, 0x00, saw, 0, BitVec.ofNat 8 (s.saw saw.toNat).misses])
        else .next (s.answered .lineController [0x0A, num, 0x07]))

/-! ### Bin commands, events and attention (R128, R129, R159 to R165) -/

/-- R128, R129: the four bin commands. A bin number outside 1 to 48 is refused RANGE and a bin that is not fitted STATE, but BIN-DISABLE of
one is taken without change. BIN-UNLOAD of a DISABLED bin is refused STATE; else the bin becomes UNLOADING. BIN-EMPTIED zeroes the count and
opens the bin, or makes it FULL with BIN-FULL where its switch reads closed, and keeps DISABLED; then NEAR is judged (R132). BIN-ENABLE
zeroes the misses and brings a DISABLED bin to OPEN, or to FULL with BIN-FULL at its capacity. BIN-DISABLE disables. BIN-UNLOAD's request
code is a free value (log 6). -/
def Obligations.BinCommands : Prop :=
  ∀ (num n : Byte) (s : State),
    let bin := n.toNat
    let b := s.bin bin
    let answer (code status : Byte) : Result State := .next (s.answered .lineController [code, num, status])
    let fitted := 1 ≤ bin ∧ bin ≤ 48 ∧ b.items.isSome = true
    let others (t : State) := ∀ m, 1 ≤ m → m ≤ 48 → m ≠ bin → t.bin m = s.bin m
    let frame (t : State) := t = { s with sort := { s.sort with bins := t.sort.bins }, attention := t.attention, links := t.links }
    (s.Ready .lineController [binUnloadCode, num, n] →
      let run := exec (.binUnload .lineController num [n]) s
      (bin < 1 ∨ 48 < bin → run = answer binUnloadCode 0x07) ∧
      (1 ≤ bin → bin ≤ 48 → b.items = none ∨ b.state = .disabled → run = answer binUnloadCode 0x04) ∧
      (fitted → b.state ≠ .disabled →
        run = .next ((s.modifyBin bin fun x => { x with state := .unloading }).answered .lineController
          (binUnloadCode :: num :: 0x00 :: (u8 2 ++ u16 b.dropped ++ u16 b.reserved ++ flag8 b.near))))) ∧
    (s.Ready .lineController [0x0B, num, n] →
      let run := exec (.binEmptied .lineController num [n]) s
      (bin < 1 ∨ 48 < bin → run = answer 0x0B 0x07) ∧
      (1 ≤ bin → bin ≤ 48 → b.items = none → run = answer 0x0B 0x04) ∧
      (fitted → ∃ t, run = .next t ∧ frame t ∧ others t ∧
        (let after : BinRec := BinRec.judged { b with
            dropped := 0, state := if b.state = .disabled then .disabled else if b.fullSwitch then .full else .opened }
         t.bin bin = after ∧ t.attention = s.binCauses (b.nearRises after) (decide (b.state ≠ .disabled) && b.fullSwitch)) ∧
        t.link .lineController = ((s.link .lineController).arrived.takeFrame).enqueue
          (0x0B :: num :: 0x00 :: (u8 (t.bin bin).state.code ++ u16 0 ++ u16 b.reserved ++ flag8 (t.bin bin).near)))) ∧
    (s.Ready .lineController [0x0C, num, n] →
      let run := exec (.binEnable .lineController num [n]) s
      (bin < 1 ∨ 48 < bin → run = answer 0x0C 0x07) ∧
      (1 ≤ bin → bin ≤ 48 → b.items = none → run = answer 0x0C 0x04) ∧
      (∀ it, b.items = some it → 1 ≤ bin → bin ≤ 48 → ∃ t, run = .next t ∧ frame t ∧ others t ∧
        t.bin bin = { b with misses := 0,
                             state := if b.state ≠ .disabled then b.state else if b.dropped < it.capacity then .opened else .full } ∧
        t.attention = s.binCauses false (decide (b.state = .disabled) && decide (it.capacity ≤ b.dropped)) ∧
        t.link .lineController = ((s.link .lineController).arrived.takeFrame).enqueue
          [0x0C, num, 0x00, BitVec.ofNat 8 (t.bin bin).state.code, 0])) ∧
    (s.Ready .lineController [0x0D, num, n] →
      let run := exec (.binDisable .lineController num [n]) s
      (bin < 1 ∨ 48 < bin → run = answer 0x0D 0x07) ∧
      (1 ≤ bin → bin ≤ 48 → b.items = none →
        run = .next (s.answered .lineController [0x0D, num, 0x00, BitVec.ofNat 8 b.state.code, BitVec.ofNat 8 b.misses])) ∧
      (fitted →
        run = .next ((s.modifyBin bin fun x => { x with state := .disabled }).answered .lineController
          [0x0D, num, 0x00, 3, BitVec.ofNat 8 b.misses])))

/-- R159, R160, R161, R163: an event offered while the queue holds fewer than 128 entries is appended with the TCU lug serial; offered to a
full queue it is discarded, the overflow flag set, the lost count raised and EVENT-OVERFLOW latched. READ-EVENTS removes the oldest n
entries, or all where the queue holds fewer, and answers their number, the number left, the flag, the count and the entries; n outside 1 to
8 is refused RANGE; EVENT-PENDING stands exactly while the queue holds an entry. -/
def Obligations.EventQueue : Prop :=
  ∀ (kind : EventKind) (ch : Option Chain) (subject detail : Nat) (num n : Byte) (s : State),
    let q := s.events
    (q.entries.length < 128 →
      raiseEvent kind ch subject detail s =
        { s with events := { q with
            entries := q.entries ++ [{ kind := kind, chain := ch, serial := s.tcu.serial, subject := subject, detail := detail }] } }) ∧
    (128 ≤ q.entries.length →
      raiseEvent kind ch subject detail s =
        { s with
          events := { q with overflow := true, lost := if q.lost < 4294967295 then q.lost + 1 else q.lost }
          attention := { s.attention with
            lineController := { s.attention.lineController with edges := s.attention.lineController.edges ||| 2#8 } } }) ∧
    (s.Ready .lineController [0x0F, num, n] →
      exec (.readEvents .lineController num [n]) s =
        if 1 ≤ n.toNat ∧ n.toNat ≤ 8 then
          .next (({ s with events := { q with entries := q.entries.drop n.toNat } } : State).answered .lineController
            (0x0F :: num :: 0x00 :: (u8 (min n.toNat q.entries.length) ++ u8 (q.entries.length - n.toNat) ++ flag8 q.overflow ++
              u32 q.lost ++ (q.entries.take n.toNat).flatMap Event.bytes)))
        else .next (s.answered .lineController [0x0F, num, 0x07])) ∧
    (levelRequests s .lineController).getLsbD 0 = decide (q.entries ≠ [])

/-- R162: CLEAR-EVENT-OVERFLOW is the line controller's alone and carries no fields. Taken in either line state, it clears the overflow flag
and the lost count and answers both as they stood, OK; the entries and the EVENT-OVERFLOW request stay, and ACK-ATTENTION clears the
request. A discard taken before it is counted, reported and cleared; a discard taken after it sets the flag again with a lost count of 1. -/
def Obligations.ClearEventOverflow : Prop :=
  (∀ l, hasRight l .clearEventOverflow = true ↔ l = .lineController) ∧
  (∀ fields, formOk .clearEventOverflow fields = true ↔ fields = []) ∧
  ∀ (num : Byte) (s : State),
    (s.Ready .lineController [0x10, num] →
      let cleared (x : State) : State := { x with events := { x.events with overflow := false, lost := 0 } }
      exec (.clearEventOverflow .lineController num []) s =
        .next ((cleared s).answered .lineController (0x10 :: num :: 0x00 :: (flag8 s.events.overflow ++ u32 s.events.lost))) ∧
      ∀ (kind : EventKind) (ch : Option Chain) (subject detail : Nat), 128 ≤ s.events.entries.length →
        exec (.clearEventOverflow .lineController num []) (raiseEvent kind ch subject detail s) =
          .next ((cleared (raiseEvent kind ch subject detail s)).answered .lineController
            (0x10 :: num :: 0x00 :: (flag8 true ++ u32 (inc32 s.events.lost)))) ∧
        ∃ t, exec (.clearEventOverflow .lineController num []) s = .next t ∧
          (raiseEvent kind ch subject detail t).events = { s.events with overflow := true, lost := 1 }) ∧
    (s.Ready .lineController [0x05, num, 2] →
      ∃ t, exec (.ackAttention .lineController num [2]) s = .next t ∧ t.attention.lineController.edges.getLsbD 1 = false)

/-- R163, R164, R165: attention. ACK-ATTENTION clears the latched requests of the causes named and SET-ATTENTION-ENABLE replaces the
enables, of the sender's role alone; a cause outside the role is refused RANGE. The answer carries the role's requests and enables. A role's
line is asserted exactly while inputs are taken and some request of the role, latched or level, has its enable set; the level requests are
EVENT-PENDING, SEGMENT-READY and STREAM-BLOCKED. -/
def Obligations.AttentionRequests : Prop :=
  ∀ (l : LinkId) (num set : Byte) (s : State),
    let f := s.role l
    let outside := set &&& ~~~(match l with
      | .optimizer => 0x03#8
      | .lineController => 0x7F#8
      | .tallyStation => 0x07#8)
    (s.Ready l [0x05, num, set] →
      (outside ≠ 0 → exec (.ackAttention l num [set]) s = .next (s.answered l [0x05, num, 0x07])) ∧
      (outside = 0 →
        exec (.ackAttention l num [set]) s =
          .next ((s.setRole l { f with edges := f.edges &&& ~~~set }).answered l
            [0x05, num, 0x00, (f.edges &&& ~~~set) ||| levelRequests s l, f.enables]))) ∧
    (s.Ready l [0x06, num, set] →
      (outside ≠ 0 → exec (.setAttentionEnable l num [set]) s = .next (s.answered l [0x06, num, 0x07])) ∧
      (outside = 0 →
        exec (.setAttentionEnable l num [set]) s =
          .next ((s.setRole l { f with enables := set }).answered l [0x06, num, 0x00, f.edges ||| levelRequests s l, set]))) ∧
    (attentionLine s l = true ↔
      s.awake = true ∧ ∃ i < 8, ((s.role l).edges ||| levelRequests s l).getLsbD i = true ∧ (s.role l).enables.getLsbD i = true) ∧
    levelRequests s .optimizer = 0 ∧ levelRequests s .lineController = (if s.events.entries = [] then 0 else 1) ∧
    levelRequests s .tallyStation =
      (if s.tally.stream.ready = 0 then 0 else 1) ||| (if s.tally.stream.blocked then 2 else 0)

/-! ### Line state (R38 to R41) -/

/-- R10, R12, R38 to R41, R74, R123, R142, R166, R177: the line state. START in RUN is refused STATE with 0, 0. In CONFIG the first check of
R177 that fails refuses it STATE with its table and number, and nothing else changes; with none the line goes to RUN, the staging area is
emptied and both LINE-STATE causes are latched. RESTART-TRACKING leaves no live record, each posted LOST, the line in CONFIG, both chains in
SEARCH at serial 0 with c and both counts 0, every saw UP with no window and left DOWN where its feedback reads DOWN (log 25), every gate
closed with nothing reserved or pending, and both stacks empty with no target, a position that had one sending TARGET-OFF. A chain that was
not in SEARCH raises SYNC-CHANGE with SYNC and, for the TCU, TRACK-SYNC, after the postings, the trimmer's first and with the TCU serial
before the restart (log 12); a line that was in RUN latches both LINE-STATE causes. Tables, modes, the tag counter, piles, enables, latched
requests, event entries, mark counts and miss counts stay. -/
def Obligations.LineStateRequests : Prop :=
  (∀ (num : Byte) (s : State), s.Ready .lineController [0x11, num] →
    let run := exec (.start .lineController num []) s
    let t := s.tables
    let fitted (bin : Nat) : Bool := (s.bin bin).items.isSome
    let group (n : Nat) : List Nat := if n = 0 then [] else (entryD t.groups.groups (n - 1) none).getD []
    let dropsLate (bin : Nat) : Bool := ((s.bin bin).items.map fun it => decide (t.station.runout ≤ it.drop)).getD false
    let special (bin : Nat) : Bool := decide (bin = 0) || fitted bin
    let checks : List (Byte × Byte × Bool) :=
      [(1, 1, !t.valid.settings), (1, 2, !(t.settings.trimmer.valid && t.settings.sorter.valid)), (2, 1, !t.valid.saw),
       (3, 1, !t.valid.size), (4, 1, !t.valid.grade),
       (4, 2, !(decide (1 ≤ t.grade.default) && decide (t.grade.default ≤ 10) && t.grade.enabled.getLsbD (t.grade.default - 1))),
       (5, 1, !t.valid.station), (6, 1, !t.valid.bin), (6, 2, (List.range 48).any fun i => dropsLate (i + 1)), (7, 1, !t.valid.binGroup),
       (7, 2, !(((List.range 24).all fun i => (group (i + 1)).all fitted) && special t.groups.reject && special t.groups.reman &&
         special t.groups.overflow)),
       (8, 1, !t.valid.sortRule), (8, 2, t.rules.any fun rule => decide (group rule.group = []))]
    (s.board.line = .run → run = .next (s.answered .lineController [0x11, num, 0x04, 0, 0])) ∧
    (s.board.line = .config →
      run = match checks.find? fun c => c.2.2 with
        | some (table, check, _) => .next (s.answered .lineController [0x11, num, 0x04, table, check])
        | none =>
          .next (({ s with
            board := { s.board with line := .run }, tables := { s.tables with staging := none },
            attention := { s.attention with
              optimizer := { s.attention.optimizer with edges := s.attention.optimizer.edges ||| 2#8 },
              lineController := { s.attention.lineController with edges := s.attention.lineController.edges ||| 64#8 } } } : State).answered
            .lineController [0x11, num, 0x00]))) ∧
  ∀ (num : Byte) (s : State), s.Ready .lineController [0x12, num] →
    let lost := s.board.sorter ++ s.board.transfer.map (·.board) ++ s.board.trimmer
    let posted := lost.foldl (fun x r => handToTally r .lost x) s
    let trimmer := if s.tcu.sync = .search then posted else posted.syncRaised .trimmer 0
    let chains := if s.scu.sync = .search then trimmer else trimmer.syncRaised .sorter 0
    let a := chains.attention
    ∃ t, exec (.restartTracking .lineController num []) s = .next t ∧
      t.link .lineController = ((s.link .lineController).arrived.takeFrame).enqueue [0x12, num, 0x00, BitVec.ofNat 8 s.live.length] ∧
      t.live = [] ∧ t.board.line = .config ∧ t.board.nextTag = s.board.nextTag ∧ t.board.postings = s.board.postings ∧
      t.board.forces = s.board.forces ∧
      (∀ ch, t.unit ch = { s.unit ch with count := 0, serial := 0, sync := .search, good := 0, miss := 0 }) ∧
      (∀ p, (∀ i : Fin 6, (t.grading p).slots[i] = .empty) ∧ (t.grading p).top = 0 ∧ (t.grading p).target = none ∧
        let g := s.grading p
        let room : Bool := decide (g.replies.length < 8)
        (t.grading p).replies = (if g.target.isSome && room then g.replies ++ [.targetOff] else g.replies) ∧
        (t.grading p).counts =
          { g.counts with repliesLost := if g.target.isSome && !room then inc32 g.counts.repliesLost else g.counts.repliesLost }) ∧
      t.events = chains.events ∧
      t.attention =
        (if s.board.line = .run then
          { a with optimizer := { a.optimizer with edges := a.optimizer.edges ||| 2#8 },
                   lineController := { a.lineController with edges := a.lineController.edges ||| 64#8 } }
        else a) ∧
      (∀ other, other ≠ .lineController → t.link other = s.link other) ∧ t.links.notice = s.links.notice ∧ t.standing = s.standing ∧
      t.pending = s.pending ∧
      (∀ k, k ≤ 12 → t.saw k = { s.saw k with commanded := false, stage := .idle, timer := 0, leftDown := (s.saw k).feedback }) ∧
      t.saws.owner = 0 ∧
      (∀ n, 1 ≤ n → n ≤ 48 → t.bin n = { s.bin n with reserved := 0, gateOpen := false, pulse := none, pending := [] }) ∧
      t.sort.counts = s.sort.counts ∧ t.tables = s.tables ∧ t.decision = s.decision ∧ t.timebase = s.timebase ∧ t.pins = s.pins ∧
      t.tally = posted.tally ∧
      t.tally.closed = s.tally.closed ∧ t.tally.live.cells = s.tally.live.cells ∧
      (s.tally.live.lost + s.live.length ≤ 4294967295 → t.tally.live.lost = s.tally.live.lost + s.live.length)

/-! ### Tables (R11, R13, R125, R130, R174 to R177) -/

/-- R13, R174, R175: LOAD-TABLE. In RUN it is refused STATE. In CONFIG the first case that applies decides: a table that is not loadable,
the price banks among them, a part above 7 or a last-part flag above 1 (log 13) is refused RANGE, as is part 7 not marked last; a part other
than 0 that the staging area does not expect is refused STATE, naming the table staged and the part expected, whatever they are; bytes that
do not end on a whole entry or pass the table's most entries are refused RANGE. A part not marked last joins the staging area, which then
expects the next, and is answered with the entries staged. A station table completed is stored, its valid flag set and the staging area
emptied, and answered as stored, where it meets R13, and else refused RANGE, the stored table kept. -/
def Obligations.LoadTable : Prop :=
  ∀ (num code part last : Byte) (bytes : List Byte) (s : State),
    s.Ready .lineController (0x13 :: num :: code :: part :: last :: bytes) → bytes.length ≤ 235 →
    let run := exec (.loadTable .lineController num (code :: part :: last :: bytes)) s
    let refused (status : Byte) (answer : List Byte) : Prop := run = .next (s.answered .lineController (0x13 :: num :: status :: answer))
    (s.board.line = .run → refused 0x04 []) ∧
    (s.board.line = .config →
      (code.toNat < 1 ∨ 8 < code.toNat ∨ 7 < part.toNat ∨ 1 < last.toNat ∨ (part = 7 ∧ last = 0) → refused 0x07 [0, 0]) ∧
      ∀ table : TableId, code.toNat = table.code → part.toNat ≤ 7 → last.toNat ≤ 1 → (part = 7 → last = 1) →
        let size := match table with
          | .settings => 22
          | .saw => 73
          | .size => 36
          | .grade => 3
          | .station => 8
          | .bin => 13
          | .sortRule => 6
          | .binGroup => 1
        let most := match table with
          | .bin => 48
          | .sortRule => 64
          | _ => 1
        let expected : Prop := ∃ st, s.tables.staging = some st ∧ st.table = table ∧ st.expected = some part.toNat
        (part ≠ 0 → s.tables.staging = none → refused 0x04 [0, 0]) ∧
        (∀ st, part ≠ 0 → s.tables.staging = some st → st.table ≠ table ∨ st.expected ≠ some part.toNat →
          refused 0x04 [BitVec.ofNat 8 st.table.code, BitVec.ofNat 8 (st.expected.getD 0)]) ∧
        (part = 0 ∨ expected → table ≠ .binGroup →
          let staged := if part = 0 then [] else (s.tables.staging.map (·.bytes)).getD []
          let count := staged.length / size + bytes.length / size
          (bytes.length % size ≠ 0 ∨ most < count → refused 0x07 [0, 0]) ∧
          (bytes.length % size = 0 → count ≤ most → last = 0 →
            run = .next (({ s with tables := { s.tables with
                staging := some { table := table, expected := some (part.toNat + 1), bytes := staged ++ bytes } } } : State).answered
              .lineController (0x13 :: num :: 0x00 :: code :: part :: u8 count)) ∧
            part.toNat + 1 ≤ 7)) ∧
        (table = .station → last = 1 → part = 0 → bytes.length = 8 →
          let loaded : StationTable :=
            { aLo := fieldAt bytes 0 1, aHi := fieldAt bytes 1 1, bLo := fieldAt bytes 2 1, bHi := fieldAt bytes 3 1,
              decision := fieldAt bytes 4 1, sawSet := fieldAt bytes 5 1, outfeed := fieldAt bytes 6 1, runout := fieldAt bytes 7 1 }
          let meets := 1 ≤ loaded.aLo ∧ loaded.aLo ≤ loaded.aHi ∧ loaded.aHi < loaded.decision ∧ 1 ≤ loaded.bLo ∧
            loaded.bLo ≤ loaded.bHi ∧ loaded.bHi < loaded.decision ∧ loaded.decision < loaded.sawSet ∧
            loaded.sawSet + 1 ≤ loaded.outfeed ∧ loaded.outfeed ≤ 60 ∧ 1 ≤ loaded.runout ∧ loaded.runout ≤ 127
          (meets →
            run = .next (({ s with tables := { s.tables with
                station := loaded, staging := none, valid := { s.tables.valid with station := true } } } : State).answered .lineController
              (0x13 :: num :: 0x00 :: 5 :: 0 :: 1 :: bytes))) ∧
          (¬ meets → s.loadRefused num .station bytes run)))

/-- R88, R110, R174, R175, R176: completed loads of the saw, size and grade tables. Each is one entry, in the part marked last or in a part
before it. A saw table needs confirm modes 1 to 3, and configured saws with positions from 300 to 7,000 and nominal lengths from 1 to the
position, both rising from saw to saw; a size table measurements of its defined codes in their ranges; a grade table a default from 1 to 10,
bits that name no grade being ignored. One that meets its checks is stored whole, its valid flag set and the staging area emptied, and
answered OK as stored; one that does not is refused RANGE, the stored table kept. That a mark over 1 is refused, that a completed load of
any table of one entry, the settings and the station table among them, that staged no entry is refused, and that the answer carries 0 for
what a mark of 0 makes void, are the model's choice (log 13). -/
def Obligations.LoadSawSizeGrade : Prop :=
  ∀ (num : Byte) (part : Nat) (staged bytes : List Byte) (s : State) (table : TableId), s.loads num table part true staged bytes →
    staged = [] ∨ bytes = [] →
    let total := staged ++ bytes
    let run := s.loadPart num table part true bytes
    let mark (at_ : Nat) := fieldAt total at_ 1
    let stored (tables : TableStore) (entry : List Byte) : Prop :=
      run = .next (({ s with tables := { tables with staging := none } } : State).answered .lineController
        (0x13 :: num :: 0x00 :: (u8 table.code ++ u8 part ++ u8 1 ++ if bytes = [] then [] else entry)))
    (table = .saw → total.length = 73 →
      let place (k : Nat) : Option SawPlace :=
        if mark (6 * k - 5) = 1 then some { position := fieldAt total (6 * k - 4) 2, nominal := fieldAt total (6 * k - 2) 2 } else none
      let below (p : SawPlace) (j : Nat) : Prop := ∀ q, place j = some q → q.position < p.position ∧ q.nominal < p.nominal
      let sound (k : Nat) : Prop := ∀ p, place k = some p → 300 ≤ p.position ∧ p.position ≤ 7000 ∧ 1 ≤ p.nominal ∧ p.nominal ≤ p.position ∧
        ∀ j, 1 ≤ j → j ≤ k - 1 → below p j
      let meets := (∀ k, k ≤ 12 → 1 ≤ mark (6 * k) ∧ mark (6 * k) ≤ 3) ∧ ∀ k, 1 ≤ k → k ≤ 12 → mark (6 * k - 5) ≤ 1 ∧ sound k
      let loaded := sawTableOf total
      (∀ k, 1 ≤ k → k ≤ 12 → entryD loaded.places (k - 1) none = place k) ∧
      (meets →
        (∀ k, k ≤ 12 → (entryD loaded.modes k .none).code = mark (6 * k)) ∧
        stored { s.tables with saw := loaded, valid := { s.tables.valid with saw := true } }
          (u8 (mark 0) ++ (List.range 12).flatMap fun i =>
            (match place (i + 1) with
              | some p => u8 1 ++ u16 p.position ++ u16 p.nominal
              | none => zeros 5) ++ u8 (mark (6 * (i + 1))))) ∧
      (¬ meets → s.loadRefused num .saw total run)) ∧
    (table = .size → total.length = 36 →
      let size (i : Nat) : Option Nat := if mark (3 * i) = 1 then some (fieldAt total (3 * i + 1) 2) else none
      let meets := ∀ i, i < 12 → mark (3 * i) ≤ 1 ∧ ∀ n, size i = some n →
        if i < 4 then 10 ≤ n ∧ n ≤ 150 else 25 ≤ n ∧ n ≤ 400
      let loaded := sizeTableOf total
      (∀ i, i < 4 → entryD loaded.thickness i none = size i) ∧ (∀ i, i < 8 → entryD loaded.width i none = size (i + 4)) ∧
      (meets → stored { s.tables with size := loaded, valid := { s.tables.valid with size := true } }
        ((List.range 12).flatMap fun i => match size i with
          | some n => u8 1 ++ u16 n
          | none => zeros 3)) ∧
      (¬ meets → s.loadRefused num .size total run)) ∧
    (table = .grade → total.length = 3 →
      let loaded : GradeTable := { enabled := BitVec.ofNat 10 (fieldAt total 0 2), default := mark 2 }
      (1 ≤ mark 2 ∧ mark 2 ≤ 10 → stored { s.tables with grade := loaded, valid := { s.tables.valid with grade := true } }
        (u16 (fieldAt total 0 2 % 1024) ++ u8 (mark 2))) ∧
      (¬ (1 ≤ mark 2 ∧ mark 2 ≤ 10) → s.loadRefused num .grade total run)) ∧
    (table ≠ .bin → table ≠ .binGroup → table ≠ .sortRule → total = [] → s.loadRefused num table total run)

/-- R124 to R126, R132, R175: a completed load of the bin table, in one part or several. Each entry must name a bin from 1 to 48 that no
entry before it names, with drop offset, capacity, marks and confirm mode in range and the capacity not below the bin's count; else the
whole load is refused RANGE and nothing changes. A load that passes sets every bin: a bin named takes its items, with gate pulse and confirm
window brought to their nearer limits, and its state by R125's table; a bin not named is not fitted and DISABLED. BIN-FULL is raised where a
bin becomes FULL, each fitted bin's NEAR is judged and BIN-NEAR raised where it rises, and the answer, OK or OK-CLAMPED, carries the part's
entries as stored. -/
def Obligations.LoadBins : Prop :=
  ∀ (num : Byte) (part : Nat) (staged bytes : List Byte) (s : State), s.loads num .bin part true staged bytes →
    staged.length % 13 = 0 → bytes.length % 13 = 0 → (staged ++ bytes).length ≤ 624 →
    let total := staged ++ bytes
    let n := total.length / 13
    let item (i at_ width : Nat) : Nat := fieldAt total (13 * i + at_) width
    let nearest (lo hi x : Nat) : Nat := if x < lo then lo else if hi < x then hi else x
    let items (i : Nat) : BinItems :=
      { drop := item i 1 1, capacity := item i 2 2, hi := item i 4 2, lo := item i 6 2, pulse := nearest 20 1000 (item i 8 2),
        confirm := decide (item i 10 1 = 2), window := nearest 5 500 (item i 11 2) }
    let bin (i : Nat) := item i 0 1
    let good (i : Nat) : Prop := 1 ≤ bin i ∧ bin i ≤ 48 ∧ (∀ j, j < i → bin j ≠ bin i) ∧ 1 ≤ (items i).drop ∧ (items i).drop ≤ 126 ∧
      1 ≤ (items i).capacity ∧ (items i).capacity ≤ 4000 ∧ (s.bin (bin i)).dropped ≤ (items i).capacity ∧
      (items i).hi ≤ (items i).capacity ∧ (items i).lo < (items i).hi ∧ 1 ≤ item i 10 1 ∧ item i 10 1 ≤ 2
    let run := s.loadPart num .bin part true bytes
    ((∀ i, i < n → good i) →
      let loaded (k : Nat) : Option BinItems := ((List.range n).find? fun i => bin i = k).map items
      let after (k : Nat) : BinRec :=
        let b := s.bin k
        match loaded k with
        | none => { b with items := none, state := .disabled }
        | some it =>
          BinRec.judged { b with
            items := some it,
            misses := if b.items.isSome then b.misses else 0,
            state := if b.items.isSome then (if b.state = .opened ∧ b.dropped = it.capacity then .full else b.state)
              else if b.dropped < it.capacity then .opened else .full }
      let fills (k : Nat) : Bool := decide ((after k).state = .full) && (decide ((s.bin k).state ≠ .full) || (s.bin k).items.isNone)
      let clamped : Bool := (List.range n).any fun i =>
        decide ((items i).pulse ≠ item i 8 2) || decide ((items i).window ≠ item i 11 2)
      let entry (i : Nat) : List Byte :=
        u8 (bin i) ++ u8 (items i).drop ++ u16 (items i).capacity ++ u16 (items i).hi ++ u16 (items i).lo ++ u16 (items i).pulse ++
          u8 (item i 10 1) ++ u16 (items i).window
      ∃ t, run = .next t ∧
        t = ({ s with
          sort := { s.sort with bins := t.sort.bins }, tables := { s.tables with valid := { s.tables.valid with bin := true }, staging := none },
          attention := s.binCauses ((List.range 48).any fun i => (s.bin (i + 1)).nearRises (after (i + 1)))
            ((List.range 48).any fun i => fills (i + 1)) } : State).answered .lineController
          (0x13 :: num :: (if clamped then 0x01 else 0x00) :: (u8 6 ++ u8 part ++ u8 n ++
            (List.range (bytes.length / 13)).flatMap fun i => entry (staged.length / 13 + i))) ∧
        ∀ k, 1 ≤ k → k ≤ 48 → t.bin k = after k) ∧
    (¬ (∀ i, i < n → good i) → s.loadRefused num .bin total run)

/-- R130, R174, R175, R176: completed loads of the bin-group and the sort-rule tables. A bin-group load is one entry set: the reject, reman
and overflow bins, each to 48, then groups, each of a number from 1 to 24 of its own and 1 to 4 different bins from 1 to 48. Sort rules, to
64 in one part or several, each hold a set of grades, a class range within 1 to 12 in order, a set of width codes and a group from 1 to 24,
bits that name no grade being ignored. A load that meets this replaces its table and is answered OK with the part's entries as stored; one
that does not is refused RANGE, the stored table kept. A second part that adds to a whole bin-group set is refused RANGE as it stands (an
entry set is one entry, log 13). -/
def Obligations.LoadGroupsRules : Prop :=
  (∀ (num : Byte) (part : Nat) (staged bytes : List Byte) (reject reman overflow : Byte) (groups : List (Byte × List Byte)) (s : State),
    s.loads num .binGroup part true staged bytes →
    let run := s.loadPart num .binGroup part true bytes
    (staged ≠ [] → bytes ≠ [] → run = .next (s.answered .lineController [0x13, num, 0x07, 0, 0])) ∧
    (staged = [] ∨ bytes = [] → (∀ g ∈ groups, g.2.length ≤ 255) →
      staged ++ bytes = reject :: reman :: overflow :: groups.flatMap (fun g => g.1 :: BitVec.ofNat 8 g.2.length :: g.2) →
      let meets := reject.toNat ≤ 48 ∧ reman.toNat ≤ 48 ∧ overflow.toNat ≤ 48 ∧ (groups.map (·.1)).Nodup ∧
        ∀ g ∈ groups, 1 ≤ g.1.toNat ∧ g.1.toNat ≤ 24 ∧ 1 ≤ g.2.length ∧ g.2.length ≤ 4 ∧ g.2.Nodup ∧
          ∀ b ∈ g.2, 1 ≤ b.toNat ∧ b.toNat ≤ 48
      let loaded : GroupTable :=
        { groups := Vector.ofFn fun i => (groups.find? fun g => g.1.toNat = i.val + 1).map fun g => g.2.map (·.toNat)
          reject := reject.toNat, reman := reman.toNat, overflow := overflow.toNat }
      (meets →
        run = .next (({ s with tables := { s.tables with
            groups := loaded, valid := { s.tables.valid with binGroup := true }, staging := none } } : State).answered .lineController
          (0x13 :: num :: 0x00 :: (u8 7 ++ u8 part ++ u8 1 ++ bytes)))) ∧
      (¬ meets → s.loadRefused num .binGroup (staged ++ bytes) run))) ∧
  ∀ (num : Byte) (part : Nat) (staged bytes : List Byte) (s : State), s.loads num .sortRule part true staged bytes →
    staged.length % 6 = 0 → bytes.length % 6 = 0 → (staged ++ bytes).length ≤ 384 →
    let total := staged ++ bytes
    let n := total.length / 6
    let rule (i : Nat) : SortRule :=
      { grades := BitVec.ofNat 10 (fieldAt total (6 * i) 2), lo := fieldAt total (6 * i + 2) 1, hi := fieldAt total (6 * i + 3) 1,
        widths := BitVec.ofNat 8 (fieldAt total (6 * i + 4) 1), group := fieldAt total (6 * i + 5) 1 }
    let good (r : SortRule) : Prop := r.grades ≠ 0 ∧ 1 ≤ r.lo ∧ r.lo ≤ r.hi ∧ r.hi ≤ 12 ∧ r.widths ≠ 0 ∧ 1 ≤ r.group ∧ r.group ≤ 24
    let bytesOf (r : SortRule) : List Byte := u16 r.grades.toNat ++ u8 r.lo ++ u8 r.hi ++ u8 r.widths.toNat ++ u8 r.group
    let run := s.loadPart num .sortRule part true bytes
    ((∀ i, i < n → good (rule i)) →
      run = .next (({ s with tables := { s.tables with
          rules := (List.range n).map rule, valid := { s.tables.valid with sortRule := true }, staging := none } } : State).answered
        .lineController (0x13 :: num :: 0x00 :: (u8 8 ++ u8 part ++ u8 n ++
          (List.range (bytes.length / 6)).flatMap fun i => bytesOf (rule (staged.length / 6 + i)))))) ∧
    (¬ (∀ i, i < n → good (rule i)) → s.loadRefused num .sortRule total run)

/-- R10, R11, R174, R175, R176: a completed load of the settings table, its one entry in the part marked last or in a part before it.
Figures out of range refuse it RANGE and nothing changes. Else F, A, W, the miss limit and H are stored, and each chain that the load
carries takes its parameters, with E brought within 1 to C/4, valid, and goes to SEARCH with c and both counts 0, keeping its serial,
STOPPED, the reverse flag and the running timer; a chain that was not in SEARCH raises SYNC-CHANGE, SYNC and, for the TCU, TRACK-SYNC, the
trimmer chain's first (log 22). A chain it does not carry keeps its parameters and its tracking. The answer is OK, or OK-CLAMPED where an E
was brought to a limit, with the table as stored. That the answer's entry has the form of READ-TABLE, with a chain's valid flag as its load
mark, and that a load mark over 1 is refused, are the model's choice (log 13). -/
def Obligations.SettingsLoad : Prop :=
  ∀ (num : Byte) (part : Nat) (staged bytes : List Byte) (s : State), s.loads num .settings part true staged bytes →
    staged = [] ∨ bytes = [] → (staged ++ bytes).length = 22 →
    let total := staged ++ bytes
    let old := s.tables.settings
    let run := s.loadPart num .settings part true bytes
    let at_ (ch : Chain) : Nat := match ch with
      | .trimmer => 8
      | .sorter => 15
    let mark (ch : Chain) := fieldAt total (at_ ch) 1
    let C (ch : Chain) := fieldAt total (at_ ch + 1) 2
    let E (ch : Chain) := fieldAt total (at_ ch + 3) 2
    let stop (ch : Chain) := fieldAt total (at_ ch + 5) 2
    let nearest (ch : Chain) : Nat := if E ch < 1 then 1 else if roundDiv (C ch) 4 < E ch then roundDiv (C ch) 4 else E ch
    let meets := fieldAt total 0 2 ≤ 100 ∧ fieldAt total 2 2 ≤ 200 ∧ 10 ≤ fieldAt total 4 2 ∧ fieldAt total 4 2 ≤ 1000 ∧
      1 ≤ fieldAt total 6 1 ∧ fieldAt total 6 1 ≤ 15 ∧ 1 ≤ fieldAt total 7 1 ∧ fieldAt total 7 1 ≤ 16 ∧
      ∀ ch, mark ch ≤ 1 ∧ (mark ch = 1 → 64 ≤ C ch ∧ C ch ≤ 4096 ∧ 20 ≤ stop ch ∧ stop ch ≤ 2000)
    let params (ch : Chain) : ChainParams :=
      if mark ch = 1 then { pitch := C ch, tolerance := nearest ch, stopTime := stop ch, valid := true } else s.params ch
    let loaded : Settings :=
      { old with fence := fieldAt total 0 2, allowance := fieldAt total 2 2, window := fieldAt total 4 2, missLimit := fieldAt total 6 1,
                 ageLimit := fieldAt total 7 1, trimmer := params .trimmer, sorter := params .sorter }
    let searching (ch : Chain) (x : State) : State := if mark ch = 1 ∧ (s.unit ch).sync ≠ .search then x.syncRaised ch 0 else x
    let raised := searching .sorter (searching .trimmer s)
    let unit (ch : Chain) : ChainUnit :=
      if mark ch = 1 then { s.unit ch with count := 0, sync := .search, good := 0, miss := 0 } else s.unit ch
    let clamped : Bool := (decide (mark .trimmer = 1) && decide (nearest .trimmer ≠ E .trimmer)) ||
      (decide (mark .sorter = 1) && decide (nearest .sorter ≠ E .sorter))
    let chain (p : ChainParams) : List Byte := flag8 p.valid ++ u16 p.pitch ++ u16 p.tolerance ++ u16 p.stopTime
    (meets →
      run = .next (({ s with
          tcu := unit .trimmer, scu := unit .sorter, events := raised.events, attention := raised.attention,
          tables := { s.tables with settings := loaded, valid := { s.tables.valid with settings := true }, staging := none } } : State).answered
        .lineController (0x13 :: num :: (if clamped then 0x01 else 0x00) :: (u8 1 ++ u8 part ++ u8 1 ++
          if bytes = [] then []
          else u16 loaded.fence ++ u16 loaded.allowance ++ u16 loaded.window ++ u8 loaded.missLimit ++ u8 loaded.ageLimit ++
            chain loaded.trimmer ++ chain loaded.sorter)))) ∧
    (¬ meets → s.loadRefused num .settings total run)

/-! ### Reads (R42, R141, R152, R154, R174, R180) -/

/-- R42, R141, R152, R154, R172, R180: the reads. The eight, from a role that has them and with their form, answer one frame and change
nothing else of the part. READ-RECORD answers the 100 bytes of the record a tag names, or NO-TAG; READ-SEGMENT the ready flag and the bytes
of the slots named; READ-MATRIX and READ-CLOSED the totals, or the cells of 1 to 3 classes of a grade, of the live tally and of the closed
image; READ-BINS the 1 to 12 bins named and the special bins; READ-STATUS the page named, as the part stands with the request taken; each
RANGE where what it names is out of range. ReadTables has READ-TABLE, and ReadLayouts the layouts of a record, a bin and the pages. -/
def Obligations.Reads : Prop :=
  (∀ (i : Instr) (r : Req) (l : LinkId) (num : Byte) (fields : List Byte) (s : State),
    r = .readRecord ∨ r = .readStatus ∨ r = .readBins ∨ r = .readTable ∨ r = .readTableTallyForm ∨ r = .readSegment ∨
      r = .readMatrix ∨ r = .readClosed →
    i = requestInstr r l num fields → hasRight l r = true → formOk r fields = true →
    s.Ready l (requestCode r :: num :: fields) →
    ∃ status bytes, exec i s = .next (s.answered l (requestCode r :: num :: status :: bytes))) ∧
  ∀ (num : Byte) (s : State),
    (∀ l hi lo, s.Ready l [0x03, num, hi, lo] →
      let tag := 256 * hi.toNat + lo.toNat
      (s.locate tag = none → exec (.readRecord l num [hi, lo]) s = .next (s.answered l [0x03, num, 0x05])) ∧
      ∀ r place, s.locate tag = some (r, place) →
        exec (.readRecord l num [hi, lo]) s = .next (s.answered l (0x03 :: num :: 0x00 :: recordBytes r place)) ∧
        (recordBytes r place).length = 100) ∧
    (∀ n first count : Byte, s.Ready .tallyStation [0x15, num, n, first, count] →
      exec (.readSegment .tallyStation num [n, first, count]) s = .next (s.answered .tallyStation (0x15 :: num ::
        if n.toNat ≤ 3 ∧ 1 ≤ count.toNat ∧ count.toNat ≤ 10 ∧ first.toNat + count.toNat ≤ 256 then
          0x00 :: (flag8 (s.tally.stream.ready.getLsbD n.toNat) ++ (List.range (20 * count.toNat)).map fun i =>
            s.tally.stream.store.read (20 * (256 * n.toNat + first.toNat) + i))
        else [0x07]))) ∧
    (∀ part grade first count : Byte,
      let totals (t : Tally) : List Byte :=
        u16 t.shift ++ flag8 t.saturated ++ [t.reject, t.reman, t.trash, t.runout, t.lost, t.unknown, t.miscut, t.suspect, t.value, t.written,
          t.dropped].flatMap u32
      let cells (t : Tally) : List Byte :=
        u16 t.shift ++ flag8 t.saturated ++ (List.range count.toNat).flatMap fun i => (List.range 8).flatMap fun w =>
          let c := entryD t.cells (96 * (grade.toNat - 1) + 8 * (first.toNat + i - 1) + w) { pieces := 0, volume := 0 }
          u24 c.pieces ++ u32 c.volume
      let answer (t : Tally) : List Byte :=
        if part = 1 then 0x00 :: totals t
        else if part = 2 ∧ 1 ≤ grade.toNat ∧ grade.toNat ≤ 10 ∧ 1 ≤ first.toNat ∧ first.toNat ≤ 12 ∧ 1 ≤ count.toNat ∧ count.toNat ≤ 3 ∧
            first.toNat + count.toNat ≤ 13 then 0x00 :: cells t
        else [0x07]
      (s.Ready .tallyStation [0x19, num, part, grade, first, count] →
        exec (.readMatrix .tallyStation num [part, grade, first, count]) s =
          .next (s.answered .tallyStation (0x19 :: num :: answer s.tally.live))) ∧
      (s.Ready .tallyStation [0x1A, num, part, grade, first, count] →
        exec (.readClosed .tallyStation num [part, grade, first, count]) s =
          .next (s.answered .tallyStation (0x1A :: num :: answer s.tally.closed)))) ∧
    (∀ first count : Byte, s.Ready .lineController [0x0E, num, first, count] →
      exec (.readBins .lineController num [first, count]) s = .next (s.answered .lineController (0x0E :: num ::
        if 1 ≤ first.toNat ∧ first.toNat ≤ 48 ∧ 1 ≤ count.toNat ∧ count.toNat ≤ 12 ∧ first.toNat + count.toNat ≤ 49 then
          0x00 :: (((List.range count.toNat).flatMap fun i => (s.bin (first.toNat + i)).bytes) ++ u8 s.tables.groups.reject ++
            u8 s.tables.groups.reman ++ u8 s.tables.groups.overflow)
        else [0x07]))) ∧
    (∀ l page, s.Ready l [0x04, num, page] →
      (7 < page.toNat → exec (.readStatus l num [page]) s = .next (s.answered l [0x04, num, 0x07])) ∧
      ∀ bytes, statusPage (s.modifyLink l fun k => k.arrived.takeFrame) l page.toNat = some bytes →
        exec (.readStatus l num [page]) s = .next (s.answered l (0x04 :: num :: 0x00 :: bytes)))

/-- R154 to R156, R174, R180: READ-TABLE in both its forms, from the line controller and the tally station. A table outside 1 to 10, a part
other than 0 of a table read in one part, over 7 of the bin and sort-rule tables or over 9 of a price bank is refused RANGE. Else the answer
carries the table, the part, the valid flag, 1 for a bank, and the part as stored: a chain's valid flag as its load mark, 6 bins, 8 rules or
the 12 prices of a grade a part. Bins and groups go by rising number, and what a mark of 0 makes void goes as 0 (log 13). -/
def Obligations.ReadTables : Prop :=
  ∀ (r : Req) (l : LinkId) (num table part : Byte) (s : State), r = .readTable ∨ r = .readTableTallyForm → l ≠ .optimizer →
    let code : Byte := if r = .readTable then 0x1D else 0x14
    s.Ready l [code, num, table, part] →
    let run := exec (requestInstr r l num [table, part]) s
    let t := s.tables
    let p := part.toNat
    let range : Result State := .next (s.answered l [code, num, 0x07])
    let answer (valid : Bool) (bytes : List Byte) : Result State :=
      .next (s.answered l (code :: num :: 0x00 :: table :: part :: (if valid then 1 else 0) :: bytes))
    let chain (c : ChainParams) : List Byte := (if c.valid then 1 else 0) :: (u16 c.pitch ++ u16 c.tolerance ++ u16 c.stopTime)
    let mode (k : Nat) : Byte := match entryD t.saw.modes k .none with
      | .none => 1
      | .confirm => 2
      | .retry => 3
    let measure (m : Option Nat) : List Byte := match m with
      | some mm => 1 :: u16 mm
      | none => [0, 0, 0]
    let bank (v : Vector Nat 120) : List Byte := (List.range 12).flatMap fun k => u32 (entryD v (12 * p + k) 0)
    (table = 0 ∨ 10 < table.toNat → run = range) ∧
    (p ≠ 0 → (1 ≤ table.toNat ∧ table.toNat ≤ 5) ∨ table = 7 → run = range) ∧ (7 < p → table = 6 ∨ table = 8 → run = range) ∧
    (9 < p → table = 9 ∨ table = 10 → run = range) ∧
    (p = 0 →
      (table = 1 → run = answer t.valid.settings (u16 t.settings.fence ++ u16 t.settings.allowance ++ u16 t.settings.window ++
        u8 t.settings.missLimit ++ u8 t.settings.ageLimit ++ chain t.settings.trimmer ++ chain t.settings.sorter)) ∧
      (table = 2 → run = answer t.valid.saw (mode 0 :: (List.range 12).flatMap fun k =>
        (match entryD t.saw.places k none with
          | some q => 1 :: (u16 q.position ++ u16 q.nominal)
          | none => [0, 0, 0, 0, 0]) ++ [mode (k + 1)])) ∧
      (table = 3 → run = answer t.valid.size (((List.range 4).flatMap fun i => measure (entryD t.size.thickness i none)) ++
        (List.range 8).flatMap fun i => measure (entryD t.size.width i none))) ∧
      (table = 4 → run = answer t.valid.grade (u16 t.grade.enabled.toNat ++ u8 t.grade.default)) ∧
      (table = 5 → run = answer t.valid.station ([t.station.aLo, t.station.aHi, t.station.bLo, t.station.bHi, t.station.decision,
        t.station.sawSet, t.station.outfeed, t.station.runout].flatMap u8)) ∧
      (table = 7 → run = answer t.valid.binGroup (u8 t.groups.reject ++ u8 t.groups.reman ++ u8 t.groups.overflow ++
        (List.range 24).flatMap fun i => match entryD t.groups.groups i none with
          | some bins => u8 (i + 1) ++ u8 bins.length ++ bins.flatMap u8
          | none => []))) ∧
    (p ≤ 7 →
      (table = 6 → run = answer t.valid.bin ((List.range 6).flatMap fun i =>
        let n := 6 * p + i + 1
        match (s.bin n).items with
        | some it => u8 n ++ u8 it.drop ++ u16 it.capacity ++ u16 it.hi ++ u16 it.lo ++ u16 it.pulse ++ [if it.confirm then 2 else 1] ++
          u16 it.window
        | none => [])) ∧
      (table = 8 → run = answer t.valid.sortRule (((t.rules.drop (8 * p)).take 8).flatMap fun rule =>
        u16 rule.grades.toNat ++ u8 rule.lo ++ u8 rule.hi ++ u8 rule.widths.toNat ++ u8 rule.group))) ∧
    (p ≤ 9 → (table = 9 → run = answer true (bank t.bank0)) ∧ (table = 10 → run = answer true (bank t.bank1)))

/-- R11, R22, R53, R62, R73, R75, R84, R108, R110, R124, R141, R146, R149, R160, R163, R172, R178, R180 to R182: the layouts. Numbers go
most significant byte first. A READ-RECORD answer is 100 bytes with each part at its offset, and zeros for a part that is absent; the
decision block, 17 bytes, is that of the previews. A READ-BINS entry is 17 bytes, a stream trailer 20, an event 9. The pages of READ-STATUS
carry their items in order; the codes of the line state, the window stages and the receiver states are free values (log 7), and the orders
and codes that R180 leaves open are the model's choice (logs 18 and 26). -/
def Obligations.ReadLayouts : Prop :=
  (∀ n : Nat, u8 n = [BitVec.ofNat 8 n] ∧ u16 n = [BitVec.ofNat 8 (n / 256), BitVec.ofNat 8 n] ∧
    u24 n = BitVec.ofNat 8 (n / 65536) :: u16 n ∧ u32 n = u16 (n / 65536) ++ u16 n) ∧
  (∀ (r : Record) (place : Place),
    let bytes := recordBytes r place
    let field (at_ n : Nat) : List Byte := (bytes.drop at_).take n
    let bit (b : Bool) (n : Nat) : Nat := if b then n else 0
    let small (o : Option Nat) : Byte := BitVec.ofNat 8 (o.getD 0)
    let who (o : Option Position) (n : Nat) : Nat := match o with
      | none => 0
      | some .a => n
      | some .b => 2 * n
    let kind (k : Disposition) : Nat := match k with
      | .normal => 1
      | .reject => 2
      | .reman => 3
    let saws (v : Vector Bool 13) : List Byte := u16 ((List.range 13).map fun j => bit (entryD v j false) (2 ^ j)).sum
    let f := r.flags
    let posted := (r.solution.map (·.candidates)).getD []
    bytes.length = 100 ∧ field 0 2 = u16 r.tag ∧ field 2 1 = [if r.origin = .scanned then 1 else 2] ∧ field 3 1 = u8 r.life.code ∧
    field 4 1 = u8 (bit f.suspect 1 + bit f.double 2 + bit f.miscut 4 + bit f.sawMiss 8 + bit f.gateMiss 16 + bit f.rerouted 32 +
      bit f.redecided 64) ∧
    field 5 1 = u8 (bit r.scan.isSome 1 + bit r.solution.isSome 2 + bit r.marks.isSome 4 + bit r.force.isSome 8 + bit r.decision.isSome 16 +
      bit r.outcome.isSome 32 + bit r.sort.isSome 64) ∧
    field 6 4 = u32 r.creation.toNat ∧ field 10 4 = u32 ((r.sorterSerial.map (·.toNat)).getD 0) ∧
    field 14 3 = (match place with
      | .trimmer off => [1, BitVec.ofNat 8 off, 0]
      | .transfer position age => [2, BitVec.ofNat 8 position, BitVec.ofNat 8 age]
      | .sorter off => [3, BitVec.ofNat 8 off, 0]) ∧
    field 17 4 = (match r.scan with
      | some c => u16 c.length ++ u8 c.thickness ++ u8 c.width
      | none => [0, 0, 0, 0]) ∧
    field 21 2 = (match r.solution with
      | some x => u8 x.revision ++ u8 x.candidates.length
      | none => [0, 0]) ∧
    (∀ i, i < 8 → field (23 + 3 * i) 3 = match posted[i]? with
      | some c => [BitVec.ofNat 8 c.saw, if c.fence then 1 else 0, BitVec.ofNat 8 c.grade]
      | none => [0, 0, 0]) ∧
    field 47 6 = (match r.marks with
      | none => List.replicate 6 0
      | some m =>
        [small (m.grade.map (·.value)), small (m.cutback.map (·.value)), small (m.disposition.map fun x => kind x.value),
          if m.noFence.isSome then 1 else 0,
          BitVec.ofNat 8 (who (m.grade.map (·.setBy)) 1 + who (m.cutback.map (·.setBy)) 4 + who (m.disposition.map (·.setBy)) 16 +
            who m.noFence 64),
          BitVec.ofNat 8 (bit m.byA 1 + bit m.byB 2)]) ∧
    field 53 5 = (match r.force with
      | none => List.replicate 5 0
      | some x =>
        [match x.kind with
          | none => 0
          | some (.trim _) => 1
          | some .noTrim => 2
          | some .trash => 3,
         match x.kind with
          | some (.trim k) => BitVec.ofNat 8 k
          | _ => 0,
         match x.fence with
          | none => 0
          | some true => 1
          | some false => 2,
         small x.grade, small (x.disposition.map kind)]) ∧
    (r.decision = none → field 58 17 = List.replicate 17 0) ∧
    (∀ d, r.decision = some d → field 58 17 = d.bytes ∧
      d.bytes = [BitVec.ofNat 8 d.kind.code, small d.saw, if d.fence then 1 else 0, small d.grade, small d.cls] ++ u32 d.volume ++
        u32 d.value ++ [BitVec.ofNat 8 (kind d.disposition), BitVec.ofNat 8 d.source.code, BitVec.ofNat 8 d.reason.code, small d.index]) ∧
    field 75 15 = (match r.outcome with
      | none => List.replicate 15 0
      | some o => saws o.pattern ++ saws o.snapshot ++ [match o.result with
          | .cls j => BitVec.ofNat 8 j
          | .short => 13
          | .untrimmed => 14, small o.grade, BitVec.ofNat 8 (kind o.disposition)] ++ u32 o.volume ++ u32 o.value) ∧
    field 90 10 = (match r.sort with
      | none => List.replicate 10 0
      | some q =>
        [small q.key.grade, small q.key.cls, small q.key.width, BitVec.ofNat 8 (kind q.key.disposition),
         match q.route with
          | .group _ => 1
          | .reject => 2
          | .reman => 3
          | .nowhere => 4,
         match q.route with
          | .group n => BitVec.ofNat 8 n
          | _ => 0,
         BitVec.ofNat 8 q.bin, BitVec.ofNat 8 q.firstBin,
         match q.result with
          | .none => 0
          | .dropped => 1
          | .passed => 2,
         BitVec.ofNat 8 q.attempts])) ∧
  ([Life.scanned, .decided, .set, .cut, .inTransfer, .onSorter, .dropping].map (·.code) = [1, 2, 3, 4, 5, 6, 7] ∧
    [Fate.droppedGraded, .droppedReject, .droppedReman, .trashed, .runout, .lost].map (·.code) = [1, 2, 3, 4, 5, 6] ∧
    [Kind.trim, .noTrim, .trash].map (·.code) = [1, 2, 3] ∧
    [Source.force, .mode, .mark, .optimizer, .byDefault].map (·.code) = [1, 2, 3, 4, 5] ∧
    [Reason.chosen, .noScan, .noSolution, .noneFeasible, .short, .suspect, .double, .bypass, .trashAll, .fixedShort, .forced,
      .forceShort].map (·.code) = [1, 2, 3, 4, 5, 6, 7, 8, 9, 10, 11, 12] ∧
    [EventKind.eyeEarly, .eyeMissed, .syncChange, .chainStop, .chainRun, .reverse, .sawMiss, .sawDisabled, .gateMiss, .binDisabled,
      .binFullSwitch, .boardLost, .boardUnknown, .streamDrop].map (·.code) = [1, 2, 3, 4, 5, 6, 7, 8, 9, 10, 11, 12, 13, 14]) ∧
  (∀ b : BinRec,
    let item (f : BinItems → Nat) : Nat := (b.items.map f).getD 0
    let bit (x : Bool) (n : Nat) : Nat := if x then n else 0
    b.bytes = u8 (bit b.items.isSome 128 + match b.state with
        | .opened => 0
        | .full => 1
        | .unloading => 2
        | .disabled => 3) ++
      u16 b.dropped ++ u16 b.reserved ++ u16 (b.dropped + b.reserved) ++ u16 (item (·.capacity)) ++ u16 (item (·.hi)) ++
      u16 (item (·.lo)) ++ [if b.near then 1 else 0] ++ u8 b.misses ++ u8 b.pending.length ++
      u8 (bit b.gateOpen 1 + bit b.fullSwitch 2 + bit b.confirmInput 4) ∧ b.bytes.length = 17) ∧
  (∀ (sequence : BitVec 32) (count dropped shift : Nat) (shiftEnd : Bool),
    trailerBytes sequence count dropped shift shiftEnd =
      [0, 0] ++ u32 sequence.toNat ++ [BitVec.ofNat 8 count] ++ u32 dropped ++ u16 shift ++ [if shiftEnd then 1 else 0] ++
        List.replicate 6 0) ∧
  (∀ e : Event, e.bytes = [BitVec.ofNat 8 e.kind.code, match e.chain with
      | none => 0
      | some .trimmer => 1
      | some .sorter => 2] ++ u32 e.serial.toNat ++ u16 e.subject ++ u8 e.detail) ∧
  ∀ (s : State) (l : LinkId),
    let sync (y : Sync) : Nat := match y with
      | .search => 0
      | .locked => 1
      | .coast => 2
      | .lost => 3
    let chain (ch : Chain) : List Byte :=
      let u := s.unit ch
      u8 (sync u.sync) ++ u32 u.serial.toNat ++ u16 u.count ++ u8 u.good ++ u8 u.miss ++ flag8 u.stopped ++ flag8 u.reverse ++
        flag8 (s.params ch).valid
    let position (p : Position) : List Byte :=
      let g := s.grading p
      let slots := (List.range 6).map fun i => entryD g.slots i .empty
      let offset : Nat := match g.target.bind fun tag => byTag s.board.trimmer tag with
        | some r => r.trimmerOffset s.tcu.serial
        | none => 0
      let c := g.counts
      u8 (slots.filter fun x => decide (x ≠ .empty)).length ++ u8 g.top.val ++ u16 (g.target.getD 0) ++ u8 offset ++
        [c.keys, c.voids, c.refusals, c.commits, c.passes, c.missed, c.badBytes, c.repliesLost].flatMap u32 ++
        (if l = .lineController then
          (slots.map fun
            | .empty => 0
            | .valid _ => 1
            | .void _ => 2) ++ slots.map fun
            | .empty => 0
            | .valid k | .void k => markKeyCode k
        else [])
    let saw (k : Nat) : List Byte :=
      let r := s.saw k
      flag8 r.enabled ++ [match s.sawMode k with
        | .none => 1
        | .confirm => 2
        | .retry => 3] ++ flag8 r.commanded ++ flag8 r.feedback ++ [Config.windowStageCode (match r.stage with
        | .idle => 0
        | .first => 1
        | .second => 2)] ++ u16 r.timer ++ u8 r.misses ++ u32 r.totalMisses ++ u32 r.retries
    let link (k : LinkState) : List Byte :=
      [Config.receiverStateCode (match k.rx with
        | .hunt => 0
        | .frame _ _ => 1
        | .skip => 2)] ++ u16 k.fill ++ flag8 k.rxPause ++ flag8 k.txPause ++ u8 k.tx.length ++
        [k.stray, k.framing, k.crcFaults, k.overruns, k.taken, k.denied, k.format, k.breaks].flatMap u32
    let d := s.decision
    let q := s.board.postings
    let f := s.board.forces
    let st := s.tally.stream
    let t := s.tally.live
    let n := s.sort.counts
    statusPage s l 0 = some ([Config.lineStateCode (decide (s.board.line = .run))] ++ u16 s.board.nextTag ++ u8 s.board.trimmer.length ++
      u8 s.board.transfer.length ++ u8 s.board.sorter.length ++ u8 ((s.board.transfer.head?.map (·.age)).getD 0) ++ chain .trimmer ++
      chain .sorter) ∧
    statusPage s l 1 = some (position .a ++ position .b) ∧
    statusPage s l 2 = some ((List.range 13).flatMap saw ++ u16 s.saws.owner ++ u16 s.tables.settings.window ++
      u8 s.tables.settings.missLimit) ∧
    statusPage s l 3 = some ((match d.mode.saws with
        | .auto => [1, 0]
        | .fixed k => [2, BitVec.ofNat 8 k]
        | .trashAll => [3, 0]
        | .bypass => [4, 0]) ++ (match d.mode.sort with
        | .byProduct => [1]
        | .allReject => [2]
        | .allRunout => [3]) ++
      [d.modesTaken, d.modesRefused, q.taken, q.noTag, q.late, q.range, q.noticesLost, f.taken, f.redecided, f.noTag, f.late, f.range,
        d.atLine, d.redecides].flatMap u32 ++ ((List.range 12).flatMap fun i => u32 (entryD d.reasons i 0)) ++
      (match d.last with
        | none => [0, 0, 0, 0, 0]
        | some x => u16 x.tag ++ u8 x.kind.code ++ u8 x.source.code ++ u8 x.reason.code)) ∧
    statusPage s l 4 = some ([if st.blocked then 2 else 1] ++ u8 st.segment.val ++ u8 st.slot ++ u8 st.ready.toNat ++
      flag8 st.trailer.isSome ++ u32 st.sequence.toNat ++ u16 t.shift ++ u32 t.written ++ u32 t.dropped ++ flag8 t.saturated ++
      flag8 s.tables.active1 ++ [s.tables.edits, s.tables.editsRefused, s.tables.switches].flatMap u32) ∧
    statusPage s l 5 = some (link s.links.optimizer ++ link s.links.lineController ++ link s.links.tallyStation) ∧
    statusPage s l 6 = some ([s.attention.optimizer.edges ||| levelRequests s .optimizer, s.attention.optimizer.enables,
      s.attention.lineController.edges ||| levelRequests s .lineController, s.attention.lineController.enables,
      s.attention.tallyStation.edges ||| levelRequests s .tallyStation, s.attention.tallyStation.enables] ++
      u8 s.events.entries.length ++ flag8 s.events.overflow ++ u32 s.events.lost) ∧
    statusPage s l 7 = some ([n.group, n.overflow, n.reject, n.reman, n.runout, n.reroutes, n.pendingFull, n.suspectPasses, n.fires,
      n.confirms, n.misses, n.strays].flatMap u32) ∧
    ∀ page, 7 < page → statusPage s l page = none

/-! ### The stream, the shift and the prices (R148 to R156) -/

/-- R148, R150, R151, R153: the stream's and the shift's requests. RELEASE-SEGMENT clears the segment's ready flag and, where the writer is
BLOCKED on it, leaves the writer WRITING at its slot 0, or closes the segment at once with a pending shift-end trailer; a number over 3 is
refused RANGE. A close writes the trailer, marks the segment ready, raises the sequence, and moves the writer to slot 0 of the next segment,
where it is BLOCKED if that one is ready. FLUSH closes a segment that holds records; with none, or BLOCKED, it closes nothing and answers
the current segment (log 24). SHIFT-CLOSE is refused STATE while a shift-end trailer is pending. Else the live tally becomes the closed
image, the live tally starts at zero with the next shift number, SHIFT-CLOSED is latched, and the shift-end trailer is written at once, or
held pending while the writer is BLOCKED. -/
def Obligations.StreamAndShift : Prop :=
  (∀ (num n : Byte) (s : State),
    let st := s.tally.stream
    let closed (slot dropped shift : Nat) (shiftEnd : Bool) : Stream :=
      { st with
        store := st.store.writeBytes (20 * (256 * st.segment.val + slot)) (trailerBytes st.sequence slot dropped shift shiftEnd),
        ready := st.ready ||| (1#4 <<< st.segment.val), segment := st.segment + 1, slot := 0, sequence := st.sequence + 1,
        blocked := st.ready.getLsbD (st.segment + 1).val, spellDropped := false }
    (s.Ready .tallyStation [0x16, num, n] →
      let run := exec (.releaseSegment .tallyStation num [n]) s
      (3 < n.toNat → run = .next (s.answered .tallyStation [0x16, num, 0x07])) ∧
      (n.toNat ≤ 3 → (st.blocked = true → st.segment.val = n.toNat → st.trailer = none) →
        let resumes : Bool := st.blocked && decide (st.segment.val = n.toNat)
        let ready := st.ready &&& ~~~(1#4 <<< n.toNat)
        let after : Stream :=
          { st with ready := ready, blocked := st.blocked && !resumes, slot := if resumes then 0 else st.slot,
                    spellDropped := st.spellDropped && !resumes }
        run = .next (({ s with tally := { s.tally with stream := after } } : State).answered .tallyStation
          (0x16 :: num :: 0x00 :: (flag8 (st.ready.getLsbD n.toNat) ++
            [BitVec.ofNat 8 ready.toNat, if after.blocked then 2 else 1, BitVec.ofNat 8 st.segment.val])))) ∧
      (∀ t, n.toNat ≤ 3 → st.blocked = true → st.segment.val = n.toNat → st.trailer = some t →
        let after : Stream := closed 0 t.dropped t.shift true
        run = .next (({ s with tally := { s.tally with stream := { after with trailer := none } } } : State).answered .tallyStation
          (0x16 :: num :: 0x00 :: (flag8 (st.ready.getLsbD n.toNat) ++
            [BitVec.ofNat 8 after.ready.toNat, if after.blocked then 2 else 1, BitVec.ofNat 8 (st.segment + 1).val]))))) ∧
    (s.Ready .tallyStation [0x17, num] →
      let run := exec (.flush .tallyStation num []) s
      (st.blocked = true ∨ st.slot = 0 →
        run = .next (s.answered .tallyStation [0x17, num, 0x00, BitVec.ofNat 8 st.segment.val, 0])) ∧
      (st.blocked = false → 0 < st.slot →
        run = .next (({ s with tally := { s.tally with
            stream := closed st.slot s.tally.live.dropped s.tally.live.shift false } } : State).answered .tallyStation
          [0x17, num, 0x00, BitVec.ofNat 8 st.segment.val, BitVec.ofNat 8 st.slot])))) ∧
  ∀ (num : Byte) (s : State), s.Ready .tallyStation [0x18, num] →
    let run := exec (.shiftClose .tallyStation num []) s
    let st := s.tally.stream
    let old := s.tally.live
    (st.trailer.isSome = true → run = .next (s.answered .tallyStation [0x18, num, 0x04])) ∧
    (st.trailer = none →
      ∃ t, run = .next t ∧
        t = { s with tally := t.tally, attention := t.attention, links := t.links } ∧
        t.tally.closed = old ∧ t.tally.live = Tally.zero (if old.shift < 65535 then old.shift + 1 else 1) ∧
        t.attention.tallyStation.edges = s.attention.tallyStation.edges ||| 4#8 ∧
        t.link .tallyStation = ((s.link .tallyStation).arrived.takeFrame).enqueue
          (0x18 :: num :: 0x00 :: (u16 old.shift ++ u32 old.written ++ u32 old.dropped ++ [if st.blocked then 2 else 1])) ∧
        (st.blocked = true → t.tally.stream = { st with trailer := some { shift := old.shift, dropped := old.dropped } }) ∧
        (st.blocked = false →
          t.tally.stream = { st with
            store := st.store.writeBytes (20 * (256 * st.segment.val + st.slot)) (trailerBytes st.sequence st.slot old.dropped old.shift true),
            ready := st.ready ||| (1#4 <<< st.segment.val), segment := st.segment + 1, slot := 0, sequence := st.sequence + 1,
            blocked := st.ready.getLsbD (st.segment + 1).val, spellDropped := false }))

/-- R155, R156: PRICE-EDIT of 1 to 12 prices. A bank over 1 is refused RANGE, the active bank BANK, and a grade out of range, a first class
or a count outside 1 to 12 or a run of classes past 12 RANGE, each counted; else the cells of the grade from the first class on in the
inactive bank take the prices, each brought to 2,000,000 where it is above, no other cell changes, and the answer carries the prices as
stored, OK-CLAMPED where one was brought down. PRICE-SWITCH makes the bank named active and counts a change. -/
def Obligations.PriceRequests : Prop :=
  (∀ (num bank grade cls count : Byte) (prices : List Byte) (s : State),
    s.Ready .tallyStation (0x1B :: num :: bank :: grade :: cls :: count :: prices) → prices.length ≤ 234 →
    (1 ≤ count.toNat → count.toNat ≤ 12 → prices.length = 4 * count.toNat) →
    let t := s.tables
    let run := exec (.priceEdit .tallyStation num (bank :: grade :: cls :: count :: prices)) s
    let refused (status : Byte) : Result State :=
      .next (({ s with tables := { t with editsRefused := inc32 t.editsRefused } } : State).answered .tallyStation [0x1B, num, status])
    let n := count.toNat
    let byte (i : Nat) : Nat := ((prices[i]?).getD 0).toNat
    let sent (i : Nat) : Nat := 16777216 * byte (4 * i) + 65536 * byte (4 * i + 1) + 256 * byte (4 * i + 2) + byte (4 * i + 3)
    let price (i : Nat) : Nat := if 2000000 < sent i then 2000000 else sent i
    let first := 12 * (grade.toNat - 1) + (cls.toNat - 1)
    let edited (old : Vector Nat 120) : Vector Nat 120 :=
      Vector.ofFn fun i => if first ≤ i.val ∧ i.val < first + n then price (i.val - first) else old[i]
    let inRange := 1 ≤ grade.toNat ∧ grade.toNat ≤ 10 ∧ 1 ≤ cls.toNat ∧ cls.toNat ≤ 12 ∧ 1 ≤ n ∧ n ≤ 12 ∧ cls.toNat + n ≤ 13
    (1 < bank.toNat → run = refused 0x07) ∧
    (bank.toNat = t.active1.toNat → run = refused 0x09) ∧
    (bank.toNat ≤ 1 → bank.toNat ≠ t.active1.toNat → ¬ inRange → run = refused 0x07) ∧
    (bank.toNat ≤ 1 → bank.toNat ≠ t.active1.toNat → inRange →
      run = .next (({ s with tables := { t with
          edits := inc32 t.edits,
          bank0 := if bank = 0 then edited t.bank0 else t.bank0,
          bank1 := if bank = 0 then t.bank1 else edited t.bank1 } } : State).answered .tallyStation
        (0x1B :: num :: (if (List.range n).any fun i => decide (2000000 < sent i) then 0x01 else 0x00) ::
          (List.range n).flatMap fun i => u32 (price i))))) ∧
  ∀ (num bank : Byte) (s : State), s.Ready .tallyStation [0x1C, num, bank] →
    let t := s.tables
    let run := exec (.priceSwitch .tallyStation num [bank]) s
    (1 < bank.toNat → run = .next (s.answered .tallyStation [0x1C, num, 0x07])) ∧
    (bank.toNat ≤ 1 →
      let switches := if bank.toNat = t.active1.toNat then t.switches else inc32 t.switches
      run = .next (({ s with tables := { t with active1 := decide (bank.toNat = 1), switches := switches } } : State).answered
        .tallyStation (0x1C :: num :: 0x00 :: bank :: u32 switches)))

/-! ### Invariants -/

/-- R146, R148, log 14: every step keeps the stream store in its canonical form. -/
def Obligations.StoreStaysCanonical : Prop :=
  ∀ s t : State, StoreCanonical s → step s = .next t → StoreCanonical t

/-- R29, R61, R160, R168, R170, R171, R172: every step keeps the event queue, the transfer queue, the reply queues, the TX queues and the RX
buffers within their sizes, and leaves no complete frame waiting while its link has a TX slot free. -/
def Obligations.QueuesStayBounded : Prop :=
  ∀ s t : State, QueuesBounded s → step s = .next t → QueuesBounded t

/-- R62 to R66: every step keeps the non-empty slots of both mark stacks one run that starts at TOP. -/
def Obligations.MarkStacksStayContiguous : Prop :=
  ∀ s t : State, StacksContiguous s → step s = .next t → StacksContiguous t

/-- R143 to R147: every step keeps the sum of R147 in the live tally and in the closed image: until a quantity saturates, the pieces of the
matrix with the five fate counters are the records written and dropped. -/
def Obligations.TallySumKept : Prop :=
  ∀ s t : State, TallyKept s → step s = .next t → TallyKept t

/-- R22, R23, R27 to R35: every step keeps the boards placed: tags of their own, offsets of their own that fall along each map below O and
R, at most 8 in the transfer queue, and none in CONFIG. -/
def Obligations.BoardsStayPlaced : Prop :=
  ∀ s t : State, BoardsPlaced s → step s = .next t → BoardsPlaced t

/-- R15, R20, R28, R29, R107, R113, R119: every step keeps each record's life and parts those of its place, so each line acts on each record
once and in order. -/
def Obligations.LivesFollowLines : Prop :=
  ∀ s t : State, LivesPlaced s → step s = .next t → LivesPlaced t

/-- R124, R133, R134, R136 to R139: every step keeps each bin's reserved count the number of sorter records allocated to it, its dropped and
reserved counts together within the capacity of a fitted bin, and each pending drop that of a DROPPING record of the bin. -/
def Obligations.ReservationsStayCounted : Prop :=
  ∀ s t : State, PlacesCounted s → step s = .next t → PlacesCounted t

/-- The machine right after power-on has every invariant above (R17, R62, R143, R146), whichever commands wait. -/
def Obligations.ResetMeetsInvariants : Prop :=
  ∀ waiting : List Instr,
    let s : State := { State.reset with pending := waiting }
    StoreCanonical s ∧ QueuesBounded s ∧ StacksContiguous s ∧ TallyKept s ∧ BoardsPlaced s ∧ LivesPlaced s ∧ PlacesCounted s
end

