-- ==== Sys2Proof/Laws/State.lean ====
section
/-! SUPPORT. What each update of the state leaves alone, field by field, and what it sets: the lemmas that spare a proof the unfolding
of a record update. -/

namespace Sys2Proof.Machine

-- One thread elaborates the many small proofs of this file.
set_option Elab.async false

/-! ### State.setUnit -/

@[simp] theorem State.setUnit_pins (s : State) (ch : Chain) (u : ChainUnit) : (s.setUnit ch u).pins = s.pins := by cases ch <;> rfl
@[simp] theorem State.setUnit_standing (s : State) (ch : Chain) (u : ChainUnit) : (s.setUnit ch u).standing = s.standing := by cases ch <;> rfl
@[simp] theorem State.setUnit_timebase (s : State) (ch : Chain) (u : ChainUnit) : (s.setUnit ch u).timebase = s.timebase := by cases ch <;> rfl
@[simp] theorem State.setUnit_board (s : State) (ch : Chain) (u : ChainUnit) : (s.setUnit ch u).board = s.board := by cases ch <;> rfl
@[simp] theorem State.setUnit_gradingA (s : State) (ch : Chain) (u : ChainUnit) : (s.setUnit ch u).gradingA = s.gradingA := by cases ch <;> rfl
@[simp] theorem State.setUnit_gradingB (s : State) (ch : Chain) (u : ChainUnit) : (s.setUnit ch u).gradingB = s.gradingB := by cases ch <;> rfl
@[simp] theorem State.setUnit_decision (s : State) (ch : Chain) (u : ChainUnit) : (s.setUnit ch u).decision = s.decision := by cases ch <;> rfl
@[simp] theorem State.setUnit_saws (s : State) (ch : Chain) (u : ChainUnit) : (s.setUnit ch u).saws = s.saws := by cases ch <;> rfl
@[simp] theorem State.setUnit_sort (s : State) (ch : Chain) (u : ChainUnit) : (s.setUnit ch u).sort = s.sort := by cases ch <;> rfl
@[simp] theorem State.setUnit_tally (s : State) (ch : Chain) (u : ChainUnit) : (s.setUnit ch u).tally = s.tally := by cases ch <;> rfl
@[simp] theorem State.setUnit_events (s : State) (ch : Chain) (u : ChainUnit) : (s.setUnit ch u).events = s.events := by cases ch <;> rfl
@[simp] theorem State.setUnit_attention (s : State) (ch : Chain) (u : ChainUnit) : (s.setUnit ch u).attention = s.attention := by cases ch <;> rfl
@[simp] theorem State.setUnit_links (s : State) (ch : Chain) (u : ChainUnit) : (s.setUnit ch u).links = s.links := by cases ch <;> rfl
@[simp] theorem State.setUnit_tables (s : State) (ch : Chain) (u : ChainUnit) : (s.setUnit ch u).tables = s.tables := by cases ch <;> rfl
@[simp] theorem State.setUnit_pending (s : State) (ch : Chain) (u : ChainUnit) : (s.setUnit ch u).pending = s.pending := by cases ch <;> rfl
@[simp] theorem State.setUnit_awake (s : State) (ch : Chain) (u : ChainUnit) : (s.setUnit ch u).awake = s.awake := by simp [State.awake]

/-! ### State.setGrading -/

@[simp] theorem State.setGrading_pins (s : State) (p : Position) (g : Grading) : (s.setGrading p g).pins = s.pins := by cases p <;> rfl
@[simp] theorem State.setGrading_standing (s : State) (p : Position) (g : Grading) : (s.setGrading p g).standing = s.standing := by cases p <;> rfl
@[simp] theorem State.setGrading_timebase (s : State) (p : Position) (g : Grading) : (s.setGrading p g).timebase = s.timebase := by cases p <;> rfl
@[simp] theorem State.setGrading_tcu (s : State) (p : Position) (g : Grading) : (s.setGrading p g).tcu = s.tcu := by cases p <;> rfl
@[simp] theorem State.setGrading_scu (s : State) (p : Position) (g : Grading) : (s.setGrading p g).scu = s.scu := by cases p <;> rfl
@[simp] theorem State.setGrading_board (s : State) (p : Position) (g : Grading) : (s.setGrading p g).board = s.board := by cases p <;> rfl
@[simp] theorem State.setGrading_decision (s : State) (p : Position) (g : Grading) : (s.setGrading p g).decision = s.decision := by cases p <;> rfl
@[simp] theorem State.setGrading_saws (s : State) (p : Position) (g : Grading) : (s.setGrading p g).saws = s.saws := by cases p <;> rfl
@[simp] theorem State.setGrading_sort (s : State) (p : Position) (g : Grading) : (s.setGrading p g).sort = s.sort := by cases p <;> rfl
@[simp] theorem State.setGrading_tally (s : State) (p : Position) (g : Grading) : (s.setGrading p g).tally = s.tally := by cases p <;> rfl
@[simp] theorem State.setGrading_events (s : State) (p : Position) (g : Grading) : (s.setGrading p g).events = s.events := by cases p <;> rfl
@[simp] theorem State.setGrading_attention (s : State) (p : Position) (g : Grading) : (s.setGrading p g).attention = s.attention := by cases p <;> rfl
@[simp] theorem State.setGrading_links (s : State) (p : Position) (g : Grading) : (s.setGrading p g).links = s.links := by cases p <;> rfl
@[simp] theorem State.setGrading_tables (s : State) (p : Position) (g : Grading) : (s.setGrading p g).tables = s.tables := by cases p <;> rfl
@[simp] theorem State.setGrading_pending (s : State) (p : Position) (g : Grading) : (s.setGrading p g).pending = s.pending := by cases p <;> rfl
@[simp] theorem State.setGrading_awake (s : State) (p : Position) (g : Grading) : (s.setGrading p g).awake = s.awake := by simp [State.awake]

/-! ### State.setLink -/

@[simp] theorem State.setLink_pins (s : State) (l : LinkId) (k : LinkState) : (s.setLink l k).pins = s.pins := by cases l <;> rfl
@[simp] theorem State.setLink_standing (s : State) (l : LinkId) (k : LinkState) : (s.setLink l k).standing = s.standing := by cases l <;> rfl
@[simp] theorem State.setLink_timebase (s : State) (l : LinkId) (k : LinkState) : (s.setLink l k).timebase = s.timebase := by cases l <;> rfl
@[simp] theorem State.setLink_tcu (s : State) (l : LinkId) (k : LinkState) : (s.setLink l k).tcu = s.tcu := by cases l <;> rfl
@[simp] theorem State.setLink_scu (s : State) (l : LinkId) (k : LinkState) : (s.setLink l k).scu = s.scu := by cases l <;> rfl
@[simp] theorem State.setLink_board (s : State) (l : LinkId) (k : LinkState) : (s.setLink l k).board = s.board := by cases l <;> rfl
@[simp] theorem State.setLink_gradingA (s : State) (l : LinkId) (k : LinkState) : (s.setLink l k).gradingA = s.gradingA := by cases l <;> rfl
@[simp] theorem State.setLink_gradingB (s : State) (l : LinkId) (k : LinkState) : (s.setLink l k).gradingB = s.gradingB := by cases l <;> rfl
@[simp] theorem State.setLink_decision (s : State) (l : LinkId) (k : LinkState) : (s.setLink l k).decision = s.decision := by cases l <;> rfl
@[simp] theorem State.setLink_saws (s : State) (l : LinkId) (k : LinkState) : (s.setLink l k).saws = s.saws := by cases l <;> rfl
@[simp] theorem State.setLink_sort (s : State) (l : LinkId) (k : LinkState) : (s.setLink l k).sort = s.sort := by cases l <;> rfl
@[simp] theorem State.setLink_tally (s : State) (l : LinkId) (k : LinkState) : (s.setLink l k).tally = s.tally := by cases l <;> rfl
@[simp] theorem State.setLink_events (s : State) (l : LinkId) (k : LinkState) : (s.setLink l k).events = s.events := by cases l <;> rfl
@[simp] theorem State.setLink_attention (s : State) (l : LinkId) (k : LinkState) : (s.setLink l k).attention = s.attention := by cases l <;> rfl
@[simp] theorem State.setLink_tables (s : State) (l : LinkId) (k : LinkState) : (s.setLink l k).tables = s.tables := by cases l <;> rfl
@[simp] theorem State.setLink_pending (s : State) (l : LinkId) (k : LinkState) : (s.setLink l k).pending = s.pending := by cases l <;> rfl
@[simp] theorem State.setLink_awake (s : State) (l : LinkId) (k : LinkState) : (s.setLink l k).awake = s.awake := by simp [State.awake]

/-! ### State.modifyLink -/

@[simp] theorem State.modifyLink_pins (s : State) (l : LinkId) (f : LinkState → LinkState) : (s.modifyLink l f).pins = s.pins := by cases l <;> rfl
@[simp] theorem State.modifyLink_standing (s : State) (l : LinkId) (f : LinkState → LinkState) : (s.modifyLink l f).standing = s.standing := by cases l <;> rfl
@[simp] theorem State.modifyLink_timebase (s : State) (l : LinkId) (f : LinkState → LinkState) : (s.modifyLink l f).timebase = s.timebase := by cases l <;> rfl
@[simp] theorem State.modifyLink_tcu (s : State) (l : LinkId) (f : LinkState → LinkState) : (s.modifyLink l f).tcu = s.tcu := by cases l <;> rfl
@[simp] theorem State.modifyLink_scu (s : State) (l : LinkId) (f : LinkState → LinkState) : (s.modifyLink l f).scu = s.scu := by cases l <;> rfl
@[simp] theorem State.modifyLink_board (s : State) (l : LinkId) (f : LinkState → LinkState) : (s.modifyLink l f).board = s.board := by cases l <;> rfl
@[simp] theorem State.modifyLink_gradingA (s : State) (l : LinkId) (f : LinkState → LinkState) : (s.modifyLink l f).gradingA = s.gradingA := by cases l <;> rfl
@[simp] theorem State.modifyLink_gradingB (s : State) (l : LinkId) (f : LinkState → LinkState) : (s.modifyLink l f).gradingB = s.gradingB := by cases l <;> rfl
@[simp] theorem State.modifyLink_decision (s : State) (l : LinkId) (f : LinkState → LinkState) : (s.modifyLink l f).decision = s.decision := by cases l <;> rfl
@[simp] theorem State.modifyLink_saws (s : State) (l : LinkId) (f : LinkState → LinkState) : (s.modifyLink l f).saws = s.saws := by cases l <;> rfl
@[simp] theorem State.modifyLink_sort (s : State) (l : LinkId) (f : LinkState → LinkState) : (s.modifyLink l f).sort = s.sort := by cases l <;> rfl
@[simp] theorem State.modifyLink_tally (s : State) (l : LinkId) (f : LinkState → LinkState) : (s.modifyLink l f).tally = s.tally := by cases l <;> rfl
@[simp] theorem State.modifyLink_events (s : State) (l : LinkId) (f : LinkState → LinkState) : (s.modifyLink l f).events = s.events := by cases l <;> rfl
@[simp] theorem State.modifyLink_attention (s : State) (l : LinkId) (f : LinkState → LinkState) : (s.modifyLink l f).attention = s.attention := by cases l <;> rfl
@[simp] theorem State.modifyLink_tables (s : State) (l : LinkId) (f : LinkState → LinkState) : (s.modifyLink l f).tables = s.tables := by cases l <;> rfl
@[simp] theorem State.modifyLink_pending (s : State) (l : LinkId) (f : LinkState → LinkState) : (s.modifyLink l f).pending = s.pending := by cases l <;> rfl
@[simp] theorem State.modifyLink_awake (s : State) (l : LinkId) (f : LinkState → LinkState) : (s.modifyLink l f).awake = s.awake := by simp [State.awake]

/-! ### State.setRole -/

@[simp] theorem State.setRole_pins (s : State) (l : LinkId) (f : RoleFlags) : (s.setRole l f).pins = s.pins := by cases l <;> rfl
@[simp] theorem State.setRole_standing (s : State) (l : LinkId) (f : RoleFlags) : (s.setRole l f).standing = s.standing := by cases l <;> rfl
@[simp] theorem State.setRole_timebase (s : State) (l : LinkId) (f : RoleFlags) : (s.setRole l f).timebase = s.timebase := by cases l <;> rfl
@[simp] theorem State.setRole_tcu (s : State) (l : LinkId) (f : RoleFlags) : (s.setRole l f).tcu = s.tcu := by cases l <;> rfl
@[simp] theorem State.setRole_scu (s : State) (l : LinkId) (f : RoleFlags) : (s.setRole l f).scu = s.scu := by cases l <;> rfl
@[simp] theorem State.setRole_board (s : State) (l : LinkId) (f : RoleFlags) : (s.setRole l f).board = s.board := by cases l <;> rfl
@[simp] theorem State.setRole_gradingA (s : State) (l : LinkId) (f : RoleFlags) : (s.setRole l f).gradingA = s.gradingA := by cases l <;> rfl
@[simp] theorem State.setRole_gradingB (s : State) (l : LinkId) (f : RoleFlags) : (s.setRole l f).gradingB = s.gradingB := by cases l <;> rfl
@[simp] theorem State.setRole_decision (s : State) (l : LinkId) (f : RoleFlags) : (s.setRole l f).decision = s.decision := by cases l <;> rfl
@[simp] theorem State.setRole_saws (s : State) (l : LinkId) (f : RoleFlags) : (s.setRole l f).saws = s.saws := by cases l <;> rfl
@[simp] theorem State.setRole_sort (s : State) (l : LinkId) (f : RoleFlags) : (s.setRole l f).sort = s.sort := by cases l <;> rfl
@[simp] theorem State.setRole_tally (s : State) (l : LinkId) (f : RoleFlags) : (s.setRole l f).tally = s.tally := by cases l <;> rfl
@[simp] theorem State.setRole_events (s : State) (l : LinkId) (f : RoleFlags) : (s.setRole l f).events = s.events := by cases l <;> rfl
@[simp] theorem State.setRole_links (s : State) (l : LinkId) (f : RoleFlags) : (s.setRole l f).links = s.links := by cases l <;> rfl
@[simp] theorem State.setRole_tables (s : State) (l : LinkId) (f : RoleFlags) : (s.setRole l f).tables = s.tables := by cases l <;> rfl
@[simp] theorem State.setRole_pending (s : State) (l : LinkId) (f : RoleFlags) : (s.setRole l f).pending = s.pending := by cases l <;> rfl
@[simp] theorem State.setRole_awake (s : State) (l : LinkId) (f : RoleFlags) : (s.setRole l f).awake = s.awake := by simp [State.awake]

/-! ### latch -/

@[simp] theorem latch_pins (c : Cause) (s : State) : (latch c s).pins = s.pins := by cases c <;> rfl
@[simp] theorem latch_standing (c : Cause) (s : State) : (latch c s).standing = s.standing := by cases c <;> rfl
@[simp] theorem latch_timebase (c : Cause) (s : State) : (latch c s).timebase = s.timebase := by cases c <;> rfl
@[simp] theorem latch_tcu (c : Cause) (s : State) : (latch c s).tcu = s.tcu := by cases c <;> rfl
@[simp] theorem latch_scu (c : Cause) (s : State) : (latch c s).scu = s.scu := by cases c <;> rfl
@[simp] theorem latch_board (c : Cause) (s : State) : (latch c s).board = s.board := by cases c <;> rfl
@[simp] theorem latch_gradingA (c : Cause) (s : State) : (latch c s).gradingA = s.gradingA := by cases c <;> rfl
@[simp] theorem latch_gradingB (c : Cause) (s : State) : (latch c s).gradingB = s.gradingB := by cases c <;> rfl
@[simp] theorem latch_decision (c : Cause) (s : State) : (latch c s).decision = s.decision := by cases c <;> rfl
@[simp] theorem latch_saws (c : Cause) (s : State) : (latch c s).saws = s.saws := by cases c <;> rfl
@[simp] theorem latch_sort (c : Cause) (s : State) : (latch c s).sort = s.sort := by cases c <;> rfl
@[simp] theorem latch_tally (c : Cause) (s : State) : (latch c s).tally = s.tally := by cases c <;> rfl
@[simp] theorem latch_events (c : Cause) (s : State) : (latch c s).events = s.events := by cases c <;> rfl
@[simp] theorem latch_links (c : Cause) (s : State) : (latch c s).links = s.links := by cases c <;> rfl
@[simp] theorem latch_tables (c : Cause) (s : State) : (latch c s).tables = s.tables := by cases c <;> rfl
@[simp] theorem latch_pending (c : Cause) (s : State) : (latch c s).pending = s.pending := by cases c <;> rfl
@[simp] theorem latch_awake (c : Cause) (s : State) : (latch c s).awake = s.awake := by simp [State.awake]

/-! ### raiseEvent -/

@[simp] theorem raiseEvent_pins (k : EventKind) (ch : Option Chain) (n d : Nat) (s : State) : (raiseEvent k ch n d s).pins = s.pins := by unfold raiseEvent; split <;> simp
@[simp] theorem raiseEvent_standing (k : EventKind) (ch : Option Chain) (n d : Nat) (s : State) : (raiseEvent k ch n d s).standing = s.standing := by unfold raiseEvent; split <;> simp
@[simp] theorem raiseEvent_timebase (k : EventKind) (ch : Option Chain) (n d : Nat) (s : State) : (raiseEvent k ch n d s).timebase = s.timebase := by unfold raiseEvent; split <;> simp
@[simp] theorem raiseEvent_tcu (k : EventKind) (ch : Option Chain) (n d : Nat) (s : State) : (raiseEvent k ch n d s).tcu = s.tcu := by unfold raiseEvent; split <;> simp
@[simp] theorem raiseEvent_scu (k : EventKind) (ch : Option Chain) (n d : Nat) (s : State) : (raiseEvent k ch n d s).scu = s.scu := by unfold raiseEvent; split <;> simp
@[simp] theorem raiseEvent_board (k : EventKind) (ch : Option Chain) (n d : Nat) (s : State) : (raiseEvent k ch n d s).board = s.board := by unfold raiseEvent; split <;> simp
@[simp] theorem raiseEvent_gradingA (k : EventKind) (ch : Option Chain) (n d : Nat) (s : State) : (raiseEvent k ch n d s).gradingA = s.gradingA := by unfold raiseEvent; split <;> simp
@[simp] theorem raiseEvent_gradingB (k : EventKind) (ch : Option Chain) (n d : Nat) (s : State) : (raiseEvent k ch n d s).gradingB = s.gradingB := by unfold raiseEvent; split <;> simp
@[simp] theorem raiseEvent_decision (k : EventKind) (ch : Option Chain) (n d : Nat) (s : State) : (raiseEvent k ch n d s).decision = s.decision := by unfold raiseEvent; split <;> simp
@[simp] theorem raiseEvent_saws (k : EventKind) (ch : Option Chain) (n d : Nat) (s : State) : (raiseEvent k ch n d s).saws = s.saws := by unfold raiseEvent; split <;> simp
@[simp] theorem raiseEvent_sort (k : EventKind) (ch : Option Chain) (n d : Nat) (s : State) : (raiseEvent k ch n d s).sort = s.sort := by unfold raiseEvent; split <;> simp
@[simp] theorem raiseEvent_tally (k : EventKind) (ch : Option Chain) (n d : Nat) (s : State) : (raiseEvent k ch n d s).tally = s.tally := by unfold raiseEvent; split <;> simp
@[simp] theorem raiseEvent_links (k : EventKind) (ch : Option Chain) (n d : Nat) (s : State) : (raiseEvent k ch n d s).links = s.links := by unfold raiseEvent; split <;> simp
@[simp] theorem raiseEvent_tables (k : EventKind) (ch : Option Chain) (n d : Nat) (s : State) : (raiseEvent k ch n d s).tables = s.tables := by unfold raiseEvent; split <;> simp
@[simp] theorem raiseEvent_pending (k : EventKind) (ch : Option Chain) (n d : Nat) (s : State) : (raiseEvent k ch n d s).pending = s.pending := by unfold raiseEvent; split <;> simp
@[simp] theorem raiseEvent_awake (k : EventKind) (ch : Option Chain) (n d : Nat) (s : State) : (raiseEvent k ch n d s).awake = s.awake := by simp [State.awake]

/-! ### State.modifyBin -/

@[simp] theorem State.modifyBin_pins (s : State) (bin : Nat) (f : BinRec → BinRec) : (s.modifyBin bin f).pins = s.pins := by unfold State.modifyBin; split <;> rfl
@[simp] theorem State.modifyBin_standing (s : State) (bin : Nat) (f : BinRec → BinRec) : (s.modifyBin bin f).standing = s.standing := by unfold State.modifyBin; split <;> rfl
@[simp] theorem State.modifyBin_timebase (s : State) (bin : Nat) (f : BinRec → BinRec) : (s.modifyBin bin f).timebase = s.timebase := by unfold State.modifyBin; split <;> rfl
@[simp] theorem State.modifyBin_tcu (s : State) (bin : Nat) (f : BinRec → BinRec) : (s.modifyBin bin f).tcu = s.tcu := by unfold State.modifyBin; split <;> rfl
@[simp] theorem State.modifyBin_scu (s : State) (bin : Nat) (f : BinRec → BinRec) : (s.modifyBin bin f).scu = s.scu := by unfold State.modifyBin; split <;> rfl
@[simp] theorem State.modifyBin_board (s : State) (bin : Nat) (f : BinRec → BinRec) : (s.modifyBin bin f).board = s.board := by unfold State.modifyBin; split <;> rfl
@[simp] theorem State.modifyBin_gradingA (s : State) (bin : Nat) (f : BinRec → BinRec) : (s.modifyBin bin f).gradingA = s.gradingA := by unfold State.modifyBin; split <;> rfl
@[simp] theorem State.modifyBin_gradingB (s : State) (bin : Nat) (f : BinRec → BinRec) : (s.modifyBin bin f).gradingB = s.gradingB := by unfold State.modifyBin; split <;> rfl
@[simp] theorem State.modifyBin_decision (s : State) (bin : Nat) (f : BinRec → BinRec) : (s.modifyBin bin f).decision = s.decision := by unfold State.modifyBin; split <;> rfl
@[simp] theorem State.modifyBin_saws (s : State) (bin : Nat) (f : BinRec → BinRec) : (s.modifyBin bin f).saws = s.saws := by unfold State.modifyBin; split <;> rfl
@[simp] theorem State.modifyBin_tally (s : State) (bin : Nat) (f : BinRec → BinRec) : (s.modifyBin bin f).tally = s.tally := by unfold State.modifyBin; split <;> rfl
@[simp] theorem State.modifyBin_events (s : State) (bin : Nat) (f : BinRec → BinRec) : (s.modifyBin bin f).events = s.events := by unfold State.modifyBin; split <;> rfl
@[simp] theorem State.modifyBin_attention (s : State) (bin : Nat) (f : BinRec → BinRec) : (s.modifyBin bin f).attention = s.attention := by unfold State.modifyBin; split <;> rfl
@[simp] theorem State.modifyBin_links (s : State) (bin : Nat) (f : BinRec → BinRec) : (s.modifyBin bin f).links = s.links := by unfold State.modifyBin; split <;> rfl
@[simp] theorem State.modifyBin_tables (s : State) (bin : Nat) (f : BinRec → BinRec) : (s.modifyBin bin f).tables = s.tables := by unfold State.modifyBin; split <;> rfl
@[simp] theorem State.modifyBin_pending (s : State) (bin : Nat) (f : BinRec → BinRec) : (s.modifyBin bin f).pending = s.pending := by unfold State.modifyBin; split <;> rfl
@[simp] theorem State.modifyBin_awake (s : State) (bin : Nat) (f : BinRec → BinRec) : (s.modifyBin bin f).awake = s.awake := by simp [State.awake]

/-! ### State.modifySortCounts -/

@[simp] theorem State.modifySortCounts_pins (s : State) (f : SortCounts → SortCounts) : (s.modifySortCounts f).pins = s.pins := rfl
@[simp] theorem State.modifySortCounts_standing (s : State) (f : SortCounts → SortCounts) : (s.modifySortCounts f).standing = s.standing := rfl
@[simp] theorem State.modifySortCounts_timebase (s : State) (f : SortCounts → SortCounts) : (s.modifySortCounts f).timebase = s.timebase := rfl
@[simp] theorem State.modifySortCounts_tcu (s : State) (f : SortCounts → SortCounts) : (s.modifySortCounts f).tcu = s.tcu := rfl
@[simp] theorem State.modifySortCounts_scu (s : State) (f : SortCounts → SortCounts) : (s.modifySortCounts f).scu = s.scu := rfl
@[simp] theorem State.modifySortCounts_board (s : State) (f : SortCounts → SortCounts) : (s.modifySortCounts f).board = s.board := rfl
@[simp] theorem State.modifySortCounts_gradingA (s : State) (f : SortCounts → SortCounts) : (s.modifySortCounts f).gradingA = s.gradingA := rfl
@[simp] theorem State.modifySortCounts_gradingB (s : State) (f : SortCounts → SortCounts) : (s.modifySortCounts f).gradingB = s.gradingB := rfl
@[simp] theorem State.modifySortCounts_decision (s : State) (f : SortCounts → SortCounts) : (s.modifySortCounts f).decision = s.decision := rfl
@[simp] theorem State.modifySortCounts_saws (s : State) (f : SortCounts → SortCounts) : (s.modifySortCounts f).saws = s.saws := rfl
@[simp] theorem State.modifySortCounts_tally (s : State) (f : SortCounts → SortCounts) : (s.modifySortCounts f).tally = s.tally := rfl
@[simp] theorem State.modifySortCounts_events (s : State) (f : SortCounts → SortCounts) : (s.modifySortCounts f).events = s.events := rfl
@[simp] theorem State.modifySortCounts_attention (s : State) (f : SortCounts → SortCounts) : (s.modifySortCounts f).attention = s.attention := rfl
@[simp] theorem State.modifySortCounts_links (s : State) (f : SortCounts → SortCounts) : (s.modifySortCounts f).links = s.links := rfl
@[simp] theorem State.modifySortCounts_tables (s : State) (f : SortCounts → SortCounts) : (s.modifySortCounts f).tables = s.tables := rfl
@[simp] theorem State.modifySortCounts_pending (s : State) (f : SortCounts → SortCounts) : (s.modifySortCounts f).pending = s.pending := rfl
@[simp] theorem State.modifySortCounts_awake (s : State) (f : SortCounts → SortCounts) : (s.modifySortCounts f).awake = s.awake := rfl

/-! ### State.modifySaw -/

@[simp] theorem State.modifySaw_pins (s : State) (saw : Nat) (f : SawRec → SawRec) : (s.modifySaw saw f).pins = s.pins := rfl
@[simp] theorem State.modifySaw_standing (s : State) (saw : Nat) (f : SawRec → SawRec) : (s.modifySaw saw f).standing = s.standing := rfl
@[simp] theorem State.modifySaw_timebase (s : State) (saw : Nat) (f : SawRec → SawRec) : (s.modifySaw saw f).timebase = s.timebase := rfl
@[simp] theorem State.modifySaw_tcu (s : State) (saw : Nat) (f : SawRec → SawRec) : (s.modifySaw saw f).tcu = s.tcu := rfl
@[simp] theorem State.modifySaw_scu (s : State) (saw : Nat) (f : SawRec → SawRec) : (s.modifySaw saw f).scu = s.scu := rfl
@[simp] theorem State.modifySaw_board (s : State) (saw : Nat) (f : SawRec → SawRec) : (s.modifySaw saw f).board = s.board := rfl
@[simp] theorem State.modifySaw_gradingA (s : State) (saw : Nat) (f : SawRec → SawRec) : (s.modifySaw saw f).gradingA = s.gradingA := rfl
@[simp] theorem State.modifySaw_gradingB (s : State) (saw : Nat) (f : SawRec → SawRec) : (s.modifySaw saw f).gradingB = s.gradingB := rfl
@[simp] theorem State.modifySaw_decision (s : State) (saw : Nat) (f : SawRec → SawRec) : (s.modifySaw saw f).decision = s.decision := rfl
@[simp] theorem State.modifySaw_sort (s : State) (saw : Nat) (f : SawRec → SawRec) : (s.modifySaw saw f).sort = s.sort := rfl
@[simp] theorem State.modifySaw_tally (s : State) (saw : Nat) (f : SawRec → SawRec) : (s.modifySaw saw f).tally = s.tally := rfl
@[simp] theorem State.modifySaw_events (s : State) (saw : Nat) (f : SawRec → SawRec) : (s.modifySaw saw f).events = s.events := rfl
@[simp] theorem State.modifySaw_attention (s : State) (saw : Nat) (f : SawRec → SawRec) : (s.modifySaw saw f).attention = s.attention := rfl
@[simp] theorem State.modifySaw_links (s : State) (saw : Nat) (f : SawRec → SawRec) : (s.modifySaw saw f).links = s.links := rfl
@[simp] theorem State.modifySaw_tables (s : State) (saw : Nat) (f : SawRec → SawRec) : (s.modifySaw saw f).tables = s.tables := rfl
@[simp] theorem State.modifySaw_pending (s : State) (saw : Nat) (f : SawRec → SawRec) : (s.modifySaw saw f).pending = s.pending := rfl
@[simp] theorem State.modifySaw_awake (s : State) (saw : Nat) (f : SawRec → SawRec) : (s.modifySaw saw f).awake = s.awake := rfl

/-! ### State.modifyTrimmer -/

@[simp] theorem State.modifyTrimmer_pins (s : State) (tag : Nat) (f : Record → Record) : (s.modifyTrimmer tag f).pins = s.pins := rfl
@[simp] theorem State.modifyTrimmer_standing (s : State) (tag : Nat) (f : Record → Record) : (s.modifyTrimmer tag f).standing = s.standing := rfl
@[simp] theorem State.modifyTrimmer_timebase (s : State) (tag : Nat) (f : Record → Record) : (s.modifyTrimmer tag f).timebase = s.timebase := rfl
@[simp] theorem State.modifyTrimmer_tcu (s : State) (tag : Nat) (f : Record → Record) : (s.modifyTrimmer tag f).tcu = s.tcu := rfl
@[simp] theorem State.modifyTrimmer_scu (s : State) (tag : Nat) (f : Record → Record) : (s.modifyTrimmer tag f).scu = s.scu := rfl
@[simp] theorem State.modifyTrimmer_gradingA (s : State) (tag : Nat) (f : Record → Record) : (s.modifyTrimmer tag f).gradingA = s.gradingA := rfl
@[simp] theorem State.modifyTrimmer_gradingB (s : State) (tag : Nat) (f : Record → Record) : (s.modifyTrimmer tag f).gradingB = s.gradingB := rfl
@[simp] theorem State.modifyTrimmer_decision (s : State) (tag : Nat) (f : Record → Record) : (s.modifyTrimmer tag f).decision = s.decision := rfl
@[simp] theorem State.modifyTrimmer_saws (s : State) (tag : Nat) (f : Record → Record) : (s.modifyTrimmer tag f).saws = s.saws := rfl
@[simp] theorem State.modifyTrimmer_sort (s : State) (tag : Nat) (f : Record → Record) : (s.modifyTrimmer tag f).sort = s.sort := rfl
@[simp] theorem State.modifyTrimmer_tally (s : State) (tag : Nat) (f : Record → Record) : (s.modifyTrimmer tag f).tally = s.tally := rfl
@[simp] theorem State.modifyTrimmer_events (s : State) (tag : Nat) (f : Record → Record) : (s.modifyTrimmer tag f).events = s.events := rfl
@[simp] theorem State.modifyTrimmer_attention (s : State) (tag : Nat) (f : Record → Record) : (s.modifyTrimmer tag f).attention = s.attention := rfl
@[simp] theorem State.modifyTrimmer_links (s : State) (tag : Nat) (f : Record → Record) : (s.modifyTrimmer tag f).links = s.links := rfl
@[simp] theorem State.modifyTrimmer_tables (s : State) (tag : Nat) (f : Record → Record) : (s.modifyTrimmer tag f).tables = s.tables := rfl
@[simp] theorem State.modifyTrimmer_pending (s : State) (tag : Nat) (f : Record → Record) : (s.modifyTrimmer tag f).pending = s.pending := rfl
@[simp] theorem State.modifyTrimmer_awake (s : State) (tag : Nat) (f : Record → Record) : (s.modifyTrimmer tag f).awake = s.awake := rfl

/-! ### State.modifySorter -/

@[simp] theorem State.modifySorter_pins (s : State) (tag : Nat) (f : Record → Record) : (s.modifySorter tag f).pins = s.pins := rfl
@[simp] theorem State.modifySorter_standing (s : State) (tag : Nat) (f : Record → Record) : (s.modifySorter tag f).standing = s.standing := rfl
@[simp] theorem State.modifySorter_timebase (s : State) (tag : Nat) (f : Record → Record) : (s.modifySorter tag f).timebase = s.timebase := rfl
@[simp] theorem State.modifySorter_tcu (s : State) (tag : Nat) (f : Record → Record) : (s.modifySorter tag f).tcu = s.tcu := rfl
@[simp] theorem State.modifySorter_scu (s : State) (tag : Nat) (f : Record → Record) : (s.modifySorter tag f).scu = s.scu := rfl
@[simp] theorem State.modifySorter_gradingA (s : State) (tag : Nat) (f : Record → Record) : (s.modifySorter tag f).gradingA = s.gradingA := rfl
@[simp] theorem State.modifySorter_gradingB (s : State) (tag : Nat) (f : Record → Record) : (s.modifySorter tag f).gradingB = s.gradingB := rfl
@[simp] theorem State.modifySorter_decision (s : State) (tag : Nat) (f : Record → Record) : (s.modifySorter tag f).decision = s.decision := rfl
@[simp] theorem State.modifySorter_saws (s : State) (tag : Nat) (f : Record → Record) : (s.modifySorter tag f).saws = s.saws := rfl
@[simp] theorem State.modifySorter_sort (s : State) (tag : Nat) (f : Record → Record) : (s.modifySorter tag f).sort = s.sort := rfl
@[simp] theorem State.modifySorter_tally (s : State) (tag : Nat) (f : Record → Record) : (s.modifySorter tag f).tally = s.tally := rfl
@[simp] theorem State.modifySorter_events (s : State) (tag : Nat) (f : Record → Record) : (s.modifySorter tag f).events = s.events := rfl
@[simp] theorem State.modifySorter_attention (s : State) (tag : Nat) (f : Record → Record) : (s.modifySorter tag f).attention = s.attention := rfl
@[simp] theorem State.modifySorter_links (s : State) (tag : Nat) (f : Record → Record) : (s.modifySorter tag f).links = s.links := rfl
@[simp] theorem State.modifySorter_tables (s : State) (tag : Nat) (f : Record → Record) : (s.modifySorter tag f).tables = s.tables := rfl
@[simp] theorem State.modifySorter_pending (s : State) (tag : Nat) (f : Record → Record) : (s.modifySorter tag f).pending = s.pending := rfl
@[simp] theorem State.modifySorter_awake (s : State) (tag : Nat) (f : Record → Record) : (s.modifySorter tag f).awake = s.awake := rfl

/-! ### State.leaveTrimmer -/

@[simp] theorem State.leaveTrimmer_pins (s : State) (tag : Nat) : (s.leaveTrimmer tag).pins = s.pins := rfl
@[simp] theorem State.leaveTrimmer_standing (s : State) (tag : Nat) : (s.leaveTrimmer tag).standing = s.standing := rfl
@[simp] theorem State.leaveTrimmer_timebase (s : State) (tag : Nat) : (s.leaveTrimmer tag).timebase = s.timebase := rfl
@[simp] theorem State.leaveTrimmer_tcu (s : State) (tag : Nat) : (s.leaveTrimmer tag).tcu = s.tcu := rfl
@[simp] theorem State.leaveTrimmer_scu (s : State) (tag : Nat) : (s.leaveTrimmer tag).scu = s.scu := rfl
@[simp] theorem State.leaveTrimmer_gradingA (s : State) (tag : Nat) : (s.leaveTrimmer tag).gradingA = s.gradingA := rfl
@[simp] theorem State.leaveTrimmer_gradingB (s : State) (tag : Nat) : (s.leaveTrimmer tag).gradingB = s.gradingB := rfl
@[simp] theorem State.leaveTrimmer_decision (s : State) (tag : Nat) : (s.leaveTrimmer tag).decision = s.decision := rfl
@[simp] theorem State.leaveTrimmer_saws (s : State) (tag : Nat) : (s.leaveTrimmer tag).saws = s.saws := rfl
@[simp] theorem State.leaveTrimmer_sort (s : State) (tag : Nat) : (s.leaveTrimmer tag).sort = s.sort := rfl
@[simp] theorem State.leaveTrimmer_tally (s : State) (tag : Nat) : (s.leaveTrimmer tag).tally = s.tally := rfl
@[simp] theorem State.leaveTrimmer_events (s : State) (tag : Nat) : (s.leaveTrimmer tag).events = s.events := rfl
@[simp] theorem State.leaveTrimmer_attention (s : State) (tag : Nat) : (s.leaveTrimmer tag).attention = s.attention := rfl
@[simp] theorem State.leaveTrimmer_links (s : State) (tag : Nat) : (s.leaveTrimmer tag).links = s.links := rfl
@[simp] theorem State.leaveTrimmer_tables (s : State) (tag : Nat) : (s.leaveTrimmer tag).tables = s.tables := rfl
@[simp] theorem State.leaveTrimmer_pending (s : State) (tag : Nat) : (s.leaveTrimmer tag).pending = s.pending := rfl
@[simp] theorem State.leaveTrimmer_awake (s : State) (tag : Nat) : (s.leaveTrimmer tag).awake = s.awake := rfl

/-! ### State.leaveSorter -/

@[simp] theorem State.leaveSorter_pins (s : State) (tag : Nat) : (s.leaveSorter tag).pins = s.pins := rfl
@[simp] theorem State.leaveSorter_standing (s : State) (tag : Nat) : (s.leaveSorter tag).standing = s.standing := rfl
@[simp] theorem State.leaveSorter_timebase (s : State) (tag : Nat) : (s.leaveSorter tag).timebase = s.timebase := rfl
@[simp] theorem State.leaveSorter_tcu (s : State) (tag : Nat) : (s.leaveSorter tag).tcu = s.tcu := rfl
@[simp] theorem State.leaveSorter_scu (s : State) (tag : Nat) : (s.leaveSorter tag).scu = s.scu := rfl
@[simp] theorem State.leaveSorter_gradingA (s : State) (tag : Nat) : (s.leaveSorter tag).gradingA = s.gradingA := rfl
@[simp] theorem State.leaveSorter_gradingB (s : State) (tag : Nat) : (s.leaveSorter tag).gradingB = s.gradingB := rfl
@[simp] theorem State.leaveSorter_decision (s : State) (tag : Nat) : (s.leaveSorter tag).decision = s.decision := rfl
@[simp] theorem State.leaveSorter_saws (s : State) (tag : Nat) : (s.leaveSorter tag).saws = s.saws := rfl
@[simp] theorem State.leaveSorter_sort (s : State) (tag : Nat) : (s.leaveSorter tag).sort = s.sort := rfl
@[simp] theorem State.leaveSorter_tally (s : State) (tag : Nat) : (s.leaveSorter tag).tally = s.tally := rfl
@[simp] theorem State.leaveSorter_events (s : State) (tag : Nat) : (s.leaveSorter tag).events = s.events := rfl
@[simp] theorem State.leaveSorter_attention (s : State) (tag : Nat) : (s.leaveSorter tag).attention = s.attention := rfl
@[simp] theorem State.leaveSorter_links (s : State) (tag : Nat) : (s.leaveSorter tag).links = s.links := rfl
@[simp] theorem State.leaveSorter_tables (s : State) (tag : Nat) : (s.leaveSorter tag).tables = s.tables := rfl
@[simp] theorem State.leaveSorter_pending (s : State) (tag : Nat) : (s.leaveSorter tag).pending = s.pending := rfl
@[simp] theorem State.leaveSorter_awake (s : State) (tag : Nat) : (s.leaveSorter tag).awake = s.awake := rfl

/-! ### State.modifyPostings -/

@[simp] theorem State.modifyPostings_pins (s : State) (f : PostingCounts → PostingCounts) : (s.modifyPostings f).pins = s.pins := rfl
@[simp] theorem State.modifyPostings_standing (s : State) (f : PostingCounts → PostingCounts) : (s.modifyPostings f).standing = s.standing := rfl
@[simp] theorem State.modifyPostings_timebase (s : State) (f : PostingCounts → PostingCounts) : (s.modifyPostings f).timebase = s.timebase := rfl
@[simp] theorem State.modifyPostings_tcu (s : State) (f : PostingCounts → PostingCounts) : (s.modifyPostings f).tcu = s.tcu := rfl
@[simp] theorem State.modifyPostings_scu (s : State) (f : PostingCounts → PostingCounts) : (s.modifyPostings f).scu = s.scu := rfl
@[simp] theorem State.modifyPostings_gradingA (s : State) (f : PostingCounts → PostingCounts) : (s.modifyPostings f).gradingA = s.gradingA := rfl
@[simp] theorem State.modifyPostings_gradingB (s : State) (f : PostingCounts → PostingCounts) : (s.modifyPostings f).gradingB = s.gradingB := rfl
@[simp] theorem State.modifyPostings_decision (s : State) (f : PostingCounts → PostingCounts) : (s.modifyPostings f).decision = s.decision := rfl
@[simp] theorem State.modifyPostings_saws (s : State) (f : PostingCounts → PostingCounts) : (s.modifyPostings f).saws = s.saws := rfl
@[simp] theorem State.modifyPostings_sort (s : State) (f : PostingCounts → PostingCounts) : (s.modifyPostings f).sort = s.sort := rfl
@[simp] theorem State.modifyPostings_tally (s : State) (f : PostingCounts → PostingCounts) : (s.modifyPostings f).tally = s.tally := rfl
@[simp] theorem State.modifyPostings_events (s : State) (f : PostingCounts → PostingCounts) : (s.modifyPostings f).events = s.events := rfl
@[simp] theorem State.modifyPostings_attention (s : State) (f : PostingCounts → PostingCounts) : (s.modifyPostings f).attention = s.attention := rfl
@[simp] theorem State.modifyPostings_links (s : State) (f : PostingCounts → PostingCounts) : (s.modifyPostings f).links = s.links := rfl
@[simp] theorem State.modifyPostings_tables (s : State) (f : PostingCounts → PostingCounts) : (s.modifyPostings f).tables = s.tables := rfl
@[simp] theorem State.modifyPostings_pending (s : State) (f : PostingCounts → PostingCounts) : (s.modifyPostings f).pending = s.pending := rfl
@[simp] theorem State.modifyPostings_awake (s : State) (f : PostingCounts → PostingCounts) : (s.modifyPostings f).awake = s.awake := rfl

/-! ### State.modifyForces -/

@[simp] theorem State.modifyForces_pins (s : State) (f : ForceCounts → ForceCounts) : (s.modifyForces f).pins = s.pins := rfl
@[simp] theorem State.modifyForces_standing (s : State) (f : ForceCounts → ForceCounts) : (s.modifyForces f).standing = s.standing := rfl
@[simp] theorem State.modifyForces_timebase (s : State) (f : ForceCounts → ForceCounts) : (s.modifyForces f).timebase = s.timebase := rfl
@[simp] theorem State.modifyForces_tcu (s : State) (f : ForceCounts → ForceCounts) : (s.modifyForces f).tcu = s.tcu := rfl
@[simp] theorem State.modifyForces_scu (s : State) (f : ForceCounts → ForceCounts) : (s.modifyForces f).scu = s.scu := rfl
@[simp] theorem State.modifyForces_gradingA (s : State) (f : ForceCounts → ForceCounts) : (s.modifyForces f).gradingA = s.gradingA := rfl
@[simp] theorem State.modifyForces_gradingB (s : State) (f : ForceCounts → ForceCounts) : (s.modifyForces f).gradingB = s.gradingB := rfl
@[simp] theorem State.modifyForces_decision (s : State) (f : ForceCounts → ForceCounts) : (s.modifyForces f).decision = s.decision := rfl
@[simp] theorem State.modifyForces_saws (s : State) (f : ForceCounts → ForceCounts) : (s.modifyForces f).saws = s.saws := rfl
@[simp] theorem State.modifyForces_sort (s : State) (f : ForceCounts → ForceCounts) : (s.modifyForces f).sort = s.sort := rfl
@[simp] theorem State.modifyForces_tally (s : State) (f : ForceCounts → ForceCounts) : (s.modifyForces f).tally = s.tally := rfl
@[simp] theorem State.modifyForces_events (s : State) (f : ForceCounts → ForceCounts) : (s.modifyForces f).events = s.events := rfl
@[simp] theorem State.modifyForces_attention (s : State) (f : ForceCounts → ForceCounts) : (s.modifyForces f).attention = s.attention := rfl
@[simp] theorem State.modifyForces_links (s : State) (f : ForceCounts → ForceCounts) : (s.modifyForces f).links = s.links := rfl
@[simp] theorem State.modifyForces_tables (s : State) (f : ForceCounts → ForceCounts) : (s.modifyForces f).tables = s.tables := rfl
@[simp] theorem State.modifyForces_pending (s : State) (f : ForceCounts → ForceCounts) : (s.modifyForces f).pending = s.pending := rfl
@[simp] theorem State.modifyForces_awake (s : State) (f : ForceCounts → ForceCounts) : (s.modifyForces f).awake = s.awake := rfl

/-! ### State.modifyLive -/

@[simp] theorem State.modifyLive_pins (s : State) (f : Tally → Tally) : (s.modifyLive f).pins = s.pins := rfl
@[simp] theorem State.modifyLive_standing (s : State) (f : Tally → Tally) : (s.modifyLive f).standing = s.standing := rfl
@[simp] theorem State.modifyLive_timebase (s : State) (f : Tally → Tally) : (s.modifyLive f).timebase = s.timebase := rfl
@[simp] theorem State.modifyLive_tcu (s : State) (f : Tally → Tally) : (s.modifyLive f).tcu = s.tcu := rfl
@[simp] theorem State.modifyLive_scu (s : State) (f : Tally → Tally) : (s.modifyLive f).scu = s.scu := rfl
@[simp] theorem State.modifyLive_board (s : State) (f : Tally → Tally) : (s.modifyLive f).board = s.board := rfl
@[simp] theorem State.modifyLive_gradingA (s : State) (f : Tally → Tally) : (s.modifyLive f).gradingA = s.gradingA := rfl
@[simp] theorem State.modifyLive_gradingB (s : State) (f : Tally → Tally) : (s.modifyLive f).gradingB = s.gradingB := rfl
@[simp] theorem State.modifyLive_decision (s : State) (f : Tally → Tally) : (s.modifyLive f).decision = s.decision := rfl
@[simp] theorem State.modifyLive_saws (s : State) (f : Tally → Tally) : (s.modifyLive f).saws = s.saws := rfl
@[simp] theorem State.modifyLive_sort (s : State) (f : Tally → Tally) : (s.modifyLive f).sort = s.sort := rfl
@[simp] theorem State.modifyLive_events (s : State) (f : Tally → Tally) : (s.modifyLive f).events = s.events := rfl
@[simp] theorem State.modifyLive_attention (s : State) (f : Tally → Tally) : (s.modifyLive f).attention = s.attention := rfl
@[simp] theorem State.modifyLive_links (s : State) (f : Tally → Tally) : (s.modifyLive f).links = s.links := rfl
@[simp] theorem State.modifyLive_tables (s : State) (f : Tally → Tally) : (s.modifyLive f).tables = s.tables := rfl
@[simp] theorem State.modifyLive_pending (s : State) (f : Tally → Tally) : (s.modifyLive f).pending = s.pending := rfl
@[simp] theorem State.modifyLive_awake (s : State) (f : Tally → Tally) : (s.modifyLive f).awake = s.awake := rfl

/-! ### State.modifyStream -/

@[simp] theorem State.modifyStream_pins (s : State) (f : Stream → Stream) : (s.modifyStream f).pins = s.pins := rfl
@[simp] theorem State.modifyStream_standing (s : State) (f : Stream → Stream) : (s.modifyStream f).standing = s.standing := rfl
@[simp] theorem State.modifyStream_timebase (s : State) (f : Stream → Stream) : (s.modifyStream f).timebase = s.timebase := rfl
@[simp] theorem State.modifyStream_tcu (s : State) (f : Stream → Stream) : (s.modifyStream f).tcu = s.tcu := rfl
@[simp] theorem State.modifyStream_scu (s : State) (f : Stream → Stream) : (s.modifyStream f).scu = s.scu := rfl
@[simp] theorem State.modifyStream_board (s : State) (f : Stream → Stream) : (s.modifyStream f).board = s.board := rfl
@[simp] theorem State.modifyStream_gradingA (s : State) (f : Stream → Stream) : (s.modifyStream f).gradingA = s.gradingA := rfl
@[simp] theorem State.modifyStream_gradingB (s : State) (f : Stream → Stream) : (s.modifyStream f).gradingB = s.gradingB := rfl
@[simp] theorem State.modifyStream_decision (s : State) (f : Stream → Stream) : (s.modifyStream f).decision = s.decision := rfl
@[simp] theorem State.modifyStream_saws (s : State) (f : Stream → Stream) : (s.modifyStream f).saws = s.saws := rfl
@[simp] theorem State.modifyStream_sort (s : State) (f : Stream → Stream) : (s.modifyStream f).sort = s.sort := rfl
@[simp] theorem State.modifyStream_events (s : State) (f : Stream → Stream) : (s.modifyStream f).events = s.events := rfl
@[simp] theorem State.modifyStream_attention (s : State) (f : Stream → Stream) : (s.modifyStream f).attention = s.attention := rfl
@[simp] theorem State.modifyStream_links (s : State) (f : Stream → Stream) : (s.modifyStream f).links = s.links := rfl
@[simp] theorem State.modifyStream_tables (s : State) (f : Stream → Stream) : (s.modifyStream f).tables = s.tables := rfl
@[simp] theorem State.modifyStream_pending (s : State) (f : Stream → Stream) : (s.modifyStream f).pending = s.pending := rfl
@[simp] theorem State.modifyStream_awake (s : State) (f : Stream → Stream) : (s.modifyStream f).awake = s.awake := rfl

/-! ### State.modifyTables -/

@[simp] theorem State.modifyTables_pins (s : State) (f : TableStore → TableStore) : (s.modifyTables f).pins = s.pins := rfl
@[simp] theorem State.modifyTables_standing (s : State) (f : TableStore → TableStore) : (s.modifyTables f).standing = s.standing := rfl
@[simp] theorem State.modifyTables_timebase (s : State) (f : TableStore → TableStore) : (s.modifyTables f).timebase = s.timebase := rfl
@[simp] theorem State.modifyTables_tcu (s : State) (f : TableStore → TableStore) : (s.modifyTables f).tcu = s.tcu := rfl
@[simp] theorem State.modifyTables_scu (s : State) (f : TableStore → TableStore) : (s.modifyTables f).scu = s.scu := rfl
@[simp] theorem State.modifyTables_board (s : State) (f : TableStore → TableStore) : (s.modifyTables f).board = s.board := rfl
@[simp] theorem State.modifyTables_gradingA (s : State) (f : TableStore → TableStore) : (s.modifyTables f).gradingA = s.gradingA := rfl
@[simp] theorem State.modifyTables_gradingB (s : State) (f : TableStore → TableStore) : (s.modifyTables f).gradingB = s.gradingB := rfl
@[simp] theorem State.modifyTables_decision (s : State) (f : TableStore → TableStore) : (s.modifyTables f).decision = s.decision := rfl
@[simp] theorem State.modifyTables_saws (s : State) (f : TableStore → TableStore) : (s.modifyTables f).saws = s.saws := rfl
@[simp] theorem State.modifyTables_sort (s : State) (f : TableStore → TableStore) : (s.modifyTables f).sort = s.sort := rfl
@[simp] theorem State.modifyTables_tally (s : State) (f : TableStore → TableStore) : (s.modifyTables f).tally = s.tally := rfl
@[simp] theorem State.modifyTables_events (s : State) (f : TableStore → TableStore) : (s.modifyTables f).events = s.events := rfl
@[simp] theorem State.modifyTables_attention (s : State) (f : TableStore → TableStore) : (s.modifyTables f).attention = s.attention := rfl
@[simp] theorem State.modifyTables_links (s : State) (f : TableStore → TableStore) : (s.modifyTables f).links = s.links := rfl
@[simp] theorem State.modifyTables_pending (s : State) (f : TableStore → TableStore) : (s.modifyTables f).pending = s.pending := rfl
@[simp] theorem State.modifyTables_awake (s : State) (f : TableStore → TableStore) : (s.modifyTables f).awake = s.awake := rfl

/-! ### What an update sets -/

@[simp] theorem State.setUnit_unit (s : State) (ch : Chain) (u : ChainUnit) : (s.setUnit ch u).unit ch = u := by cases ch <;> rfl
theorem State.setUnit_unit_ne (s : State) {ch ch' : Chain} (u : ChainUnit) (h : ch' ≠ ch) :
    (s.setUnit ch u).unit ch' = s.unit ch' := by cases ch <;> cases ch' <;> first | rfl | exact absurd rfl h
@[simp] theorem State.setUnit_self (s : State) (ch : Chain) : s.setUnit ch (s.unit ch) = s := by cases ch <;> rfl
@[simp] theorem State.setUnit_setUnit (s : State) (ch : Chain) (u v : ChainUnit) :
    (s.setUnit ch u).setUnit ch v = s.setUnit ch v := by cases ch <;> rfl

@[simp] theorem State.setGrading_grading (s : State) (p : Position) (g : Grading) : (s.setGrading p g).grading p = g := by
  cases p <;> rfl
theorem State.setGrading_grading_ne (s : State) {p q : Position} (g : Grading) (h : q ≠ p) :
    (s.setGrading p g).grading q = s.grading q := by cases p <;> cases q <;> first | rfl | exact absurd rfl h
@[simp] theorem State.setGrading_self (s : State) (p : Position) : s.setGrading p (s.grading p) = s := by cases p <;> rfl

@[simp] theorem State.setLink_link (s : State) (l : LinkId) (k : LinkState) : (s.setLink l k).link l = k := by cases l <;> rfl
theorem State.setLink_link_ne (s : State) {l m : LinkId} (k : LinkState) (h : m ≠ l) : (s.setLink l k).link m = s.link m := by
  cases l <;> cases m <;> first | rfl | exact absurd rfl h
@[simp] theorem State.setLink_self (s : State) (l : LinkId) : s.setLink l (s.link l) = s := by cases l <;> rfl
@[simp] theorem State.setLink_setLink (s : State) (l : LinkId) (k m : LinkState) :
    (s.setLink l k).setLink l m = s.setLink l m := by cases l <;> rfl
@[simp] theorem State.modifyLink_link (s : State) (l : LinkId) (f : LinkState → LinkState) :
    (s.modifyLink l f).link l = f (s.link l) := by cases l <;> rfl
theorem State.modifyLink_link_ne (s : State) {l m : LinkId} (f : LinkState → LinkState) (h : m ≠ l) :
    (s.modifyLink l f).link m = s.link m := by cases l <;> cases m <;> first | rfl | exact absurd rfl h
@[simp] theorem State.modifyLink_modifyLink (s : State) (l : LinkId) (f g : LinkState → LinkState) :
    (s.modifyLink l f).modifyLink l g = s.modifyLink l fun k => g (f k) := by cases l <;> rfl

@[simp] theorem State.setRole_role (s : State) (l : LinkId) (f : RoleFlags) : (s.setRole l f).role l = f := by cases l <;> rfl
theorem State.setRole_role_ne (s : State) {l m : LinkId} (f : RoleFlags) (h : m ≠ l) : (s.setRole l f).role m = s.role m := by
  cases l <;> cases m <;> first | rfl | exact absurd rfl h

@[simp] theorem modifyAt_size {α : Type} {k : Nat} (v : Vector α k) (n : Nat) (f : α → α) (h : k ≤ n) : modifyAt v n f = v := by
  unfold modifyAt; split
  · omega
  · rfl
theorem entryD_modifyAt {α : Type} {k : Nat} (v : Vector α k) {n : Nat} (f : α → α) (d : α) (h : n < k) :
    entryD (modifyAt v n f) n d = f (entryD v n d) := by simp [entryD, modifyAt, h]
theorem entryD_modifyAt_ne {α : Type} {k : Nat} (v : Vector α k) {n m : Nat} (f : α → α) (d : α) (h : m ≠ n) :
    entryD (modifyAt v n f) m d = entryD v m d := by
  unfold entryD modifyAt; split
  · by_cases hm : m < k
    · rw [Vector.getElem?_set_ne _ (fun e => h e.symm)]
    · simp [hm]
  · rfl

theorem State.modifyBin_bin (s : State) {bin : Nat} (f : BinRec → BinRec) (h : binExists bin = true) :
    (s.modifyBin bin f).bin bin = f (s.bin bin) := by
  have hb : 1 ≤ bin ∧ bin ≤ 48 := by simpa [binExists] using h
  have h0 : bin ≠ 0 := by omega
  simp only [State.modifyBin, State.bin, h0, if_false]
  exact entryD_modifyAt _ f _ (by omega)
theorem State.modifyBin_bin_ne (s : State) {bin other : Nat} (f : BinRec → BinRec) (h : other ≠ bin) :
    (s.modifyBin bin f).bin other = s.bin other := by
  by_cases h0 : bin = 0
  · simp [State.modifyBin, h0]
  · by_cases ho : other = 0
    · simp [State.bin, ho]
    · simp only [State.modifyBin, State.bin, h0, ho, if_false]
      exact entryD_modifyAt_ne _ f _ (by omega)
theorem State.modifySaw_saw (s : State) {saw : Nat} (f : SawRec → SawRec) (h : sawExists saw = true) :
    (s.modifySaw saw f).saw saw = f (s.saw saw) := by
  have hs : saw ≤ 12 := by simpa [sawExists] using h
  exact entryD_modifyAt _ f _ (by omega)
theorem State.modifySaw_saw_ne (s : State) {saw other : Nat} (f : SawRec → SawRec) (h : other ≠ saw) :
    (s.modifySaw saw f).saw other = s.saw other := entryD_modifyAt_ne _ f _ h

end Sys2Proof.Machine
end

