-- ==== Sys2Proof/Laws/Memory.lean ====
section
/-! SUPPORT. The stream store: every write keeps its canonical form, a byte written is read back, and no other byte changes (R146). -/

namespace Sys2Proof.Machine

-- One thread elaborates the many small proofs of this file.
set_option Elab.async false

theorem Memory.wf_tail {c : Host.Cell} {m : Memory} (h : Memory.wf (c :: m) = true) : Memory.wf m = true := by
  cases m with
  | nil => rfl
  | cons d rest => obtain ⟨k, v⟩ := c; obtain ⟨k', v'⟩ := d; simp only [Memory.wf, Bool.and_eq_true] at h; exact h.2

/-- In a canonical store every later address is above the first one. -/
theorem Memory.wf_lt {k : Nat} {v : Byte} {m : Memory} (h : Memory.wf ((k, v) :: m) = true) : ∀ c ∈ m, k < c.1 := by
  induction m generalizing k v with
  | nil => simp
  | cons d rest ih =>
    obtain ⟨k', v'⟩ := d
    simp only [Memory.wf, Bool.and_eq_true, decide_eq_true_eq] at h
    intro c hc
    rcases List.mem_cons.1 hc with rfl | hc
    · exact h.1.2
    · exact Nat.lt_trans h.1.2 (ih h.2 c hc)

/-- A cell put before a canonical store keeps the form when its byte is not 0 and it lies below. -/
theorem Memory.wf_cons {k : Nat} {v : Byte} {m : Memory} (hv : v ≠ 0) (hm : Memory.wf m = true) (hk : ∀ c ∈ m, k < c.1) :
    Memory.wf ((k, v) :: m) = true := by
  cases m with
  | nil => simpa [Memory.wf] using hv
  | cons d rest =>
    obtain ⟨k', v'⟩ := d
    have := hk (k', v') (by simp)
    simp only [Memory.wf, Bool.and_eq_true, bne_iff_ne, decide_eq_true_eq]
    exact ⟨⟨hv, this⟩, hm⟩

theorem Memory.wf_head_ne {k : Nat} {v : Byte} {m : Memory} (h : Memory.wf ((k, v) :: m) = true) : v ≠ 0 := by
  cases m with
  | nil => simpa [Memory.wf] using h
  | cons d rest =>
    obtain ⟨k', v'⟩ := d
    simp only [Memory.wf, Bool.and_eq_true, bne_iff_ne] at h
    exact h.1.1

/-- Every address of a store after a write is an address it had or the one written. -/
theorem Memory.mem_write {m : Memory} {a : Nat} {b : Byte} {c : Host.Cell} (h : c ∈ m.write a b) : c ∈ m ∨ c.1 = a := by
  induction m with
  | nil =>
    simp only [Memory.write] at h
    split at h
    · simp at h
    · simp at h; right; rw [h]
  | cons d rest ih =>
    obtain ⟨k, v⟩ := d
    simp only [Memory.write] at h
    split at h
    · split at h
      · exact .inl h
      · rcases List.mem_cons.1 h with rfl | h
        · exact .inr rfl
        · exact .inl h
    · split at h
      · split at h
        · exact .inl (List.mem_cons_of_mem _ h)
        · rcases List.mem_cons.1 h with rfl | h
          · exact .inr rfl
          · exact .inl (List.mem_cons_of_mem _ h)
      · rcases List.mem_cons.1 h with rfl | h
        · exact .inl (by simp)
        · rcases ih h with h | h
          · exact .inl (List.mem_cons_of_mem _ h)
          · exact .inr h

/-- A write keeps the canonical form. -/
theorem Memory.write_wf {m : Memory} (a : Nat) (b : Byte) (h : m.wf = true) : (m.write a b).wf = true := by
  induction m with
  | nil =>
    simp only [Memory.write]
    split
    · rfl
    · next hb => simpa [Memory.wf] using hb
  | cons d rest ih =>
    obtain ⟨k, v⟩ := d
    have hv := Memory.wf_head_ne h
    have hlt := Memory.wf_lt h
    have htail := Memory.wf_tail h
    simp only [Memory.write]
    split
    · next hak =>
      split
      · exact h
      · next hb =>
        refine Memory.wf_cons hb h fun c hc => ?_
        rcases List.mem_cons.1 hc with rfl | hc
        · exact hak
        · exact Nat.lt_trans hak (hlt c hc)
    · split
      · next hak =>
        split
        · exact htail
        · next hb => exact Memory.wf_cons hb htail fun c hc => hak ▸ hlt c hc
      · next h1 h2 =>
        refine Memory.wf_cons hv (ih htail) fun c hc => ?_
        rcases Memory.mem_write hc with hc | hc
        · exact hlt c hc
        · omega

/-- Writing bytes keeps the canonical form. -/
theorem Memory.writeBytes_wf {m : Memory} (a : Nat) (bs : List Byte) (h : m.wf = true) : (m.writeBytes a bs).wf = true := by
  induction bs generalizing m a with
  | nil => exact h
  | cons b bs ih => exact ih (a + 1) (Memory.write_wf a b h)

/-- A store whose addresses all lie above one reads 0 there. -/
theorem Memory.read_of_lt {m : Memory} {a : Nat} (h : ∀ c ∈ m, a < c.1) : m.read a = 0 := by
  induction m with
  | nil => rfl
  | cons d rest ih =>
    obtain ⟨k, v⟩ := d
    have hk : a < k := h (k, v) (by simp)
    simp only [Memory.read, if_neg (show ¬ k = a by omega)]
    exact ih fun c hc => h c (List.mem_cons_of_mem _ hc)

/-- A byte written to a canonical store is read back. -/
theorem Memory.read_write_same {m : Memory} (a : Nat) (b : Byte) (h : m.wf = true) : (m.write a b).read a = b := by
  induction m with
  | nil =>
    simp only [Memory.write]
    split
    · next hb => exact hb.symm
    · simp [Memory.read]
  | cons d rest ih =>
    obtain ⟨k, v⟩ := d
    have hlt := Memory.wf_lt h
    simp only [Memory.write]
    split
    · next hak =>
      split
      · next hb =>
        rw [hb]
        refine Memory.read_of_lt fun c hc => ?_
        rcases List.mem_cons.1 hc with rfl | hc
        · exact hak
        · exact Nat.lt_trans hak (hlt c hc)
      · simp [Memory.read]
    · split
      · next hak =>
        split
        · next hb => rw [hb]; exact Memory.read_of_lt fun c hc => hak ▸ hlt c hc
        · simp [Memory.read]
      · next h1 h2 =>
        simp only [Memory.read, if_neg (show ¬ k = a from fun e => h2 e.symm)]
        exact ih (Memory.wf_tail h)

/-- A write changes no other byte. -/
theorem Memory.read_write_ne {m : Memory} {a x : Nat} (b : Byte) (hx : x ≠ a) : (m.write a b).read x = m.read x := by
  induction m with
  | nil =>
    simp only [Memory.write]
    split
    · rfl
    · simp [Memory.read, Ne.symm hx]
  | cons d rest ih =>
    obtain ⟨k, v⟩ := d
    simp only [Memory.write]
    split
    · split
      · rfl
      · simp [Memory.read, Ne.symm hx]
    · split
      · next hak => subst hak; split <;> simp [Memory.read, Ne.symm hx]
      · simp only [Memory.read]; rw [ih]

/-- Writing bytes changes no byte outside them. -/
theorem Memory.read_writeBytes_outside {m : Memory} {a x : Nat} (bs : List Byte) (hx : x < a ∨ a + bs.length ≤ x) :
    (m.writeBytes a bs).read x = m.read x := by
  induction bs generalizing m a with
  | nil => rfl
  | cons b bs ih =>
    simp only [List.length_cons] at hx
    simp only [Memory.writeBytes]
    rw [ih (by omega), Memory.read_write_ne b (by omega)]

/-- Bytes written to a canonical store are read back. -/
theorem Memory.read_writeBytes {m : Memory} (a : Nat) (bs : List Byte) (h : m.wf = true) {i : Nat} (hi : i < bs.length) :
    (m.writeBytes a bs).read (a + i) = bs[i] := by
  induction bs generalizing m a i with
  | nil => simp at hi
  | cons b bs ih =>
    simp only [Memory.writeBytes]
    cases i with
    | zero => rw [Memory.read_writeBytes_outside bs (by omega)]; exact Memory.read_write_same a b h
    | succ i =>
      have := ih (a + 1) (Memory.write_wf a b h) (i := i) (by simpa using hi)
      rw [show a + (i + 1) = a + 1 + i by omega, this]; rfl

/-- Slots of a segment do not overlap: a slot's 20 bytes lie within its own. -/
theorem slotAddress_lt {g g' n n' : Nat} (h : Config.segmentSlots * g + n < Config.segmentSlots * g' + n') :
    slotAddress g n + Config.slotBytes ≤ slotAddress g' n' := by
  simp only [slotAddress, Config.segmentSlots, Config.slotBytes] at *; omega

/-- Closing a segment and writing a slot keep the store's form. -/
theorem Stream.put_wf {st : Stream} (n : Nat) (bs : List Byte) (h : st.store.wf = true) : (st.put n bs).store.wf = true :=
  Memory.writeBytes_wf _ bs h
theorem Stream.close_wf {st : Stream} (d n : Nat) (e : Bool) (h : st.store.wf = true) : (st.close d n e).store.wf = true := by
  simp only [Stream.close]; exact Stream.put_wf _ _ h

end Sys2Proof.Machine
end

