-- ==== Sys2Proof/Laws/Frames.lean ====
section
/-! SUPPORT. Frames: for each shared operation, the one lemma that names every part of the state it can change. A proof reads off that
the rest is as it was: `(changeSync_outside ch n s).tables rfl : (changeSync ch n s).tables = s.tables`. -/

namespace Sys2Proof.Machine

-- One thread elaborates the many small proofs of this file.
set_option Elab.async false

/-- Which parts of the state an operation can change; the board map counts part by part. -/
structure Touched where
  pins : Bool := false
  standing : Bool := false
  timebase : Bool := false
  tcu : Bool := false
  scu : Bool := false
  trimmer : Bool := false
  transfer : Bool := false
  sorter : Bool := false
  nextTag : Bool := false
  line : Bool := false
  postings : Bool := false
  forces : Bool := false
  gradingA : Bool := false
  gradingB : Bool := false
  decision : Bool := false
  saws : Bool := false
  sort : Bool := false
  tally : Bool := false
  events : Bool := false
  attention : Bool := false
  links : Bool := false
  tables : Bool := false
  pending : Bool := false
  deriving DecidableEq

/-- Every part that one names the other names too. -/
def Touched.le (m n : Touched) : Bool :=
  (!m.pins || n.pins) &&
  (!m.standing || n.standing) &&
  (!m.timebase || n.timebase) &&
  (!m.tcu || n.tcu) &&
  (!m.scu || n.scu) &&
  (!m.trimmer || n.trimmer) &&
  (!m.transfer || n.transfer) &&
  (!m.sorter || n.sorter) &&
  (!m.nextTag || n.nextTag) &&
  (!m.line || n.line) &&
  (!m.postings || n.postings) &&
  (!m.forces || n.forces) &&
  (!m.gradingA || n.gradingA) &&
  (!m.gradingB || n.gradingB) &&
  (!m.decision || n.decision) &&
  (!m.saws || n.saws) &&
  (!m.sort || n.sort) &&
  (!m.tally || n.tally) &&
  (!m.events || n.events) &&
  (!m.attention || n.attention) &&
  (!m.links || n.links) &&
  (!m.tables || n.tables) &&
  (!m.pending || n.pending)

/-- The states agree outside the parts named. -/
structure Outside (m : Touched) (s t : State) : Prop where
  pins : m.pins = false → t.pins = s.pins
  standing : m.standing = false → t.standing = s.standing
  timebase : m.timebase = false → t.timebase = s.timebase
  tcu : m.tcu = false → t.tcu = s.tcu
  scu : m.scu = false → t.scu = s.scu
  trimmer : m.trimmer = false → t.board.trimmer = s.board.trimmer
  transfer : m.transfer = false → t.board.transfer = s.board.transfer
  sorter : m.sorter = false → t.board.sorter = s.board.sorter
  nextTag : m.nextTag = false → t.board.nextTag = s.board.nextTag
  line : m.line = false → t.board.line = s.board.line
  postings : m.postings = false → t.board.postings = s.board.postings
  forces : m.forces = false → t.board.forces = s.board.forces
  gradingA : m.gradingA = false → t.gradingA = s.gradingA
  gradingB : m.gradingB = false → t.gradingB = s.gradingB
  decision : m.decision = false → t.decision = s.decision
  saws : m.saws = false → t.saws = s.saws
  sort : m.sort = false → t.sort = s.sort
  tally : m.tally = false → t.tally = s.tally
  events : m.events = false → t.events = s.events
  attention : m.attention = false → t.attention = s.attention
  links : m.links = false → t.links = s.links
  tables : m.tables = false → t.tables = s.tables
  pending : m.pending = false → t.pending = s.pending

theorem Outside.refl (m : Touched) (s : State) : Outside m s s := by constructor <;> intro _ <;> rfl

theorem Outside.of_eq {m : Touched} {s t : State} (h : t = s) : Outside m s t := h ▸ .refl m s

theorem Outside.trans {m : Touched} {s t u : State} (h : Outside m s t) (k : Outside m t u) : Outside m s u where
  pins e := (k.pins e).trans (h.pins e)
  standing e := (k.standing e).trans (h.standing e)
  timebase e := (k.timebase e).trans (h.timebase e)
  tcu e := (k.tcu e).trans (h.tcu e)
  scu e := (k.scu e).trans (h.scu e)
  trimmer e := (k.trimmer e).trans (h.trimmer e)
  transfer e := (k.transfer e).trans (h.transfer e)
  sorter e := (k.sorter e).trans (h.sorter e)
  nextTag e := (k.nextTag e).trans (h.nextTag e)
  line e := (k.line e).trans (h.line e)
  postings e := (k.postings e).trans (h.postings e)
  forces e := (k.forces e).trans (h.forces e)
  gradingA e := (k.gradingA e).trans (h.gradingA e)
  gradingB e := (k.gradingB e).trans (h.gradingB e)
  decision e := (k.decision e).trans (h.decision e)
  saws e := (k.saws e).trans (h.saws e)
  sort e := (k.sort e).trans (h.sort e)
  tally e := (k.tally e).trans (h.tally e)
  events e := (k.events e).trans (h.events e)
  attention e := (k.attention e).trans (h.attention e)
  links e := (k.links e).trans (h.links e)
  tables e := (k.tables e).trans (h.tables e)
  pending e := (k.pending e).trans (h.pending e)

theorem Touched.le_part {a b : Bool} (h : (!a || b) = true) (hb : b = false) : a = false := by cases a <;> cases b <;> simp_all

theorem Outside.weaken {m n : Touched} {s t : State} (h : Outside m s t) (hm : m.le n = true := by decide) : Outside n s t := by
  simp only [Touched.le, Bool.and_eq_true] at hm
  obtain ⟨⟨⟨⟨⟨⟨⟨⟨⟨⟨⟨⟨⟨⟨⟨⟨⟨⟨⟨⟨⟨⟨h0, h1⟩, h2⟩, h3⟩, h4⟩, h5⟩, h6⟩, h7⟩, h8⟩, h9⟩, h10⟩, h11⟩, h12⟩, h13⟩, h14⟩, h15⟩, h16⟩, h17⟩, h18⟩, h19⟩, h20⟩, h21⟩, h22⟩ := hm
  exact {
    pins := fun e => h.pins (Touched.le_part h0 e)
    standing := fun e => h.standing (Touched.le_part h1 e)
    timebase := fun e => h.timebase (Touched.le_part h2 e)
    tcu := fun e => h.tcu (Touched.le_part h3 e)
    scu := fun e => h.scu (Touched.le_part h4 e)
    trimmer := fun e => h.trimmer (Touched.le_part h5 e)
    transfer := fun e => h.transfer (Touched.le_part h6 e)
    sorter := fun e => h.sorter (Touched.le_part h7 e)
    nextTag := fun e => h.nextTag (Touched.le_part h8 e)
    line := fun e => h.line (Touched.le_part h9 e)
    postings := fun e => h.postings (Touched.le_part h10 e)
    forces := fun e => h.forces (Touched.le_part h11 e)
    gradingA := fun e => h.gradingA (Touched.le_part h12 e)
    gradingB := fun e => h.gradingB (Touched.le_part h13 e)
    decision := fun e => h.decision (Touched.le_part h14 e)
    saws := fun e => h.saws (Touched.le_part h15 e)
    sort := fun e => h.sort (Touched.le_part h16 e)
    tally := fun e => h.tally (Touched.le_part h17 e)
    events := fun e => h.events (Touched.le_part h18 e)
    attention := fun e => h.attention (Touched.le_part h19 e)
    links := fun e => h.links (Touched.le_part h20 e)
    tables := fun e => h.tables (Touched.le_part h21 e)
    pending := fun e => h.pending (Touched.le_part h22 e) }

/-- One more operation after others, all within the parts named. -/
theorem Outside.then {m n : Touched} {s t u : State} (h : Outside m s t) (k : Outside n t u) (hm : n.le m = true := by decide) :
    Outside m s u := h.trans (k.weaken hm)

/-- Folding an operation that stays outside stays outside. -/
theorem Outside.foldl {α : Type} {m : Touched} {f : State → α → State} (h : ∀ s x, Outside m s (f s x)) (xs : List α) (s : State) :
    Outside m s (xs.foldl f s) := by
  induction xs generalizing s with
  | nil => exact .refl m s
  | cons x rest ih => exact (h s x).trans (ih (f s x))

/-! ### Primitive updates -/

theorem setUnit_outside (ch : Chain) (u : ChainUnit) (s : State) : Outside { tcu := true, scu := true } s (s.setUnit ch u) := by
  cases ch <;> constructor <;> intro h <;> first | exact absurd h (by decide) | rfl
theorem setGrading_outside (p : Position) (g : Grading) (s : State) :
    Outside { gradingA := true, gradingB := true } s (s.setGrading p g) := by
  cases p <;> constructor <;> intro h <;> first | exact absurd h (by decide) | rfl
theorem modifyLink_outside (l : LinkId) (f : LinkState → LinkState) (s : State) :
    Outside { links := true } s (s.modifyLink l f) := by
  cases l <;> constructor <;> intro h <;> first | exact absurd h (by decide) | rfl
theorem setRole_outside (l : LinkId) (f : RoleFlags) (s : State) : Outside { attention := true } s (s.setRole l f) := by
  cases l <;> constructor <;> intro h <;> first | exact absurd h (by decide) | rfl
theorem modifyBin_outside (bin : Nat) (f : BinRec → BinRec) (s : State) : Outside { sort := true } s (s.modifyBin bin f) := by
  unfold State.modifyBin
  split
  · exact .refl _ s
  · constructor <;> intro h <;> first | exact absurd h (by decide) | rfl
theorem modifySortCounts_outside (f : SortCounts → SortCounts) (s : State) :
    Outside { sort := true } s (s.modifySortCounts f) := by
  constructor <;> intro h <;> first | exact absurd h (by decide) | rfl
theorem modifySaw_outside (saw : Nat) (f : SawRec → SawRec) (s : State) : Outside { saws := true } s (s.modifySaw saw f) := by
  constructor <;> intro h <;> first | exact absurd h (by decide) | rfl
theorem modifyTrimmer_outside (tag : Nat) (f : Record → Record) (s : State) :
    Outside { trimmer := true } s (s.modifyTrimmer tag f) := by
  constructor <;> intro h <;> first | exact absurd h (by decide) | rfl
theorem modifySorter_outside (tag : Nat) (f : Record → Record) (s : State) :
    Outside { sorter := true } s (s.modifySorter tag f) := by
  constructor <;> intro h <;> first | exact absurd h (by decide) | rfl
theorem leaveTrimmer_outside (tag : Nat) (s : State) : Outside { trimmer := true } s (s.leaveTrimmer tag) := by
  constructor <;> intro h <;> first | exact absurd h (by decide) | rfl
theorem leaveSorter_outside (tag : Nat) (s : State) : Outside { sorter := true } s (s.leaveSorter tag) := by
  constructor <;> intro h <;> first | exact absurd h (by decide) | rfl
theorem modifyLive_outside (f : Tally → Tally) (s : State) : Outside { tally := true } s (s.modifyLive f) := by
  constructor <;> intro h <;> first | exact absurd h (by decide) | rfl
theorem modifyStream_outside (f : Stream → Stream) (s : State) : Outside { tally := true } s (s.modifyStream f) := by
  constructor <;> intro h <;> first | exact absurd h (by decide) | rfl
theorem modifyTables_outside (f : TableStore → TableStore) (s : State) : Outside { tables := true } s (s.modifyTables f) := by
  constructor <;> intro h <;> first | exact absurd h (by decide) | rfl
theorem latch_outside (c : Cause) (s : State) : Outside { attention := true } s (latch c s) := setRole_outside _ _ s

/-! ### Events, bins and the tally -/

theorem raiseEvent_outside (k : EventKind) (ch : Option Chain) (n d : Nat) (s : State) :
    Outside { events := true, attention := true } s (raiseEvent k ch n d s) := by
  unfold raiseEvent
  split
  · constructor <;> intro h <;> first | exact absurd h (by decide) | rfl
  · refine Outside.trans ?_ (latch_outside _ _).weaken
    constructor <;> intro h <;> first | exact absurd h (by decide) | rfl

theorem makeFull_outside (bin : Nat) (s : State) : Outside { sort := true, attention := true } s (makeFull bin s) :=
  (modifyBin_outside bin _ s).weaken.trans (latch_outside _ _).weaken

theorem judgeNear_outside (bin : Nat) (s : State) : Outside { sort := true, attention := true } s (judgeNear bin s) := by
  unfold judgeNear
  dsimp only
  split
  · exact .refl _ s
  · split
    · exact (modifyBin_outside bin _ s).weaken.trans (latch_outside _ _).weaken
    · split
      · exact (modifyBin_outside bin _ s).weaken
      · exact .refl _ s

theorem takeReservation_outside (bin : Nat) (s : State) : Outside { sort := true, attention := true } s (takeReservation bin s) :=
  (modifyBin_outside bin _ s).weaken.trans (judgeNear_outside bin _)

theorem releaseReservation_outside (bin : Nat) (s : State) :
    Outside { sort := true, attention := true } s (releaseReservation bin s) := by
  unfold releaseReservation
  split
  · exact .refl _ s
  · exact (modifyBin_outside bin _ s).weaken.trans (judgeNear_outside bin _)

theorem streamAttempt_outside (r : Record) (f : Fate) (s : State) :
    Outside { tally := true, events := true, attention := true } s (streamAttempt r f s) := by
  unfold streamAttempt
  dsimp only
  split
  · split
    · exact (modifyLive_outside _ s).weaken.trans ((modifyStream_outside _ _).weaken.trans (raiseEvent_outside _ _ _ _ _).weaken)
    · exact (modifyLive_outside _ s).weaken
  · split
    · exact (modifyStream_outside _ s).weaken.trans ((modifyLive_outside _ _).weaken.trans (modifyStream_outside _ _).weaken)
    · exact (modifyStream_outside _ s).weaken.trans (modifyLive_outside _ _).weaken

theorem handToTally_outside (r : Record) (f : Fate) (s : State) :
    Outside { tally := true, events := true, attention := true } s (handToTally r f s) :=
  (modifyLive_outside _ s).weaken.trans (streamAttempt_outside r f _)

theorem retireFromTrimmer_outside (r : Record) (f : Fate) (s : State) :
    Outside { trimmer := true, tally := true, events := true, attention := true } s (retireFromTrimmer r f s) :=
  (leaveTrimmer_outside r.tag s).weaken.trans (handToTally_outside r f _).weaken

theorem retireFromSorter_outside (r : Record) (f : Fate) (s : State) :
    Outside { sorter := true, sort := true, tally := true, events := true, attention := true } s (retireFromSorter r f s) :=
  (releaseReservation_outside r.heldBin s).weaken.trans ((modifyBin_outside r.heldBin _ _).weaken.trans
    ((leaveSorter_outside r.tag _).weaken.trans (handToTally_outside r f _).weaken))

/-! ### Decisions and saws -/

theorem decideAtLine_outside (r : Record) (s : State) :
    Outside { trimmer := true, decision := true } s (decideAtLine r s) := by
  constructor <;> intro h <;> first | exact absurd h (by decide) | rfl
theorem redecide_outside (r : Record) (s : State) : Outside { trimmer := true, decision := true } s (redecide r s) := by
  constructor <;> intro h <;> first | exact absurd h (by decide) | rfl

theorem markSawMiss_outside (s : State) : Outside { trimmer := true } s (markSawMiss s) := by
  unfold markSawMiss
  split
  · exact .refl _ s
  · exact modifyTrimmer_outside _ _ s

theorem missSaw_outside (saw : Nat) (s : State) :
    Outside { saws := true, trimmer := true, events := true, attention := true } s (missSaw saw s) := by
  unfold missSaw
  dsimp only
  have h := (modifySaw_outside saw (fun r => { r with stage := .idle, timer := 0, misses := incTo Config.missHold (s.saw saw).misses, totalMisses := inc32 r.totalMisses }) s).weaken (n := { saws := true, trimmer := true, events := true, attention := true })
  have h := h.trans ((raiseEvent_outside .sawMiss none saw (s.saw saw).commanded.toNat _).weaken.trans (markSawMiss_outside _).weaken)
  split
  · exact h.trans ((modifySaw_outside saw _ _).weaken.trans ((raiseEvent_outside _ _ _ _ _).weaken.trans (latch_outside _ _).weaken))
  · exact h

theorem expireWindow_outside (saw : Nat) (s : State) :
    Outside { saws := true, trimmer := true, events := true, attention := true } s (expireWindow saw s) := by
  unfold expireWindow
  split
  · exact .refl _ s
  · exact missSaw_outside saw s
  · split
    · exact (modifySaw_outside saw _ s).weaken
    · exact missSaw_outside saw s
    · exact missSaw_outside saw s

/-- What driving a saw does: it stands as commanded, no restart's note stays on a saw commanded UP, and its feedback, enabled flag and totals
are kept (R113, R123). -/
theorem SawRec.drive_spec (mode : ConfirmMode) (down : Bool) (r : SawRec) :
    (r.drive mode down).commanded = down ∧ (down = false → (r.drive mode down).leftDown = false) ∧
    (r.drive mode down).feedback = r.feedback ∧ (r.drive mode down).enabled = r.enabled ∧
    (r.drive mode down).totalMisses = r.totalMisses ∧ (r.drive mode down).retries = r.retries := by
  unfold SawRec.drive
  split
  · rename_i h; cases down <;> simp_all
  · cases mode <;> simp <;> split <;> simp [SawRec.confirmed]

theorem takeFeedback_outside (saw : Nat) (down : Bool) (s : State) : Outside { saws := true } s (takeFeedback saw down s) := by
  unfold takeFeedback
  dsimp only
  split
  · exact .refl _ s
  · split
    · exact (modifySaw_outside saw _ s).trans (modifySaw_outside saw _ _)
    · exact modifySaw_outside saw _ s

theorem endWindows_outside (s : State) :
    Outside { saws := true, trimmer := true, events := true, attention := true } s (endWindows s) := by
  refine Outside.foldl (f := fun s saw => endWindow saw s) (fun s saw => ?_) allSaws s
  unfold endWindow
  dsimp only
  split
  · exact .refl _ s
  · split
    · exact (modifySaw_outside saw _ s).weaken
    · exact missSaw_outside saw s

theorem applyPattern_outside (v : Vector Bool 13) (s : State) : Outside { saws := true } s (applyPattern v s) := by
  constructor <;> intro h <;> first | exact absurd h (by decide) | rfl

theorem setLine_outside (now : Serial) (s : State) : Outside { saws := true, trimmer := true } s (setLine now s) := by
  unfold setLine
  dsimp only
  generalize s.trimmerAt now s.tables.station.sawSet = found
  cases found with
  | none =>
    refine (applyPattern_outside (s.patternFor none) s).weaken.trans ?_
    constructor <;> intro h <;> first | exact absurd h (by decide) | rfl
  | some r =>
    refine Outside.trans (t := (applyPattern (s.patternFor (some r)) s).modifyTrimmer r.tag fun x => { x with life := .set })
      (.then (applyPattern_outside _ s).weaken (modifyTrimmer_outside _ _ _)) ?_
    constructor <;> intro h <;> first | exact absurd h (by decide) | rfl

theorem cutLine_outside (now : Serial) (s : State) :
    Outside { trimmer := true, tally := true, events := true, attention := true } s (cutLine now s) := by
  unfold cutLine
  split
  · exact .refl _ s
  · split
    · exact .refl _ s
    · dsimp only
      split
      · exact retireFromTrimmer_outside _ _ s
      · exact (modifyTrimmer_outside _ _ s).weaken

/-! ### Marks -/

theorem retarget_outside (now : Serial) (p : Position) (s : State) :
    Outside { gradingA := true, gradingB := true } s (retarget now p s) := setGrading_outside p _ s

theorem markAdvance_outside (now : Serial) (p : Position) (s : State) :
    Outside { gradingA := true, gradingB := true } s (markAdvance now p s) := by
  unfold markAdvance
  dsimp only
  split
  · exact (setGrading_outside p _ s).trans (retarget_outside now p _)
  · exact retarget_outside now p s

theorem commit_outside (p : Position) (t : Nat) (s : State) :
    Outside { trimmer := true, gradingA := true, gradingB := true } s (commit p t s) :=
  (modifyTrimmer_outside t _ s).weaken.trans ((setGrading_outside p _ _).weaken.trans (retarget_outside _ p _).weaken)

/-! ### Bins -/

theorem allocate_outside (r : Record) (s : State) :
    Outside { sorter := true, sort := true, attention := true } s (allocate r s) := by
  unfold allocate
  dsimp only
  generalize (if r.flags.suspect = true then 0 else ((s.routeBins (s.routeKind (productKey r))).find? fun b => s.takes b).getD 0) = bin
  split
  · exact .then (modifySorter_outside _ _ s).weaken (modifySortCounts_outside _ _)
  · exact .then (.then (modifySorter_outside _ _ s).weaken (modifySortCounts_outside _ _)) (takeReservation_outside bin _)

theorem reroute_outside (r : Record) (off : Nat) (s : State) :
    Outside { sorter := true, sort := true, attention := true } s (reroute r off s) := by
  unfold reroute
  split
  · exact .refl _ s
  · next p _ =>
    dsimp only
    refine .then (.then ?_ (modifySorter_outside _ _ _)) (modifySortCounts_outside _ _)
    split
    · exact (releaseReservation_outside p.bin s).weaken
    · exact .then (releaseReservation_outside p.bin s).weaken (takeReservation_outside _ _)

theorem completeDrop_outside (r : Record) (bin : Nat) (s : State) :
    Outside { sorter := true, sort := true, tally := true, events := true, attention := true } s (completeDrop r bin s) := by
  unfold completeDrop
  dsimp only
  refine .then (.then ?_ (leaveSorter_outside _ _)) (handToTally_outside _ _ _)
  split
  · split
    · exact .then (modifyBin_outside bin _ s).weaken (makeFull_outside bin _)
    · exact (modifyBin_outside bin _ s).weaken
  · exact (modifyBin_outside bin _ s).weaken

theorem fireGate_outside (r : Record) (bin : Nat) (s : State) :
    Outside { sorter := true, sort := true } s (fireGate r bin s) := by
  unfold fireGate
  exact .then (.then (modifyBin_outside bin _ s).weaken (modifySorter_outside _ _ _)) (modifySortCounts_outside _ _)

theorem dropLine_outside (r : Record) (bin off : Nat) (s : State) :
    Outside { sorter := true, sort := true, tally := true, events := true, attention := true } s (dropLine r bin off s) := by
  unfold dropLine
  dsimp only
  split
  · exact .then (.then (releaseReservation_outside bin s).weaken (modifySorter_outside _ _ _)) (modifySortCounts_outside _ _)
  · split
    · exact (reroute_outside r off s).weaken
    · split
      · exact .then (modifySortCounts_outside _ s).weaken (reroute_outside r off _)
      · split
        · exact .then (.then (fireGate_outside r bin s).weaken (modifySorter_outside _ _ _)) (modifyBin_outside _ _ _)
        · split
          · exact .then (fireGate_outside r bin s).weaken (completeDrop_outside _ bin _)
          · exact (fireGate_outside r bin s).weaken

theorem closeGate_outside (bin : Nat) (s : State) : Outside { sort := true } s (closeGate bin s) := by
  unfold closeGate
  split
  · exact modifyBin_outside bin _ s
  · exact .refl _ s

theorem fullSwitchEdge_outside (bin : Nat) (s : State) :
    Outside { sort := true, events := true, attention := true } s (fullSwitchEdge bin s) := by
  unfold fullSwitchEdge
  dsimp only
  split
  · exact .then (.then (modifyBin_outside bin _ s).weaken (raiseEvent_outside _ _ _ _ _)) (makeFull_outside bin _)
  · exact .then (modifyBin_outside bin _ s).weaken (raiseEvent_outside _ _ _ _ _)

theorem confirmEdge_outside (bin : Nat) (s : State) :
    Outside { sorter := true, sort := true, tally := true, events := true, attention := true } s (confirmEdge bin s) := by
  unfold confirmEdge
  dsimp only
  split
  · exact .then (modifyBin_outside bin _ s).weaken (modifySortCounts_outside _ _)
  · split
    · exact .then (.then (.then (modifyBin_outside bin _ s).weaken (modifyBin_outside bin _ _)) (modifySortCounts_outside _ _))
        (completeDrop_outside _ bin _)
    · exact .then (.then (modifyBin_outside bin _ s).weaken (modifyBin_outside bin _ _)) (modifySortCounts_outside _ _)

theorem judgeMisses_outside (bin misses : Nat) (s : State) :
    Outside { sort := true, events := true, attention := true } s (judgeMisses bin misses s) := by
  unfold judgeMisses
  dsimp only
  split
  · exact (modifyBin_outside bin _ s).weaken.trans (raiseEvent_outside _ _ _ _ _).weaken
  · exact .refl _ s

theorem expireConfirm_outside (bin : Nat) (s : State) :
    Outside { sorter := true, sort := true, events := true, attention := true } s (expireConfirm bin s) := by
  unfold expireConfirm
  dsimp only
  split
  · exact .refl _ s
  · refine .then ?_ (judgeMisses_outside bin _ _)
    split
    · exact .then (.then (.then (.then (modifyBin_outside bin _ s).weaken (modifySortCounts_outside _ _)) (modifySorter_outside _ _ _))
        (raiseEvent_outside _ _ _ _ _)) (reroute_outside _ _ _)
    · exact .then (.then (.then (modifyBin_outside bin _ s).weaken (modifySortCounts_outside _ _)) (modifySorter_outside _ _ _))
        (raiseEvent_outside _ _ _ _ _)

/-! ### Chains -/

theorem changeSync_outside (ch : Chain) (new : Sync) (s : State) :
    Outside { tcu := true, scu := true, events := true, attention := true } s (changeSync ch new s) := by
  unfold changeSync
  split
  · exact .refl _ s
  · dsimp only
    cases ch
    · exact .then (.then (.then (setUnit_outside .trimmer _ s).weaken (raiseEvent_outside _ _ _ _ _)) (latch_outside _ _))
        (latch_outside _ _)
    · exact .then (.then (setUnit_outside .sorter _ s).weaken (raiseEvent_outside _ _ _ _ _)) (latch_outside _ _)

theorem appendTransfer_outside (r : Record) (s : State) :
    Outside { transfer := true, tally := true, events := true, attention := true } s (appendTransfer r s) := by
  have put : ∀ (u : State) (q : List Waiting), Outside { transfer := true, tally := true, events := true, attention := true } u
      ({ u with board := { u.board with transfer := q } } : State) := by
    intro u q
    constructor <;> intro h <;> first | exact absurd h (by decide) | rfl
  unfold appendTransfer
  dsimp only
  split
  · split
    · exact put s _
    · next head rest _ =>
      exact .trans (.then (.then (put s rest) (handToTally_outside head.board .lost _)) (raiseEvent_outside _ _ _ _ _)) (put _ _)
  · exact put s _

theorem outfeedLine_outside (now : Serial) (s : State) :
    Outside { trimmer := true, transfer := true, tally := true, events := true, attention := true } s (outfeedLine now s) := by
  unfold outfeedLine
  split
  · exact (leaveTrimmer_outside _ s).weaken.trans (appendTransfer_outside _ _).weaken
  · exact .refl _ s

theorem decisionLine_outside (now : Serial) (s : State) :
    Outside { trimmer := true, decision := true } s (decisionLine now s) := by
  unfold decisionLine
  split
  · split
    · exact decideAtLine_outside _ s
    · exact .refl _ s
  · exact .refl _ s

/-- What a trimmer advance can change before the lug serial is raised. -/
theorem advanceTrimmer_outside (s : State) :
    Outside { trimmer := true, transfer := true, decision := true, saws := true, tally := true, events := true, attention := true,
              gradingA := true, gradingB := true } s (advanceTrimmer s) := by
  unfold advanceTrimmer
  dsimp only
  split
  · refine .then (.then ?_ (markAdvance_outside _ .a _)) (markAdvance_outside _ .b _)
    exact .then (.then (.then (.then (decisionLine_outside _ s).weaken (endWindows_outside _)) (cutLine_outside _ _))
      (outfeedLine_outside _ _)) (setLine_outside _ _)
  · exact .then (markAdvance_outside _ .a s).weaken (markAdvance_outside _ .b _)

theorem ageTransfer_outside (s : State) :
    Outside { transfer := true, tally := true, events := true, attention := true } s (ageTransfer s) := by
  unfold ageTransfer
  dsimp only
  refine Outside.trans ?_ (Outside.foldl (fun u w => ?_) _ _)
  · constructor <;> intro h <;> first | exact absurd h (by decide) | rfl
  · exact .then (handToTally_outside _ _ u).weaken (raiseEvent_outside _ _ _ _ _)

theorem sorterLine_outside (now : Serial) (tag : Nat) (s : State) :
    Outside { sorter := true, sort := true, tally := true, events := true, attention := true } s (sorterLine now tag s) := by
  unfold sorterLine
  split
  · exact .refl _ s
  · dsimp only
    split
    · exact retireFromSorter_outside _ _ s
    · split
      · exact dropLine_outside _ _ _ s
      · exact .refl _ s

/-- What a sorter advance can change before the lug serial is raised. -/
theorem advanceSorter_outside (s : State) :
    Outside { transfer := true, sorter := true, sort := true, tally := true, events := true, attention := true } s
      (advanceSorter s) := by
  unfold advanceSorter
  exact (ageTransfer_outside s).weaken.trans (Outside.foldl (fun u tag => (sorterLine_outside _ tag u).weaken) _ _)

/-- What an advance of either chain can change before the lug serial is raised. Neither chain unit is among it. -/
theorem advanceLines_outside (ch : Chain) (s : State) :
    Outside { trimmer := true, transfer := true, sorter := true, decision := true, saws := true, sort := true, tally := true,
              events := true, attention := true, gradingA := true, gradingB := true } s (advanceLines ch s) := by
  cases ch
  · exact (advanceTrimmer_outside s).weaken
  · exact (advanceSorter_outside s).weaken

/-! ### Boards, restart and the tick -/

theorem offerNotice_outside (r : Record) (s : State) : Outside { links := true, postings := true } s (offerNotice r s) := by
  unfold offerNotice
  dsimp only
  generalize (if s.links.notice < 65535 then s.links.notice + 1 else 0) = n
  split
  · refine .then ?_ (modifyLink_outside _ _ _)
    constructor <;> intro h <;> first | exact absurd h (by decide) | rfl
  · constructor <;> intro h <;> first | exact absurd h (by decide) | rfl

theorem placeOnSorter_outside (r : Record) (s : State) :
    Outside { sorter := true, sort := true, attention := true } s (placeOnSorter r s) := by
  unfold placeOnSorter
  refine Outside.trans ?_ (allocate_outside _ _)
  constructor <;> intro h <;> first | exact absurd h (by decide) | rfl

theorem setLineState_outside (line : LineState) (s : State) : Outside { line := true, attention := true } s (setLineState line s) := by
  unfold setLineState
  split
  · exact .refl _ s
  · refine Outside.trans ?_ ((latch_outside _ _).weaken.trans (latch_outside _ _).weaken)
    constructor <;> intro h <;> first | exact absurd h (by decide) | rfl

theorem loseAll_outside (s : State) :
    Outside { trimmer := true, transfer := true, sorter := true, tally := true, events := true, attention := true } s (loseAll s) := by
  unfold loseAll
  dsimp only
  refine Outside.trans ?_ (Outside.foldl (fun u r => (handToTally_outside r .lost u).weaken) _ _)
  constructor <;> intro h <;> first | exact absurd h (by decide) | rfl

/-! ### Taking a frame (R172) -/

/-- A request whose frame stands oldest with a TX slot free is taken at once. -/
theorem serve_taken {r : Req} {l : LinkId} {num : Byte} {fields : List Byte} {act : Handler} {s : State} (hf : fieldsFit fields = true)
    (ha : s.awake = true) (ht : s.takeable l (requestCode r :: num :: fields) = true) :
    serve r l num fields act s = .next (takeRequest r l num fields act s) := by
  simp [serve, whenAwake, deliver, hf, ha, ht]

/-- A request served is its own command. -/
theorem serveRequest_exec (r : Req) (l : LinkId) (num : Byte) (fields : List Byte) (s : State) :
    serveRequest r l num fields s = exec (requestInstr r l num fields) s := by cases r <;> rfl

/-- With no complete frame waiting, none is taken. -/
theorem takeOldest_none {l : LinkId} {s : State} (h : (s.link l).waiting = []) : takeOldest l s = .next s := by
  simp [takeOldest, h]

/-- With no TX slot free, the frames wait. -/
theorem takeOldest_full {l : LinkId} {s : State} (h : (s.link l).freeSlots = 0) : takeOldest l s = .next s := by
  unfold takeOldest
  split <;> simp [h]

/-- A request that waits with a TX slot free is taken by its own command's effect. -/
theorem takeOldest_exec {l : LinkId} {s : State} {body : List Byte} {rest : List (List Byte)} {i : Instr}
    (hw : (s.link l).waiting = body :: rest) (hf : (s.link l).freeSlots ≠ 0) (hi : decodeRequest l body = some i) :
    takeOldest l s = exec i s := by
  obtain _ | ⟨code, _ | ⟨num, fields⟩⟩ := body
  · cases hi
  · cases hi
  · unfold decodeRequest at hi
    unfold takeOldest
    rw [hw]
    dsimp only at hi ⊢
    rw [if_neg hf]
    generalize requestOfCode code = c at hi ⊢
    cases c with
    | none => cases hi; rfl
    | some r => cases hi; exact serveRequest_exec r l num fields s

end Sys2Proof.Machine
end

