-- ==== Sys2Proof/Laws/PerInstr.lean ====
section
/-! SUPPORT. One lemma per command: the body a well-formed request command's frame carries fits a frame (R168), and a command that is no
request carries none. -/

namespace Sys2Proof.Laws

-- One thread elaborates the many small proofs of this file.
set_option Elab.async false

/-- A well-formed command's body, if it is a request, has 2 to 240 bytes. -/
def RequestForm.Statement (i : Instr) : Prop :=
  WellFormed i = true → ∀ l body, encodeRequest i = some (l, body) → 2 ≤ body.length ∧ body.length ≤ Config.bodyMax

/-- A body of a code, a request number and fields that fit has 2 to 240 bytes. -/
theorem RequestForm.of_fields {code num : Byte} {fields : List Byte} (h : fieldsFit fields = true) :
    2 ≤ (code :: num :: fields).length ∧ (code :: num :: fields).length ≤ Config.bodyMax := by
  simp only [fieldsFit, decide_eq_true_eq] at h
  simp only [List.length_cons]
  omega

theorem RequestForm.powerOn (baud : BaudPins) : Statement (.powerOn baud) := fun _ _ _ e => nomatch e
theorem RequestForm.resetnAssert : Statement (.resetnAssert) := fun _ _ _ e => nomatch e
theorem RequestForm.resetnRelease (baud : BaudPins) : Statement (.resetnRelease baud) := fun _ _ _ e => nomatch e
theorem RequestForm.settlePeriodEnd : Statement (.settlePeriodEnd) := fun _ _ _ e => nomatch e
theorem RequestForm.encoderForwardCount (ch : Chain) : Statement (.encoderForwardCount ch) := fun _ _ _ e => nomatch e
theorem RequestForm.encoderReverseCount (ch : Chain) : Statement (.encoderReverseCount ch) := fun _ _ _ e => nomatch e
theorem RequestForm.stopTimerExpiry (ch : Chain) : Statement (.stopTimerExpiry ch) := fun _ _ _ e => nomatch e
theorem RequestForm.lugEyeOnEdge (ch : Chain) (edge : Edge) : Statement (.lugEyeOnEdge ch edge) := fun _ _ _ e => nomatch e
theorem RequestForm.syntheticAdvance (ch : Chain) : Statement (.syntheticAdvance ch) := fun _ _ _ e => nomatch e
theorem RequestForm.scanEyeOnEdge (edge : Edge) : Statement (.scanEyeOnEdge edge) := fun _ _ _ e => nomatch e
theorem RequestForm.pickupEyeOnEdge (edge : Edge) : Statement (.pickupEyeOnEdge edge) := fun _ _ _ e => nomatch e
theorem RequestForm.sawFeedbackChange (saw : Nat) (down : Bool) : Statement (.sawFeedbackChange saw down) := fun _ _ _ e => nomatch e
theorem RequestForm.sawWindowExpiry (saw : Nat) : Statement (.sawWindowExpiry saw) := fun _ _ _ e => nomatch e
theorem RequestForm.gatePulseExpiry (bin : Nat) : Statement (.gatePulseExpiry bin) := fun _ _ _ e => nomatch e
theorem RequestForm.gateConfirmOnEdge (bin : Nat) (edge : Edge) : Statement (.gateConfirmOnEdge bin edge) := fun _ _ _ e => nomatch e
theorem RequestForm.confirmWindowExpiry (bin : Nat) : Statement (.confirmWindowExpiry bin) := fun _ _ _ e => nomatch e
theorem RequestForm.binFullSwitchOnEdge (bin : Nat) (edge : Edge) : Statement (.binFullSwitchOnEdge bin edge) := fun _ _ _ e => nomatch e
theorem RequestForm.keyMarkPush (pos : Position) (key : MarkKey) : Statement (.keyMarkPush pos key) := fun _ _ _ e => nomatch e
theorem RequestForm.keyUndo (pos : Position) : Statement (.keyUndo pos) := fun _ _ _ e => nomatch e
theorem RequestForm.keyClr (pos : Position) : Statement (.keyClr pos) := fun _ _ _ e => nomatch e
theorem RequestForm.keyEnt (pos : Position) : Statement (.keyEnt pos) := fun _ _ _ e => nomatch e
theorem RequestForm.keypadBadByte (pos : Position) : Statement (.keypadBadByte pos) := fun _ _ _ e => nomatch e
theorem RequestForm.keypadReplySent (pos : Position) : Statement (.keypadReplySent pos) := fun _ _ _ e => nomatch e
theorem RequestForm.linkByteReceived (link : LinkId) (byte : Byte) (stopBit : Bool) : Statement (.linkByteReceived link byte stopBit) := fun _ _ _ e => nomatch e
theorem RequestForm.pauseReceived (link : LinkId) : Statement (.pauseReceived link) := fun _ _ _ e => nomatch e
theorem RequestForm.resumeReceived (link : LinkId) : Statement (.resumeReceived link) := fun _ _ _ e => nomatch e
theorem RequestForm.txFrameSent (link : LinkId) : Statement (.txFrameSent link) := fun _ _ _ e => nomatch e
theorem RequestForm.linkBreak (link : LinkId) : Statement (.linkBreak link) := fun _ _ _ e => nomatch e
theorem RequestForm.unknownRequestCode (link : LinkId) (code : Byte) (num : Byte) (fields : List Byte) : Statement (.unknownRequestCode link code num fields) := by
  intro h _ _ e
  simp only [encodeRequest, requestParts, Option.map_some, Option.some.injEq, Prod.mk.injEq] at e
  rw [← e.2]
  exact of_fields (by simpa [WellFormed] using (Bool.and_eq_true _ _ ▸ h : _ ∧ _).2)
theorem RequestForm.postScan (link : LinkId) (num : Byte) (fields : List Byte) : Statement (.postScan link num fields) := by
  intro h _ _ e
  simp only [encodeRequest, requestParts, Option.map_some, Option.some.injEq, Prod.mk.injEq] at e
  rw [← e.2]
  exact of_fields h
theorem RequestForm.postSolution (link : LinkId) (num : Byte) (fields : List Byte) : Statement (.postSolution link num fields) := by
  intro h _ _ e
  simp only [encodeRequest, requestParts, Option.map_some, Option.some.injEq, Prod.mk.injEq] at e
  rw [← e.2]
  exact of_fields h
theorem RequestForm.readRecord (link : LinkId) (num : Byte) (fields : List Byte) : Statement (.readRecord link num fields) := by
  intro h _ _ e
  simp only [encodeRequest, requestParts, Option.map_some, Option.some.injEq, Prod.mk.injEq] at e
  rw [← e.2]
  exact of_fields h
theorem RequestForm.readStatus (link : LinkId) (num : Byte) (fields : List Byte) : Statement (.readStatus link num fields) := by
  intro h _ _ e
  simp only [encodeRequest, requestParts, Option.map_some, Option.some.injEq, Prod.mk.injEq] at e
  rw [← e.2]
  exact of_fields h
theorem RequestForm.ackAttention (link : LinkId) (num : Byte) (fields : List Byte) : Statement (.ackAttention link num fields) := by
  intro h _ _ e
  simp only [encodeRequest, requestParts, Option.map_some, Option.some.injEq, Prod.mk.injEq] at e
  rw [← e.2]
  exact of_fields h
theorem RequestForm.setAttentionEnable (link : LinkId) (num : Byte) (fields : List Byte) : Statement (.setAttentionEnable link num fields) := by
  intro h _ _ e
  simp only [encodeRequest, requestParts, Option.map_some, Option.some.injEq, Prod.mk.injEq] at e
  rw [← e.2]
  exact of_fields h
theorem RequestForm.setLineMode (link : LinkId) (num : Byte) (fields : List Byte) : Statement (.setLineMode link num fields) := by
  intro h _ _ e
  simp only [encodeRequest, requestParts, Option.map_some, Option.some.injEq, Prod.mk.injEq] at e
  rw [← e.2]
  exact of_fields h
theorem RequestForm.forceBoard (link : LinkId) (num : Byte) (fields : List Byte) : Statement (.forceBoard link num fields) := by
  intro h _ _ e
  simp only [encodeRequest, requestParts, Option.map_some, Option.some.injEq, Prod.mk.injEq] at e
  rw [← e.2]
  exact of_fields h
theorem RequestForm.sawEnable (link : LinkId) (num : Byte) (fields : List Byte) : Statement (.sawEnable link num fields) := by
  intro h _ _ e
  simp only [encodeRequest, requestParts, Option.map_some, Option.some.injEq, Prod.mk.injEq] at e
  rw [← e.2]
  exact of_fields h
theorem RequestForm.sawDisable (link : LinkId) (num : Byte) (fields : List Byte) : Statement (.sawDisable link num fields) := by
  intro h _ _ e
  simp only [encodeRequest, requestParts, Option.map_some, Option.some.injEq, Prod.mk.injEq] at e
  rw [← e.2]
  exact of_fields h
theorem RequestForm.binUnload (link : LinkId) (num : Byte) (fields : List Byte) : Statement (.binUnload link num fields) := by
  intro h _ _ e
  simp only [encodeRequest, requestParts, Option.map_some, Option.some.injEq, Prod.mk.injEq] at e
  rw [← e.2]
  exact of_fields h
theorem RequestForm.binEmptied (link : LinkId) (num : Byte) (fields : List Byte) : Statement (.binEmptied link num fields) := by
  intro h _ _ e
  simp only [encodeRequest, requestParts, Option.map_some, Option.some.injEq, Prod.mk.injEq] at e
  rw [← e.2]
  exact of_fields h
theorem RequestForm.binEnable (link : LinkId) (num : Byte) (fields : List Byte) : Statement (.binEnable link num fields) := by
  intro h _ _ e
  simp only [encodeRequest, requestParts, Option.map_some, Option.some.injEq, Prod.mk.injEq] at e
  rw [← e.2]
  exact of_fields h
theorem RequestForm.binDisable (link : LinkId) (num : Byte) (fields : List Byte) : Statement (.binDisable link num fields) := by
  intro h _ _ e
  simp only [encodeRequest, requestParts, Option.map_some, Option.some.injEq, Prod.mk.injEq] at e
  rw [← e.2]
  exact of_fields h
theorem RequestForm.readBins (link : LinkId) (num : Byte) (fields : List Byte) : Statement (.readBins link num fields) := by
  intro h _ _ e
  simp only [encodeRequest, requestParts, Option.map_some, Option.some.injEq, Prod.mk.injEq] at e
  rw [← e.2]
  exact of_fields h
theorem RequestForm.readEvents (link : LinkId) (num : Byte) (fields : List Byte) : Statement (.readEvents link num fields) := by
  intro h _ _ e
  simp only [encodeRequest, requestParts, Option.map_some, Option.some.injEq, Prod.mk.injEq] at e
  rw [← e.2]
  exact of_fields h
theorem RequestForm.clearEventOverflow (link : LinkId) (num : Byte) (fields : List Byte) : Statement (.clearEventOverflow link num fields) := by
  intro h _ _ e
  simp only [encodeRequest, requestParts, Option.map_some, Option.some.injEq, Prod.mk.injEq] at e
  rw [← e.2]
  exact of_fields h
theorem RequestForm.start (link : LinkId) (num : Byte) (fields : List Byte) : Statement (.start link num fields) := by
  intro h _ _ e
  simp only [encodeRequest, requestParts, Option.map_some, Option.some.injEq, Prod.mk.injEq] at e
  rw [← e.2]
  exact of_fields h
theorem RequestForm.restartTracking (link : LinkId) (num : Byte) (fields : List Byte) : Statement (.restartTracking link num fields) := by
  intro h _ _ e
  simp only [encodeRequest, requestParts, Option.map_some, Option.some.injEq, Prod.mk.injEq] at e
  rw [← e.2]
  exact of_fields h
theorem RequestForm.loadTable (link : LinkId) (num : Byte) (fields : List Byte) : Statement (.loadTable link num fields) := by
  intro h _ _ e
  simp only [encodeRequest, requestParts, Option.map_some, Option.some.injEq, Prod.mk.injEq] at e
  rw [← e.2]
  exact of_fields h
theorem RequestForm.readTable (link : LinkId) (num : Byte) (fields : List Byte) : Statement (.readTable link num fields) := by
  intro h _ _ e
  simp only [encodeRequest, requestParts, Option.map_some, Option.some.injEq, Prod.mk.injEq] at e
  rw [← e.2]
  exact of_fields h
theorem RequestForm.readTableTallyForm (link : LinkId) (num : Byte) (fields : List Byte) : Statement (.readTableTallyForm link num fields) := by
  intro h _ _ e
  simp only [encodeRequest, requestParts, Option.map_some, Option.some.injEq, Prod.mk.injEq] at e
  rw [← e.2]
  exact of_fields h
theorem RequestForm.readSegment (link : LinkId) (num : Byte) (fields : List Byte) : Statement (.readSegment link num fields) := by
  intro h _ _ e
  simp only [encodeRequest, requestParts, Option.map_some, Option.some.injEq, Prod.mk.injEq] at e
  rw [← e.2]
  exact of_fields h
theorem RequestForm.releaseSegment (link : LinkId) (num : Byte) (fields : List Byte) : Statement (.releaseSegment link num fields) := by
  intro h _ _ e
  simp only [encodeRequest, requestParts, Option.map_some, Option.some.injEq, Prod.mk.injEq] at e
  rw [← e.2]
  exact of_fields h
theorem RequestForm.flush (link : LinkId) (num : Byte) (fields : List Byte) : Statement (.flush link num fields) := by
  intro h _ _ e
  simp only [encodeRequest, requestParts, Option.map_some, Option.some.injEq, Prod.mk.injEq] at e
  rw [← e.2]
  exact of_fields h
theorem RequestForm.shiftClose (link : LinkId) (num : Byte) (fields : List Byte) : Statement (.shiftClose link num fields) := by
  intro h _ _ e
  simp only [encodeRequest, requestParts, Option.map_some, Option.some.injEq, Prod.mk.injEq] at e
  rw [← e.2]
  exact of_fields h
theorem RequestForm.readMatrix (link : LinkId) (num : Byte) (fields : List Byte) : Statement (.readMatrix link num fields) := by
  intro h _ _ e
  simp only [encodeRequest, requestParts, Option.map_some, Option.some.injEq, Prod.mk.injEq] at e
  rw [← e.2]
  exact of_fields h
theorem RequestForm.readClosed (link : LinkId) (num : Byte) (fields : List Byte) : Statement (.readClosed link num fields) := by
  intro h _ _ e
  simp only [encodeRequest, requestParts, Option.map_some, Option.some.injEq, Prod.mk.injEq] at e
  rw [← e.2]
  exact of_fields h
theorem RequestForm.priceEdit (link : LinkId) (num : Byte) (fields : List Byte) : Statement (.priceEdit link num fields) := by
  intro h _ _ e
  simp only [encodeRequest, requestParts, Option.map_some, Option.some.injEq, Prod.mk.injEq] at e
  rw [← e.2]
  exact of_fields h
theorem RequestForm.priceSwitch (link : LinkId) (num : Byte) (fields : List Byte) : Statement (.priceSwitch link num fields) := by
  intro h _ _ e
  simp only [encodeRequest, requestParts, Option.map_some, Option.some.injEq, Prod.mk.injEq] at e
  rw [← e.2]
  exact of_fields h

end Sys2Proof.Laws
end

