-- ==== Sys2Proof/Tests/Slice0.lean ====
section
/-! SUPPORT. Tests of the model: the checks of WellFormed on ill-formed terms, the byte codes and frames of the manual, one small test a command
(most from the manual's worked sequences), and for each statement with hypotheses a witness that meets them. -/

namespace Sys2Proof.Tests

-- One thread elaborates the many small kernel evaluations of this file.
set_option Elab.async false
open Sys2Proof.Machine

/-! ### States the tests start from -/

/-- After the settle period, in CONFIG. -/
def up : State := { State.reset with timebase := { State.reset.timebase with settle := 256 } }

/-- The chain parameters of the worked sequences: C = 400, E = 20. -/
def params : ChainParams := { pitch := 400, tolerance := 20, stopTime := 250, valid := true }

/-- Both chains valid, each in a sync state at a count. -/
def chained (sync : Sync) (count good miss : Nat) : State :=
  { up with
    tcu := { up.tcu with sync := sync, count := count, good := good, miss := miss }
    scu := { up.scu with sync := sync, count := count, good := good, miss := miss }
    tables := { up.tables with settings := { up.tables.settings with trimmer := params, sorter := params } } }

/-- The line in RUN. -/
def running (s : State) : State := { s with board := { s.board with line := .run } }

/-- A scanned board of a tag created at a lug serial, in a life state. -/
def board (tag : Nat) (creation : Serial) (life : Life) : Record := newRecord tag .scanned creation life false

/-- A scan summary of 4,962 mm, 50 by 150 mm. -/
def scan4962 : ScanSummary := { length := 4962, thickness := 2, width := 4 }

/-- Boards on the trimmer map. -/
def onTrimmer (rs : List Record) (s : State) : State := { s with board := { s.board with trimmer := rs } }

/-- The sort part of a record allocated to a bin of group 3. -/
def part (bin : Nat) : SortPart :=
  { key := { grade := some 2, cls := some 10, width := some 4, disposition := .normal }, route := .group 3, bin := bin, firstBin := bin,
    result := .none, attempts := 0 }

/-- A sorter record of a tag placed at a sorter serial. -/
def sorted (tag bin : Nat) (placed : Serial) : Record :=
  { board tag 0 .onSorter with sorterSerial := some placed, sort := some (part bin) }

/-- The items of a bin of capacity 10 that confirms. -/
def items : BinItems := { drop := 40, capacity := 10, hi := 8, lo := 5, pulse := 100, confirm := true, window := 100 }

/-- Bin 9 fitted, OPEN, holding one place, with a pending drop of the record on the sorter that holds it. -/
def dropping : State :=
  let s := running up
  let s := { s with board := { s.board with sorter := [{ sorted 7 9 0 with life := .dropping }] } }
  s.modifyBin 9 fun b => { b with items := some items, state := .opened, dropped := 9, reserved := 1,
                                  pending := [{ tag := 7, elapsed := 0 }] }

/-- A request frame stands oldest in a link's buffer. -/
def asked (l : LinkId) (body : List Byte) (s : State) : State := s.setLink l { s.link l with waiting := [body] }

/-- The state a command leads to; a command that stops leaves the state as it is. -/
def after (i : Instr) (s : State) : State :=
  match exec i s with
  | .next t => t
  | .fault _ | .refused _ => s

/-- The body at the tail of a link's TX queue. -/
def lastSent (l : LinkId) (s : State) : List Byte := ((s.link l).tx.getLast?).getD []

/-- A command stops. -/
def stops (i : Instr) (s : State) : Bool :=
  match exec i s with
  | .next _ => false
  | .fault _ | .refused _ => true

/-! ### WellFormed -/

theorem test_wellFormed_saw : WellFormed (.sawFeedbackChange 13 true) = false ∧ WellFormed (.sawWindowExpiry 13) = false ∧
    WellFormed (.sawWindowExpiry 12) = true := by decide
theorem test_wellFormed_bin : WellFormed (.gatePulseExpiry 0) = false ∧ WellFormed (.gateConfirmOnEdge 49 .on) = false ∧
    WellFormed (.confirmWindowExpiry 49) = false ∧ WellFormed (.binFullSwitchOnEdge 0 .off) = false ∧
    WellFormed (.gatePulseExpiry 48) = true := by decide
theorem test_wellFormed_key : WellFormed (.keyMarkPush .a (.grade 0)) = false ∧ WellFormed (.keyMarkPush .a (.grade 11)) = false ∧
    WellFormed (.keyMarkPush .b (.cutback 13)) = false ∧ WellFormed (.keyMarkPush .b (.cutback 12)) = true := by decide
theorem test_wellFormed_code : WellFormed (.unknownRequestCode .optimizer 0x01 0 []) = false ∧
    WellFormed (.unknownRequestCode .optimizer 0x80 0 []) = true := by decide
theorem test_wellFormed_body : WellFormed (.flush .tallyStation 0 (List.replicate 239 0)) = false ∧
    WellFormed (.unknownRequestCode .optimizer 0x80 0 (List.replicate 239 0)) = false ∧
    WellFormed (.flush .tallyStation 0 (List.replicate 238 0)) = true := by decide +kernel
/-- A command that no wire can carry stops. -/
theorem test_illFormed_stops : stops (.sawFeedbackChange 13 true) up = true ∧ stops (.gatePulseExpiry 49) up = true ∧
    stops (.unknownRequestCode .optimizer 0x01 0 []) up = true ∧
    stops (.flush .tallyStation 0 (List.replicate 239 0)) up = true := by decide +kernel

/-! ### Codes and frames (R168, R179, R183) -/

theorem test_keypad_codes : keypadCommand .a 0x02 false = .keyMarkPush .a (.grade 2) ∧
    keypadCommand .b 0x1C false = .keyMarkPush .b (.cutback 12) ∧ keypadCommand .a 0x23 false = .keyMarkPush .a .noFence ∧
    keypadCommand .a 0x30 false = .keyUndo .a ∧ keypadCommand .a 0x31 false = .keyClr .a ∧ keypadCommand .b 0x32 false = .keyEnt .b ∧
    keypadCommand .a 0x0B false = .keypadBadByte .a ∧ keypadCommand .a 0x02 true = .keypadBadByte .a := by decide
theorem test_request_codes : decodeRequest .optimizer [0x01, 0x05, 1, 2] = some (.postScan .optimizer 0x05 [1, 2]) ∧
    decodeRequest .tallyStation [0x1C, 0x05, 1] = some (.priceSwitch .tallyStation 0x05 [1]) ∧
    decodeRequest .optimizer [0x80, 0x05] = some (.unknownRequestCode .optimizer 0x80 0x05 []) ∧
    decodeRequest .optimizer [0x01] = none := by decide
/-- The CRC of "123456789" under polynomial 1021h from FFFFh is 29B1h, this CRC's usual check value. -/
theorem test_crc : crc16 [0x31, 0x32, 0x33, 0x34, 0x35, 0x36, 0x37, 0x38, 0x39] = 0x29B1 := by decide +kernel
theorem test_no_word_spells_a_command : decodeTableWord 16 0x1234 = none ∧ (up.withFetchWord 16 0x1234) = up := ⟨rfl, rfl⟩

/-! ### One test a command -/

theorem test_powerOn_samples_baud :
    (after (.powerOn { a0 := true, b0 := false, a1 := false, b1 := true, a2 := true, b2 := true }) up).links.optimizer.baud = .b230400 ∧
    (after (.powerOn { a0 := true, b0 := false, a1 := false, b1 := true, a2 := true, b2 := true }) up).timebase.settle = 0 := by
  decide +kernel
theorem test_resetnAssert_holds : (after .resetnAssert up).awake = false ∧
    (after (.encoderForwardCount .trimmer) (after .resetnAssert up)).tcu.count = 0 := by decide +kernel
theorem test_resetnRelease_settles :
    (after (.resetnRelease { a0 := false, b0 := false, a1 := false, b1 := false, a2 := false, b2 := false })
      (after .resetnAssert up)).settling = true := by decide +kernel
theorem test_settlePeriodEnd_wakes : (after .settlePeriodEnd State.reset).awake = true := by decide +kernel
theorem test_forwardCount_runs : (after (.encoderForwardCount .trimmer) up).tcu.count = 1 ∧
    (after (.encoderForwardCount .trimmer) up).tcu.stopped = false ∧
    (after (.encoderForwardCount .trimmer) up).events.entries.map (·.kind) = [.chainRun] := by decide +kernel
theorem test_reverseCount_floor : (after (.encoderReverseCount .sorter) up).scu.count = 0 ∧
    (after (.encoderReverseCount .sorter) up).events.entries.map (·.kind) = [.chainRun, .reverse] := by decide +kernel
theorem test_stopTimerExpiry_once :
    let s := after (.stopTimerExpiry .trimmer) (after (.encoderForwardCount .trimmer) up)
    s.tcu.stopped = true ∧ (after (.stopTimerExpiry .trimmer) s).events.entries.length = 2 := by decide +kernel
/-- R6's worked sequence: an edge at c = 212 is early with detail 13, an edge at 397 is an advance. -/
theorem test_lugEdge_early : ((after (.lugEyeOnEdge .trimmer .on) (chained .locked 212 0 0)).events.entries.map (·.detail)) = [13] ∧
    (after (.lugEyeOnEdge .trimmer .on) (chained .locked 397 0 0)).tcu.serial = 1 := by decide +kernel
/-- The worked sequence of a dead eye: the third miss moves the chain to LOST. -/
theorem test_syntheticAdvance_lost : (after (.syntheticAdvance .trimmer) (chained .coast 419 0 2)).tcu.sync = .lost ∧
    (after (.syntheticAdvance .trimmer) (chained .coast 419 0 2)).tcu.count = 20 := by decide +kernel
theorem test_scanEye_creates : ((after (.scanEyeOnEdge .on) (running up)).board.trimmer.map (·.tag)) = [1] ∧
    (after (.scanEyeOnEdge .on) (after (.scanEyeOnEdge .on) (running up))).board.trimmer.map (·.flags.double) = [true] := by
  decide +kernel
theorem test_pickupEye_unknown : ((after (.pickupEyeOnEdge .on) (running up)).board.sorter.map (·.origin)) = [.unknown] := by
  decide +kernel
theorem test_sawFeedback_confirms :
    let s := up.modifySaw 3 fun r => { r with commanded := true, stage := .first, timer := 5, misses := 2 }
    ((after (.sawFeedbackChange 3 true) s).saw 3).stage = .idle ∧ ((after (.sawFeedbackChange 3 true) s).saw 3).misses = 0 := by
  decide +kernel
theorem test_sawWindowExpiry_disables :
    let s := up.modifySaw 3 fun r => { r with commanded := true, stage := .second, misses := 2 }
    ((after (.sawWindowExpiry 3) s).saw 3).enabled = false ∧
    (after (.sawWindowExpiry 3) s).events.entries.map (·.kind) = [.sawMiss, .sawDisabled] := by decide +kernel
theorem test_gatePulseExpiry_closes :
    ((after (.gatePulseExpiry 9) (up.modifyBin 9 fun b => { b with gateOpen := true, pulse := some 3 })).bin 9).gateOpen = false := by
  decide +kernel
theorem test_gateConfirm_completes : ((after (.gateConfirmOnEdge 9 .on) dropping).bin 9).dropped = 10 ∧
    ((after (.gateConfirmOnEdge 9 .on) dropping).bin 9).state = .full ∧
    (after (.gateConfirmOnEdge 9 .on) dropping).tally.live.written = 1 := by decide +kernel
theorem test_confirmWindowExpiry_misses : ((after (.confirmWindowExpiry 9) dropping).bin 9).misses = 1 ∧
    (after (.confirmWindowExpiry 9) dropping).board.sorter.map (·.heldBin) = [0] := by decide +kernel
theorem test_fullSwitch_fills : ((after (.binFullSwitchOnEdge 9 .on) dropping).bin 9).state = .full ∧
    (after (.binFullSwitchOnEdge 9 .on) dropping).events.entries.map (·.detail) = [0] := by decide +kernel
theorem test_keyMarkPush_top : (after (.keyMarkPush .a (.grade 2)) (running up)).gradingA.top = 5 ∧
    (after (.keyMarkPush .a (.cutback 9)) (running up)).gradingA.counts.voids = 1 := by decide +kernel
theorem test_keyUndo_removes : (after (.keyUndo .a) (after (.keyMarkPush .a (.grade 2)) (running up))).gradingA.depth = 0 := by
  decide +kernel
theorem test_keyClr_keeps_top : (after (.keyClr .a) (after (.keyMarkPush .a .reject) (running up))).gradingA.top = 5 := by decide +kernel
theorem test_keyEnt_commits :
    let s := onTrimmer [board 5 0 .scanned] (running { up with tcu := { up.tcu with serial := 4 } })
    let s := { s with gradingA := { s.gradingA with target := some 5 } }
    ((after (.keyEnt .a) (after (.keyMarkPush .a (.grade 2)) s)).board.trimmer.map fun r => r.marks.map (·.byA)) = [some true] ∧
    (after (.keyEnt .a) (after (.keyMarkPush .a (.grade 2)) s)).gradingA.replies = [.accept, .targetOff] := by decide +kernel
theorem test_keypadBadByte_counts : (after (.keypadBadByte .b) up).gradingB.counts.badBytes = 1 := by decide +kernel
theorem test_keypadReplySent_pops :
    (after (.keypadReplySent .a) { up with gradingA := { up.gradingA with replies := [.accept, .missed] } }).gradingA.replies = [.missed] := by
  decide +kernel
theorem test_linkByte_stray : (after (.linkByteReceived .optimizer 0x33 true) up).links.optimizer.stray = 1 ∧
    (after (.linkByteReceived .optimizer 0xF4 true) up).links.optimizer.rx = .frame [] false := by decide +kernel
/-- The frame of FLUSH with request number F4h, whose number is sent escaped, is taken at its last byte (R172) and answered. -/
theorem test_linkBytes_frame :
    (match execAll (frameCommands .tallyStation [0x17, 0xF4]) up with
      | .next t => (t.links.tallyStation.waiting, t.links.tallyStation.taken, lastSent .tallyStation t)
      | .fault _ | .refused _ => ([], 0, [])) = ([], 1, [0x17, 0xF4, 0, 0, 0]) ∧
    (wireFrame [0x17, 0xF4]).take 5 = [0xF4, 0x02, 0x17, 0xF7, 0xD4] := by decide +kernel
theorem test_pause_resume : (after (.pauseReceived .optimizer) up).links.optimizer.txPause = true ∧
    (after (.resumeReceived .optimizer) (after (.pauseReceived .optimizer) up)).links.optimizer.txPause = false := by decide +kernel
theorem test_txFrameSent : (after (.txFrameSent .optimizer)
    (up.setLink .optimizer { up.links.optimizer with tx := [[1], [2]], sending := true })).links.optimizer.tx = [[2]] := by decide +kernel
/-- A link whose TX queue holds 16 frames, the first begun. -/
def stuffed (l : LinkId) (s : State) : State := s.setLink l { s.link l with tx := List.replicate 16 [1], sending := true }
/-- R172: with 16 frames queued a request waits, and the frame sent frees the slot it is taken with, so that a break after it finds no
frame waiting and an empty FLUSH answered. -/
theorem test_txFrameSent_takes :
    let s := after (.flush .tallyStation 9 []) (stuffed .tallyStation up)
    let t := after (.txFrameSent .tallyStation) s
    s.links.tallyStation.waiting = [[0x17, 9]] ∧ s.links.tallyStation.taken = 0 ∧ s.links.tallyStation.tx.length = 16 ∧
    t.links.tallyStation.waiting = [] ∧ t.links.tallyStation.taken = 1 ∧ lastSent .tallyStation t = [0x17, 9, 0, 0, 0] ∧
    t.links.tallyStation.tx.length = 16 := by decide +kernel
theorem test_linkBreak_empties : (after (.linkBreak .lineController) (asked .lineController [1, 2] up)).links.lineController.waiting = [] ∧
    (after (.linkBreak .lineController) up).links.lineController.breaks = 1 := by decide +kernel
theorem test_unknownCode_format : lastSent .optimizer (after (.unknownRequestCode .optimizer 0x80 9 [1])
    (asked .optimizer [0x80, 9, 1] up)) = [0x80, 9, 2, 3] := by decide +kernel

/-- A board of tag 5 at trimmer offset 4, with sizes defined. -/
def posted : State :=
  let s := onTrimmer [board 5 0 .scanned] (running { up with tcu := { up.tcu with serial := 4 } })
  { s with tables := { s.tables with
      size := { thickness := Vector.replicate 4 (some 50), width := Vector.replicate 8 (some 150) },
      saw := { s.tables.saw with places := Vector.replicate 12 (some { position := 4830, nominal := 4800 }) } } }

theorem test_postScan_taken : lastSent .optimizer (after (.postScan .optimizer 9 [0, 5, 0x13, 0x62, 2, 4]) posted) =
      [0x01, 9, 0, 0, 5, 0, 0, 0, 0, 4, 8, 0, 0] ∧
    lastSent .optimizer (after (.postScan .optimizer 9 [0, 6, 0x13, 0x62, 2, 4]) posted) = [0x01, 9, 5, 0, 6] := by decide +kernel
theorem test_postSolution_stored :
    ((after (.postSolution .optimizer 9 [0, 5, 1, 11, 0, 2]) posted).board.trimmer.map fun r => r.solution.map (·.revision)) = [some 1] ∧
    (lastSent .optimizer (after (.postSolution .optimizer 9 [0, 5, 1, 13, 0, 2]) posted)) = [0x02, 9, 7, 0, 5, 1, 1] := by decide +kernel
theorem test_readRecord_length : (lastSent .optimizer (after (.readRecord .optimizer 9 [0, 5]) posted)).length = 103 := by decide +kernel
theorem test_readStatus_range : lastSent .optimizer (after (.readStatus .optimizer 9 [8]) up) = [4, 9, 7] ∧
    (lastSent .optimizer (after (.readStatus .optimizer 9 [7]) up)).length = 51 := by decide +kernel
theorem test_ackAttention_clears :
    let s := up.setRole .lineController { edges := 0x7E, enables := 0x7F }
    lastSent .lineController (after (.ackAttention .lineController 9 [0x0C]) s) = [5, 9, 0, 0x72, 0x7F] := by decide +kernel
theorem test_setAttentionEnable_range : lastSent .optimizer (after (.setAttentionEnable .optimizer 9 [4]) up) = [6, 9, 7] ∧
    (after (.setAttentionEnable .optimizer 9 [3]) up).attention.optimizer.enables = 3 := by decide +kernel
theorem test_setLineMode_bypass_clash : lastSent .lineController (after (.setLineMode .lineController 9 [4, 0, 1]) up) =
    [7, 9, 8, 1, 0, 1, 1] := by decide +kernel
theorem test_forceBoard_stored :
    ((after (.forceBoard .lineController 9 [0, 5, 2, 0, 0, 0, 3]) posted).board.trimmer.map fun r => r.force.bind (·.disposition)) =
      [some .reman] ∧
    lastSent .lineController (after (.forceBoard .lineController 9 [0, 6, 2, 0, 0, 0, 3]) posted) = [8, 9, 5, 0, 6] := by decide +kernel
theorem test_sawDisable_enable : lastSent .lineController (after (.sawDisable .lineController 9 [12]) up) = [0x0A, 9, 0, 12, 0, 0] ∧
    lastSent .lineController (after (.sawEnable .lineController 9 [13]) up) = [9, 9, 7] := by decide +kernel
theorem test_binEmptied_zeroes : ((after (.binEmptied .lineController 9 [9]) dropping).bin 9).dropped = 0 := by decide +kernel
theorem test_binDisable_enable : ((after (.binDisable .lineController 9 [9]) dropping).bin 9).state = .disabled ∧
    ((after (.binEnable .lineController 9 [9]) (after (.binDisable .lineController 9 [9]) dropping)).bin 9).state = .opened := by
  decide +kernel
/-- BIN-UNLOAD's code is a free value, so the request is put into the buffer with whatever code it has. -/
theorem test_binUnload_unloads :
    let s := asked .lineController [binUnloadCode, 9, 9] dropping
    ∃ t, exec (.binUnload .lineController 9 [9]) s = .next t ∧ (t.bin 9).state = .unloading := by
  intro s
  have ready : s.takeable .lineController (requestCode .binUnload :: 9 :: [9]) = true := by
    rw [State.takeable, Bool.and_eq_true]
    exact ⟨decide_eq_true rfl, by decide +kernel⟩
  exact ⟨takeRequest .binUnload .lineController 9 [9] unloadBin s, serve_taken (by decide) (by decide +kernel) ready, by decide +kernel⟩
theorem test_readBins_unfitted : (lastSent .lineController (after (.readBins .lineController 9 [1, 1]) up)).take 4 = [0x0E, 9, 0, 3] := by
  decide +kernel
theorem test_readEvents_one : (lastSent .lineController (after (.readEvents .lineController 9 [8]) (after (.encoderForwardCount .sorter) up))) =
    [0x0F, 9, 0, 1, 0, 0, 0, 0, 0, 0, 5, 2, 0, 0, 0, 0, 0, 0, 0] := by decide +kernel
theorem test_clearEventOverflow : lastSent .lineController (after (.clearEventOverflow .lineController 9 [])
    { up with events := { up.events with overflow := true, lost := 3 } }) = [0x10, 9, 0, 1, 0, 0, 0, 3] := by decide +kernel
theorem test_start_needs_tables : lastSent .lineController (after (.start .lineController 9 []) up) = [0x11, 9, 4, 1, 1] := by decide +kernel
theorem test_restart_posts_lost : (after (.restartTracking .lineController 9 []) posted).tally.live.lost = 1 ∧
    (after (.restartTracking .lineController 9 []) posted).board.line = .config := by decide +kernel
theorem test_loadTable_grade : (after (.loadTable .lineController 9 [4, 0, 1, 0x03, 0xFF, 2]) up).tables.valid.grade = true ∧
    lastSent .lineController (after (.loadTable .lineController 9 [4, 0, 1, 0x03, 0xFF, 11]) up) = [0x13, 9, 7, 1, 2] := by decide +kernel
theorem test_readTable_station : lastSent .lineController (after (.readTable .lineController 9 [5, 0]) up) =
    [0x1D, 9, 0, 5, 0, 0, 3, 6, 7, 10, 12, 14, 17, 127] := by decide +kernel
theorem test_readTableTallyForm_range : lastSent .tallyStation (after (.readTableTallyForm .tallyStation 9 [11, 0]) up) = [0x14, 9, 7] := by
  decide +kernel
theorem test_readSegment_zeros : lastSent .tallyStation (after (.readSegment .tallyStation 9 [0, 255, 1]) up) =
    [0x15, 9, 0, 0] ++ zeros 20 ∧ lastSent .tallyStation (after (.readSegment .tallyStation 9 [0, 255, 2]) up) = [0x15, 9, 7] := by
  decide +kernel
theorem test_releaseSegment_clears :
    lastSent .tallyStation (after (.releaseSegment .tallyStation 9 [0])
      { up with tally := { up.tally with stream := { up.tally.stream with ready := 3, segment := 2 } } }) = [0x16, 9, 0, 1, 2, 1, 2] := by
  decide +kernel
theorem test_flush_empty : lastSent .tallyStation (after (.flush .tallyStation 9 []) up) = [0x17, 9, 0, 0, 0] := by decide +kernel
theorem test_shiftClose_answers : lastSent .tallyStation (after (.shiftClose .tallyStation 9 []) up) =
    [0x18, 9, 0, 0, 1, 0, 0, 0, 0, 0, 0, 0, 0, 1] ∧ (after (.shiftClose .tallyStation 9 []) up).tally.live.shift = 2 := by decide +kernel
theorem test_readMatrix_range : lastSent .tallyStation (after (.readMatrix .tallyStation 9 [2, 11, 1, 1]) up) = [0x19, 9, 7] ∧
    (lastSent .tallyStation (after (.readMatrix .tallyStation 9 [1, 0, 0, 0]) up)).length = 50 := by decide +kernel
theorem test_readClosed_shift : (lastSent .tallyStation (after (.readClosed .tallyStation 9 [1, 0, 0, 0]) up)).take 6 = [0x1A, 9, 0, 0, 0, 0] := by
  decide +kernel
theorem test_priceEdit_clamped : lastSent .tallyStation (after (.priceEdit .tallyStation 9 [1, 2, 10, 1, 0, 0x1E, 0x84, 0x81]) up) =
    [0x1B, 9, 1, 0, 0x1E, 0x84, 0x80] ∧
    lastSent .tallyStation (after (.priceEdit .tallyStation 9 [0, 2, 10, 1, 0, 0, 0, 1]) up) = [0x1B, 9, 9] := by decide +kernel
theorem test_priceSwitch_counts : lastSent .tallyStation (after (.priceSwitch .tallyStation 9 [1]) up) = [0x1C, 9, 0, 1, 0, 0, 0, 1] := by
  decide +kernel
/-- R99, R100 and the worked example of 06_the_trim_decision.md: 50 by 150 by 4,500 mm is 33,750 cm³, 13,922 counts at 412,500. -/
theorem test_value : roundDiv (50 * 150 * 4500) 1000 = 33750 ∧ roundDiv (33750 * 412500) 1000000 = 13922 := by decide

/-! ### Witnesses: states and operands that meet the statements' hypotheses, clause by clause, at the edges of their ranges -/

/-- A state about to run the tick that follows: dividers at their ends. -/
def atTick (settle : Nat) (s : State) : State := { s with timebase := { resetLow := false, div1 := 15, div2 := 999, settle := settle } }

theorem witness_StepRunsFrontCommand : ({ up with pending := [.settlePeriodEnd] } : State).pending = .settlePeriodEnd :: [] := rfl
theorem witness_ClockPeriods :
    State.reset.pending = [] ∧ (∀ l, (State.reset.link l).waiting = [] ∧ (State.reset.link l).control = []) ∧
    State.reset.timebase.resetLow = false ∧ State.reset.timebase.div1 < 15 ∧ (atTick 254 State.reset).timebase.settle + 1 < 256 ∧
    ((atTick 256 up).setUnit .trimmer { up.tcu with stopTimer := some { elapsed := 249, limit := 250 } }).tcu.stopTimer =
      some { elapsed := 249, limit := 250 } ∧
    (atTick 255 State.reset).timebase.settle = 255 ∧ (match step (atTick 255 State.reset) with
      | .next t => t.awake
      | .fault _ | .refused _ => false) = true := by
  refine ⟨rfl, fun l => ?_, rfl, by decide, by decide, rfl, rfl, by decide +kernel⟩
  cases l <;> exact ⟨rfl, rfl⟩
/-- A tick that brings a saw window, a gate pulse and a confirm window to their ends: the window is a miss, the gate closes, the drop is
missed. -/
theorem witness_ClockPeriods_due :
    let s := atTick 256 ((dropping.modifyBin 9 fun b => { b with gateOpen := true, pulse := some 99, pending := [{ tag := 7, elapsed := 99 }] }).modifySaw
      12 fun r => { r with stage := .second, timer := 119 })
    s.pending = [] ∧ 256 ≤ s.timebase.settle ∧ (match step s with
      | .next t => decide ((t.saw 12).misses = 1 ∧ (t.bin 9).gateOpen = false ∧ (t.bin 9).misses = 1 ∧
          t.events.entries.map (·.kind) = [.sawMiss, .gateMiss])
      | .fault _ | .refused _ => false) = true := ⟨rfl, by decide, by decide +kernel⟩
theorem witness_SettlePeriod : State.reset.settling = true ∧ up.settling = false ∧ WellFormed (.keyClr .a) = true ∧ State.reset.awake = false ∧ (∀ b, Instr.keyClr .a ≠ .powerOn b) ∧
    Instr.keyClr .a ≠ .resetnAssert ∧ (∀ b, Instr.keyClr .a ≠ .resetnRelease b) ∧ Instr.keyClr .a ≠ .settlePeriodEnd := by
  refine ⟨by decide +kernel, by decide +kernel, by decide, by decide +kernel, fun _ => ?_, ?_, fun _ => ?_, ?_⟩ <;> simp
theorem witness_EdgesIgnored : up.awake = true ∧ (up.params .sorter).valid = false ∧ up.board.line = .config ∧
    (∃ r ∈ (running { up with board := { up.board with sorter := [sorted 7 9 0] } }).board.sorter, r.sorterOffset up.scu.serial = 0) ∧
    ({ up with standing := { up.standing with scan := true, pickup := true, lugSorter := true } } : State).standing.level .scan = true ∧
    ({ up with standing := { up.standing with confirm := Vector.replicate 48 true } } : State).standing.level (.confirm 48) = true ∧
    ({ up with standing := { up.standing with full := Vector.replicate 48 true } } : State).standing.level (.full 1) = true := by
  decide +kernel
theorem witness_EncoderCounts : up.awake = true ∧
    ¬ (((chained .locked 418 0 0).tcu.sync = .locked ∨ (chained .locked 418 0 0).tcu.sync = .coast) ∧ 400 + 20 ≤ 419) := by decide +kernel
theorem witness_LugEdges : (chained .search 199 0 0).awake = true ∧ (chained .search 199 0 0).standing.level (.lug .trimmer) = false ∧
    ((chained .search 199 0 0).params .trimmer).valid = true ∧ (chained .lost 200 0 3).tcu.sync = .lost ∧
    roundDiv 400 2 ≤ (chained .lost 200 0 3).tcu.count ∧ (chained .search 199 0 0).tcu.count < roundDiv 400 2 ∧
    (chained .search 420 3 0).tcu.good + 1 = 4 := by decide +kernel
theorem witness_LugEdges_tracking : (chained .coast 379 0 1).awake = true ∧ (chained .coast 379 0 1).standing.level (.lug .sorter) = false ∧
    (chained .coast 379 0 1).scu.count < 400 - 20 ∧ 400 - 20 ≤ (chained .locked 380 0 0).scu.count ∧
    (chained .coast 379 0 1).scu.reverse = false ∧ ((chained .coast 379 0 1).params .sorter).valid = true := by decide +kernel
theorem witness_SyntheticAdvance : (chained .coast 419 0 2).awake = true ∧ 400 + 20 ≤ (chained .coast 419 0 2).tcu.count + 1 ∧
    3 ≤ (chained .coast 419 0 2).tcu.miss + 1 ∧ ¬ ((chained .lost 500 0 3).tcu.sync = .locked ∨ (chained .lost 500 0 3).tcu.sync = .coast) := by
  decide +kernel
/-- A queue of a number of entries. -/
def events (n : Nat) : State :=
  let entry : Event := { kind := .chainRun, chain := some .trimmer, serial := 0, subject := 0, detail := 0 }
  { up with events := { up.events with entries := List.replicate n entry } }
theorem witness_EventQueue : (events 127).events.entries.length < 128 ∧ 128 ≤ (events 128).events.entries.length ∧
    (asked .lineController [0x0F, 9, 8] (events 128)).Ready .lineController [0x0F, 9, 8] ∧
    up.events.entries = [] := by
  refine ⟨by decide +kernel, by decide +kernel, ⟨by decide +kernel, .inr rfl, by decide⟩, rfl⟩
theorem witness_ClearEventOverflow : (asked .lineController [0x10, 9] (events 128)).Ready .lineController [0x10, 9] ∧
    128 ≤ (asked .lineController [0x10, 9] (events 128)).events.entries.length ∧
    (asked .lineController [5, 9, 2] (running up)).Ready .lineController [5, 9, 2] :=
  ⟨⟨by decide +kernel, .inr rfl, by decide⟩, by decide +kernel, ⟨by decide +kernel, .inr rfl, by decide⟩⟩
theorem witness_ScanEye : (running up).edgeTaken .scan ∧ (running up).tcu.reverse = false ∧
    (onTrimmer [board 5 0 .scanned] (running up)).trimmerAt 0 0 = some (board 5 0 .scanned) ∧
    (∀ r ∈ (onTrimmer [board 5 0 .scanned] (running { up with tcu := { up.tcu with serial := 1 } })).board.trimmer,
      r.trimmerOffset 1 ≠ 0) := ⟨⟨by decide +kernel, rfl⟩, rfl, rfl, by decide⟩
theorem witness_ScanEye_tag : 1 ≤ ({ posted with board := { posted.board with nextTag := 65535 } } : State).board.nextTag ∧
    ({ posted with board := { posted.board with nextTag := 65535 } } : State).board.nextTag ≤ 65535 ∧ posted.live.length < 65535 := by
  decide +kernel
theorem witness_PickupAllocates :
    let s := running { up with board := { up.board with transfer := [{ board := board 5 0 .inTransfer, age := 1 }], sorter := [sorted 7 9 0] },
                               scu := { up.scu with serial := 1 } }
    s.edgeTaken .pickup ∧ s.board.line = .run ∧ s.scu.reverse = false ∧ (∀ r ∈ s.board.sorter, r.sorterOffset s.scu.serial ≠ 0) ∧
    s.board.transfer = { board := board 5 0 .inTransfer, age := 1 } :: [] ∧ ∀ r ∈ s.board.sorter, r.tag ≠ 5 :=
  ⟨⟨by decide +kernel, rfl⟩, rfl, rfl, by decide, rfl, by decide⟩
theorem witness_PickupAllocates_unknown :
    let s := running { up with board := { up.board with sorter := [sorted 7 9 0] }, scu := { up.scu with serial := 1 } }
    s.edgeTaken .pickup ∧ (∀ r ∈ s.board.sorter, r.sorterOffset s.scu.serial ≠ 0) ∧ s.board.transfer = [] ∧
    ∀ r ∈ s.board.sorter, r.tag ≠ s.nextFreeTag := ⟨⟨by decide +kernel, rfl⟩, by decide, rfl, by decide⟩
theorem witness_SawWindows : up.awake = true ∧ (up.saw 12).stage = .idle ∧ ((up.modifySaw 0 fun r => { r with stage := .second }).saw 0).stage = .second ∧
    ((up.modifySaw 0 fun r => { r with stage := .first }).saw 0).stage = .first ∧ up.sawMode 0 ≠ .retry ∧
    ({ up with tables := { up.tables with saw := { up.tables.saw with modes := Vector.replicate 13 .retry } } } : State).sawMode 12 = .retry := by
  decide +kernel
/-- A TRIM decision at saw 10 of 33,750 cm³. -/
def trim10 : Decision :=
  { kind := .trim, saw := some 10, fence := false, grade := some 2, cls := some 10, volume := 33750, value := 13922,
    disposition := .normal, source := .optimizer, reason := .chosen, index := some 1 }
/-- The board of the worked example at S, decided TRIM at saw 10. -/
def decided : Record := { board 5 0 .decided with scan := some scan4962, decision := some trim10 }
/-- Saws at 4,530 mm, every length saw reaching the board, each DOWN where the decided board commands it. -/
def cutting : State :=
  let s := onTrimmer [decided] (running { up with tcu := { up.tcu with serial := 13 } })
  let s := { s with tables := { s.tables with
      saw := { s.tables.saw with places := Vector.replicate 12 (some { position := 4530, nominal := 4500 }) } } }
  { s with saws := { s.saws with recs := Vector.ofFn fun i => { s.saws.recs[i] with feedback := decide (10 ≤ i.val) } } }
/-- A saw outcome of a board cut at saw 10. -/
def outcome10 : SawOutcome :=
  { pattern := Vector.replicate 13 false, snapshot := Vector.replicate 13 false, result := .cls 10, grade := some 2, disposition := .normal,
    volume := 33750, value := 13922 }
/-- Boards one advance before O, K, S and D, the one before K decided TRASH, a position A target one advance before its high line's end,
a board of the transfer queue at its last age and one on the sorter at the drop line of bin 9 but one: in a sync state at a count. -/
def advancing (sync : Sync) (count : Nat) : State :=
  let c := chained sync count 0 2
  let d := running dropping
  { d with
    tcu := { c.tcu with serial := 20 }, scu := { c.scu with serial := 39 }
    tables := { d.tables with settings := c.tables.settings }
    board := { d.board with
      trimmer := [{ board 1 4 .cut with decision := some trim10, outcome := some outcome10 },
                  { board 2 6 .set with decision := some { trim10 with kind := .trash } },
                  { decided with creation := 7 }, board 3 9 .scanned, board 4 14 .scanned]
      transfer := [{ board := { board 6 0 .inTransfer with outcome := some outcome10 }, age := 4 }]
      sorter := [{ sorted 7 9 0 with outcome := some outcome10 }] }
    gradingA := { d.gradingA with target := some 4, slots := Vector.replicate 6 (.valid .reject) } }
theorem advancing_placed : BoardsPlaced (advancing .locked 400) where
  distinct := by decide +kernel
  tags := by decide +kernel
  counter := by decide +kernel
  trimmerOrder := by decide +kernel
  trimmerReach := by decide +kernel
  sorterOrder := by decide +kernel
  sorterReach := by decide +kernel
  transferSize := by decide +kernel
  stations := by decide +kernel
  idleLine := by decide +kernel
theorem advancing_lives : LivesPlaced (advancing .locked 400) where
  placed := advancing_placed
  scanned := by decide +kernel
  decided := by decide +kernel
  set := by decide +kernel
  cut := by decide +kernel
  transfer := by decide +kernel
  sorter := by decide +kernel
theorem advancing_advances (ch : Chain) : (advancing .locked 400).advances ch true ∧ (advancing .coast 419).advances ch false := by
  cases ch <;> exact ⟨⟨⟨by decide +kernel, rfl⟩, rfl, rfl, by show 400 - 20 ≤ 400; omega⟩,
    ⟨by decide +kernel, .inr rfl, by decide +kernel⟩⟩
theorem witness_TrimmerAdvance : LivesPlaced (advancing .locked 400) ∧ (advancing .locked 400).advances .trimmer true ∧
    (advancing .coast 419).advances .trimmer false ∧ (advancing .locked 400).board.line = .run ∧
    (after (.lugEyeOnEdge .trimmer .on) (advancing .locked 400)).board.trimmer.map (fun r => (r.tag, r.life)) =
      [(5, .set), (3, .decided), (4, .scanned)] ∧
    (after (.lugEyeOnEdge .trimmer .on) (advancing .locked 400)).board.transfer.map (·.board.tag) = [6, 1] ∧
    (after (.lugEyeOnEdge .trimmer .on) (advancing .locked 400)).tally.live.trash = 1 :=
  ⟨advancing_lives, (advancing_advances .trimmer).1, (advancing_advances .trimmer).2, rfl, by decide +kernel⟩
theorem witness_PatternSet : decided.flags.suspect = false ∧ decided.decision = some trim10 ∧ trim10.kind = .trim ∧ trim10.saw = some 10 ∧
    (board 5 0 .scanned).decision = none ∧ ({ trim10 with kind := .trash } : Decision).kind = .trash ∧
    LivesPlaced (advancing .locked 400) ∧ (advancing .locked 400).advances .trimmer true ∧ (advancing .locked 400).board.line = .run :=
  ⟨rfl, rfl, rfl, rfl, rfl, rfl, advancing_lives, (advancing_advances .trimmer).1, rfl⟩
/-- R123: a saw that RESTART-TRACKING finds DOWN is commanded UP with no window, and the next advance in RUN, which keeps it UP, starts its
first window; a saw of mode NONE has no window. -/
theorem test_restart_leaves_down :
    let s := chained .locked 0 0 0
    let s := { s with tables := { s.tables with saw := { s.tables.saw with modes := Vector.ofFn fun i => if i.val = 3 then .none else .confirm } } }
    let s := (s.modifySaw 2 fun r => { r with commanded := true, feedback := true }).modifySaw 3 fun r => { r with feedback := true }
    let t := after (.restartTracking .lineController 9 []) (asked .lineController [0x12, 9] s)
    let u := after (.lugEyeOnEdge .trimmer .on)
      (running { t with tcu := { t.tcu with sync := .locked, count := 400 } })
    (t.saw 2).commanded = false ∧ (t.saw 2).leftDown = true ∧ (t.saw 2).stage = .idle ∧ (u.saw 2).stage = .first ∧
      (u.saw 2).leftDown = false ∧ (u.saw 3).stage = .idle ∧ (u.saw 4).stage = .idle := by decide +kernel
theorem witness_MarkAdvance : (advancing .locked 400).advances .trimmer true ∧
    (after (.lugEyeOnEdge .trimmer .on) (advancing .locked 400)).gradingA.replies = [.missed, .targetOff] :=
  ⟨(advancing_advances .trimmer).1, by decide +kernel⟩
theorem witness_SorterAdvance : (advancing .locked 400).advances .sorter true ∧ (advancing .coast 419).advances .sorter false ∧
    (after (.lugEyeOnEdge .sorter .on) (advancing .locked 400)).board.transfer = [] ∧
    (after (.lugEyeOnEdge .sorter .on) (advancing .locked 400)).board.sorter.map (·.life) = [.dropping] :=
  ⟨(advancing_advances .sorter).1, (advancing_advances .sorter).2, by decide +kernel⟩
/-- The sorter board meets the drop line of its bin at serial 40 and the runout line at 127. -/
theorem witness_DropLine :
    let r : Record := { sorted 7 9 0 with outcome := some outcome10 }
    byTag (advancing .locked 400).board.sorter 7 = some r ∧ r.sort = some (part 9) ∧ (part 9).bin = 9 ∧ r.life = .onSorter ∧
    r.sorterOffset 40 = 40 ∧ ((advancing .locked 400).bin 9).items = some items ∧ items.drop = 40 ∧
    ((advancing .locked 400).bin 9).state = .opened ∧ r.sorterOffset 127 = (advancing .locked 400).tables.station.runout := by
  decide +kernel
/-- The same board SUSPECT, its bin FULL, its bin holding 4 drops, its bin in mode NONE with route NONE: at the drop line. -/
theorem witness_DropLine_clauses :
    let s := advancing .locked 400
    let sorter (f : Record → Record) : State := { s with board := { s.board with sorter := s.board.sorter.map f } }
    let suspect := sorter fun r => { r with flags := { r.flags with suspect := true } }
    let full := s.modifyBin 9 fun b => { b with state := .full }
    let holding := s.modifyBin 9 fun b => { b with pending := List.replicate 4 { tag := 8, elapsed := 0 } }
    let none_ := (sorter fun r => { r with sort := some { part 9 with route := .nowhere } }).modifyBin 9 fun b =>
      { b with items := some { items with confirm := false } }
    (suspect.board.sorter.map (·.flags.suspect)) = [true] ∧ (sorterLine 40 7 suspect).sort.counts.suspectPasses = 1 ∧
    (full.bin 9).state = .full ∧ (sorterLine 40 7 full).sort.counts.reroutes = 1 ∧
    (holding.bin 9).pending.length = 4 ∧ (sorterLine 40 7 holding).sort.counts.pendingFull = 1 ∧
    (none_.bin 9).items.map (·.confirm) = some false ∧ (sorterLine 40 7 none_).board.sorter = [] ∧
    (sorterLine 40 7 none_).tally.live.reject = 1 := by decide +kernel
theorem witness_ProductRoute : (productKey { decided with outcome := some outcome10 }) =
      { grade := some 2, cls := some 10, width := some 4, disposition := .normal } ∧ up.decision.mode.sort = .byProduct ∧
    ({ up with tables := { up.tables with rules := [{ grades := 2, lo := 10, hi := 10, widths := 8, group := 24 }] } } : State).routeKind
      { grade := some 2, cls := some 10, width := some 4, disposition := .normal } = .group 24 := by decide +kernel
theorem witness_CutAsDecided : decided.scan = some scan4962 ∧ trim10.cls = some 10 ∧ (cutting.saw 10).enabled = true ∧
    cutting.sawPlace 10 = some { position := 4530, nominal := 4500 } ∧ 4530 < scan4962.length ∧ 4500 ≤ 4530 ∧
    (trim10.fence = true → 4500 + cutting.tables.settings.fence ≤ 4530) ∧
    ∀ j < 13, (cutting.saw j).feedback = cutting.patternDown decided j := by decide +kernel
/-- A force with one field given. -/
def forced (kind : ForceKind) : Record :=
  { decided with force := some { kind := some kind, fence := none, grade := none, disposition := none } }
theorem witness_DecisionPrecedence : ({ decided with flags := { decided.flags with suspect := true } } : Record).flags.suspect = true ∧
    (forced .trash).force.bind (·.kind) = some .trash ∧ (forced .noTrim).force.bind (·.kind) = some .noTrim ∧
    decided.force.bind (·.kind) = none ∧ up.decision.mode.saws = .auto ∧ (board 5 0 .scanned).scan = none ∧
    ({ up.decision with mode := { saws := .bypass, sort := .allRunout } } : DecisionUnit).mode.sort ≠ .byProduct := by decide +kernel
theorem witness_DecisionPrecedence_trim : (forced (.trim 10)).force.bind (·.kind) = some (.trim 10) ∧ cutting.usable 10 = true ∧
    (forced (.trim 12)).scan = some scan4962 ∧ (forced (.trim 12)).flags.suspect = false ∧ decided.flags.double = false ∧
    (∀ c ∈ (decided.solution.map (·.candidates)).getD [], 1 ≤ c.saw) ∧ (cutting.decideBoard decided).reason = .noSolution ∧
    ({ up.decision with mode := { saws := .fixed 12, sort := .byProduct } } : DecisionUnit).mode.saws = .fixed 12 := by decide +kernel
theorem witness_TrimDecisionsFeasible : (cutting.decideBoard decided).kind = .trim := by decide +kernel
theorem witness_SelectionRule : cutting.best scan4962 [{ saw := 10, fence := false, grade := 2, index := some 1 }] =
    some { saw := 10, fence := false, grade := 2, index := some 1 } := by decide +kernel
theorem witness_SelectionRule_figures : 1 ≤ scan4962.thickness ∧ 1 ≤ scan4962.width ∧ (1 ≤ 10 ∧ 10 ≤ 12) ∧
    entryD posted.tables.size.thickness (scan4962.thickness - 1) none = some 50 ∧
    entryD posted.tables.size.width (scan4962.width - 1) none = some 150 ∧
    entryD posted.tables.saw.places (10 - 1) none = some { position := 4830, nominal := 4800 } := by decide +kernel
/-- Position A's stack with every slot at one value. -/
def stacked (x : Slot) : State := running { up with gradingA := { up.gradingA with slots := Vector.replicate 6 x } }
theorem witness_MarkKeys : (running up).awake = true ∧ (MarkKey.grade 10).isKey = true ∧ (stacked (.valid .reject)).gradingA.slots[5] ≠ .empty ∧
    (running up).gradingA.slots[5] = .empty := by decide +kernel
theorem witness_MarkUndoClr : (running up).board.line = .run ∧ (∃ i : Fin 6, (stacked (.void (.grade 2))).gradingA.slots[i] ≠ .empty) ∧
    (∀ i : Fin 6, (running up).gradingA.slots[i] = .empty) ∧ (stacked (.void (.grade 2))).gradingA.Contiguous :=
  ⟨rfl, ⟨0, by decide +kernel⟩, by decide +kernel, ⟨6, by omega, by decide +kernel⟩⟩
theorem witness_MarkEnt : (running up).gradingA.target = none ∧
    ({ posted with gradingA := { posted.gradingA with target := some 5 } } : State).gradingA.target = some 5 ∧
    posted.board.line = .run ∧ posted.awake = true := by decide +kernel
/-- R62, R69: with two grade keys on the stack the one at TOP, the newest, is written. -/
theorem test_keyEnt_newest :
    let g := { posted.gradingA with target := some 5, top := 4, slots := (posted.gradingA.slots.set 4 (.valid (.grade 3))).set 5 (.valid (.grade 7)) }
    (after (.keyEnt .a) { posted with gradingA := g }).board.trimmer.map (fun r => (r.marks.bind (·.grade)).map (·.value)) = [some 3] := by
  decide +kernel
theorem witness_MarkKeys_config : up.awake = true ∧ up.board.line = .config ∧ (MarkKey.cutback 12).isKey = true := by decide +kernel
theorem witness_GateInputs : dropping.edgeTaken (.confirm 9) ∧ (dropping.bin 9).pending = { tag := 7, elapsed := 0 } :: [] ∧
    byTag dropping.board.sorter 7 = some { sorted 7 9 0 with life := .dropping } ∧ (sorted 7 9 0).sort = some (part 9) ∧
    (dropping.bin 48).pending = [] := ⟨⟨by decide +kernel, rfl⟩, by decide +kernel, by decide +kernel, rfl, by decide +kernel⟩
theorem witness_ConfirmWindowExpiry : (dropping.bin 9).pending = { tag := 7, elapsed := 0 } :: [] ∧ (dropping.bin 1).pending = [] ∧
    dropping.awake = true ∧ byTag dropping.board.sorter 7 = some { sorted 7 9 0 with life := .dropping } := by decide +kernel
theorem witness_GateInputs_switch : dropping.edgeTaken (.full 48) ∧ dropping.edgeTaken (.full 1) := ⟨⟨by decide +kernel, rfl⟩, ⟨by decide +kernel, rfl⟩⟩
/-- A link with a frame begun and a full TX queue, on which a FLUSH waits. -/
def held : State := stuffed .tallyStation (asked .tallyStation [0x17, 9] up)
theorem witness_LinkControls : up.awake = true ∧ (up.link .tallyStation).sending = false ∧ (up.link .tallyStation).waiting = [] ∧
    ((stuffed .tallyStation up).link .tallyStation).sending = true ∧ held.awake = true ∧ (held.link .tallyStation).sending = true ∧
    (held.link .tallyStation).tx.length = 16 ∧ (held.link .tallyStation).waiting = [0x17, 9] :: [] ∧
    decodeRequest .tallyStation [0x17, 9] = some (.flush .tallyStation 9 []) := by decide +kernel
theorem witness_ByteReceived : up.awake = true ∧ up.links.optimizer.waiting = [] ∧ (held.link .tallyStation).waiting ≠ [] ∧
    (held.link .tallyStation).tx.length = 16 ∧ up.links.optimizer.rx = .hunt ∧
    ({ up.links.optimizer with rx := .frame [] false } : LinkState).rx = .frame [] false ∧ up.links.optimizer.rxPause = false ∧
    ((1 : Byte).toNat < 2 ∧ 240 < (241 : Byte).toNat) ∧ ((0x33 : Byte) ≠ 0xF5 ∧ (0x33 : Byte) ≠ 0xF6) := by decide +kernel
/-- A link with a fill of 881 bytes waiting for a slot of its full TX queue. -/
def filled : State := stuffed .optimizer (up.setLink .optimizer { up.links.optimizer with
  waiting := [List.replicate 240 0, List.replicate 240 0, List.replicate 240 0, List.replicate 149 0] })
theorem witness_WireFrameReceived : filled.awake = true ∧ (filled.link .optimizer).tx.length = 16 ∧
    WellFormed (.flush .tallyStation 9 []) = true ∧ encodeRequest (.flush .tallyStation 9 []) = some (.tallyStation, [0x17, 9]) ∧
    (up.link .tallyStation).waiting = [] ∧ (held.link .tallyStation).waiting ≠ [] ∧ (filled.link .optimizer).rx = .hunt ∧ 2 ≤ [0x18#8, 0x01#8].length ∧
    (List.replicate 240 0x18#8).length ≤ 240 ∧ (filled.link .optimizer).fill + (140 + 3) = 1024 ∧
    (up.link .optimizer).fill + (240 + 3) ≤ 1024 := by decide +kernel
/-- A request whose frame is still to arrive is ready on a link with nothing waiting, in every receiver state: here within another frame. -/
theorem witness_Ready_arrival : ({ up with links := { up.links with optimizer := { up.links.optimizer with rx := .frame [9] true } } } :
    State).Ready .optimizer [4, 9, 7] := ⟨by decide +kernel, .inl rfl, by decide⟩
theorem witness_DecodeEncodeRequests : WellFormed (.flush .tallyStation 9 []) = true ∧
    encodeRequest (.flush .tallyStation 9 []) = some (.tallyStation, [0x17, 9]) := by decide +kernel
theorem witness_RequestChecks : requestParts (.flush .optimizer 9 [1]) = some (.optimizer, 0x17, 9, [1]) ∧
    (asked .optimizer [0x17, 9, 1] up).awake = true ∧ ((asked .optimizer [0x17, 9, 1] up).link .optimizer).waiting.head? = some [0x17, 9, 1] ∧
    (((asked .optimizer [0x17, 9, 1] up).link .optimizer).tx.length < 16 ∧
      ((stuffed .optimizer (asked .optimizer [0x17, 9, 1] up)).link .optimizer).tx.length = 16) ∧
    up.links.optimizer.waiting = [] ∧ WellFormed (.flush .optimizer 9 [1]) = true ∧ hasRight .optimizer .flush = false ∧ hasRight .tallyStation .flush = true ∧
    formOk .flush [1] = false ∧ requestOfCode 0x80 = none ∧ requestOfCode 0x17 = some .flush := by decide +kernel
/-- The clauses of POST-SCAN: no such tag, past D, Ls at 299 and 7,501, a code not defined, and a scan taken at Ls 7,500. -/
theorem witness_PostScan : (asked .optimizer [0x01, 9, 0, 5, 0x1D, 0x4C, 2, 4] posted).Ready .optimizer [0x01, 9, 0, 5, 0x1D, 0x4C, 2, 4] ∧
    posted.locate 5 = some (board 5 0 .scanned, .trimmer 4) ∧ posted.locate 6 = none ∧ 4 < posted.tables.station.decision ∧
    cutting.locate 5 = some (decided, .trimmer 13) ∧ cutting.tables.station.decision ≤ 13 ∧ fieldAt [0, 5, 0x1D, 0x4C, 2, 4] 2 2 = 7500 ∧
    fieldAt [0, 5, 0x01, 0x2B, 2, 4] 2 2 = 299 ∧ posted.thicknessDefined 4 = true ∧ posted.thicknessDefined 5 = false ∧
    posted.widthDefined 8 = true ∧ posted.widthDefined 9 = false ∧ ∀ x ∈ posted.board.trimmer, x.tag = 5 → x = board 5 0 .scanned :=
  ⟨⟨by decide +kernel, .inr rfl, by decide⟩, by decide +kernel⟩
theorem witness_PostSolution : (asked .optimizer [0x02, 9, 0, 5, 1, 12, 1, 10] posted).Ready .optimizer [0x02, 9, 0, 5, 1, 12, 1, 10] ∧
    posted.locate 5 = some (board 5 0 .scanned, .trimmer 4) ∧ 4 < posted.tables.station.decision ∧ posted.locate 6 = none ∧
    cutting.locate 5 = some (decided, .trimmer 13) ∧ fieldsFit [0, 5, 1, 12, 1, 10] = true ∧ (fieldAt [0, 5, 9] 2 1 = 9 ∧ fieldAt [0, 5, 1, 12, 1, 10] 2 1 = 1) ∧
    (∀ i < 1, 1 ≤ fieldAt [0, 5, 1, 12, 1, 10] (3 + 3 * i) 1 ∧ fieldAt [0, 5, 1, 12, 1, 10] (3 + 3 * i) 1 ≤ 12) :=
  ⟨⟨by decide +kernel, .inr rfl, by decide⟩, by decide +kernel⟩
theorem witness_ModesAndSaws : (asked .lineController [7, 9, 2, 12, 3] posted).Ready .lineController [7, 9, 2, 12, 3] ∧
    (posted.saw 12).enabled = true ∧ posted.sawPlace 12 ≠ none ∧ up.sawPlace 12 = none ∧
    ((up.modifySaw 1 fun r => { r with enabled := false }).saw 1).enabled = false := ⟨⟨by decide +kernel, .inr rfl, by decide⟩, by decide +kernel⟩
theorem witness_ForceBoard : (asked .lineController [8, 9, 0, 5, 1, 12, 1, 0, 3] cutting).Ready .lineController [8, 9, 0, 5, 1, 12, 1, 0, 3] ∧
    cutting.locate 5 = some (decided, .trimmer 13) ∧ 13 < cutting.tables.station.sawSet ∧ decided.life = .decided ∧
    ((cutting.saw 12).enabled = true ∧ cutting.sawPlace 12 ≠ none) ∧ (∀ x ∈ cutting.board.trimmer, x.tag = 5 → x = decided) ∧
    posted.locate 6 = none ∧ (board 5 0 .scanned).life ≠ .decided ∧
    ({ cutting with tcu := { cutting.tcu with serial := 14 } } : State).locate 5 = some (decided, .trimmer 14) :=
  ⟨⟨by decide +kernel, .inr rfl, by decide⟩, by decide +kernel⟩
theorem witness_ModesAndSaws_services : (asked .lineController [9, 9, 12] up).Ready .lineController [9, 9, 12] ∧
    (asked .lineController [0x0A, 9, 13] up).Ready .lineController [0x0A, 9, 13] :=
  ⟨⟨by decide +kernel, .inr rfl, by decide⟩, ⟨by decide +kernel, .inr rfl, by decide⟩⟩
theorem witness_BinCommands : (asked .lineController [binUnloadCode, 9, 9] dropping).Ready .lineController [binUnloadCode, 9, 9] ∧
    (asked .lineController [0x0B, 9, 49] dropping).Ready .lineController [0x0B, 9, 49] ∧
    (asked .lineController [0x0C, 9, 1] dropping).Ready .lineController [0x0C, 9, 1] ∧
    (asked .lineController [0x0D, 9, 48] dropping).Ready .lineController [0x0D, 9, 48] ∧ (dropping.bin 9).items = some items ∧
    (dropping.bin 9).state ≠ .disabled ∧ (dropping.bin 48).items = none ∧ (dropping.bin 1).state = .disabled :=
  ⟨⟨by decide +kernel, .inr rfl, by decide⟩, ⟨by decide +kernel, .inr rfl, by decide⟩, ⟨by decide +kernel, .inr rfl, by decide⟩,
    ⟨by decide +kernel, .inr rfl, by decide⟩, by decide +kernel⟩
theorem witness_AttentionRequests : (asked .tallyStation [5, 9, 7] up).Ready .tallyStation [5, 9, 7] ∧
    (asked .tallyStation [6, 9, 8] up).Ready .tallyStation [6, 9, 8] ∧ (7 : Byte) &&& ~~~0x07#8 = 0 ∧ (8 : Byte) &&& ~~~0x07#8 ≠ 0 :=
  ⟨⟨by decide +kernel, .inr rfl, by decide⟩, ⟨by decide +kernel, .inr rfl, by decide⟩, by decide⟩
/-- Every loadable table valid and nothing cross-checked failing: START would be taken. -/
def loaded : State :=
  let s := (chained .search 0 0 0).modifyBin 9 fun b => { b with items := some items, state := .opened }
  { s with tables := { s.tables with valid :=
      { settings := true, saw := true, size := true, grade := true, station := true, bin := true, binGroup := true, sortRule := true } } }
theorem witness_LineStateRequests : (asked .lineController [0x11, 9] loaded).Ready .lineController [0x11, 9] ∧
    loaded.board.line = .config ∧ (running up).board.line = .run ∧ loaded.startFault = none ∧ up.startFault = some (.settings, 1) ∧
    lastSent .lineController (after (.start .lineController 9 []) loaded) = [0x11, 9, 0] :=
  ⟨⟨by decide +kernel, .inr rfl, by decide⟩, by decide +kernel⟩
theorem witness_LineStateRequests_restart : (asked .lineController [0x12, 9] posted).Ready .lineController [0x12, 9] ∧
    posted.tally.live.lost + posted.live.length ≤ 4294967295 := ⟨⟨by decide +kernel, .inr rfl, by decide⟩, by decide +kernel⟩
/-- A restart from RUN with both chains LOCKED and a target: the postings, the two SYNC-CHANGE events and TARGET-OFF. -/
theorem test_restart_events :
    let s := asked .lineController [0x12, 9] (advancing .locked 400)
    let t := after (.restartTracking .lineController 9 []) s
    t.events.entries.map (fun e => (e.kind, e.chain)) = [(.syncChange, some .trimmer), (.syncChange, some .sorter)] ∧
    t.gradingA.replies = [.targetOff] ∧ t.attention.lineController.edges = 0x60 ∧ t.attention.optimizer.edges = 3 ∧
    t.tally.live.lost = 7 := by decide +kernel
/-- Stations in the order the load asks for. -/
def stations : StationTable := { aLo := 3, aHi := 6, bLo := 7, bHi := 10, decision := 12, sawSet := 14, outfeed := 15, runout := 1 }
/-- A load of a table that waits on link 1 in CONFIG, its part numbered 0 or expected. -/
def loading (table : TableId) (part : Nat) (staged bytes : List Byte) : State :=
  asked .lineController (0x13 :: 9 :: BitVec.ofNat 8 table.code :: BitVec.ofNat 8 part :: 1 :: bytes)
    { up with tables := { up.tables with
        staging := if part = 0 then none else some { table := table, expected := some part, bytes := staged } } }
theorem witness_LoadTable : (asked .lineController [0x13, 9, 5, 0, 1, 3, 6, 7, 10, 12, 14, 15, 1] up).Ready .lineController
      [0x13, 9, 5, 0, 1, 3, 6, 7, 10, 12, 14, 15, 1] ∧ up.board.line = .config ∧ (running up).board.line = .run ∧
    up.tables.staging = none ∧ stationFault stations = none ∧ (stationFault { stations with outfeed := 61 }).isSome = true ∧
    (loading .sortRule 7 [] []).tables.staging = some { table := .sortRule, expected := some 7, bytes := [] } ∧
    (8 : Byte).toNat = TableId.sortRule.code ∧ (List.replicate 48 (0 : Byte)).length % 6 = 0 :=
  ⟨⟨by decide +kernel, .inr rfl, by decide⟩, by decide +kernel⟩
theorem witness_LoadSawSizeGrade : (loading .grade 0 [] [0x03, 0xFF, 10]).loads 9 .grade 0 true [] [0x03, 0xFF, 10] ∧
    (loading .saw 1 (List.replicate 73 1) []).loads 9 .saw 1 true (List.replicate 73 1) [] ∧
    (loading .size 0 [] (List.replicate 36 0)).loads 9 .size 0 true [] (List.replicate 36 0) ∧
    (loading .station 0 [] []).loads 9 .station 0 true [] [] := by
  refine ⟨⟨⟨by decide +kernel, .inr rfl, by decide⟩, by decide, rfl, by decide, by simp, .inl ⟨rfl, rfl⟩⟩,
    ⟨⟨by decide +kernel, .inr rfl, by decide⟩, by decide, rfl, by decide, by simp, .inr ⟨by decide, rfl⟩⟩,
    ⟨⟨by decide +kernel, .inr rfl, by decide⟩, by decide, rfl, by decide, by simp, .inl ⟨rfl, rfl⟩⟩,
    ⟨⟨by decide +kernel, .inr rfl, by decide⟩, by decide, rfl, by decide, by simp, .inl ⟨rfl, rfl⟩⟩⟩
/-- The entry of a bin, pulse 1,001 ms to be clamped. -/
def binBytes (bin : Byte) : List Byte := [bin, 126, 0x0F, 0xA0, 0, 8, 0, 5, 0x03, 0xE9, 2, 0, 100]
theorem witness_LoadBins : (loading .bin 7 (binBytes 1) (binBytes 48)).loads 9 .bin 7 true (binBytes 1) (binBytes 48) ∧
    (binBytes 1 ++ binBytes 48).length ≤ 624 ∧ fieldAt (binBytes 48) 2 2 = 4000 :=
  ⟨⟨⟨by decide +kernel, .inr rfl, by decide⟩, by decide, rfl, by decide, by simp, .inr ⟨by decide, rfl⟩⟩, by decide⟩
theorem test_loadBins_two_parts :
    ((after (.loadTable .lineController 9 (6 :: 1 :: 1 :: binBytes 48)) (loading .bin 1 (binBytes 1) (binBytes 48))).bin 48).state = .opened ∧
    (after (.loadTable .lineController 9 (6 :: 1 :: 1 :: binBytes 48)) (loading .bin 1 (binBytes 1) (binBytes 48))).tables.valid.bin = true := by
  decide +kernel
/-- R175: a second bin-group entry set, in a part after a whole one, is beyond the one entry set. -/
theorem test_loadGroups_second_set : lastSent .lineController
    (after (.loadTable .lineController 9 [7, 1, 1, 0, 0, 0]) (loading .binGroup 1 [0, 0, 0, 1, 1, 9] [0, 0, 0])) = [0x13, 9, 7, 0, 0] := by
  decide +kernel
theorem witness_LoadGroupsRules : (loading .binGroup 0 [] [48, 0, 0, 24, 1, 48]).loads 9 .binGroup 0 true [] [48, 0, 0, 24, 1, 48] ∧
    (loading .binGroup 1 [0, 0, 0] [0, 0, 0]).loads 9 .binGroup 1 true [0, 0, 0] [0, 0, 0] ∧
    (loading .sortRule 1 [3, 255, 1, 12, 255, 24] [0, 1, 12, 12, 1, 1]).loads 9 .sortRule 1 true [3, 255, 1, 12, 255, 24]
      [0, 1, 12, 12, 1, 1] :=
  ⟨⟨⟨by decide +kernel, .inr rfl, by decide⟩, by decide, rfl, by decide, by simp, .inl ⟨rfl, rfl⟩⟩,
    ⟨⟨by decide +kernel, .inr rfl, by decide⟩, by decide, rfl, by decide, by simp, .inr ⟨by decide, rfl⟩⟩,
    ⟨⟨by decide +kernel, .inr rfl, by decide⟩, by decide, rfl, by decide, by simp, .inr ⟨by decide, rfl⟩⟩⟩
/-- A settings entry with both chains, E of the sorter to be clamped. -/
def settingsBytes : List Byte := [0, 20, 0, 15, 0, 120, 3, 4, 1, 1, 144, 0, 20, 0, 250, 1, 1, 144, 0, 200, 0, 250]
theorem witness_SettingsLoad : (loading .settings 0 [] settingsBytes).loads 9 .settings 0 true [] settingsBytes ∧ settingsBytes.length = 22 ∧
    (fieldAt settingsBytes 8 1 = 1 ∧ fieldAt settingsBytes 9 2 = 400 ∧ fieldAt settingsBytes 18 2 = 200) :=
  ⟨⟨⟨by decide +kernel, .inr rfl, by decide⟩, by decide, rfl, by decide, by simp, .inl ⟨rfl, rfl⟩⟩, by decide⟩
theorem witness_Reads : hasRight .optimizer .readStatus = true ∧ formOk .readStatus [7] = true ∧
    (asked .optimizer [4, 9, 7] up).Ready .optimizer [4, 9, 7] := ⟨by decide, by decide, by decide +kernel, .inr rfl, by decide⟩
theorem witness_Reads_contents : (asked .optimizer [3, 9, 0, 5] posted).Ready .optimizer [3, 9, 0, 5] ∧ posted.locate 6 = none ∧
    (asked .tallyStation [0x15, 9, 3, 246, 10] up).Ready .tallyStation [0x15, 9, 3, 246, 10] ∧
    (asked .tallyStation [0x19, 9, 2, 10, 12, 1] up).Ready .tallyStation [0x19, 9, 2, 10, 12, 1] ∧
    (asked .tallyStation [0x1A, 9, 1, 0, 0, 0] up).Ready .tallyStation [0x1A, 9, 1, 0, 0, 0] ∧
    (asked .tallyStation [0x19, 9, 2, 10, 10, 3] up).Ready .tallyStation [0x19, 9, 2, 10, 10, 3] ∧
    (asked .lineController [0x0E, 9, 37, 12] up).Ready .lineController [0x0E, 9, 37, 12] ∧
    (asked .lineController [0x0E, 9, 48, 1] up).Ready .lineController [0x0E, 9, 48, 1] ∧
    statusPage (up.modifyLink .optimizer LinkState.takeFrame) .optimizer 7 = some up.sort.counts.bytes :=
  ⟨⟨by decide +kernel, .inr rfl, by decide⟩, by decide +kernel, ⟨by decide +kernel, .inr rfl, by decide⟩, ⟨by decide +kernel, .inr rfl, by decide⟩,
    ⟨by decide +kernel, .inr rfl, by decide⟩, ⟨by decide +kernel, .inr rfl, by decide⟩, ⟨by decide +kernel, .inr rfl, by decide⟩,
    ⟨by decide +kernel, .inr rfl, by decide⟩, rfl⟩
/-- READ-TABLE at the last part of each kind of table, and a part past it. -/
theorem witness_ReadTables :
    (asked .lineController [0x1D, 9, 10, 9] up).Ready .lineController [0x1D, 9, 10, 9] ∧
    (asked .lineController [0x1D, 9, 6, 7] up).Ready .lineController [0x1D, 9, 6, 7] ∧
    (asked .tallyStation [0x14, 9, 7, 0] up).Ready .tallyStation [0x14, 9, 7, 0] ∧
    (asked .tallyStation [0x14, 9, 8, 8] up).Ready .tallyStation [0x14, 9, 8, 8] ∧ LinkId.lineController ≠ .optimizer :=
  ⟨⟨by decide +kernel, .inr rfl, by decide⟩, ⟨by decide +kernel, .inr rfl, by decide⟩, ⟨by decide +kernel, .inr rfl, by decide⟩,
    ⟨by decide +kernel, .inr rfl, by decide⟩, by decide⟩
/-- Groups are read by rising number, whatever the order of the load: group 24 before group 3. -/
theorem test_readTable_groups : lastSent .lineController (after (.readTable .lineController 9 [7, 0])
    ((after (.loadTable .lineController 9 [7, 0, 1, 0, 0, 0, 24, 1, 9, 3, 1, 8]) up))) =
      [0x1D, 9, 0, 7, 0, 1, 0, 0, 0, 3, 1, 8, 24, 1, 9] := by decide +kernel
/-- The writer BLOCKED on segment 1, with or without a trailer pending. -/
def blocked (trailer : Option PendingTrailer) : State :=
  { up with tally := { up.tally with stream := { up.tally.stream with ready := 15, blocked := true, segment := 1, trailer := trailer } } }
theorem witness_StreamAndShift : (asked .tallyStation [0x16, 9, 1] (blocked none)).Ready .tallyStation [0x16, 9, 1] ∧
    (blocked none).tally.stream.trailer = none ∧ (blocked none).tally.stream.blocked = true ∧ (blocked none).tally.stream.segment.val = 1 ∧
    (blocked (some { shift := 1, dropped := 0 })).tally.stream.trailer = some { shift := 1, dropped := 0 } ∧
    (asked .tallyStation [0x17, 9] up).Ready .tallyStation [0x17, 9] ∧
    0 < ({ up.tally.stream with slot := 1 } : Stream).slot ∧ up.tally.stream.slot = 0 ∧ 3 < (4 : Byte).toNat :=
  ⟨⟨by decide +kernel, .inr rfl, by decide⟩, rfl, rfl, rfl, rfl, ⟨by decide +kernel, .inr rfl, by decide⟩, by decide, rfl, by decide⟩
theorem witness_StreamAndShift_shift : (asked .tallyStation [0x18, 9] up).Ready .tallyStation [0x18, 9] ∧ up.tally.stream.trailer = none ∧
    up.tally.stream.blocked = false ∧ (blocked (some { shift := 1, dropped := 0 })).tally.stream.trailer.isSome = true :=
  ⟨⟨by decide +kernel, .inr rfl, by decide⟩, rfl, rfl, rfl⟩
theorem witness_PriceRequests :
    (asked .tallyStation [0x1B, 9, 1, 10, 12, 1, 0, 0x1E, 0x84, 0x81] up).Ready .tallyStation [0x1B, 9, 1, 10, 12, 1, 0, 0x1E, 0x84, 0x81] ∧
    (asked .tallyStation [0x1C, 9, 1] up).Ready .tallyStation [0x1C, 9, 1] ∧ up.tables.active1.toNat = (0 : Byte).toNat ∧
    1 < (2 : Byte).toNat ∧ ¬ (1 ≤ (0 : Byte).toNat) :=
  ⟨⟨by decide +kernel, .inr rfl, by decide⟩, ⟨by decide +kernel, .inr rfl, by decide⟩, rfl, by decide, by decide⟩
/-- Twelve prices of grade 10, a run of two from class 12, and counts 0 and 13. -/
theorem witness_PriceRequests_runs :
    let twelve : List Byte := List.replicate 48 0
    let pair : List Byte := List.replicate 8 0
    (asked .tallyStation (0x1B :: 9 :: 1 :: 10 :: 1 :: 12 :: twelve) up).Ready .tallyStation (0x1B :: 9 :: 1 :: 10 :: 1 :: 12 :: twelve) ∧
    twelve.length ≤ 234 ∧ twelve.length = 4 * (12 : Byte).toNat ∧ (1 : Byte).toNat + (12 : Byte).toNat ≤ 13 ∧
    (asked .tallyStation (0x1B :: 9 :: 1 :: 10 :: 12 :: 2 :: pair) up).Ready .tallyStation (0x1B :: 9 :: 1 :: 10 :: 12 :: 2 :: pair) ∧
    pair.length = 4 * (2 : Byte).toNat ∧ ¬ (12 : Byte).toNat + (2 : Byte).toNat ≤ 13 ∧
    (asked .tallyStation [0x1B, 9, 1, 10, 1, 13] up).Ready .tallyStation [0x1B, 9, 1, 10, 1, 13] ∧ ¬ (13 : Byte).toNat ≤ 12 :=
  ⟨⟨by decide +kernel, .inr rfl, by decide⟩, by decide, by decide, by decide, ⟨by decide +kernel, .inr rfl, by decide⟩, by decide, by decide,
    ⟨by decide +kernel, .inr rfl, by decide⟩, by decide⟩

/-- The invariants hold of a state with boards on the line, and the step from it answers a next state: here a lug-eye edge is waiting. -/
def live : State :=
  { dropping with
    board := { dropping.board with trimmer := [board 8 0 .scanned], transfer := [] },
    tcu := { dropping.tcu with serial := 4 }, pending := [.lugEyeOnEdge .trimmer .on] }

theorem witness_StoreStaysCanonical : StoreCanonical live := by unfold StoreCanonical; decide +kernel
theorem witness_QueuesStayBounded : QueuesBounded live :=
  ⟨by decide +kernel, by decide +kernel, fun p => by cases p <;> decide +kernel,
    fun l => by cases l <;> exact ⟨by decide +kernel, by decide +kernel, fun h => absurd rfl h, by decide +kernel, trivial⟩⟩
theorem witness_MarkStacksStayContiguous : StacksContiguous live := by
  intro p
  cases p <;> exact ⟨0, by omega, by decide +kernel⟩
theorem witness_TallySumKept : TallyKept live where
  live := by unfold Tally.Balanced; decide +kernel
  closed := by unfold Tally.Balanced; decide +kernel
  keys := by
    intro r hr p n hp hn
    rw [show live.board.sorter = dropping.board.sorter from rfl, show dropping.board.sorter = [{ sorted 7 9 0 with life := .dropping }] from rfl,
      List.mem_singleton] at hr
    subst hr
    cases hp
    decide +kernel
  rules := by intro rule h; simp [live, dropping, running, State.modifyBin, up, State.reset, State.powerOn, TableStore.powerOn] at h
theorem witness_BoardsStayPlaced : BoardsPlaced live where
  distinct := by decide +kernel
  tags := by decide +kernel
  counter := by decide +kernel
  trimmerOrder := by decide +kernel
  trimmerReach := by decide +kernel
  sorterOrder := by decide +kernel
  sorterReach := by decide +kernel
  transferSize := by decide +kernel
  stations := by decide +kernel
  idleLine := by decide +kernel
theorem witness_LivesFollowLines : LivesPlaced live where
  placed := witness_BoardsStayPlaced
  scanned := by decide +kernel
  decided := by decide +kernel
  set := by decide +kernel
  cut := by decide +kernel
  transfer := by decide +kernel
  sorter := by decide +kernel
theorem witness_ReservationsStayCounted : PlacesCounted live where
  placed := witness_BoardsStayPlaced
  counted := by
    have h : ∀ n < 49, 1 ≤ n → (live.bin n).reserved = (live.board.sorter.filter fun r => r.heldBin = n).length := by decide +kernel
    exact fun n a b => h n (by omega) a
  within := by
    have h : ∀ n < 49, 1 ≤ n → ∀ it ∈ (live.bin n).items, (live.bin n).dropped + (live.bin n).reserved ≤ it.capacity := by decide +kernel
    exact fun n a b it e => h n (by omega) a it e
  inRange := by decide +kernel
  pendingHeld := by
    have h : ∀ n < 49, 1 ≤ n → ∀ e ∈ (live.bin n).pending, ∃ r ∈ live.board.sorter, r.tag = e.tag ∧ r.heldBin = n ∧ r.life = .dropping := by
      decide +kernel
    exact fun n a b => h n (by omega) a
  pendingOnce := by
    have h : ∀ n < 49, 1 ≤ n → ((live.bin n).pending.map (·.tag)).Nodup := by decide +kernel
    exact fun n a b => h n (by omega) a
theorem witness_live_steps : (match step live with
    | .next t => t.tcu == live.tcu
    | .fault _ | .refused _ => false) = true := by decide +kernel

end Sys2Proof.Tests
end

