-- ==== Sys2Proof/Proofs/Steps.lean ====
section
/-! An invariant over steps, packaged once: what a request does to the state is its handler's work and changes of links, so a
predicate that changes of links and every handler keep is kept by every request command, by a byte that completes a frame and by a TX
slot that frees (R172). -/

namespace Sys2Proof.Machine

-- One thread elaborates the many small proofs of this file.
set_option Elab.async false

/-- The owning block's rule of each request (R172). -/
def handlerOf : Req → Handler
  | .postScan => postScan
  | .postSolution => postSolution
  | .readRecord => readRecord
  | .readStatus => readStatus
  | .ackAttention => attentionRequest RoleFlags.acknowledge
  | .setAttentionEnable => attentionRequest RoleFlags.enable
  | .setLineMode => setLineMode
  | .forceBoard => forceBoard
  | .sawEnable => sawService fun r => { r with enabled := true, misses := 0 }
  | .sawDisable => sawService fun r => { r with enabled := false }
  | .binUnload => unloadBin
  | .binEmptied => emptiedBin
  | .binEnable => enableBin
  | .binDisable => disableBin
  | .readBins => readBins
  | .readEvents => readEvents
  | .clearEventOverflow => clearEventOverflow
  | .start => startLine
  | .restartTracking => restartTracking
  | .loadTable => loadTable
  | .readTable => readTable
  | .readTableTallyForm => readTable
  | .readSegment => readSegment
  | .releaseSegment => releaseSegment
  | .flush => flushStream
  | .shiftClose => shiftClose
  | .readMatrix => readTally (·.live)
  | .readClosed => readTally (·.closed)
  | .priceEdit => priceEdit
  | .priceSwitch => priceSwitch

/-- Every request command is its handler, served. -/
theorem exec_requestInstr (r : Req) (l : LinkId) (num : Byte) (fields : List Byte) (s : State) :
    exec (requestInstr r l num fields) s = serve r l num fields (handlerOf r) s := by cases r <;> rfl

/-- An event taken while inputs are taken leaves the state alone or acts on it. -/
theorem whenAwake_keeps {I : State → Prop} {act : State → State} {s t : State} (hact : I s → I (act s))
    (h : whenAwake s act = .next t) (hs : I s) : I t := by
  cases h
  split
  · exact hact hs
  · exact hs

/-- Delivering a frame changes links alone. -/
theorem deliver_keeps {I : State → Prop} (hlink : ∀ s l f, I s → I (s.modifyLink l f)) (l : LinkId) (body : List Byte) {s : State}
    (hs : I s) : I (deliver l body s) := by
  unfold deliver
  split
  · exact hs
  · exact hlink s l _ hs

/-- A taken request is judged, then answered. -/
theorem takeRequest_eq (r : Req) (l : LinkId) (num : Byte) (fields : List Byte) (act : Handler) (s : State) :
    takeRequest r l num fields act s =
      respond l (requestCode r) num (judgeRequest r l fields act (s.modifyLink l LinkState.takeFrame)).2
        (judgeRequest r l fields act (s.modifyLink l LinkState.takeFrame)).1 := rfl

/-- A request served keeps what changes of links and its handler keep. -/
theorem serve_keeps {I : State → Prop} (hlink : ∀ s l f, I s → I (s.modifyLink l f)) {act : Handler}
    (hact : ∀ l fields s, I s → I (act l fields s).1) {r : Req} {l : LinkId} {num : Byte} {fields : List Byte} {s t : State}
    (h : serve r l num fields act s = .next t) (hs : I s) : I t := by
  have htake : ∀ u, I u → I (takeRequest r l num fields act u) := by
    intro u hu
    rw [takeRequest_eq]
    have hf := hlink u l LinkState.takeFrame hu
    refine hlink _ _ _ ?_
    unfold judgeRequest
    split
    · dsimp only
      exact hlink _ l _ hf
    · split
      · dsimp only
        exact hlink _ l _ hf
      · exact hact l fields _ hf
  unfold serve at h
  split at h
  · cases h
  · refine whenAwake_keeps (fun hs => ?_) h hs
    have hd := deliver_keeps hlink l (requestCode r :: num :: fields) hs
    dsimp only
    split
    · exact htake _ hd
    · exact hd

/-- A frame of an unknown code keeps what changes of links keep. -/
theorem execUnknownRequestCode_keeps {I : State → Prop} (hlink : ∀ s l f, I s → I (s.modifyLink l f)) {l : LinkId} {code num : Byte}
    {fields : List Byte} {s t : State} (h : execUnknownRequestCode l code num fields s = .next t) (hs : I s) : I t := by
  unfold execUnknownRequestCode at h
  split at h
  · cases h
  · split at h
    · cases h
    · refine whenAwake_keeps (fun hs => ?_) h hs
      have hd := deliver_keeps hlink l (code :: num :: fields) hs
      dsimp only
      split
      · exact hlink _ _ _ (hlink _ _ _ (hlink _ _ _ hd))
      · exact hd

/-- The taking of a frame that waits keeps what changes of links and the handlers keep. -/
theorem takeOldest_keeps {I : State → Prop} (hlink : ∀ s l f, I s → I (s.modifyLink l f))
    (hact : ∀ r l fields s, I s → I (handlerOf r l fields s).1) {l : LinkId} {s t : State} (h : takeOldest l s = .next t)
    (hs : I s) : I t := by
  unfold takeOldest at h
  split at h
  · split at h
    · cases h; exact hs
    · split at h
      · next r _ =>
        rw [serveRequest_exec, exec_requestInstr] at h
        exact serve_keeps hlink (hact r) h hs
      · exact execUnknownRequestCode_keeps hlink h hs
  · cases h; exact hs

/-- A change of an input line keeps what the levels outside, the on-edge and the off-edge keep. -/
theorem takeEdge_keeps {I : State → Prop} (hpins : ∀ s pins standing, I s → I { s with pins := pins, standing := standing })
    {line : InputLine} {edge : Edge} {onEdge offEdge : State → State} {s t : State} (hon : ∀ s, I s → I (onEdge s))
    (hoff : ∀ s, I s → I (offEdge s)) (h : takeEdge line edge onEdge offEdge s = .next t) (hs : I s) : I t := by
  cases edge <;> cases h
  · have hp := hpins s (s.pins.setLevel true line) s.standing hs
    split
    · exact hon _ hp
    · exact hp
  · have hp := hpins s (s.pins.setLevel false line) (s.standing.setLevel false line) hs
    split
    · exact hoff _ hp
    · exact hp

/-- A step is a clock period or a command: what both keep, every step keeps. -/
theorem step_keeps {I : State → Prop} (hclock : ∀ s, I s → I (clockPeriod s))
    (hpending : ∀ s rest, I s → I { s with pending := rest }) (hexec : ∀ i s t, exec i s = .next t → I s → I t) {s t : State}
    (h : step s = .next t) (hs : I s) : I t := by
  unfold step at h
  split at h
  · cases h; exact hclock s hs
  · exact hexec _ _ t h (hpending s _ hs)

end Sys2Proof.Machine
end

