-- ==== Sys2Proof/Proofs/BoardView.lean ====
section
/-! What the placing of boards reads of the state (R15, R20, R22, R23), as a view: of each record its tag, where it was placed, its life
and which parts it has. An operation that leaves the view alone keeps `BoardsPlaced` and `LivesPlaced`; the others are told by what they do
to the view. -/

namespace Sys2Proof.Machine

-- One thread elaborates the many small proofs of this file.
set_option Elab.async false

/-- What the placing of boards reads of a record. -/
structure Stand where
  tag : Nat
  creation : Serial
  sorterSerial : Serial
  life : Life
  decided : Bool
  cut : Bool
  sorted : Bool

/-- A record's stand. -/
def Record.stand (r : Record) : Stand :=
  { tag := r.tag, creation := r.creation, sorterSerial := r.sorterSerial.getD 0, life := r.life, decided := r.decision.isSome,
    cut := r.outcome.isSome, sorted := r.sort.isSome }

/-- What the placing of boards reads of the state. -/
structure BoardView where
  trimmer : List Stand
  transfer : List Stand
  sorter : List Stand
  nextTag : Nat
  line : LineState
  trimmerNow : Serial
  sorterNow : Serial
  station : StationTable

/-- The view of a state when the two lug serials are `a` and `b`: during an advance one of them is about to be raised. -/
def State.viewAt (s : State) (a b : Serial) : BoardView :=
  { trimmer := s.board.trimmer.map Record.stand, transfer := s.board.transfer.map fun w => w.board.stand,
    sorter := s.board.sorter.map Record.stand, nextTag := s.board.nextTag, line := s.board.line, trimmerNow := a, sorterNow := b,
    station := s.tables.station }

/-- The view of a state. -/
def State.view (s : State) : BoardView := s.viewAt s.tcu.serial s.scu.serial

/-- The parts of the state that the view does not read, the serials apart. -/
def Touched.offBoards : Touched :=
  { pins := true, standing := true, timebase := true, tcu := true, scu := true, postings := true, forces := true, gradingA := true,
    gradingB := true, decision := true, saws := true, sort := true, tally := true, events := true, attention := true, links := true,
    pending := true }

/-- An operation that stays off the boards and the tables leaves the view. -/
theorem Outside.viewAt {s t : State} (h : Outside .offBoards s t) (a b : Serial) : t.viewAt a b = s.viewAt a b := by
  simp only [State.viewAt, h.trimmer rfl, h.transfer rfl, h.sorter rfl, h.nextTag rfl, h.line rfl, h.tables rfl]

/-! ### Operations on the view -/

/-- The stand of a tag on the trimmer map changed. -/
def BoardView.onTrimmer (v : BoardView) (tag : Nat) (g : Stand → Stand) : BoardView :=
  { v with trimmer := v.trimmer.map fun x => if x.tag = tag then g x else x }

/-- The stand of a tag on the sorter map changed. -/
def BoardView.onSorter (v : BoardView) (tag : Nat) (g : Stand → Stand) : BoardView :=
  { v with sorter := v.sorter.map fun x => if x.tag = tag then g x else x }

/-- The trimmer map without a tag. -/
def BoardView.offTrimmer (v : BoardView) (tag : Nat) : BoardView :=
  { v with trimmer := v.trimmer.filter fun x => !decide (x.tag = tag) }

/-- The sorter map without a tag. -/
def BoardView.offSorter (v : BoardView) (tag : Nat) : BoardView :=
  { v with sorter := v.sorter.filter fun x => !decide (x.tag = tag) }

theorem mapTag_stand (tag : Nat) {f : Record → Record} {g : Stand → Stand} (h : ∀ r, (f r).stand = g r.stand) (rs : List Record) :
    (mapTag tag f rs).map Record.stand = (rs.map Record.stand).map fun x => if x.tag = tag then g x else x := by
  simp only [mapTag, List.map_map]
  refine List.map_congr_left fun r _ => ?_
  simp only [Function.comp_apply]
  change (if r.tag = tag then f r else r).stand = if r.tag = tag then g r.stand else r.stand
  split
  · exact h r
  · rfl

theorem mapTag_stand_same (tag : Nat) {f : Record → Record} (h : ∀ r, (f r).stand = r.stand) (rs : List Record) :
    (mapTag tag f rs).map Record.stand = rs.map Record.stand := by
  rw [mapTag_stand (g := id) tag h]
  simp

theorem dropTag_stand (tag : Nat) (rs : List Record) :
    (dropTag tag rs).map Record.stand = (rs.map Record.stand).filter fun x => !decide (x.tag = tag) := by
  rw [List.filter_map]
  rfl

theorem modifyTrimmer_viewAt (tag : Nat) {f : Record → Record} {g : Stand → Stand} (h : ∀ r, (f r).stand = g r.stand) (s : State)
    (a b : Serial) : (s.modifyTrimmer tag f).viewAt a b = (s.viewAt a b).onTrimmer tag g := by
  simp only [State.viewAt, State.modifyTrimmer, BoardView.onTrimmer, mapTag_stand tag h]

theorem modifyTrimmer_viewAt_same (tag : Nat) {f : Record → Record} (h : ∀ r, (f r).stand = r.stand) (s : State) (a b : Serial) :
    (s.modifyTrimmer tag f).viewAt a b = s.viewAt a b := by
  simp only [State.viewAt, State.modifyTrimmer, mapTag_stand_same tag h]

theorem modifySorter_viewAt (tag : Nat) {f : Record → Record} {g : Stand → Stand} (h : ∀ r, (f r).stand = g r.stand) (s : State)
    (a b : Serial) : (s.modifySorter tag f).viewAt a b = (s.viewAt a b).onSorter tag g := by
  simp only [State.viewAt, State.modifySorter, BoardView.onSorter, mapTag_stand tag h]

theorem modifySorter_viewAt_same (tag : Nat) {f : Record → Record} (h : ∀ r, (f r).stand = r.stand) (s : State) (a b : Serial) :
    (s.modifySorter tag f).viewAt a b = s.viewAt a b := by
  simp only [State.viewAt, State.modifySorter, mapTag_stand_same tag h]

theorem leaveTrimmer_viewAt (tag : Nat) (s : State) (a b : Serial) :
    (s.leaveTrimmer tag).viewAt a b = (s.viewAt a b).offTrimmer tag := by
  simp only [State.viewAt, State.leaveTrimmer, BoardView.offTrimmer, dropTag_stand]

theorem leaveSorter_viewAt (tag : Nat) (s : State) (a b : Serial) :
    (s.leaveSorter tag).viewAt a b = (s.viewAt a b).offSorter tag := by
  simp only [State.viewAt, State.leaveSorter, BoardView.offSorter, dropTag_stand]

/-- A record whose sort part is changed, not added or removed, stands as before. -/
theorem Record.mapSort_stand (f : SortPart → SortPart) (r : Record) : (r.mapSort f).stand = r.stand := by
  simp [Record.mapSort, Record.stand]

/-! ### Tags -/

/-- Every live tag, from the trimmer on. -/
def BoardView.tags (v : BoardView) : List Nat := (v.trimmer ++ v.transfer ++ v.sorter).map (·.tag)

theorem State.live_tags (s : State) (a b : Serial) : s.live.map (·.tag) = (s.viewAt a b).tags := by
  simp [State.live, BoardView.tags, State.viewAt, Record.stand, Function.comp_def]

/-- Tags of their own from 1 to 65,535 (R23), and none in CONFIG (R38). -/
structure TagsHeld (line : LineState) (tags : List Nat) : Prop where
  distinct : tags.Nodup
  inRange : ∀ t ∈ tags, 1 ≤ t ∧ t ≤ Config.tagMax
  idle : line = .config → tags = []

theorem TagsHeld.sublist {line : LineState} {tags fewer : List Nat} (h : TagsHeld line tags) (hs : fewer.Sublist tags) :
    TagsHeld line fewer where
  distinct := h.distinct.sublist hs
  inRange t ht := h.inRange t (hs.subset ht)
  idle hl := by
    have := h.idle hl
    subst this
    exact List.sublist_nil.mp hs

/-- A free tag joins in RUN. -/
theorem TagsHeld.insert {tags more : List Nat} {tag : Nat} (h : TagsHeld .run tags) (hp : more.Perm (tag :: tags)) (hfree : tag ∉ tags)
    (hr : 1 ≤ tag ∧ tag ≤ Config.tagMax) : TagsHeld .run more where
  distinct := hp.nodup_iff.mpr (List.nodup_cons.mpr ⟨hfree, h.distinct⟩)
  inRange t ht := by
    obtain rfl | ht := List.mem_cons.mp (hp.mem_iff.mp ht)
    · exact hr
    · exact h.inRange t ht
  idle hl := nomatch hl

theorem map_tag_onTag {xs : List Stand} {tag : Nat} {g : Stand → Stand} (hg : ∀ x ∈ xs, x.tag = tag → (g x).tag = tag) :
    (xs.map fun x => if x.tag = tag then g x else x).map (·.tag) = xs.map (·.tag) := by
  rw [List.map_map]
  refine List.map_congr_left fun x hx => ?_
  simp only [Function.comp_apply]
  split
  · next e => rw [hg x hx e, e]
  · rfl

/-! ### Falling offsets -/

/-- Offsets fall along a list (R22), each stand placed at the serial that `placed` reads. -/
def Falls (now : Serial) (placed : Stand → Serial) (xs : List Stand) : Prop :=
  xs.Pairwise fun x y => offsetAt now (placed y) < offsetAt now (placed x)

theorem Falls.sublist {now : Serial} {placed : Stand → Serial} {xs ys : List Stand} (h : Falls now placed xs) (hs : ys.Sublist xs) :
    Falls now placed ys := List.Pairwise.sublist hs h

theorem Falls.map {now : Serial} {placed : Stand → Serial} {xs : List Stand} {f : Stand → Stand} (h : Falls now placed xs)
    (hf : ∀ x ∈ xs, placed (f x) = placed x) : Falls now placed (xs.map f) := by
  rw [Falls, List.pairwise_map]
  refine List.Pairwise.imp_of_mem (fun hx hy hxy => ?_) h
  rwa [hf _ hx, hf _ hy]

theorem Falls.nodup {now : Serial} {placed : Stand → Serial} {xs : List Stand} (h : Falls now placed xs) :
    (xs.map fun x => offsetAt now (placed x)).Nodup := by
  rw [List.nodup_iff_pairwise_ne, List.pairwise_map]
  exact h.imp fun hlt => Nat.ne_of_gt hlt

theorem Falls.eq_of_offset {now : Serial} {placed : Stand → Serial} {xs : List Stand} (h : Falls now placed xs) {x y : Stand}
    (hx : x ∈ xs) (hy : y ∈ xs) (he : offsetAt now (placed x) = offsetAt now (placed y)) : x = y :=
  List.inj_on_of_nodup_map h.nodup hx hy he

/-- A map whose offsets fall below a bound has no more records than the bound. -/
theorem Falls.length_le {now : Serial} {placed : Stand → Serial} {xs : List Stand} (h : Falls now placed xs) {n : Nat}
    (hn : ∀ x ∈ xs, offsetAt now (placed x) < n) : xs.length ≤ n := by
  have hs : (xs.map fun x => offsetAt now (placed x)) ⊆ List.range n := by
    intro k hk
    obtain ⟨x, hx, rfl⟩ := List.mem_map.mp hk
    exact List.mem_range.mpr (hn x hx)
  simpa using (h.nodup.subperm hs).length_le

/-- An advance raises every offset by 1 (R4). -/
theorem offsetAt_advance {now placed : Serial} (h : offsetAt now placed < 4294967295) :
    offsetAt (now + 1) placed = offsetAt now placed + 1 := by
  unfold offsetAt at *
  bv_omega

/-- Offsets that fall go on falling after an advance. -/
theorem Falls.advance {now : Serial} {placed : Stand → Serial} {xs : List Stand} (h : Falls now placed xs) {n : Nat} (hn : n < 4294967295)
    (hb : ∀ x ∈ xs, offsetAt now (placed x) < n) : Falls (now + 1) placed xs := by
  refine List.Pairwise.imp_of_mem (fun hx hy hxy => ?_) h
  have hx := hb _ hx
  have hy := hb _ hy
  rw [offsetAt_advance (by omega), offsetAt_advance (by omega)]
  omega

/-- A stand at offset 0 joins the end of a list with none there. -/
theorem Falls.append {now : Serial} {placed : Stand → Serial} {xs : List Stand} {y : Stand} (h : Falls now placed xs)
    (hy : placed y = now) (hx : ∀ x ∈ xs, offsetAt now (placed x) ≠ 0) : Falls now placed (xs ++ [y]) := by
  refine List.pairwise_append.mpr ⟨h, List.pairwise_singleton _ _, fun x hxm y' hy' => ?_⟩
  rw [List.mem_singleton.mp hy', hy]
  have := hx x hxm
  simp only [offsetAt, BitVec.sub_self, BitVec.toNat_ofNat] at *
  omega

/-! ### The station table (R13) -/

theorem firstFault_eq_none {checks : List (Bool × Locator)} : firstFault checks = none ↔ ∀ c ∈ checks, c.1 = false := by
  simp [firstFault]

/-- A station table is sound exactly when it meets R13. -/
theorem stationFault_eq_none (t : StationTable) : stationFault t = none ↔
    1 ≤ t.aLo ∧ t.aLo ≤ t.aHi ∧ t.aHi < t.decision ∧ 1 ≤ t.bLo ∧ t.bLo ≤ t.bHi ∧ t.bHi < t.decision ∧ t.decision < t.sawSet ∧
      t.sawSet + 1 ≤ t.outfeed ∧ t.outfeed ≤ 60 ∧ 1 ≤ t.runout ∧ t.runout ≤ 127 := by
  simp only [stationFault, firstFault_eq_none, List.forall_mem_cons, List.not_mem_nil, false_implies, implies_true, and_true,
    decide_eq_false_iff_not, Bool.or_eq_false_iff,
    outside]
  omega

end Sys2Proof.Machine
end

