-- ==== Sys2Proof/Proofs/Travel.lean ====
section
/-! The travel of the records over a view: what holds of every record by its offset, and what an operation on the record of one line does
to it. `LivesPlaced` is one such predicate, and each line of an advance turns one into the next (R15, R27 to R30, R35). -/

namespace Sys2Proof.Machine

-- One thread elaborates the many small proofs of this file.
set_option Elab.async false

/-- The lives along the trimmer chain (R15, R20): SCANNED below `d`, DECIDED from there, SET from `m`, CUT from `k`, and none from `n` on. -/
structure Stand.LifeBy (d m k n : Nat) (off : Nat) (x : Stand) : Prop where
  reach : off < n
  scanned : off < d → x.life = .scanned ∧ x.decided = false
  decided : d ≤ off → off < m → x.life = .decided ∧ x.decided = true
  set : m ≤ off → off < k → x.life = .set ∧ x.decided = true
  cut : k ≤ off → x.life = .cut ∧ x.decided = true ∧ x.cut = true

/-- The lives along the sorter chain: ON-SORTER or DROPPING with a sort part, and none from `n` on. -/
structure Stand.SortedBy (n : Nat) (off : Nat) (x : Stand) : Prop where
  reach : off < n
  life : x.life = .onSorter ∨ x.life = .dropping
  sorted : x.sorted = true

/-- Boards placed as `BoardsPlaced` has it, with a predicate of offset and stand on each map. -/
structure BoardView.Travels (P Q : Nat → Stand → Prop) (v : BoardView) : Prop where
  tags : TagsHeld v.line v.tags
  counter : 1 ≤ v.nextTag ∧ v.nextTag ≤ Config.tagMax
  trimmerFalls : Falls v.trimmerNow (·.creation) v.trimmer
  trimmer : ∀ x ∈ v.trimmer, P (offsetAt v.trimmerNow x.creation) x
  transferSize : v.transfer.length ≤ Config.transferSlots
  transfer : ∀ x ∈ v.transfer, x.life = .inTransfer ∧ x.cut = true
  sorterFalls : Falls v.sorterNow (·.sorterSerial) v.sorter
  sorter : ∀ x ∈ v.sorter, Q (offsetAt v.sorterNow x.sorterSerial) x
  stations : stationFault v.station = none

/-- The boards of a view stand where their lives say. -/
def BoardView.Placed (v : BoardView) : Prop :=
  v.Travels (Stand.LifeBy v.station.decision v.station.sawSet (v.station.sawSet + 1) v.station.outfeed) (Stand.SortedBy v.station.runout)

/-- `LivesPlaced` is a predicate of the view. -/
theorem livesPlaced_iff (s : State) : LivesPlaced s ↔ s.view.Placed := by
  constructor
  · intro h
    have hst := (stationFault_eq_none _).mp h.placed.stations
    refine ⟨⟨?_, ?_, fun hl => ?_⟩, h.placed.counter, ?_, ?_, ?_, ?_, ?_, ?_, h.placed.stations⟩
    · exact State.live_tags s _ _ ▸ h.placed.distinct
    · intro t ht
      rw [State.view, ← State.live_tags] at ht
      obtain ⟨r, hr, rfl⟩ := List.mem_map.mp ht
      exact h.placed.tags r hr
    · rw [State.view, ← State.live_tags, h.placed.idleLine hl]
      rfl
    · exact List.pairwise_map.mpr h.placed.trimmerOrder
    · intro x hx
      obtain ⟨r, hr, rfl⟩ := List.mem_map.mp hx
      have hreach := h.placed.trimmerReach r hr
      refine ⟨hreach, fun ho => ?_, fun ho ho' => ?_, fun ho ho' => ?_, fun ho => ?_⟩
      · obtain ⟨hl, hd⟩ := h.scanned r hr ho
        exact ⟨hl, by simp [Record.stand, hd]⟩
      · exact h.decided r hr ho ho'
      · exact h.set r hr (Nat.le_antisymm (Nat.lt_succ_iff.mp ho') ho)
      · exact h.cut r hr ho
    · simpa [State.view, State.viewAt] using h.placed.transferSize
    · intro x hx
      obtain ⟨w, hw, rfl⟩ := List.mem_map.mp hx
      exact h.transfer w hw
    · exact List.pairwise_map.mpr h.placed.sorterOrder
    · intro x hx
      obtain ⟨r, hr, rfl⟩ := List.mem_map.mp hx
      exact ⟨h.placed.sorterReach r hr, (h.sorter r hr).1, (h.sorter r hr).2⟩
  · intro h
    have htr : ∀ r ∈ s.board.trimmer, Stand.LifeBy s.tables.station.decision s.tables.station.sawSet (s.tables.station.sawSet + 1)
        s.tables.station.outfeed (r.trimmerOffset s.tcu.serial) r.stand := fun r hr => h.trimmer _ (List.mem_map_of_mem hr)
    have hso : ∀ r ∈ s.board.sorter, Stand.SortedBy s.tables.station.runout (r.sorterOffset s.scu.serial) r.stand :=
      fun r hr => h.sorter _ (List.mem_map_of_mem hr)
    refine ⟨⟨?_, ?_, h.counter, ?_, fun r hr => (htr r hr).reach, ?_, fun r hr => (hso r hr).reach, ?_, h.stations, ?_⟩, ?_, ?_, ?_, ?_,
      ?_, fun r hr => ⟨(hso r hr).life, (hso r hr).sorted⟩⟩
    · exact State.live_tags s _ _ ▸ h.tags.distinct
    · intro r hr
      refine h.tags.inRange _ ?_
      rw [State.view, ← State.live_tags]
      exact List.mem_map_of_mem hr
    · exact List.pairwise_map.mp h.trimmerFalls
    · exact List.pairwise_map.mp h.sorterFalls
    · simpa [State.view, State.viewAt] using h.transferSize
    · intro hl
      have := h.tags.idle hl
      rw [State.view, ← State.live_tags] at this
      exact List.map_eq_nil_iff.mp this
    · intro r hr ho
      obtain ⟨hl, hd⟩ := (htr r hr).scanned ho
      exact ⟨hl, by simpa [Record.stand] using hd⟩
    · exact fun r hr ho ho' => (htr r hr).decided ho ho'
    · exact fun r hr ho => (htr r hr).set (Nat.le_of_eq ho.symm) (by omega)
    · exact fun r hr ho => (htr r hr).cut ho
    · intro w hw
      exact h.transfer w.board.stand (List.mem_map_of_mem (f := fun w : Waiting => w.board.stand) hw)

/-! ### One record changed, or gone -/

section
variable {P P' Q Q' : Nat → Stand → Prop} {v : BoardView}

theorem BoardView.Travels.imp (h : v.Travels P Q)
    (hp : ∀ x ∈ v.trimmer, P (offsetAt v.trimmerNow x.creation) x → P' (offsetAt v.trimmerNow x.creation) x)
    (hq : ∀ x ∈ v.sorter, Q (offsetAt v.sorterNow x.sorterSerial) x → Q' (offsetAt v.sorterNow x.sorterSerial) x) : v.Travels P' Q' :=
  { h with trimmer := fun x hx => hp x hx (h.trimmer x hx), sorter := fun x hx => hq x hx (h.sorter x hx) }

/-- The stand of a tag on the trimmer map is changed, its tag and place kept. -/
theorem BoardView.Travels.onTrimmer (h : v.Travels P Q) {tag : Nat} {g : Stand → Stand}
    (hg : ∀ x ∈ v.trimmer, x.tag = tag → P (offsetAt v.trimmerNow x.creation) x →
      (g x).tag = x.tag ∧ (g x).creation = x.creation ∧ P' (offsetAt v.trimmerNow x.creation) (g x))
    (hrest : ∀ x ∈ v.trimmer, x.tag ≠ tag → P (offsetAt v.trimmerNow x.creation) x → P' (offsetAt v.trimmerNow x.creation) x) :
    (v.onTrimmer tag g).Travels P' Q := by
  have hg' := fun x hx e => hg x hx e (h.trimmer x hx)
  have hplace : ∀ x ∈ v.trimmer, (if x.tag = tag then g x else x).creation = x.creation := by
    intro x hx
    split
    · next e => exact (hg' x hx e).2.1
    · rfl
  refine { h with tags := ?_, trimmerFalls := h.trimmerFalls.map hplace, trimmer := ?_ }
  · have htags : (v.onTrimmer tag g).tags = v.tags := by
      simp only [BoardView.tags, BoardView.onTrimmer, List.map_append]
      rw [map_tag_onTag fun x hx e => (hg' x hx e).1.trans e]
    exact htags ▸ h.tags
  · intro y hy
    obtain ⟨x, hx, rfl⟩ := List.mem_map.mp hy
    change P' (offsetAt v.trimmerNow _) _
    rw [hplace x hx]
    split
    · next e => exact (hg' x hx e).2.2
    · next e => exact hrest x hx e (h.trimmer x hx)

/-- The stand of a tag on the sorter map is changed, its tag and place kept. -/
theorem BoardView.Travels.onSorter (h : v.Travels P Q) {tag : Nat} {g : Stand → Stand}
    (hg : ∀ x ∈ v.sorter, x.tag = tag → Q (offsetAt v.sorterNow x.sorterSerial) x →
      (g x).tag = x.tag ∧ (g x).sorterSerial = x.sorterSerial ∧ Q' (offsetAt v.sorterNow x.sorterSerial) (g x))
    (hrest : ∀ x ∈ v.sorter, x.tag ≠ tag → Q (offsetAt v.sorterNow x.sorterSerial) x → Q' (offsetAt v.sorterNow x.sorterSerial) x) :
    (v.onSorter tag g).Travels P Q' := by
  have hg' := fun x hx e => hg x hx e (h.sorter x hx)
  have hplace : ∀ x ∈ v.sorter, (if x.tag = tag then g x else x).sorterSerial = x.sorterSerial := by
    intro x hx
    split
    · next e => exact (hg' x hx e).2.1
    · rfl
  refine { h with tags := ?_, sorterFalls := h.sorterFalls.map hplace, sorter := ?_ }
  · have htags : (v.onSorter tag g).tags = v.tags := by
      simp only [BoardView.tags, BoardView.onSorter, List.map_append]
      rw [map_tag_onTag fun x hx e => (hg' x hx e).1.trans e]
    exact htags ▸ h.tags
  · intro y hy
    obtain ⟨x, hx, rfl⟩ := List.mem_map.mp hy
    change Q' (offsetAt v.sorterNow _) _
    rw [hplace x hx]
    split
    · next e => exact (hg' x hx e).2.2
    · next e => exact hrest x hx e (h.sorter x hx)

/-- A record leaves the trimmer map. -/
theorem BoardView.Travels.offTrimmer (h : v.Travels P Q) {tag : Nat}
    (hrest : ∀ x ∈ v.trimmer, x.tag ≠ tag → P (offsetAt v.trimmerNow x.creation) x → P' (offsetAt v.trimmerNow x.creation) x) :
    (v.offTrimmer tag).Travels P' Q := by
  refine { h with tags := h.tags.sublist ?_, trimmerFalls := h.trimmerFalls.sublist List.filter_sublist, trimmer := fun x hx => ?_ }
  · exact ((List.filter_sublist.append_right _).append_right _).map _
  · obtain ⟨hx, hne⟩ := List.mem_filter.mp hx
    exact hrest x hx (by simpa using hne) (h.trimmer x hx)

/-- A record leaves the sorter map. -/
theorem BoardView.Travels.offSorter (h : v.Travels P Q) {tag : Nat}
    (hrest : ∀ x ∈ v.sorter, x.tag ≠ tag → Q (offsetAt v.sorterNow x.sorterSerial) x → Q' (offsetAt v.sorterNow x.sorterSerial) x) :
    (v.offSorter tag).Travels P Q' := by
  refine { h with tags := h.tags.sublist ?_, sorterFalls := h.sorterFalls.sublist List.filter_sublist, sorter := fun x hx => ?_ }
  · exact (List.filter_sublist.append_left _).map _
  · obtain ⟨hx, hne⟩ := List.mem_filter.mp hx
    exact hrest x hx (by simpa using hne) (h.sorter x hx)

/-- Entries leave the transfer queue. -/
theorem BoardView.Travels.fewerWait (h : v.Travels P Q) {ws : List Stand} (hs : ws.Sublist v.transfer) :
    ({ v with transfer := ws } : BoardView).Travels P Q :=
  { h with
    tags := h.tags.sublist (((hs.append_left _).append_right _).map _)
    transferSize := hs.length_le.trans h.transferSize
    transfer := fun x hx => h.transfer x (hs.subset hx) }

/-- Two records of the trimmer map with one tag are one. -/
theorem BoardView.Travels.trimmer_eq_of_tag (h : v.Travels P Q) {x y : Stand} (hx : x ∈ v.trimmer) (hy : y ∈ v.trimmer)
    (he : x.tag = y.tag) : x = y := by
  have hd := h.tags.distinct
  simp only [BoardView.tags, List.map_append] at hd
  exact List.inj_on_of_nodup_map hd.of_append_left.of_append_left hx hy he

/-- Two records of the sorter map with one tag are one. -/
theorem BoardView.Travels.sorter_eq_of_tag (h : v.Travels P Q) {x y : Stand} (hx : x ∈ v.sorter) (hy : y ∈ v.sorter)
    (he : x.tag = y.tag) : x = y := by
  have hd := h.tags.distinct
  simp only [BoardView.tags, List.map_append] at hd
  exact List.inj_on_of_nodup_map hd.of_append_right hx hy he

/-- A tag picks out the record at its offset, and no other. -/
theorem BoardView.Travels.trimmer_tag_iff (h : v.Travels P Q) {x y : Stand} (hx : x ∈ v.trimmer) (hy : y ∈ v.trimmer) :
    x.tag = y.tag ↔ offsetAt v.trimmerNow x.creation = offsetAt v.trimmerNow y.creation :=
  ⟨fun he => by rw [h.trimmer_eq_of_tag hx hy he], fun he => by rw [h.trimmerFalls.eq_of_offset hx hy he]⟩

/-! ### A record at a line -/

/-- The record at the line of offset `k` is changed; the others stand as they are. -/
theorem BoardView.Travels.atLine (h : v.Travels P Q) {r : Stand} (hr : r ∈ v.trimmer) {k : Nat}
    (hk : offsetAt v.trimmerNow r.creation = k) {g : Stand → Stand}
    (hg : P k r → (g r).tag = r.tag ∧ (g r).creation = r.creation ∧ P' k (g r))
    (hrest : ∀ off x, off ≠ k → P off x → P' off x) : (v.onTrimmer r.tag g).Travels P' Q := by
  refine h.onTrimmer (fun x hx he hp => ?_) (fun x hx he hp => hrest _ x (fun e => he ?_) hp)
  · obtain rfl := h.trimmer_eq_of_tag hx hr he
    rw [hk] at hp ⊢
    exact hg hp
  · exact (h.trimmer_tag_iff hx hr).mpr (e.trans hk.symm)

/-- The record at the line of offset `k` leaves the trimmer map. -/
theorem BoardView.Travels.leaveLine (h : v.Travels P Q) {r : Stand} (hr : r ∈ v.trimmer) {k : Nat}
    (hk : offsetAt v.trimmerNow r.creation = k) (hrest : ∀ off x, off ≠ k → P off x → P' off x) : (v.offTrimmer r.tag).Travels P' Q :=
  h.offTrimmer fun x hx he hp => hrest _ x (fun e => he ((h.trimmer_tag_iff hx hr).mpr (e.trans hk.symm))) hp

/-- No record stands at the line of offset `k`. -/
theorem BoardView.Travels.emptyLine (h : v.Travels P Q) {k : Nat} (hk : ∀ x ∈ v.trimmer, offsetAt v.trimmerNow x.creation ≠ k)
    (hrest : ∀ off x, off ≠ k → P off x → P' off x) : v.Travels P' Q :=
  h.imp (fun x hx hp => hrest _ x (hk x hx) hp) fun _ _ hq => hq

/-! ### A record joins -/

/-- In RUN a record with a free tag joins the trimmer map at offset 0. -/
theorem BoardView.Travels.joinTrimmer (h : v.Travels P Q) (hrun : v.line = .run) {y : Stand} (hfree : y.tag ∉ v.tags)
    (hr : 1 ≤ y.tag ∧ y.tag ≤ Config.tagMax) (hy : y.creation = v.trimmerNow) (hp : P 0 y)
    (hx : ∀ x ∈ v.trimmer, offsetAt v.trimmerNow x.creation ≠ 0) {n : Nat} (hn : 1 ≤ n ∧ n ≤ Config.tagMax) :
    ({ v with trimmer := v.trimmer ++ [y], nextTag := n } : BoardView).Travels P Q := by
  refine { h with tags := ?_, counter := hn, trimmerFalls := h.trimmerFalls.append hy hx, trimmer := ?_ }
  · change TagsHeld v.line _
    rw [hrun]
    refine (hrun ▸ h.tags).insert ?_ hfree hr
    simp only [BoardView.tags, List.map_append, List.map_cons, List.map_nil]
    exact List.perm_iff_count.mpr fun t => by simp [List.count_append, List.count_cons]; omega
  · intro x hxm
    obtain hxm | hxm := List.mem_append.mp hxm
    · exact h.trimmer x hxm
    · rw [List.mem_singleton.mp hxm, hy]
      simpa [offsetAt] using hp

/-- In RUN a record with a free tag joins the transfer queue. -/
theorem BoardView.Travels.joinTransfer (h : v.Travels P Q) (hrun : v.line = .run) {y : Stand} (hfree : y.tag ∉ v.tags)
    (hr : 1 ≤ y.tag ∧ y.tag ≤ Config.tagMax) (hy : y.life = .inTransfer ∧ y.cut = true)
    (hsize : v.transfer.length < Config.transferSlots) : ({ v with transfer := v.transfer ++ [y] } : BoardView).Travels P Q := by
  refine { h with tags := ?_, transferSize := ?_, transfer := ?_ }
  · change TagsHeld v.line _
    rw [hrun]
    refine (hrun ▸ h.tags).insert ?_ hfree hr
    simp only [BoardView.tags, List.map_append, List.map_cons, List.map_nil]
    exact List.perm_iff_count.mpr fun t => by simp [List.count_append, List.count_cons]; omega
  · simpa using hsize
  · intro x hxm
    obtain hxm | hxm := List.mem_append.mp hxm
    · exact h.transfer x hxm
    · exact List.mem_singleton.mp hxm ▸ hy

/-- In RUN a record with a free tag joins the sorter map at offset 0. -/
theorem BoardView.Travels.joinSorter (h : v.Travels P Q) (hrun : v.line = .run) {y : Stand} (hfree : y.tag ∉ v.tags)
    (hr : 1 ≤ y.tag ∧ y.tag ≤ Config.tagMax) (hy : y.sorterSerial = v.sorterNow) (hq : Q' 0 y)
    (hrest : ∀ off x, Q off x → Q' off x) (hx : ∀ x ∈ v.sorter, offsetAt v.sorterNow x.sorterSerial ≠ 0) :
    ({ v with sorter := v.sorter ++ [y] } : BoardView).Travels P Q' := by
  refine { h with tags := ?_, sorterFalls := h.sorterFalls.append hy hx, sorter := ?_ }
  · change TagsHeld v.line _
    rw [hrun]
    refine (hrun ▸ h.tags).insert ?_ hfree hr
    simp only [BoardView.tags, List.map_append, List.map_cons, List.map_nil]
    exact List.perm_iff_count.mpr fun t => by simp [List.count_append, List.count_cons]; omega
  · intro x hxm
    obtain hxm | hxm := List.mem_append.mp hxm
    · exact hrest _ x (h.sorter x hxm)
    · rw [List.mem_singleton.mp hxm, hy]
      simpa [offsetAt] using hq

end

end Sys2Proof.Machine
end

