-- ==== Sys2Proof/Proofs/Advances.lean ====
section
/-! An advance of either chain keeps every record's life that of its place: each line turns the predicate of the records by offset into
the next (R15, R28 to R30, R35, R118). -/

namespace Sys2Proof.Machine

-- One thread elaborates the many small proofs of this file.
set_option Elab.async false

/-! ### The trimmer lines -/

theorem trimmerAt_some {s : State} {now b : Serial} {k : Nat} {r : Record} (e : s.trimmerAt now k = some r) :
    r.stand ∈ (s.viewAt now b).trimmer ∧ offsetAt now r.creation = k := by
  refine ⟨List.mem_map_of_mem (List.mem_of_find?_eq_some e), ?_⟩
  exact of_decide_eq_true (List.find?_some (p := fun r : Record => decide (r.trimmerOffset now = k)) e)

theorem trimmerAt_none {s : State} {now b : Serial} {k : Nat} (e : s.trimmerAt now k = none) :
    ∀ x ∈ (s.viewAt now b).trimmer, offsetAt now x.creation ≠ k := by
  intro x hx
  obtain ⟨r, hr, rfl⟩ := List.mem_map.mp hx
  exact fun he => List.find?_eq_none.mp e r hr (decide_eq_true he)

theorem handToTally_viewAt (r : Record) (f : Fate) (s : State) (a b : Serial) : (handToTally r f s).viewAt a b = s.viewAt a b :=
  (handToTally_outside r f s).weaken.viewAt a b

theorem raiseEvent_viewAt (k : EventKind) (ch : Option Chain) (n d : Nat) (s : State) (a b : Serial) :
    (raiseEvent k ch n d s).viewAt a b = s.viewAt a b := (raiseEvent_outside k ch n d s).weaken.viewAt a b

theorem markSawMiss_viewAt (s : State) (a b : Serial) : (markSawMiss s).viewAt a b = s.viewAt a b := by
  unfold markSawMiss
  split
  · rfl
  · exact modifyTrimmer_viewAt_same _ (by intro; rfl) s a b

theorem missSaw_viewAt (saw : Nat) (s : State) (a b : Serial) : (missSaw saw s).viewAt a b = s.viewAt a b := by
  unfold missSaw
  dsimp only
  have hmiss (t : State) : (markSawMiss (raiseEvent .sawMiss none saw (s.saw saw).commanded.toNat t)).viewAt a b = t.viewAt a b := by
    rw [markSawMiss_viewAt, raiseEvent_viewAt]
  split
  · rw [(latch_outside _ _).weaken.viewAt, raiseEvent_viewAt, (modifySaw_outside _ _ _).weaken.viewAt, hmiss,
      (modifySaw_outside _ _ _).weaken.viewAt]
  · rw [hmiss, (modifySaw_outside _ _ _).weaken.viewAt]

theorem expireWindow_viewAt (saw : Nat) (s : State) (a b : Serial) : (expireWindow saw s).viewAt a b = s.viewAt a b := by
  unfold expireWindow
  split
  · rfl
  · exact missSaw_viewAt saw s a b
  · split
    · exact (modifySaw_outside saw _ s).weaken.viewAt a b
    · exact missSaw_viewAt saw s a b
    · exact missSaw_viewAt saw s a b

theorem endWindows_viewAt (s : State) (a b : Serial) : (endWindows s).viewAt a b = s.viewAt a b := by
  unfold endWindows
  induction allSaws generalizing s with
  | nil => rfl
  | cons saw rest ih =>
    refine (ih _).trans ?_
    unfold endWindow
    dsimp only
    split
    · rfl
    · split
      · exact (modifySaw_outside saw _ s).weaken.viewAt a b
      · exact missSaw_viewAt saw s a b

section
variable {s : State} {now b : Serial} {Q : Nat → Stand → Prop} {d m k n : Nat}

/-- The decision line: the SCANNED record that comes to D is DECIDED (R107). -/
theorem decisionLine_travels (hd : s.tables.station.decision = d) (hm : d < m) (hk : m ≤ k)
    (h : (s.viewAt now b).Travels (Stand.LifeBy (d + 1) m k n) Q) :
    ((decisionLine now s).viewAt now b).Travels (Stand.LifeBy d m k n) Q := by
  have hrest : ∀ off x, off ≠ d → Stand.LifeBy (d + 1) m k n off x → Stand.LifeBy d m k n off x := fun off x ho hp =>
    ⟨hp.reach, fun _ => hp.scanned (by omega), fun _ hlt => hp.decided (by omega) hlt, hp.set, hp.cut⟩
  unfold decisionLine
  rw [hd]
  split
  · next r e =>
    obtain ⟨hr, hoff⟩ := trimmerAt_some (b := b) e
    have hlife := h.trimmer _ hr
    change Stand.LifeBy _ _ _ _ (offsetAt now r.creation) _ at hlife
    rw [hoff] at hlife
    rw [if_pos (show r.life = .scanned from (hlife.scanned (by omega)).1)]
    have hview : (decideAtLine r s).viewAt now b =
        (s.viewAt now b).onTrimmer r.tag fun x => { x with decided := true, life := .decided } :=
      modifyTrimmer_viewAt r.tag (fun _ => rfl) s now b
    rw [hview]
    exact h.atLine hr hoff (fun hp => ⟨rfl, rfl, hp.reach, fun hlt => absurd hlt (by omega), fun _ _ => ⟨rfl, rfl⟩,
      fun hge => absurd hge (by omega), fun hge => absurd hge (by omega)⟩) hrest
  · next e => exact h.emptyLine (trimmerAt_none e) hrest

/-- The cut line: the SET record that comes to K is CUT, and a TRASH record leaves (R118). -/
theorem cutLine_travels (hk : s.tables.station.sawSet + 1 = k) (h : (s.viewAt now b).Travels (Stand.LifeBy d k (k + 1) n) Q)
    (hd : d ≤ k) : ((cutLine now s).viewAt now b).Travels (Stand.LifeBy d k k n) Q := by
  have hrest : ∀ off x, off ≠ k → Stand.LifeBy d k (k + 1) n off x → Stand.LifeBy d k k n off x := fun off x ho hp =>
    ⟨hp.reach, hp.scanned, hp.decided, fun _ _ => absurd ‹_› (by omega), fun _ => hp.cut (by omega)⟩
  unfold cutLine
  rw [hk]
  split
  · next e => exact h.emptyLine (trimmerAt_none e) hrest
  · next r e =>
    obtain ⟨hr, hoff⟩ := trimmerAt_some (b := b) e
    have hlife := h.trimmer _ hr
    change Stand.LifeBy _ _ _ _ (offsetAt now r.creation) _ at hlife
    rw [hoff] at hlife
    have hdec := (hlife.set (Nat.le_refl k) (Nat.lt_succ_self k)).2
    split
    · next e => simp [Record.stand, e] at hdec
    · next dec e =>
      dsimp only
      split
      · unfold retireFromTrimmer
        rw [handToTally_viewAt, leaveTrimmer_viewAt]
        exact h.leaveLine hr hoff hrest
      · rw [modifyTrimmer_viewAt (g := fun _ => { r.stand with life := .cut, cut := true }) _ (fun _ => rfl)]
        exact h.atLine hr hoff (fun hp => ⟨rfl, rfl, hp.reach, fun hlt => absurd hlt (by omega), fun _ hlt => absurd hlt (by omega),
          fun _ hlt => absurd hlt (by omega), fun _ => ⟨rfl, hdec, rfl⟩⟩) hrest

/-- A queue that is full gives up its head first (R29). -/
theorem appendTransfer_viewAt (r : Record) (s : State) (a b : Serial) :
    (appendTransfer r s).viewAt a b = { s.viewAt a b with
      transfer := (if Config.transferSlots ≤ (s.viewAt a b).transfer.length then (s.viewAt a b).transfer.tail
        else (s.viewAt a b).transfer) ++ [{ r.stand with life := .inTransfer }] } := by
  have hjoin : ∀ (u : State) (w : Waiting),
      ({ u with board := { u.board with transfer := u.board.transfer ++ [w] } } : State).viewAt a b =
        { u.viewAt a b with transfer := (u.viewAt a b).transfer ++ [w.board.stand] } := by
    intro u w
    simp only [State.viewAt, List.map_append, List.map_cons, List.map_nil]
  have hlen : (s.viewAt a b).transfer.length = s.board.transfer.length := by simp [State.viewAt]
  unfold appendTransfer
  dsimp only
  rw [hjoin, hlen]
  split
  · next hfull =>
    split
    · next e => rw [e] at hfull; exact absurd hfull (by decide)
    · next head rest e =>
      rw [raiseEvent_viewAt, handToTally_viewAt]
      simp only [State.viewAt, e, List.map_cons, List.tail_cons]
      rfl
  · rfl

/-- The outfeed line: the CUT record that comes to O leaves for the transfer queue (R29). -/
theorem outfeedLine_travels (hn : s.tables.station.outfeed = n) (hk : k ≤ n) (hrun : s.board.line = .run)
    (h : (s.viewAt now b).Travels (Stand.LifeBy d m k (n + 1)) Q) :
    ((outfeedLine now s).viewAt now b).Travels (Stand.LifeBy d m k n) Q := by
  have hrest : ∀ off x, off ≠ n → Stand.LifeBy d m k (n + 1) off x → Stand.LifeBy d m k n off x := fun off x ho hp =>
    ⟨by have := hp.reach; omega, hp.scanned, hp.decided, hp.set, hp.cut⟩
  unfold outfeedLine
  rw [hn]
  split
  · next r e =>
    obtain ⟨hr, hoff⟩ := trimmerAt_some (b := b) e
    have hlife := h.trimmer _ hr
    change Stand.LifeBy _ _ _ _ (offsetAt now r.creation) _ at hlife
    rw [hoff] at hlife
    have hleft := h.leaveLine hr hoff hrest
    rw [appendTransfer_viewAt, leaveTrimmer_viewAt]
    have hfree : r.tag ∉ ((s.viewAt now b).offTrimmer r.stand.tag).tags := by
      have hd := h.tags.distinct
      simp only [BoardView.tags, List.map_append, BoardView.offTrimmer] at hd ⊢
      have hmem : r.tag ∈ (s.viewAt now b).trimmer.map (·.tag) := List.mem_map_of_mem (f := fun x : Stand => x.tag) hr
      simp only [List.mem_append, not_or]
      refine ⟨⟨fun hin => ?_, fun hin => ?_⟩, fun hin => ?_⟩
      · obtain ⟨x, hx, hxt⟩ := List.mem_map.mp hin
        have hne : ¬ x.tag = r.stand.tag := by simpa using (List.mem_filter.mp hx).2
        exact hne hxt
      · exact List.disjoint_of_nodup_append hd.of_append_left hmem hin
      · exact List.disjoint_of_nodup_append hd (List.mem_append_left _ hmem) hin
    have hrange : 1 ≤ r.tag ∧ r.tag ≤ Config.tagMax :=
      h.tags.inRange r.tag (List.mem_map_of_mem (f := fun x : Stand => x.tag) (List.mem_append_left _ (List.mem_append_left _ hr)))
    have hwait : ((r.stand).cut = true) := (hlife.cut hk).2.2
    set ws := if Config.transferSlots ≤ ((s.viewAt now b).offTrimmer r.tag).transfer.length then
      ((s.viewAt now b).offTrimmer r.tag).transfer.tail else ((s.viewAt now b).offTrimmer r.tag).transfer with hws
    have hsub : ws.Sublist ((s.viewAt now b).offTrimmer r.tag).transfer := by
      rw [hws]
      split
      · exact List.tail_sublist _
      · exact .refl _
    have hsize : ws.length < Config.transferSlots := by
      have hle := hleft.transferSize
      change ((s.viewAt now b).offTrimmer r.tag).transfer.length ≤ 8 at hle
      rw [hws]
      change _ < 8
      split
      · rw [List.length_tail]; omega
      · next hlt => exact Nat.lt_of_not_le hlt
    refine (hleft.fewerWait hsub).joinTransfer hrun (fun hin => hfree ?_) hrange ⟨rfl, hwait⟩ hsize
    exact (((hsub.append_left _).append_right _).map _).subset hin
  · next e => exact h.emptyLine (trimmerAt_none e) hrest

/-- The saw-set line: the DECIDED record that comes to S is SET (R113). -/
theorem setLine_travels (hm : s.tables.station.sawSet = m) (hd : d ≤ m)
    (h : (s.viewAt now b).Travels (Stand.LifeBy d (m + 1) (m + 1) n) Q) :
    ((setLine now s).viewAt now b).Travels (Stand.LifeBy d m (m + 1) n) Q := by
  have hrest : ∀ off x, off ≠ m → Stand.LifeBy d (m + 1) (m + 1) n off x → Stand.LifeBy d m (m + 1) n off x := fun off x ho hp =>
    ⟨hp.reach, hp.scanned, fun _ _ => hp.decided ‹_› (by omega), fun _ _ => absurd ‹m ≤ off› (by omega), hp.cut⟩
  unfold setLine
  rw [hm]
  dsimp only
  split
  · next r e =>
    obtain ⟨hr, hoff⟩ := trimmerAt_some (b := b) e
    have hlife := h.trimmer _ hr
    change Stand.LifeBy _ _ _ _ (offsetAt now r.creation) _ at hlife
    rw [hoff] at hlife
    have hview : ∀ u : State, ∀ o, ({ u with saws := { u.saws with owner := o } } : State).viewAt now b = u.viewAt now b := fun _ _ => rfl
    rw [hview, modifyTrimmer_viewAt (g := fun x => { x with life := .set }) _ (fun _ => rfl), (applyPattern_outside _ s).weaken.viewAt]
    exact h.atLine hr hoff (fun hp => ⟨rfl, rfl, hp.reach, fun hlt => absurd hlt (by omega), fun _ hlt => absurd hlt (by omega),
      fun _ _ => ⟨rfl, (hp.decided hd (by omega)).2⟩, fun hge => absurd hge (by omega)⟩) hrest
  · next e => exact h.emptyLine (trimmerAt_none e) hrest

end

/-- A trimmer advance brings every record to the life of its new place. -/
theorem advanceTrimmer_placed {s : State} (h : s.view.Placed) :
    ((advanceTrimmer s).viewAt (s.tcu.serial + 1) s.scu.serial).Placed := by
  have hst := (stationFault_eq_none _).mp h.stations
  change _ ∧ _ ∧ s.tables.station.aHi < s.tables.station.decision ∧ _ ∧ _ ∧ _ ∧ s.tables.station.decision < s.tables.station.sawSet ∧
    s.tables.station.sawSet + 1 ≤ s.tables.station.outfeed ∧ s.tables.station.outfeed ≤ 60 ∧ _ at hst
  obtain ⟨-, -, -, -, -, -, hDS, hSO, hO, -, -⟩ := hst
  set st := s.tables.station with hstn
  have hreach : ∀ x ∈ s.view.trimmer, offsetAt s.tcu.serial x.creation < st.outfeed := fun x hx => (h.trimmer x hx).reach
  have harrive : (s.viewAt (s.tcu.serial + 1) s.scu.serial).Travels
      (Stand.LifeBy (st.decision + 1) (st.sawSet + 1) (st.sawSet + 2) (st.outfeed + 1)) (Stand.SortedBy st.runout) := by
    refine { h with trimmerFalls := h.trimmerFalls.advance (n := st.outfeed) (by omega) hreach, trimmer := fun x hx => ?_ }
    have hp := h.trimmer x hx
    have hlt := hreach x hx
    change Stand.LifeBy _ _ _ _ (offsetAt (s.tcu.serial + 1) x.creation) x
    rw [offsetAt_advance (by omega)]
    exact ⟨by omega, fun _ => hp.scanned (by change offsetAt s.tcu.serial _ < st.decision; omega),
      fun _ _ => hp.decided (by change st.decision ≤ offsetAt s.tcu.serial _; omega)
        (by change offsetAt s.tcu.serial _ < st.sawSet; omega),
      fun _ _ => hp.set (by change st.sawSet ≤ offsetAt s.tcu.serial _; omega)
        (by change offsetAt s.tcu.serial _ < st.sawSet + 1; omega),
      fun _ => hp.cut (by change st.sawSet + 1 ≤ offsetAt s.tcu.serial _; omega)⟩
  have hstation : (advanceTrimmer s).tables.station = st := by rw [(advanceTrimmer_outside s).tables rfl]
  unfold BoardView.Placed
  change BoardView.Travels (Stand.LifeBy (advanceTrimmer s).tables.station.decision (advanceTrimmer s).tables.station.sawSet
    ((advanceTrimmer s).tables.station.sawSet + 1) (advanceTrimmer s).tables.station.outfeed)
    (Stand.SortedBy (advanceTrimmer s).tables.station.runout) _
  rw [hstation]
  unfold advanceTrimmer
  dsimp only
  rw [(markAdvance_outside _ _ _).weaken.viewAt, (markAdvance_outside _ _ _).weaken.viewAt]
  split
  · next hrun =>
    unfold trimmerLines
    have h1 := decisionLine_travels (d := st.decision) rfl (by omega) (by omega) harrive
    rw [← endWindows_viewAt] at h1
    have o1 := Outside.then (decisionLine_outside (s.tcu.serial + 1) s).weaken (endWindows_outside _)
      (m := { trimmer := true, transfer := true, decision := true, saws := true, tally := true, events := true, attention := true })
    have h2 := cutLine_travels (k := st.sawSet + 1) (by rw [o1.tables rfl]) h1 (by omega)
    have o2 := o1.then (cutLine_outside (s.tcu.serial + 1) _)
    have h3 := outfeedLine_travels (n := st.outfeed) (by rw [o2.tables rfl]) (by omega) (by rw [o2.line rfl, hrun]) h2
    have o3 := o2.then (outfeedLine_outside (s.tcu.serial + 1) _)
    exact setLine_travels (m := st.sawSet) (by rw [o3.tables rfl]) (by omega) h3
  · next hcfg =>
    have hnone : s.view.trimmer = [] := by
      have := h.tags.idle hcfg
      simp only [BoardView.tags, List.map_eq_nil_iff, List.append_eq_nil_iff] at this
      exact this.1.1
    refine harrive.imp (fun x hx => ?_) fun _ _ hq => hq
    change x ∈ s.view.trimmer at hx
    rw [hnone] at hx
    cases hx

end Sys2Proof.Machine
end

