-- ==== Sys2Proof/Proofs/SorterTravel.lean ====
section
/-! What the sorter's lines, gates and pickup do to the view (R31 to R36, R134 to R139), and the sorter advance. -/

namespace Sys2Proof.Machine

-- One thread elaborates the many small proofs of this file.
set_option Elab.async false

theorem byTag_some {rs : List Record} {tag : Nat} {r : Record} (e : byTag rs tag = some r) : r ∈ rs ∧ r.tag = tag :=
  ⟨List.mem_of_find?_eq_some e, of_decide_eq_true (List.find?_some (p := fun r : Record => decide (r.tag = tag)) e)⟩

theorem byTag_none {rs : List Record} {tag : Nat} (e : byTag rs tag = none) : ∀ r ∈ rs, r.tag ≠ tag :=
  fun r hr he => List.find?_eq_none.mp e r hr (decide_eq_true he)

/-! ### Drops and re-routes -/

theorem reroute_viewAt (r : Record) (off : Nat) (s : State) (a b : Serial) : (reroute r off s).viewAt a b = s.viewAt a b := by
  unfold reroute
  split
  · rfl
  · next p _ =>
    dsimp only
    rw [(modifySortCounts_outside _ _).weaken.viewAt, modifySorter_viewAt_same _ (by intro x; exact Record.mapSort_stand _ x)]
    split
    · exact (releaseReservation_outside _ s).weaken.viewAt a b
    · rw [(takeReservation_outside _ _).weaken.viewAt, (releaseReservation_outside _ s).weaken.viewAt]

theorem completeDrop_viewAt (r : Record) (bin : Nat) (s : State) (a b : Serial) :
    (completeDrop r bin s).viewAt a b = (s.viewAt a b).offSorter r.tag := by
  unfold completeDrop
  dsimp only
  rw [handToTally_viewAt, leaveSorter_viewAt]
  have hb := (modifyBin_outside bin (fun b => { b with dropped := b.dropped + 1, reserved := b.reserved - 1 }) s).weaken.viewAt a b
  split
  · split
    · rw [(makeFull_outside _ _).weaken.viewAt, hb]; rfl
    · rw [hb]; rfl
  · rw [hb]; rfl

theorem fireGate_viewAt (r : Record) (bin : Nat) (s : State) (a b : Serial) : (fireGate r bin s).viewAt a b = s.viewAt a b := by
  unfold fireGate
  dsimp only
  rw [(modifySortCounts_outside _ _).weaken.viewAt, modifySorter_viewAt_same _ (by intro x; exact Record.mapSort_stand _ x),
    (modifyBin_outside _ _ _).weaken.viewAt]

/-- The drop line leaves the boards, drops the record, or makes it DROPPING (R134, R136). -/
theorem dropLine_viewAt (r : Record) (bin off : Nat) (s : State) (a b : Serial) :
    (dropLine r bin off s).viewAt a b = s.viewAt a b ∨ (dropLine r bin off s).viewAt a b = (s.viewAt a b).offSorter r.tag ∨
      (dropLine r bin off s).viewAt a b = (s.viewAt a b).onSorter r.tag fun x => { x with life := .dropping } := by
  unfold dropLine
  dsimp only
  split
  · left
    rw [(modifySortCounts_outside _ _).weaken.viewAt, modifySorter_viewAt_same _ (by intro x; exact Record.mapSort_stand _ x),
      (releaseReservation_outside _ s).weaken.viewAt]
  · split
    · exact .inl (reroute_viewAt r off s a b)
    · split
      · left
        rw [reroute_viewAt, (modifySortCounts_outside _ s).weaken.viewAt]
      · split
        · right; right
          rw [(modifyBin_outside _ _ _).weaken.viewAt, modifySorter_viewAt (g := fun x => { x with life := .dropping }) _ (by intro; rfl),
            fireGate_viewAt]
        · split
          · next x e =>
            right; left
            rw [completeDrop_viewAt, (byTag_some e).2, fireGate_viewAt]
          · exact .inl (fireGate_viewAt r bin s a b)

theorem retireFromSorter_viewAt (r : Record) (f : Fate) (s : State) (a b : Serial) :
    (retireFromSorter r f s).viewAt a b = (s.viewAt a b).offSorter r.tag := by
  unfold retireFromSorter
  dsimp only
  rw [handToTally_viewAt, leaveSorter_viewAt, (modifyBin_outside _ _ _).weaken.viewAt, (releaseReservation_outside _ s).weaken.viewAt]

/-- What a sorter advance does to the view for one tag: it leaves it, drops the tag or makes it DROPPING, and at the runout line it drops
it (R35, R134). -/
theorem sorterLine_viewAt (now : Serial) (tag : Nat) (s : State) (a b : Serial) :
    (sorterLine now tag s).viewAt a b = (s.viewAt a b).offSorter tag ∨
      (∀ r, byTag s.board.sorter tag = some r → r.sorterOffset now ≠ s.tables.station.runout) ∧
        ((sorterLine now tag s).viewAt a b = s.viewAt a b ∨
          (sorterLine now tag s).viewAt a b = (s.viewAt a b).onSorter tag fun x => { x with life := .dropping }) := by
  unfold sorterLine
  split
  · next e => exact .inr ⟨fun r hr => absurd (e.symm.trans hr) (by simp), .inl rfl⟩
  · next r e =>
    dsimp only
    have htag := (byTag_some e).2
    split
    · left
      rw [retireFromSorter_viewAt, htag]
    · next hoff =>
      have hnot : ∀ x, byTag s.board.sorter tag = some x → x.sorterOffset now ≠ s.tables.station.runout :=
        fun x hx => Option.some.inj (e.symm.trans hx) ▸ hoff
      split
      · obtain h | h | h := dropLine_viewAt r r.heldBin (r.sorterOffset now) s a b
        · exact .inr ⟨hnot, .inl h⟩
        · exact .inl (htag ▸ h)
        · exact .inr ⟨hnot, .inr (htag ▸ h)⟩
      · exact .inr ⟨hnot, .inl rfl⟩

/-! ### The sorter advance -/

theorem ageTransfer_viewAt (s : State) (a b : Serial) :
    ∃ ws, ws.Sublist (s.viewAt a b).transfer ∧ (ageTransfer s).viewAt a b = { s.viewAt a b with transfer := ws } := by
  unfold ageTransfer
  dsimp only
  set aged := s.board.transfer.map fun w => { w with age := w.age + 1 } with haged
  refine ⟨(aged.dropWhile fun w => decide (s.tables.settings.ageLimit < w.age)).map fun w => w.board.stand, ?_, ?_⟩
  · have he : (s.viewAt a b).transfer = aged.map fun w => w.board.stand := by simp [haged, State.viewAt, Function.comp_def]
    rw [he]
    exact (List.dropWhile_sublist _).map _
  · have hlost : ∀ (ws : List Waiting) (u : State),
        (ws.foldl (fun s w => raiseEvent .boardLost (some .sorter) w.board.tag 2 (handToTally w.board .lost s)) u).viewAt a b =
          u.viewAt a b := by
      intro ws
      induction ws with
      | nil => intro u; rfl
      | cons w rest ih => intro u; rw [List.foldl_cons, ih, raiseEvent_viewAt, handToTally_viewAt]
    rw [hlost]
    rfl

/-- One tag met by a sorter advance: afterwards no record of that tag stands at the runout line. -/
theorem sorterLine_travels {s : State} {a now : Serial} {P : Nat → Stand → Prop} {n tag : Nat} {rest : List Nat}
    (hn : s.tables.station.runout = n)
    (h : (s.viewAt a now).Travels P fun off x => Stand.SortedBy (n + 1) off x ∧ (off = n → x.tag ∈ tag :: rest)) :
    ((sorterLine now tag s).viewAt a now).Travels P fun off x => Stand.SortedBy (n + 1) off x ∧ (off = n → x.tag ∈ rest) := by
  have hother : ∀ off (x : Stand), x.tag ≠ tag → (Stand.SortedBy (n + 1) off x ∧ (off = n → x.tag ∈ tag :: rest)) →
      Stand.SortedBy (n + 1) off x ∧ (off = n → x.tag ∈ rest) := fun off x hne hq =>
    ⟨hq.1, fun ho => (List.mem_cons.mp (hq.2 ho)).resolve_left hne⟩
  obtain hv | ⟨hnot, hv⟩ := sorterLine_viewAt now tag s a now
  · rw [hv]
    exact h.offSorter fun x _ hne hq => hother _ x hne hq
  · have hline : ∀ x ∈ (s.viewAt a now).sorter, x.tag = tag → offsetAt now x.sorterSerial ≠ n := by
      intro x hx hxt
      obtain ⟨r, hr, rfl⟩ := List.mem_map.mp hx
      cases e : byTag s.board.sorter tag with
      | none => exact absurd hxt (byTag_none e r hr)
      | some y =>
        have hy := byTag_some e
        have hxy := h.sorter_eq_of_tag hx (List.mem_map_of_mem hy.1) (hxt.trans hy.2.symm)
        rw [hxy, ← hn]
        exact hnot y e
    obtain hv | hv := hv
    · rw [hv]
      refine h.imp (fun _ _ hp => hp) fun x hx hq => ?_
      by_cases hxt : x.tag = tag
      · exact ⟨hq.1, fun ho => absurd ho (hline x hx hxt)⟩
      · exact hother _ x hxt hq
    · rw [hv]
      refine h.onSorter (fun x hx hxt hq => ⟨rfl, rfl, ⟨hq.1.reach, .inr rfl, hq.1.sorted⟩, fun ho => absurd ho (hline x hx hxt)⟩)
        fun x _ hne hq => hother _ x hne hq

/-- A sorter advance brings every record to its new place, those at the runout line retired. -/
theorem advanceSorter_placed {s : State} (h : s.view.Placed) :
    ((advanceSorter s).viewAt s.tcu.serial (s.scu.serial + 1)).Placed := by
  have hstation : (advanceSorter s).tables.station = s.tables.station := by rw [(advanceSorter_outside s).tables rfl]
  unfold BoardView.Placed
  change BoardView.Travels (Stand.LifeBy (advanceSorter s).tables.station.decision (advanceSorter s).tables.station.sawSet
    ((advanceSorter s).tables.station.sawSet + 1) (advanceSorter s).tables.station.outfeed)
    (Stand.SortedBy (advanceSorter s).tables.station.runout) _
  rw [hstation]
  unfold advanceSorter
  dsimp only
  set n := s.tables.station.runout with hn
  have hrun : n ≤ 127 := ((stationFault_eq_none _).mp h.stations).2.2.2.2.2.2.2.2.2.2
  have hreach : ∀ x ∈ s.view.sorter, offsetAt s.scu.serial x.sorterSerial < n := fun x hx => (h.sorter x hx).reach
  obtain ⟨ws, hws, hage⟩ := ageTransfer_viewAt s s.tcu.serial (s.scu.serial + 1)
  have hmoved : ((ageTransfer s).viewAt s.tcu.serial (s.scu.serial + 1)).Travels
      (Stand.LifeBy s.tables.station.decision s.tables.station.sawSet (s.tables.station.sawSet + 1) s.tables.station.outfeed)
      fun off x => Stand.SortedBy (n + 1) off x ∧ (off = n → x.tag ∈ (ageTransfer s).board.sorter.map (·.tag)) := by
    rw [hage, (ageTransfer_outside s).sorter rfl]
    refine BoardView.Travels.fewerWait ?_ hws
    refine { h with sorterFalls := h.sorterFalls.advance (n := n) (by omega) hreach, sorter := fun x hx => ⟨?_, fun _ => ?_⟩ }
    · have hq := h.sorter x hx
      have hlt := hreach x hx
      change Stand.SortedBy _ (offsetAt (s.scu.serial + 1) x.sorterSerial) x
      rw [offsetAt_advance (by omega)]
      exact ⟨by omega, hq.life, hq.sorted⟩
    · obtain ⟨r, hr, rfl⟩ := List.mem_map.mp hx
      exact List.mem_map_of_mem (f := fun r : Record => r.tag) hr
  have hfold : ∀ (tags : List Nat) (u : State), u.tables.station.runout = n →
      ((u.viewAt s.tcu.serial (s.scu.serial + 1)).Travels
        (Stand.LifeBy s.tables.station.decision s.tables.station.sawSet (s.tables.station.sawSet + 1) s.tables.station.outfeed)
        fun off x => Stand.SortedBy (n + 1) off x ∧ (off = n → x.tag ∈ tags)) →
      ((tags.foldl (fun s' tag => sorterLine (s.scu.serial + 1) tag s') u).viewAt s.tcu.serial (s.scu.serial + 1)).Travels
        (Stand.LifeBy s.tables.station.decision s.tables.station.sawSet (s.tables.station.sawSet + 1) s.tables.station.outfeed)
        fun off x => Stand.SortedBy (n + 1) off x ∧ (off = n → x.tag ∈ []) := by
    intro tags
    induction tags with
    | nil => intro u _ hu; exact hu
    | cons tag rest ih =>
      intro u hun hu
      refine ih _ ?_ (sorterLine_travels hun hu)
      rw [(sorterLine_outside _ tag u).tables rfl, hun]
  have hstat : (ageTransfer s).tables.station.runout = n := by rw [(ageTransfer_outside s).tables rfl]
  refine (hfold _ _ hstat hmoved).imp (fun _ _ hp => hp) fun x _ hq => ?_
  refine ⟨?_, hq.1.life, hq.1.sorted⟩
  have hlt := hq.1.reach
  have hne : offsetAt _ x.sorterSerial ≠ n := fun ho => List.not_mem_nil (hq.2 ho)
  omega

/-- An advance of a chain, its serial raised after it. -/
theorem advanceLines_placed (ch : Chain) {s : State} (h : s.view.Placed) :
    ((advanceLines ch s).viewAt (if ch = .trimmer then s.tcu.serial + 1 else s.tcu.serial)
      (if ch = .sorter then s.scu.serial + 1 else s.scu.serial)).Placed := by
  cases ch
  · exact advanceTrimmer_placed h
  · exact advanceSorter_placed h

/-- The serial of the chain that advances is raised after what its lines do to the boards and what follows them elsewhere. -/
theorem raiseSerial_placed (ch : Chain) {s t : State} (h : s.view.Placed) (ho : Outside .offBoards (advanceLines ch s) t)
    (ht : ∀ c, (t.unit c).serial = (s.unit c).serial) : (raiseSerial ch t).view.Placed := by
  have hv : (raiseSerial ch t).view = (advanceLines ch s).viewAt (if ch = .trimmer then s.tcu.serial + 1 else s.tcu.serial)
      (if ch = .sorter then s.scu.serial + 1 else s.scu.serial) := by
    have htr : t.tcu.serial = s.tcu.serial := ht .trimmer
    have hso : t.scu.serial = s.scu.serial := ht .sorter
    rw [← ho.viewAt]
    cases ch
    · rw [← htr, ← hso]; rfl
    · rw [← htr, ← hso]; rfl
  rw [hv]
  exact advanceLines_placed ch h

end Sys2Proof.Machine
end

