-- ==== Sys2Proof/Proofs/Joining.lean ====
section
/-! Records that join: the next free tag (R23), creation at the scan line (R24) and pickup (R31 to R33); and the gates' events, which drop a
sorter record or send it on (R136 to R139). -/

namespace Sys2Proof.Machine

-- One thread elaborates the many small proofs of this file.
set_option Elab.async false

/-! ### The next free tag (R23) -/

theorem tagAfter_range {t : Nat} (h : 1 ≤ t ∧ t ≤ Config.tagMax) : 1 ≤ tagAfter t ∧ tagAfter t ≤ Config.tagMax := by
  by_cases hlt : t < Config.tagMax
  · rw [tagAfter, if_pos hlt]; omega
  · rw [tagAfter, if_neg hlt]; omega

theorem tagAfter_iterate {t k : Nat} (ht : 1 ≤ t ∧ t ≤ 65535) (hk : k < 65535) :
    tagAfter^[k] t = if t + k ≤ 65535 then t + k else t + k - 65535 := by
  induction k with
  | zero => simp [ht.2]
  | succ k ih =>
    rw [Function.iterate_succ_apply', ih (by omega)]
    simp only [tagAfter, Config.tagMax]
    split_ifs <;> omega

theorem tagAfter_iterate_range {t : Nat} (ht : 1 ≤ t ∧ t ≤ Config.tagMax) (k : Nat) :
    1 ≤ tagAfter^[k] t ∧ tagAfter^[k] t ≤ Config.tagMax := by
  induction k with
  | zero => exact ht
  | succ k ih => rw [Function.iterate_succ_apply']; exact tagAfter_range ih

/-- The tag found is some number of tags on, every tag before it is carried, and it is carried only where the search has run out. -/
theorem freeTag_spec (used : List Nat) (fuel tag : Nat) :
    ∃ k ≤ fuel, freeTag used fuel tag = tagAfter^[k] tag ∧ (∀ j < k, tagAfter^[j] tag ∈ used) ∧
      (freeTag used fuel tag ∈ used → k = fuel) := by
  induction fuel generalizing tag with
  | zero => exact ⟨0, Nat.le_refl 0, rfl, fun j hj => absurd hj (Nat.not_lt_zero j), fun _ => rfl⟩
  | succ fuel ih =>
    unfold freeTag
    split
    · next hin =>
      obtain ⟨k, hk, he, hall, hend⟩ := ih (tagAfter tag)
      refine ⟨k + 1, by omega, he, fun j hj => ?_, fun hu => by rw [hend hu]⟩
      cases j with
      | zero => simpa using hin
      | succ j => exact hall j (by omega)
    · next hin =>
      exact ⟨0, Nat.zero_le _, rfl, fun j hj => absurd hj (Nat.not_lt_zero j), fun hu => absurd (by simpa using hu) hin⟩

/-- Fewer tags than there are leave one free. -/
theorem freeTag_free {used : List Nat} {tag : Nat} (ht : 1 ≤ tag ∧ tag ≤ Config.tagMax) (hu : used.length < 65535) :
    freeTag used used.length tag ∉ used := by
  obtain ⟨k, -, he, hall, hend⟩ := freeTag_spec used used.length tag
  intro hin
  have hk := hend hin
  have hsub : (List.range (k + 1)).map (fun j => tagAfter^[j] tag) ⊆ used := by
    intro x hx
    obtain ⟨j, hj, rfl⟩ := List.mem_map.mp hx
    obtain hlt | rfl := Nat.lt_succ_iff_lt_or_eq.mp (List.mem_range.mp hj)
    · exact hall j hlt
    · exact he ▸ hin
  have hinj : ((List.range (k + 1)).map fun j => tagAfter^[j] tag).Nodup := by
    refine List.Nodup.map_on (fun i hi j hj e => ?_) List.nodup_range
    rw [List.mem_range] at hi hj
    have ht' : 1 ≤ tag ∧ tag ≤ 65535 := ht
    rw [tagAfter_iterate ht' (by omega), tagAfter_iterate ht' (by omega)] at e
    split_ifs at e <;> omega
  have hle := (hinj.subperm hsub).length_le
  simp only [List.length_map, List.length_range] at hle
  omega

/-- The next free tag is one that no live record carries. -/
theorem State.nextFreeTag_free {s : State} (hc : 1 ≤ s.board.nextTag ∧ s.board.nextTag ≤ Config.tagMax) (hl : s.live.length < 65535) :
    s.nextFreeTag ∉ s.live.map (·.tag) ∧ 1 ≤ s.nextFreeTag ∧ s.nextFreeTag ≤ Config.tagMax := by
  refine ⟨freeTag_free hc (by simpa using hl), ?_⟩
  obtain ⟨k, -, he, -⟩ := freeTag_spec (s.live.map (·.tag)) (s.live.map (·.tag)).length s.board.nextTag
  have : s.nextFreeTag = tagAfter^[k] s.board.nextTag := he
  rw [this]
  exact tagAfter_iterate_range hc k

/-- With the boards placed at most 195 records are live (R23). -/
theorem BoardView.Placed.live_le {s : State} (h : s.view.Placed) : s.live.length ≤ 195 := by
  have hst := (stationFault_eq_none _).mp h.stations
  have h1 := h.trimmerFalls.length_le fun x hx => (h.trimmer x hx).reach
  have h2 := h.sorterFalls.length_le fun x hx => (h.sorter x hx).reach
  have h3 : s.view.transfer.length ≤ 8 := h.transferSize
  have hlen : s.live.length = s.view.trimmer.length + s.view.transfer.length + s.view.sorter.length := by
    simp [State.live, State.view, State.viewAt, Nat.add_assoc]
  omega

theorem BoardView.Placed.nextFreeTag {s : State} (h : s.view.Placed) :
    s.nextFreeTag ∉ s.view.tags ∧ 1 ≤ s.nextFreeTag ∧ s.nextFreeTag ≤ Config.tagMax := by
  have := State.nextFreeTag_free h.counter (by have := h.live_le; omega)
  rwa [State.live_tags] at this

/-! ### States with the serials as they stand -/

/-- An operation that leaves the lug serials is told by its view at them. -/
theorem Outside.view {m : Touched} {s t : State} (h : Outside m s t) (ht : m.tcu = false := by rfl) (hs : m.scu = false := by rfl) :
    t.view = t.viewAt s.tcu.serial s.scu.serial := by
  unfold State.view
  rw [h.tcu ht, h.scu hs]

/-! ### Creation at the scan line -/

theorem scanEdge_placed {s : State} (h : s.view.Placed) : (scanEdge s).view.Placed := by
  unfold scanEdge
  split
  · exact h
  · next hrun =>
    have hline : s.board.line = .run := by
      cases e : s.board.line
      · exact absurd (.inl e) hrun
      · rfl
    split
    · next r _ =>
      have hv : (s.modifyTrimmer r.tag fun x => { x with flags := { x.flags with double := true } }).view = s.view :=
        modifyTrimmer_viewAt_same _ (by intro; rfl) s _ _
      exact hv ▸ h
    · next e =>
      obtain ⟨hfree, hrange⟩ := h.nextFreeTag
      unfold createScanned
      dsimp only
      rw [(offerNotice_outside _ _).view, (offerNotice_outside _ _).weaken.viewAt]
      have hst := (stationFault_eq_none _).mp h.stations
      have hjoin := h.joinTrimmer hline (y := (newRecord s.nextFreeTag .scanned s.tcu.serial .scanned s.tcu.sync.untrusted).stand) hfree
        hrange rfl ⟨by omega, fun _ => ⟨rfl, rfl⟩, fun hle => by omega, fun hle => by omega, fun hle => by omega⟩
        (trimmerAt_none (b := s.scu.serial) e) (tagAfter_range hrange)
      have hv : ({ s with board := { s.board with
          trimmer := s.board.trimmer ++ [newRecord s.nextFreeTag .scanned s.tcu.serial .scanned s.tcu.sync.untrusted],
          nextTag := tagAfter s.nextFreeTag } } : State).viewAt s.tcu.serial s.scu.serial = { s.view with
          trimmer := s.view.trimmer ++ [(newRecord s.nextFreeTag .scanned s.tcu.serial .scanned s.tcu.sync.untrusted).stand],
          nextTag := tagAfter s.nextFreeTag } := by
        simp only [State.viewAt, State.view, List.map_append, List.map_cons, List.map_nil]
      exact hv ▸ hjoin

/-! ### Pickup -/

theorem allocate_viewAt (r : Record) (s : State) (a b : Serial) :
    (allocate r s).viewAt a b = (s.viewAt a b).onSorter r.tag fun x => { x with sorted := true } := by
  unfold allocate
  dsimp only
  have hset : ∀ part : SortPart, (s.modifySorter r.tag fun x => { x with sort := some part }).viewAt a b =
      (s.viewAt a b).onSorter r.tag fun x => { x with sorted := true } :=
    fun part => modifySorter_viewAt _ (by intro; rfl) s a b
  generalize (if r.flags.suspect = true then 0 else ((s.routeBins (s.routeKind (productKey r))).find? fun b => s.takes b).getD 0) = bin
  split
  · rw [(modifySortCounts_outside _ _).weaken.viewAt, hset]
  · rw [(takeReservation_outside _ _).weaken.viewAt, (modifySortCounts_outside _ _).weaken.viewAt, hset]

/-- A record with a free tag, placed in RUN on a sorter lug with none at offset 0, stands ON-SORTER with a sort part (R32, R33). -/
theorem placeOnSorter_placed {r : Record} {s : State} (h : s.view.Placed) (hrun : s.board.line = .run) (hfree : r.tag ∉ s.view.tags)
    (hr : 1 ≤ r.tag ∧ r.tag ≤ Config.tagMax) (hx : ∀ x ∈ s.view.sorter, offsetAt s.scu.serial x.sorterSerial ≠ 0) :
    (placeOnSorter r s).view.Placed := by
  rw [(placeOnSorter_outside r s).view]
  unfold placeOnSorter
  dsimp only
  rw [allocate_viewAt]
  set y : Record := { r with sorterSerial := some s.scu.serial, life := .onSorter,
                             flags := { r.flags with suspect := r.flags.suspect || s.scu.sync.untrusted } } with hy
  have hst := (stationFault_eq_none _).mp h.stations
  have hv : ({ s with board := { s.board with sorter := s.board.sorter ++ [y] } } : State).viewAt s.tcu.serial s.scu.serial =
      { s.view with sorter := s.view.sorter ++ [y.stand] } := by
    simp only [State.viewAt, State.view, List.map_append, List.map_cons, List.map_nil]
  rw [hv]
  have hjoin : ({ s.view with sorter := s.view.sorter ++ [y.stand] } : BoardView).Travels
      (Stand.LifeBy s.tables.station.decision s.tables.station.sawSet (s.tables.station.sawSet + 1) s.tables.station.outfeed)
      (fun off x => off < s.tables.station.runout ∧ (x.life = .onSorter ∨ x.life = .dropping) ∧ (x.tag ≠ r.tag → x.sorted = true)) := by
    exact h.joinSorter hrun (y := y.stand) hfree hr rfl
      ⟨(by omega : 0 < s.view.station.runout), .inl rfl, fun hne => absurd rfl hne⟩ (fun off x hq => ⟨hq.reach, hq.life, fun _ => hq.sorted⟩) hx
  exact hjoin.onSorter (fun x _ _ hq => ⟨rfl, rfl, hq.1, hq.2.1, rfl⟩) fun x _ hne hq => ⟨hq.1, hq.2.1, hq.2.2 hne⟩

theorem BoardView.Placed.withCounter {v : BoardView} (h : v.Placed) {n : Nat} (hn : 1 ≤ n ∧ n ≤ Config.tagMax) :
    ({ v with nextTag := n } : BoardView).Placed := { h with counter := hn }

theorem pickupEdge_placed {s : State} (h : s.view.Placed) : (pickupEdge s).view.Placed := by
  unfold pickupEdge
  split
  · exact h
  · next hrun =>
    have hline : s.board.line = .run := by
      cases e : s.board.line
      · exact absurd (.inl e) hrun
      · rfl
    have hempty : ∀ x ∈ s.view.sorter, offsetAt s.scu.serial x.sorterSerial ≠ 0 := by
      intro x hx h0
      obtain ⟨r, hr, rfl⟩ := List.mem_map.mp hx
      refine hrun (.inr (.inr ?_))
      rw [State.sorterAt, List.find?_isSome]
      exact ⟨r, hr, decide_eq_true h0⟩
    split
    · next hq =>
      obtain ⟨hfree, hrange⟩ := h.nextFreeTag
      unfold createUnknown
      dsimp only
      set u : State := { s with board := { s.board with nextTag := tagAfter s.nextFreeTag } } with hu
      have hv : (raiseEvent .boardUnknown (some .sorter) s.nextFreeTag 0 u).view = { s.view with nextTag := tagAfter s.nextFreeTag } := by
        rw [(raiseEvent_outside _ _ _ _ _).view, raiseEvent_viewAt]
        rfl
      refine placeOnSorter_placed (hv ▸ h.withCounter (tagAfter_range hrange)) ?_ ?_ hrange ?_
      · rw [raiseEvent_board]
        exact hline
      · rw [hv]
        exact hfree
      · rw [hv, raiseEvent_scu]
        exact hempty
    · next head rest hq =>
      have hv : ({ s with board := { s.board with transfer := rest } } : State).view =
          { s.view with transfer := rest.map fun w => w.board.stand } := rfl
      have htr : s.view.transfer = head.board.stand :: rest.map fun w => w.board.stand := by simp [State.view, State.viewAt, hq]
      refine placeOnSorter_placed ?_ hline ?_ ?_ hempty
      · rw [hv]
        exact h.fewerWait (htr ▸ List.sublist_cons_self _ _)
      · have hd := h.tags.distinct
        rw [hv]
        simp only [BoardView.tags, htr, List.map_append, List.map_cons] at hd ⊢
        have hd' : (head.board.tag :: (s.view.trimmer.map (·.tag) ++ (rest.map fun w => w.board.stand).map (·.tag) ++
            s.view.sorter.map (·.tag))).Nodup := by
          refine (List.Perm.nodup_iff ?_).mp hd
          exact List.perm_iff_count.mpr fun t => by simp [List.count_append, List.count_cons, Record.stand]; omega
        exact (List.nodup_cons.mp hd').1
      · refine h.tags.inRange head.board.tag (List.mem_map_of_mem (f := fun x : Stand => x.tag) (a := head.board.stand) ?_)
        rw [htr]
        simp

/-! ### Gates -/

theorem confirmEdge_viewAt (bin : Nat) (s : State) (a b : Serial) :
    (confirmEdge bin s).viewAt a b = s.viewAt a b ∨ ∃ tag, (confirmEdge bin s).viewAt a b = (s.viewAt a b).offSorter tag := by
  unfold confirmEdge
  dsimp only
  split
  · left
    rw [(modifySortCounts_outside _ _).weaken.viewAt, (modifyBin_outside _ _ _).weaken.viewAt]
  · split
    · next r _ =>
      refine .inr ⟨r.tag, ?_⟩
      rw [completeDrop_viewAt, (modifySortCounts_outside _ _).weaken.viewAt, (modifyBin_outside _ _ _).weaken.viewAt,
        (modifyBin_outside _ _ _).weaken.viewAt]
    · left
      rw [(modifySortCounts_outside _ _).weaken.viewAt, (modifyBin_outside _ _ _).weaken.viewAt,
        (modifyBin_outside _ _ _).weaken.viewAt]

theorem expireConfirm_viewAt (bin : Nat) (s : State) (a b : Serial) :
    (expireConfirm bin s).viewAt a b = s.viewAt a b ∨
      ∃ tag, (expireConfirm bin s).viewAt a b = (s.viewAt a b).onSorter tag fun x => { x with life := .onSorter } := by
  unfold expireConfirm
  split
  · exact .inl rfl
  · next e rest _ =>
    refine .inr ⟨e.tag, ?_⟩
    dsimp only
    rw [(judgeMisses_outside _ _ _).weaken.viewAt]
    split
    · rw [reroute_viewAt, raiseEvent_viewAt, modifySorter_viewAt (g := fun x => { x with life := .onSorter }) _ (by intro; rfl),
        (modifySortCounts_outside _ _).weaken.viewAt, (modifyBin_outside _ _ _).weaken.viewAt]
    · rw [raiseEvent_viewAt, modifySorter_viewAt (g := fun x => { x with life := .onSorter }) _ (by intro; rfl),
        (modifySortCounts_outside _ _).weaken.viewAt, (modifyBin_outside _ _ _).weaken.viewAt]

theorem confirmEdge_placed (bin : Nat) {s : State} (h : s.view.Placed) : (confirmEdge bin s).view.Placed := by
  rw [(confirmEdge_outside bin s).view]
  obtain hv | ⟨tag, hv⟩ := confirmEdge_viewAt bin s s.tcu.serial s.scu.serial
  · exact hv ▸ h
  · exact hv ▸ h.offSorter fun _ _ _ hq => hq

theorem expireConfirm_placed (bin : Nat) {s : State} (h : s.view.Placed) : (expireConfirm bin s).view.Placed := by
  rw [(expireConfirm_outside bin s).view]
  obtain hv | ⟨tag, hv⟩ := expireConfirm_viewAt bin s s.tcu.serial s.scu.serial
  · exact hv ▸ h
  · exact hv ▸ h.onSorter (fun _ _ _ hq => ⟨rfl, rfl, hq.reach, .inl rfl, hq.sorted⟩) fun _ _ _ hq => hq

end Sys2Proof.Machine
end

