-- ==== Sys2Proof/Proofs/HandlerFrames.lean ====
section
/-! Frames of the requests' handlers: what of the state each can change, and what the four that reach the boards do to the view (R39, R40,
R45, R47, R81, R175). -/

namespace Sys2Proof.Machine

-- One thread elaborates the many small proofs of this file.
set_option Elab.async false

/-! ### Handlers that only read -/

theorem readRecord_state (l : LinkId) (fields : List Byte) (s : State) : (readRecord l fields s).1 = s := by
  unfold readRecord; split <;> rfl
theorem readStatus_state (l : LinkId) (fields : List Byte) (s : State) : (readStatus l fields s).1 = s := by
  unfold readStatus; split <;> rfl
theorem readBins_state (l : LinkId) (fields : List Byte) (s : State) : (readBins l fields s).1 = s := by
  unfold readBins; dsimp only; split <;> rfl
theorem readSegment_state (l : LinkId) (fields : List Byte) (s : State) : (readSegment l fields s).1 = s := by
  unfold readSegment; dsimp only; split <;> rfl
theorem readTable_state (l : LinkId) (fields : List Byte) (s : State) : (readTable l fields s).1 = s := by
  unfold readTable; dsimp only; split <;> rfl
theorem readTally_state (which : TallyUnit → Tally) (l : LinkId) (fields : List Byte) (s : State) :
    (readTally which l fields s).1 = s := by
  unfold readTally
  dsimp only
  split
  · rfl
  · split <;> rfl
  · rfl

/-! ### Handlers that stay off the boards -/

theorem withDecision_outside (s : State) (d : DecisionUnit) : Outside { decision := true } s { s with decision := d } := by
  constructor <;> intro h <;> first | exact absurd h (by decide) | rfl
theorem withEvents_outside (s : State) (e : EventQueue) : Outside { events := true } s { s with events := e } := by
  constructor <;> intro h <;> first | exact absurd h (by decide) | rfl
theorem withTables_outside (s : State) (t : TableStore) : Outside { tables := true } s { s with tables := t } := by
  constructor <;> intro h <;> first | exact absurd h (by decide) | rfl
theorem withTally_outside (s : State) (t : TallyUnit) : Outside { tally := true } s { s with tally := t } := by
  constructor <;> intro h <;> first | exact absurd h (by decide) | rfl

theorem attentionRequest_outside (change : BitVec 8 → RoleFlags → RoleFlags) (l : LinkId) (fields : List Byte) (s : State) :
    Outside { attention := true } s (attentionRequest change l fields s).1 := by
  unfold attentionRequest
  dsimp only
  split
  · exact .refl _ s
  · exact setRole_outside l _ s

theorem setLineMode_outside (l : LinkId) (fields : List Byte) (s : State) : Outside { decision := true } s (setLineMode l fields s).1 := by
  unfold setLineMode
  dsimp only
  split <;> exact withDecision_outside s _

theorem sawService_outside (change : SawRec → SawRec) (l : LinkId) (fields : List Byte) (s : State) :
    Outside { saws := true } s (sawService change l fields s).1 := by
  unfold sawService
  dsimp only
  split
  · exact modifySaw_outside _ _ s
  · exact .refl _ s

theorem unloadBin_outside (l : LinkId) (fields : List Byte) (s : State) :
    Outside { sort := true, attention := true } s (unloadBin l fields s).1 := by
  unfold unloadBin
  dsimp only
  split
  · exact .refl _ s
  · split
    · exact .refl _ s
    · exact (modifyBin_outside _ _ s).weaken

theorem emptyBin_outside (bin : Nat) (s : State) : Outside { sort := true, attention := true } s (emptyBin bin s) := by
  unfold emptyBin
  dsimp only
  refine .then ?_ (judgeNear_outside bin _)
  split
  · exact (modifyBin_outside bin _ s).weaken
  · split
    · exact .then (modifyBin_outside bin _ s).weaken (makeFull_outside bin _)
    · exact .then (modifyBin_outside bin _ s).weaken (modifyBin_outside bin _ _)

theorem emptiedBin_outside (l : LinkId) (fields : List Byte) (s : State) :
    Outside { sort := true, attention := true } s (emptiedBin l fields s).1 := by
  unfold emptiedBin
  dsimp only
  split
  · exact .refl _ s
  · split
    · exact .refl _ s
    · exact emptyBin_outside _ s

theorem enableFitted_outside (bin : Nat) (items : BinItems) (s : State) :
    Outside { sort := true, attention := true } s (enableFitted bin items s) := by
  unfold enableFitted
  dsimp only
  split
  · split
    · exact .then (modifyBin_outside bin _ s).weaken (modifyBin_outside bin _ _)
    · exact .then (modifyBin_outside bin _ s).weaken (makeFull_outside bin _)
  · exact (modifyBin_outside bin _ s).weaken

theorem enableBin_outside (l : LinkId) (fields : List Byte) (s : State) :
    Outside { sort := true, attention := true } s (enableBin l fields s).1 := by
  unfold enableBin
  dsimp only
  split
  · exact .refl _ s
  · split
    · exact .refl _ s
    · exact enableFitted_outside _ _ s

theorem disableBin_outside (l : LinkId) (fields : List Byte) (s : State) :
    Outside { sort := true, attention := true } s (disableBin l fields s).1 := by
  unfold disableBin
  dsimp only
  split
  · exact .refl _ s
  · split
    · exact (modifyBin_outside _ _ s).weaken
    · exact .refl _ s

theorem readEvents_outside (l : LinkId) (fields : List Byte) (s : State) : Outside { events := true } s (readEvents l fields s).1 := by
  unfold readEvents
  dsimp only
  split
  · exact .refl _ s
  · exact withEvents_outside s _

theorem clearEventOverflow_outside (l : LinkId) (fields : List Byte) (s : State) :
    Outside { events := true } s (clearEventOverflow l fields s).1 := withEvents_outside s _

theorem releaseSegment_outside (l : LinkId) (fields : List Byte) (s : State) :
    Outside { tally := true } s (releaseSegment l fields s).1 := by
  unfold releaseSegment
  dsimp only
  split
  · exact .refl _ s
  · exact modifyStream_outside _ s

theorem closeSegment_outside (s : State) : Outside { tally := true } s (closeSegment s) := modifyStream_outside _ s

theorem closeShift_outside (s : State) : Outside { tally := true, attention := true } s (closeShift s) := by
  unfold closeShift
  exact .then (.then (withTally_outside s _).weaken (modifyStream_outside _ _)) (latch_outside _ _)

theorem flushStream_outside (l : LinkId) (fields : List Byte) (s : State) : Outside { tally := true } s (flushStream l fields s).1 := by
  unfold flushStream
  dsimp only
  split
  · exact .refl _ s
  · exact closeSegment_outside s

theorem shiftClose_outside (l : LinkId) (fields : List Byte) (s : State) :
    Outside { tally := true, attention := true } s (shiftClose l fields s).1 := by
  unfold shiftClose
  split
  · exact .refl _ s
  · exact closeShift_outside s

theorem priceEdit_outside (l : LinkId) (fields : List Byte) (s : State) : Outside { tables := true } s (priceEdit l fields s).1 := by
  unfold priceEdit
  dsimp only
  split <;> exact withTables_outside s _

theorem priceSwitch_outside (l : LinkId) (fields : List Byte) (s : State) : Outside { tables := true } s (priceSwitch l fields s).1 := by
  unfold priceSwitch
  dsimp only
  split
  · exact .refl _ s
  · exact withTables_outside s _

/-- A table load can change the tracking and the bins with their flags, never a board (R175). -/
def Touched.byLoad : Touched := { tcu := true, scu := true, sort := true, events := true, attention := true, tables := true }

theorem returnToSearch_outside (ch : Chain) (s : State) :
    Outside { tcu := true, scu := true, events := true, attention := true } s (returnToSearch ch s) :=
  .then (setUnit_outside ch _ s).weaken (changeSync_outside ch _ _)

theorem loadSettings_outside (bytes : List Byte) (s : State) : Outside .byLoad s (loadSettings bytes s) := by
  unfold loadSettings
  dsimp only
  have h0 := (modifyTables_outside (fun t => { t with settings := settingsOf bytes t.settings }) s).weaken (n := .byLoad)
  split
  · split
    · exact .then (.then h0 (returnToSearch_outside _ _)) (returnToSearch_outside _ _)
    · exact .then h0 (returnToSearch_outside _ _)
  · split
    · exact .then h0 (returnToSearch_outside _ _)
    · exact h0

theorem loadBin_outside (entries : List (List Byte)) (s : State) (bin : Nat) :
    Outside { sort := true, attention := true } s (loadBin entries s bin) := by
  unfold loadBin
  dsimp only
  refine .then ?_ (judgeNear_outside bin _)
  split
  · exact .then (modifyBin_outside bin _ s).weaken (latch_outside _ _)
  · exact (modifyBin_outside bin _ s).weaken

theorem loadBins_outside (entries : List (List Byte)) (s : State) :
    Outside { sort := true, attention := true } s (loadBins entries s) := Outside.foldl (fun u bin => loadBin_outside entries u bin) _ _

theorem storeTable_outside (table : TableId) (bytes : List Byte) (s : State) : Outside .byLoad s (storeTable table bytes s) := by
  cases table
  case settings => exact loadSettings_outside bytes s
  case bin => exact (loadBins_outside _ s).weaken
  all_goals
    unfold storeTable
    exact (modifyTables_outside _ s).weaken

theorem takeLoad_outside (table : TableId) (bytes : List Byte) (s : State) : Outside .byLoad s (takeLoad table bytes s) := by
  unfold takeLoad
  exact .then (storeTable_outside table bytes s) (modifyTables_outside _ _)

theorem completeLoad_outside (table : TableId) (part : Nat) (bytes total : List Byte) (count : Nat) (s : State) :
    Outside .byLoad s (completeLoad table part bytes total count s).1 := by
  unfold completeLoad
  split
  · dsimp only
    exact (modifyTables_outside _ s).weaken
  · exact takeLoad_outside table total s

theorem judgePart_outside (table : TableId) (part : Nat) (last : Bool) (bytes : List Byte) (s : State) :
    Outside .byLoad s (judgePart table part last bytes s).1 := by
  unfold judgePart
  dsimp only
  generalize (if part = 0 then [] else (s.tables.staging.map (·.bytes)).getD []) = staged
  split
  · exact Outside.refl .byLoad s
  · split
    · exact Outside.refl .byLoad s
    · split
      · exact Outside.refl .byLoad s
      · split
        · exact completeLoad_outside table part bytes _ _ s
        · dsimp only
          exact (modifyTables_outside _ s).weaken

theorem loadTable_outside (l : LinkId) (fields : List Byte) (s : State) : Outside .byLoad s (loadTable l fields s).1 := by
  unfold loadTable
  dsimp only
  split
  · exact .refl _ s
  · split
    · exact .refl _ s
    · split
      · exact .refl _ s
      · exact judgePart_outside _ _ _ _ s

/-! ### The station table of a load (R13) -/

theorem returnToSearch_tables (ch : Chain) (s : State) : (returnToSearch ch s).tables = s.tables :=
  (returnToSearch_outside ch s).tables rfl

theorem loadSettings_tables (bytes : List Byte) (s : State) :
    (loadSettings bytes s).tables = { s.tables with settings := settingsOf bytes s.tables.settings } := by
  unfold loadSettings
  dsimp only
  split
  · split
    · simp only [returnToSearch_tables]; rfl
    · simp only [returnToSearch_tables]; rfl
  · split
    · simp only [returnToSearch_tables]; rfl
    · rfl

/-- A load stores a station table only where it is sound. -/
theorem storeTable_station (table : TableId) (bytes : List Byte) (s : State) (h : s.loadFault table bytes = none) :
    (storeTable table bytes s).tables.station = s.tables.station ∨ stationFault (storeTable table bytes s).tables.station = none := by
  cases table
  case settings => exact .inl (by rw [show storeTable .settings bytes s = loadSettings bytes s from rfl, loadSettings_tables])
  case bin => exact .inl (by rw [show storeTable .bin bytes s = loadBins (entriesOf 13 bytes) s from rfl, (loadBins_outside _ s).tables rfl])
  case station =>
    right
    unfold State.loadFault at h
    dsimp only at h
    split at h
    · cases h
    · have hs : (storeTable .station bytes s).tables.station = stationTableOf bytes := rfl
      rw [hs]
      exact h
  all_goals
    left
    simp only [storeTable, State.modifyTables]

/-- LOAD-TABLE keeps the station table or stores a sound one. -/
theorem loadTable_station (l : LinkId) (fields : List Byte) (s : State) :
    (loadTable l fields s).1.tables.station = s.tables.station ∨ stationFault (loadTable l fields s).1.tables.station = none := by
  unfold loadTable
  dsimp only
  split
  · exact .inl rfl
  · split
    · exact .inl rfl
    · split
      · exact .inl rfl
      · unfold judgePart
        dsimp only
        generalize (if fieldAt fields 1 1 = 0 then [] else (s.tables.staging.map (·.bytes)).getD []) = staged
        split
        · exact .inl rfl
        · split
          · exact .inl rfl
          · split
            · exact .inl rfl
            · split
              · unfold completeLoad
                split
                · exact .inl rfl
                · next hf => exact storeTable_station _ _ s hf
              · exact .inl rfl

/-- In RUN LOAD-TABLE changes nothing. -/
theorem loadTable_run (l : LinkId) (fields : List Byte) {s : State} (h : s.board.line = .run) : (loadTable l fields s).1 = s := by
  unfold loadTable
  simp only [h]

/-! ### Records named by a request -/

/-- A request's record on the trimmer map below a line (R44, R80). -/
theorem onTrimmerBelow_ok {s : State} {tag line off : Nat} {r : Record} (h : s.onTrimmerBelow tag line = .ok (r, off)) :
    byTag s.board.trimmer tag = some r ∧ off = r.trimmerOffset s.tcu.serial ∧ off < line := by
  unfold State.onTrimmerBelow at h
  split at h
  · cases h
  · next x o e =>
    split at h
    · next hlt =>
      cases h
      unfold State.locate at e
      split at e
      · next y hy => cases e; exact ⟨hy, rfl, hlt⟩
      · split at e
        · rw [Option.map_eq_some_iff] at e
          obtain ⟨_, _, e⟩ := e
          cases e
        · rw [Option.map_eq_some_iff] at e
          obtain ⟨_, _, e⟩ := e
          cases e
    · cases h
  · cases h
  · cases h

/-! ### RESTART-TRACKING (R40) -/

/-- An operation that changes no part of the board map keeps it. -/
theorem Outside.board {s t : State} (h : Outside { Touched.offBoards with tables := true, postings := false, forces := false } s t) :
    t.board = s.board := by
  have h1 := h.trimmer rfl
  have h2 := h.transfer rfl
  have h3 := h.sorter rfl
  have h4 := h.nextTag rfl
  have h5 := h.line rfl
  have h6 := h.postings rfl
  have h7 := h.forces rfl
  cases ht : t.board
  cases hs : s.board
  simp_all

/-- Posting records to the tally leaves the board map. -/
theorem foldl_handToTally_board (f : Fate) (rs : List Record) (s : State) :
    (rs.foldl (fun s r => handToTally r f s) s).board = s.board := by
  induction rs generalizing s with
  | nil => rfl
  | cons r rest ih => rw [List.foldl_cons, ih, (handToTally_outside r f s).weaken.board]

theorem loseAll_board (s : State) : (loseAll s).board = { s.board with sorter := [], transfer := [], trimmer := [] } := by
  unfold loseAll
  rw [foldl_handToTally_board]

end Sys2Proof.Machine
end

