-- ==== Sys2Proof/Proofs/LivesFollow.lean ====
section
/-! Every step keeps the boards placed and each record's life that of its place (O58): the requests, the chain commands, the clock, and the
step. -/

namespace Sys2Proof.Machine

-- One thread elaborates the many small proofs of this file.
set_option Elab.async false

/-- The parts that the view does not read. -/
def Touched.offView : Touched := { Touched.offBoards with tcu := false, scu := false }

theorem Outside.view_same {s t : State} (h : Outside .offView s t) : t.view = s.view := by
  rw [h.view]
  exact h.weaken.viewAt _ _

/-- Of the tables the view reads the station table alone. -/
theorem Outside.view_station {s t : State} (h : Outside { Touched.offView with tables := true } s t)
    (hs : t.tables.station = s.tables.station) : t.view = s.view := by
  simp only [State.view, State.viewAt, h.tcu rfl, h.scu rfl, h.trimmer rfl, h.transfer rfl, h.sorter rfl, h.nextTag rfl, h.line rfl, hs]

theorem setUnit_view (ch : Chain) (u : ChainUnit) (s : State) (h : u.serial = (s.unit ch).serial) : (s.setUnit ch u).view = s.view := by
  cases ch
  · change BoardView.mk _ _ _ _ _ u.serial _ _ = _
    rw [h]; rfl
  · change BoardView.mk _ _ _ _ _ _ u.serial _ = _
    rw [h]; rfl

/-! ### Tracking keeps the serials -/

theorem setUnit_serial (ch c : Chain) (u : ChainUnit) (s : State) (h : u.serial = (s.unit ch).serial) :
    ((s.setUnit ch u).unit c).serial = (s.unit c).serial := by
  by_cases hc : c = ch
  · rw [hc, State.setUnit_unit, h]
  · rw [State.setUnit_unit_ne _ _ hc]

theorem raiseEvent_unit (k : EventKind) (ch : Option Chain) (n d : Nat) (s : State) (c : Chain) :
    (raiseEvent k ch n d s).unit c = s.unit c := by cases c <;> simp [State.unit]

theorem latch_unit (cause : Cause) (s : State) (c : Chain) : (latch cause s).unit c = s.unit c := by cases c <;> simp [State.unit]

theorem changeSync_serial (ch c : Chain) (new : Sync) (s : State) : ((changeSync ch new s).unit c).serial = (s.unit c).serial := by
  unfold changeSync
  split
  · rfl
  · have hset := setUnit_serial ch c { s.unit ch with sync := new } s rfl
    cases ch <;> dsimp only <;> simp only [latch_unit, raiseEvent_unit, hset]

theorem changeSync_view (ch : Chain) (new : Sync) (s : State) : (changeSync ch new s).view = s.view := by
  have hv := (changeSync_outside ch new s).weaken.viewAt s.tcu.serial s.scu.serial
  have ht : (changeSync ch new s).tcu.serial = s.tcu.serial := changeSync_serial ch .trimmer new s
  have hs : (changeSync ch new s).scu.serial = s.scu.serial := changeSync_serial ch .sorter new s
  rw [State.view, ht, hs, hv]
  rfl

theorem advanceLines_unit (ch c : Chain) (s : State) : (advanceLines ch s).unit c = s.unit c := by
  cases c
  · exact (advanceLines_outside ch s).tcu rfl
  · exact (advanceLines_outside ch s).scu rfl

/-! ### Chain commands -/

theorem suspectMap_view (ch : Chain) (s : State) : (suspectMap ch s).view = s.view := by
  have hm : ∀ rs : List Record, (markSuspect rs).map Record.stand = rs.map Record.stand := by
    intro rs
    simp only [markSuspect, List.map_map]
    exact List.map_congr_left fun _ _ => rfl
  cases ch
  · simp only [suspectMap, State.view, State.viewAt, hm]
  · simp only [suspectMap, State.view, State.viewAt, hm]

theorem countTaken_view (ch : Chain) (s : State) : (countTaken ch s).view = s.view := by
  unfold countTaken
  dsimp only
  have hset := setUnit_view ch
    { s.unit ch with stopped := false, stopTimer := some { elapsed := 0, limit := (s.params ch).stopTime } } s rfl
  split
  · rw [(raiseEvent_outside _ _ _ _ _).weaken.view_same, hset]
  · exact hset

/-- A synthetic advance first changes the tracking and the flags alone, then advances (R7, R9). -/
theorem syntheticAdvance_placed (ch : Chain) {s : State} (h : s.view.Placed) : (syntheticAdvance ch s).view.Placed := by
  unfold syntheticAdvance
  dsimp only
  have hraise := setUnit_view ch { s.unit ch with count := (s.params ch).tolerance, miss := (s.unit ch).miss + 1 } s rfl
  rw [← (raiseEvent_outside .eyeMissed (some ch) 0 ((s.unit ch).miss + 1) _).weaken.view_same] at hraise
  split
  · refine raiseSerial_placed ch ?_ (.refl _ _) fun c => by rw [advanceLines_unit]
    rw [suspectMap_view, changeSync_view, setUnit_view _ _ _ (by rfl), hraise]
    exact h
  · refine raiseSerial_placed ch ?_ (.refl _ _) fun c => by rw [advanceLines_unit]
    rw [changeSync_view, hraise]
    exact h

theorem forwardCount_placed (ch : Chain) {s : State} (h : s.view.Placed) : (forwardCount ch s).view.Placed := by
  unfold forwardCount
  dsimp only
  have hc : ((countTaken ch s).setUnit ch { (countTaken ch s).unit ch with
      reverse := false, count := incTo Config.countMax ((countTaken ch s).unit ch).count }).view = s.view := by
    rw [setUnit_view _ _ _ (by rfl), countTaken_view]
  split
  · exact syntheticAdvance_placed ch (hc ▸ h)
  · exact hc ▸ h

theorem reverseCount_view (ch : Chain) (s : State) : (reverseCount ch s).view = s.view := by
  unfold reverseCount
  dsimp only
  split
  · rw [setUnit_view _ _ _ (by rfl), countTaken_view]
  · rw [(raiseEvent_outside _ _ _ _ _).weaken.view_same, setUnit_view _ _ _ (by rfl), countTaken_view]

theorem stopChain_view (ch : Chain) (s : State) : (stopChain ch s).view = s.view := by
  unfold stopChain
  split
  · rfl
  · rw [(raiseEvent_outside _ _ _ _ _).weaken.view_same, setUnit_view _ _ _ (by rfl)]

theorem acquireEdge_placed (ch : Chain) {s : State} (h : s.view.Placed) : (acquireEdge ch s).view.Placed := by
  unfold acquireEdge
  dsimp only
  generalize (if (s.params ch).windowLow ≤ (s.unit ch).count ∧ (s.unit ch).count ≤ (s.params ch).windowHigh then
    (s.unit ch).good + 1 else 0) = good
  have hset := setUnit_view ch { s.unit ch with count := 0, good := good } s rfl
  split
  · refine raiseSerial_placed ch (hset ▸ h) (.then (setUnit_outside ch _ _).weaken (changeSync_outside ch _ _)) fun c => ?_
    rw [changeSync_serial, setUnit_serial _ _ _ _ (by rfl), advanceLines_unit]
  · exact raiseSerial_placed ch (hset ▸ h) (.refl _ _) fun c => by rw [advanceLines_unit]

theorem trackEdge_placed (ch : Chain) {s : State} (h : s.view.Placed) : (trackEdge ch s).view.Placed := by
  unfold trackEdge
  dsimp only
  split
  · rw [(raiseEvent_outside _ _ _ _ _).weaken.view_same]
    exact h
  · have hset := setUnit_view ch { s.unit ch with count := 0, miss := 0 } s rfl
    refine raiseSerial_placed ch (hset ▸ h) (changeSync_outside ch _ _).weaken fun c => ?_
    rw [changeSync_serial, advanceLines_unit]

theorem lugEdge_placed (ch : Chain) {s : State} (h : s.view.Placed) : (lugEdge ch s).view.Placed := by
  unfold lugEdge
  split
  · exact h
  · have hacq : (if (s.unit ch).count < (s.params ch).halfPitch then s else acquireEdge ch s).view.Placed := by
      split
      · exact h
      · exact acquireEdge_placed ch h
    split
    · exact hacq
    · exact hacq
    · exact trackEdge_placed ch h
    · exact trackEdge_placed ch h

/-! ### Requests -/

/-- A view with no record is placed when its counter and its station table are sound. -/
theorem BoardView.placed_of_empty {v : BoardView} (ht : v.trimmer = []) (hq : v.transfer = []) (hs : v.sorter = [])
    (hc : 1 ≤ v.nextTag ∧ v.nextTag ≤ Config.tagMax) (hst : stationFault v.station = none) : v.Placed := by
  have htags : v.tags = [] := by simp [BoardView.tags, ht, hq, hs]
  refine ⟨⟨htags ▸ List.nodup_nil, fun t h => ?_, fun _ => htags⟩, hc, ?_, ?_, ?_, ?_, ?_, ?_, hst⟩
  · exact absurd (htags ▸ h) List.not_mem_nil
  · exact ht ▸ List.Pairwise.nil
  · exact fun x h => absurd (ht ▸ h) List.not_mem_nil
  · simp [hq]
  · exact fun x h => absurd (hq ▸ h) List.not_mem_nil
  · exact hs ▸ List.Pairwise.nil
  · exact fun x h => absurd (hs ▸ h) List.not_mem_nil

theorem BoardView.Placed.empty_of_config {v : BoardView} (h : v.Placed) (hl : v.line = .config) :
    v.trimmer = [] ∧ v.transfer = [] ∧ v.sorter = [] := by
  have := h.tags.idle hl
  simp only [BoardView.tags, List.map_eq_nil_iff, List.append_eq_nil_iff] at this
  exact ⟨this.1.1, this.1.2, this.2⟩

theorem posting_view (tag : Nat) {store : Record → Nat → State → State × Answer} {s : State}
    (hstore : ∀ r off, (store r off s).1.view = s.view) : (posting tag store s).1.view = s.view := by
  unfold posting
  cases s.onTrimmerBelow tag s.tables.station.decision with
  | error a => rfl
  | ok p => exact hstore p.1 p.2

theorem modifyTrimmer_view_same (tag : Nat) {f : Record → Record} (h : ∀ r, (f r).stand = r.stand) (s : State) :
    (s.modifyTrimmer tag f).view = s.view := modifyTrimmer_viewAt_same tag h s _ _

theorem postScan_view (l : LinkId) (fields : List Byte) (s : State) : (postScan l fields s).1.view = s.view := by
  refine posting_view _ fun r off => ?_
  unfold storeScan
  split
  · rfl
  · split
    · rfl
    · split
      · rfl
      · exact modifyTrimmer_view_same _ (by intro; rfl) s

theorem postSolution_view (l : LinkId) (fields : List Byte) (s : State) : (postSolution l fields s).1.view = s.view := by
  refine posting_view _ fun r off => ?_
  unfold storeSolution
  split
  · rfl
  · split
    · rfl
    · exact modifyTrimmer_view_same _ (by intro; rfl) s

/-- A stored force decides again only a record that is DECIDED (R81, R82). -/
theorem storeForce_placed (force : Force) {r : Record} (off : Nat) {s : State} (h : s.view.Placed)
    (hr : r ∈ s.board.trimmer) : (storeForce force r off s).1.view.Placed := by
  unfold storeForce
  dsimp only
  have hforced := modifyTrimmer_view_same r.tag (f := fun x => { x with force := some force }) (by intro; rfl) s
  split
  · next hdec =>
    have hv : (redecide { r with force := some force } (s.modifyTrimmer r.tag fun x => { x with force := some force })).view =
        s.view.onTrimmer r.tag fun x => { x with decided := true } := by
      rw [← hforced]
      exact modifyTrimmer_viewAt (g := fun x => { x with decided := true }) r.tag (by intro; rfl) _ _ _
    rw [hv]
    refine h.onTrimmer (fun x hx hxt hp => ⟨rfl, rfl, ?_⟩) fun _ _ _ hp => hp
    obtain rfl := h.trimmer_eq_of_tag hx (List.mem_map_of_mem hr) hxt
    refine ⟨hp.reach, fun hlt => ?_, fun h1 h2 => ⟨(hp.decided h1 h2).1, rfl⟩, fun h1 h2 => ⟨(hp.set h1 h2).1, rfl⟩,
      fun h1 => ⟨(hp.cut h1).1, rfl, (hp.cut h1).2.2⟩⟩
    have : r.life = .scanned := (hp.scanned hlt).1
    rw [hdec] at this
    cases this
  · exact hforced ▸ h

theorem forceBoard_placed (l : LinkId) (fields : List Byte) {s : State} (h : s.view.Placed) :
    (forceBoard l fields s).1.view.Placed := by
  unfold forceBoard
  dsimp only
  split
  · exact h
  · next r off e =>
    split
    · exact h
    · exact storeForce_placed _ off h (byTag_some (onTrimmerBelow_ok e).1).1

/-- What leaves the boards in CONFIG, where there are none, and stores no faulty station table keeps them placed. -/
theorem placed_of_config {s t : State} (h : s.view.Placed) (hcfg : s.board.line = .config)
    (ho : Outside { Touched.offBoards with line := true, tables := true } s t) (hst : stationFault t.tables.station = none) :
    t.view.Placed := by
  obtain ⟨ht, hq, hs⟩ := h.empty_of_config hcfg
  refine BoardView.placed_of_empty ?_ ?_ ?_ ?_ hst
  · rw [← ht, State.view, State.view, State.viewAt, State.viewAt, ho.trimmer rfl]
  · rw [← hq, State.view, State.view, State.viewAt, State.viewAt, ho.transfer rfl]
  · rw [← hs, State.view, State.view, State.viewAt, State.viewAt, ho.sorter rfl]
  · have hc := h.counter
    rw [State.view, State.viewAt] at hc ⊢
    rwa [ho.nextTag rfl]

/-- START leaves no board, for there is none in CONFIG (R39). -/
theorem startLine_placed (l : LinkId) (fields : List Byte) {s : State} (h : s.view.Placed) : (startLine l fields s).1.view.Placed := by
  unfold startLine
  split
  · exact h
  · next hcfg =>
    split
    · exact h
    · have ho := setLineState_outside .run { s with tables := { s.tables with staging := none } }
      refine placed_of_config h hcfg (.trans (withTables_outside s _).weaken ho.weaken) ?_
      dsimp only
      rw [ho.tables rfl]
      exact h.stations

/-- A load of a table finds no board, for it is taken in CONFIG alone (R175). -/
theorem loadTable_placed (l : LinkId) (fields : List Byte) {s : State} (h : s.view.Placed) : (loadTable l fields s).1.view.Placed := by
  cases hl : s.board.line with
  | run => rw [loadTable_run l fields hl]; exact h
  | config =>
    refine placed_of_config h hl (loadTable_outside l fields s).weaken ?_
    obtain e | e := loadTable_station l fields s
    · rw [e]; exact h.stations
    · exact e

/-- The marks, the saws and the bins after RESTART-TRACKING (R74, R123, R142). -/
def State.blocksRestarted (s : State) : State :=
  { s with
    gradingA := s.gradingA.restarted, gradingB := s.gradingB.restarted
    sort := { s.sort with bins := mapVec BinRec.restarted s.sort.bins }
    saws := { recs := mapVec SawRec.restarted s.saws.recs, owner := 0 } }

/-- The chain units after RESTART-TRACKING, their sync states apart (R12, R40). -/
def State.unitsZeroed (s : State) : State :=
  { s with tcu := { s.tcu.untracked with serial := 0 }, scu := { s.scu.untracked with serial := 0 } }

/-- RESTART-TRACKING's event by its steps (R40). -/
theorem restart_eq (s : State) : restart s = setLineState .config
    (changeSync .sorter .search (changeSync .trimmer .search (loseAll s).blocksRestarted)).unitsZeroed := rfl

theorem blocksRestarted_outside (s : State) :
    Outside { gradingA := true, gradingB := true, saws := true, sort := true } s s.blocksRestarted := by
  constructor <;> intro h <;> first | exact absurd h (by decide) | rfl

theorem unitsZeroed_outside (s : State) : Outside { tcu := true, scu := true } s s.unitsZeroed := by
  constructor <;> intro h <;> first | exact absurd h (by decide) | rfl

/-- What RESTART-TRACKING can change after its postings (R40). -/
theorem restart_outside (s : State) : Outside
    { tcu := true, scu := true, line := true, gradingA := true, gradingB := true, saws := true, sort := true, events := true,
      attention := true } (loseAll s) (restart s) := by
  rw [restart_eq]
  exact .then (.then (.then (.then (blocksRestarted_outside _).weaken (changeSync_outside _ _ _)) (changeSync_outside _ _ _))
    (unitsZeroed_outside _)) (setLineState_outside _ _)

theorem setLineState_board (line : LineState) (s : State) : (setLineState line s).board = { s.board with line := line } := by
  unfold setLineState
  split
  · next e => rw [← e]
  · simp only [latch_board]

theorem restart_board (s : State) : (restart s).board = { s.board with sorter := [], transfer := [], trimmer := [], line := .config } := by
  rw [restart_eq, setLineState_board, (unitsZeroed_outside _).weaken.board, (changeSync_outside _ _ _).weaken.board,
    (changeSync_outside _ _ _).weaken.board, (blocksRestarted_outside _).weaken.board, loseAll_board]

theorem restart_placed {s : State} (h : s.view.Placed) : (restart s).view.Placed := by
  have hb := restart_board s
  refine BoardView.placed_of_empty ?_ ?_ ?_ ?_ ?_
  · simp only [State.view, State.viewAt, hb, List.map_nil]
  · simp only [State.view, State.viewAt, hb, List.map_nil]
  · simp only [State.view, State.viewAt, hb, List.map_nil]
  · simpa only [State.view, State.viewAt, hb] using h.counter
  · have ht : (restart s).tables = s.tables := ((restart_outside s).tables rfl).trans ((loseAll_outside s).tables rfl)
    simpa only [State.view, State.viewAt, ht] using h.stations

/-- Every request's handler keeps the boards placed. -/
theorem handlerOf_placed (r : Req) (l : LinkId) (fields : List Byte) (s : State) (h : s.view.Placed) :
    (handlerOf r l fields s).1.view.Placed := by
  cases r
  case postScan => exact (postScan_view l fields s).symm ▸ h
  case postSolution => exact (postSolution_view l fields s).symm ▸ h
  case readRecord => exact (readRecord_state l fields s).symm ▸ h
  case readStatus => exact (readStatus_state l fields s).symm ▸ h
  case readBins => exact (readBins_state l fields s).symm ▸ h
  case readTable => exact (readTable_state l fields s).symm ▸ h
  case readTableTallyForm => exact (readTable_state l fields s).symm ▸ h
  case readSegment => exact (readSegment_state l fields s).symm ▸ h
  case readMatrix => exact (readTally_state (·.live) l fields s).symm ▸ h
  case readClosed => exact (readTally_state (·.closed) l fields s).symm ▸ h
  case ackAttention => exact (attentionRequest_outside _ l fields s).weaken.view_same.symm ▸ h
  case setAttentionEnable => exact (attentionRequest_outside _ l fields s).weaken.view_same.symm ▸ h
  case setLineMode => exact (setLineMode_outside l fields s).weaken.view_same.symm ▸ h
  case sawEnable => exact (sawService_outside _ l fields s).weaken.view_same.symm ▸ h
  case sawDisable => exact (sawService_outside _ l fields s).weaken.view_same.symm ▸ h
  case binUnload => exact (unloadBin_outside l fields s).weaken.view_same.symm ▸ h
  case binEmptied => exact (emptiedBin_outside l fields s).weaken.view_same.symm ▸ h
  case binEnable => exact (enableBin_outside l fields s).weaken.view_same.symm ▸ h
  case binDisable => exact (disableBin_outside l fields s).weaken.view_same.symm ▸ h
  case readEvents => exact (readEvents_outside l fields s).weaken.view_same.symm ▸ h
  case clearEventOverflow => exact (clearEventOverflow_outside l fields s).weaken.view_same.symm ▸ h
  case releaseSegment => exact (releaseSegment_outside l fields s).weaken.view_same.symm ▸ h
  case flush => exact (flushStream_outside l fields s).weaken.view_same.symm ▸ h
  case shiftClose => exact (shiftClose_outside l fields s).weaken.view_same.symm ▸ h
  case priceEdit =>
    refine ((priceEdit_outside l fields s).weaken.view_station ?_).symm ▸ h
    unfold priceEdit TableStore.edit
    dsimp only
    split
    · rfl
    · split <;> rfl
  case priceSwitch =>
    refine ((priceSwitch_outside l fields s).weaken.view_station ?_).symm ▸ h
    unfold priceSwitch TableStore.activate
    dsimp only
    split
    · rfl
    · dsimp only
      split <;> rfl
  case forceBoard => exact forceBoard_placed l fields h
  case start => exact startLine_placed l fields h
  case restartTracking => exact restart_placed h
  case loadTable => exact loadTable_placed l fields h

end Sys2Proof.Machine
end

