-- ==== Sys2Proof/Proofs/EveryStep.lean ====
section
/-! The clock, the power commands and the step for the placing of boards, and what the step lemma settles. -/

namespace Sys2Proof.Machine

-- One thread elaborates the many small proofs of this file.
set_option Elab.async false

/-! ### The clock (R16) -/

theorem tickStop_view (ch : Chain) (s : State) : (tickStop ch s).view = s.view := by
  unfold tickStop
  split
  · rfl
  · dsimp only
    split
    · rw [stopChain_view, setUnit_view _ _ _ (by rfl)]
    · exact setUnit_view _ _ _ rfl

theorem expireWindow_view (saw : Nat) (s : State) : (expireWindow saw s).view = s.view := by
  rw [(expireWindow_outside saw s).view, expireWindow_viewAt]
  rfl

theorem tickSaw_view (s : State) (saw : Nat) : (tickSaw s saw).view = s.view := by
  unfold tickSaw
  dsimp only
  split
  · rfl
  · split
    · rw [expireWindow_view, (modifySaw_outside _ _ _).weaken.view_same]
    · exact (modifySaw_outside _ _ _).weaken.view_same

theorem tickPulse_view (s : State) (bin : Nat) : (tickPulse s bin).view = s.view := by
  unfold tickPulse
  dsimp only
  split
  · rfl
  · split
    · rw [(closeGate_outside _ _).weaken.view_same, (modifyBin_outside _ _ _).weaken.view_same]
    · exact (modifyBin_outside _ _ _).weaken.view_same

theorem expireDue_placed (bin n : Nat) {s : State} (h : s.view.Placed) : (expireDue bin n s).view.Placed := by
  induction n generalizing s with
  | zero => exact h
  | succ n ih =>
    unfold expireDue
    split
    · exact h
    · split
      · exact ih (expireConfirm_placed bin h)
      · exact h

theorem tickConfirm_placed (bin : Nat) {s : State} (h : s.view.Placed) : (tickConfirm s bin).view.Placed := by
  unfold tickConfirm
  exact expireDue_placed bin _ ((modifyBin_outside _ _ _).weaken.view_same.symm ▸ h)

/-- Folding an operation that keeps the boards placed keeps them placed. -/
theorem foldl_placed {α : Type} {f : State → α → State} (hf : ∀ s x, s.view.Placed → (f s x).view.Placed) (xs : List α) {s : State}
    (h : s.view.Placed) : (xs.foldl f s).view.Placed := by
  induction xs generalizing s with
  | nil => exact h
  | cons x rest ih => exact ih (hf s x h)

theorem tick_placed {s : State} (h : s.view.Placed) : (tick s).view.Placed := by
  unfold tick
  split
  · split
    · exact h
    · exact h
  · have hstop : (tickStop .sorter (tickStop .trimmer s)).view.Placed := by
      rw [tickStop_view, tickStop_view]
      exact h
    refine foldl_placed (fun s bin h => tickConfirm_placed bin h) _ (foldl_placed (fun s bin h => ?_) _
      (foldl_placed (fun s saw h => ?_) _ hstop))
    · exact (tickPulse_view s bin).symm ▸ h
    · exact (tickSaw_view s saw).symm ▸ h

theorem clockPeriod_placed {s : State} (h : s.view.Placed) : (clockPeriod s).view.Placed := by
  unfold clockPeriod
  split
  · exact h
  · dsimp only
    split
    · exact h
    · split
      · exact h
      · exact tick_placed (s := { s with
          links := { s.links with optimizer := s.links.optimizer.controlSent, lineController := s.links.lineController.controlSent,
                                  tallyStation := s.links.tallyStation.controlSent }
          timebase := { s.timebase with div1 := 0, div2 := 0 } }) h

/-! ### The step -/

/-- Right after power-on no record is live (R17). -/
theorem placed_of_powerOn {t : State} (hb : t.board = .powerOn) (ht : t.tables = .powerOn) : t.view.Placed := by
  have hboard : ∀ {α : Type} (f : BoardMap → α), f t.board = f .powerOn := fun f => congrArg f hb
  refine BoardView.placed_of_empty ?_ ?_ ?_ ?_ ?_
  · exact hboard fun b => b.trimmer.map Record.stand
  · exact hboard fun b => b.transfer.map fun w => w.board.stand
  · exact hboard fun b => b.sorter.map Record.stand
  · change 1 ≤ t.board.nextTag ∧ t.board.nextTag ≤ Config.tagMax
    rw [hb]
    decide
  · change stationFault t.tables.station = none
    rw [ht]
    rfl

/-- A change of levels outside leaves the boards. -/
theorem takeEdge_placed {line : InputLine} {edge : Edge} {onEdge offEdge : State → State} {s t : State}
    (hon : ∀ s, s.view.Placed → (onEdge s).view.Placed) (hoff : ∀ s, s.view.Placed → (offEdge s).view.Placed)
    (h : takeEdge line edge onEdge offEdge s = .next t) (hs : s.view.Placed) : t.view.Placed :=
  takeEdge_keeps (I := fun s => s.view.Placed) (fun _ _ _ h => h) hon hoff h hs

/-- What a key does to its position, and a commit to its target's marks, leaves the boards (R60, R69). -/
theorem keyEvent_view (p : Position) {act : State → State} (s : State) (hact : (act s).view = s.view) :
    (keyEvent p act s).view = s.view := by
  unfold keyEvent
  split
  · exact hact
  · exact (setGrading_outside p _ s).weaken.view_same

theorem keyEvent_setGrading_view (p : Position) (f : Grading → Grading) (s : State) :
    (keyEvent p (fun s => s.setGrading p (f (s.grading p))) s).view = s.view :=
  keyEvent_view p s (setGrading_outside p _ s).weaken.view_same

theorem commit_view (p : Position) (target : Nat) (s : State) : (commit p target s).view = s.view := by
  unfold commit
  dsimp only
  rw [(retarget_outside _ _ _).weaken.view_same, (setGrading_outside _ _ _).weaken.view_same,
    modifyTrimmer_view_same _ (by intro; rfl)]

/-- Every request command keeps the boards placed. -/
theorem exec_request_placed (r : Req) (l : LinkId) (num : Byte) (fields : List Byte) {s t : State}
    (h : exec (requestInstr r l num fields) s = .next t) (hs : s.view.Placed) : t.view.Placed := by
  rw [exec_requestInstr] at h
  exact serve_keeps (I := fun s => s.view.Placed) (fun s l f h => (modifyLink_outside l f s).weaken.view_same.symm ▸ h)
    (handlerOf_placed r) h hs

theorem modifyLink_placed (s : State) (l : LinkId) (f : LinkState → LinkState) (h : s.view.Placed) : (s.modifyLink l f).view.Placed :=
  (modifyLink_outside l f s).weaken.view_same.symm ▸ h

theorem takeOldest_placed {l : LinkId} {s t : State} (h : takeOldest l s = .next t) (hs : s.view.Placed) : t.view.Placed :=
  takeOldest_keeps (I := fun s => s.view.Placed) modifyLink_placed handlerOf_placed h hs

/-- Every command keeps the boards placed. -/
theorem exec_placed (i : Instr) {s t : State} (h : exec i s = .next t) (hs : s.view.Placed) : t.view.Placed := by
  have hawake : ∀ {act : State → State} {u : State}, whenAwake u act = .next t → u.view.Placed →
      ((act u).view.Placed) → t.view.Placed := fun h hu hact => whenAwake_keeps (I := fun s => s.view.Placed) (fun _ => hact) h hu
  have hgrading : ∀ (p : Position) (g : Grading), (s.setGrading p g).view.Placed := fun p g =>
    (setGrading_outside p g s).weaken.view_same.symm ▸ hs
  cases i
  case powerOn baud => cases h; exact placed_of_powerOn rfl rfl
  case resetnAssert => cases h; exact placed_of_powerOn rfl rfl
  case resetnRelease baud => cases h; exact placed_of_powerOn rfl rfl
  case settlePeriodEnd =>
    cases h
    split
    · exact hs
    · exact hs
  case encoderForwardCount ch => exact hawake h hs (forwardCount_placed ch hs)
  case encoderReverseCount ch => exact hawake h hs ((reverseCount_view ch s).symm ▸ hs)
  case stopTimerExpiry ch => exact hawake h hs ((stopChain_view ch s).symm ▸ hs)
  case lugEyeOnEdge ch edge => exact takeEdge_placed (fun _ h => lugEdge_placed ch h) (fun _ h => h) h hs
  case syntheticAdvance ch =>
    refine hawake h hs ?_
    split
    · exact forwardCount_placed ch hs
    · exact hs
  case scanEyeOnEdge edge => exact takeEdge_placed (fun _ h => scanEdge_placed h) (fun _ h => h) h hs
  case pickupEyeOnEdge edge => exact takeEdge_placed (fun _ h => pickupEdge_placed h) (fun _ h => h) h hs
  case sawFeedbackChange saw down =>
    change execSawFeedbackChange saw down s = .next t at h
    unfold execSawFeedbackChange at h
    split at h
    · exact hawake h hs ((takeFeedback_outside saw down _).weaken.view_same.symm ▸ hs)
    · cases h
  case sawWindowExpiry saw =>
    change execSawWindowExpiry saw s = .next t at h
    unfold execSawWindowExpiry at h
    split at h
    · exact hawake h hs ((expireWindow_view saw s).symm ▸ hs)
    · cases h
  case gatePulseExpiry bin =>
    change execGatePulseExpiry bin s = .next t at h
    unfold execGatePulseExpiry at h
    split at h
    · exact hawake h hs ((closeGate_outside bin s).weaken.view_same.symm ▸ hs)
    · cases h
  case gateConfirmOnEdge bin edge =>
    change execGateConfirmOnEdge bin edge s = .next t at h
    unfold execGateConfirmOnEdge at h
    split at h
    · exact takeEdge_placed (fun _ h => confirmEdge_placed bin h) (fun u h => (modifyBin_outside bin _ u).weaken.view_same.symm ▸ h) h hs
    · cases h
  case confirmWindowExpiry bin =>
    change execConfirmWindowExpiry bin s = .next t at h
    unfold execConfirmWindowExpiry at h
    split at h
    · exact hawake h hs (expireConfirm_placed bin hs)
    · cases h
  case binFullSwitchOnEdge bin edge =>
    change execBinFullSwitchOnEdge bin edge s = .next t at h
    unfold execBinFullSwitchOnEdge at h
    split at h
    · exact takeEdge_placed (fun u h => (fullSwitchEdge_outside bin u).weaken.view_same.symm ▸ h)
        (fun u h => (modifyBin_outside bin _ u).weaken.view_same.symm ▸ h) h hs
    · cases h
  case keyMarkPush p key =>
    change execKeyMarkPush p key s = .next t at h
    unfold execKeyMarkPush at h
    refine hawake h hs ?_
    split
    · rw [keyEvent_view p s (setGrading_outside p _ s).weaken.view_same]
      exact hs
    · exact hgrading p _
  case keyUndo p =>
    change execKeyUndo p s = .next t at h
    unfold execKeyUndo at h
    exact hawake h hs ((keyEvent_setGrading_view p Grading.undo s).symm ▸ hs)
  case keyClr p =>
    change execKeyClr p s = .next t at h
    unfold execKeyClr at h
    exact hawake h hs ((keyEvent_setGrading_view p (fun g => g.cleared.keyTaken) s).symm ▸ hs)
  case keyEnt p =>
    change execKeyEnt p s = .next t at h
    unfold execKeyEnt at h
    refine hawake h hs ((keyEvent_view p s ?_).symm ▸ hs)
    split
    · exact (setGrading_outside p _ s).weaken.view_same
    · exact commit_view p _ s
  case keypadBadByte p =>
    change execKeypadBadByte p s = .next t at h
    unfold execKeypadBadByte at h
    exact hawake h hs (hgrading p _)
  case keypadReplySent p =>
    change execKeypadReplySent p s = .next t at h
    unfold execKeypadReplySent at h
    exact hawake h hs (hgrading p _)
  case linkByteReceived l b stopBit =>
    change execLinkByteReceived l b stopBit s = .next t at h
    unfold execLinkByteReceived at h
    split at h
    · exact takeOldest_placed h (modifyLink_placed s l _ hs)
    · cases h; exact hs
  case pauseReceived l =>
    change execPauseReceived l s = .next t at h
    unfold execPauseReceived at h
    exact hawake h hs (modifyLink_placed s l _ hs)
  case resumeReceived l =>
    change execResumeReceived l s = .next t at h
    unfold execResumeReceived at h
    exact hawake h hs (modifyLink_placed s l _ hs)
  case txFrameSent l =>
    change execTxFrameSent l s = .next t at h
    unfold execTxFrameSent at h
    split at h
    · exact takeOldest_placed h (modifyLink_placed s l _ hs)
    · cases h; exact hs
  case linkBreak l =>
    change execLinkBreak l s = .next t at h
    unfold execLinkBreak at h
    refine hawake h hs ?_
    cases l
    · exact modifyLink_placed s _ _ hs
    · exact modifyLink_placed s .lineController LinkState.broken hs
    · exact modifyLink_placed s _ _ hs
  case unknownRequestCode l code num fields =>
    exact execUnknownRequestCode_keeps (I := fun s => s.view.Placed) modifyLink_placed h hs
  case postScan l num fields => exact exec_request_placed .postScan l num fields h hs
  case postSolution l num fields => exact exec_request_placed .postSolution l num fields h hs
  case readRecord l num fields => exact exec_request_placed .readRecord l num fields h hs
  case readStatus l num fields => exact exec_request_placed .readStatus l num fields h hs
  case ackAttention l num fields => exact exec_request_placed .ackAttention l num fields h hs
  case setAttentionEnable l num fields => exact exec_request_placed .setAttentionEnable l num fields h hs
  case setLineMode l num fields => exact exec_request_placed .setLineMode l num fields h hs
  case forceBoard l num fields => exact exec_request_placed .forceBoard l num fields h hs
  case sawEnable l num fields => exact exec_request_placed .sawEnable l num fields h hs
  case sawDisable l num fields => exact exec_request_placed .sawDisable l num fields h hs
  case binUnload l num fields => exact exec_request_placed .binUnload l num fields h hs
  case binEmptied l num fields => exact exec_request_placed .binEmptied l num fields h hs
  case binEnable l num fields => exact exec_request_placed .binEnable l num fields h hs
  case binDisable l num fields => exact exec_request_placed .binDisable l num fields h hs
  case readBins l num fields => exact exec_request_placed .readBins l num fields h hs
  case readEvents l num fields => exact exec_request_placed .readEvents l num fields h hs
  case clearEventOverflow l num fields => exact exec_request_placed .clearEventOverflow l num fields h hs
  case start l num fields => exact exec_request_placed .start l num fields h hs
  case restartTracking l num fields => exact exec_request_placed .restartTracking l num fields h hs
  case loadTable l num fields => exact exec_request_placed .loadTable l num fields h hs
  case readTable l num fields => exact exec_request_placed .readTable l num fields h hs
  case readTableTallyForm l num fields => exact exec_request_placed .readTableTallyForm l num fields h hs
  case readSegment l num fields => exact exec_request_placed .readSegment l num fields h hs
  case releaseSegment l num fields => exact exec_request_placed .releaseSegment l num fields h hs
  case flush l num fields => exact exec_request_placed .flush l num fields h hs
  case shiftClose l num fields => exact exec_request_placed .shiftClose l num fields h hs
  case readMatrix l num fields => exact exec_request_placed .readMatrix l num fields h hs
  case readClosed l num fields => exact exec_request_placed .readClosed l num fields h hs
  case priceEdit l num fields => exact exec_request_placed .priceEdit l num fields h hs
  case priceSwitch l num fields => exact exec_request_placed .priceSwitch l num fields h hs

end Sys2Proof.Machine

namespace Sys2Proof.Proofs
open Sys2Proof.Machine

/-- Settles O58: a life and its parts are a predicate of a record's offset, and each line of an advance turns the predicate of the
records before it into the one after it; every other command leaves what the predicate reads. -/
theorem livesFollowLines : Obligations.LivesFollowLines := by
  unfold Obligations.LivesFollowLines
  intro s t hs h
  rw [livesPlaced_iff] at hs ⊢
  exact step_keeps (I := fun s => s.view.Placed) (fun _ => clockPeriod_placed) (fun _ _ h => h) (fun i _ _ => exec_placed i) h hs

end Sys2Proof.Proofs
end

