-- ==== Sys2Proof/Proofs/PowerOn.lean ====
section
/-! The power-on values: what POWER_ON and RESETN leave (O3), and that they meet every invariant (O60). -/

namespace Sys2Proof.Machine

-- One thread elaborates the many small proofs of this file.
set_option Elab.async false

theorem entryD_replicate {α : Type} {k i : Nat} (a d : α) (h : i < k) : entryD (Vector.replicate k a) i d = a := by
  simp [entryD, h]

theorem bin_of_powerOn {t : State} (ht : t.sort.bins = Vector.replicate 48 .powerOn) {n : Nat} (hn : n ≤ 48) : t.bin n = .powerOn := by
  unfold State.bin
  split
  · rfl
  · rw [ht]
    exact entryD_replicate _ _ (by omega)

theorem saw_of_powerOn {t : State} (ht : t.saws.recs = Vector.replicate 13 .powerOn) {k : Nat} (hk : k ≤ 12) : t.saw k = .powerOn := by
  rw [State.saw, ht]
  exact entryD_replicate _ _ (by omega)

theorem Tally.zero_allZero (shift : Nat) : (Tally.zero shift).AllZero shift :=
  ⟨fun _ hi => entryD_replicate _ _ hi, rfl, rfl, rfl⟩

/-- A part whose blocks, the links apart, stand at power-on, and whose links are at power-on at some rate. -/
theorem State.powerOn_atPowerOn (pins : Inputs) (low : Bool) (baud : BaudPins) (waiting : List Instr) (rates : LinkId → BaudRate) :
    AtPowerOn { State.powerOn pins low baud waiting with
      links := { optimizer := .powerOn (rates .optimizer), lineController := .powerOn (rates .lineController),
                 tallyStation := .powerOn (rates .tallyStation), notice := 0 } } where
  timebase := ⟨rfl, rfl, rfl⟩
  chains ch := by cases ch <;> rfl
  boards := ⟨rfl, rfl, rfl⟩
  postings := rfl
  forces := rfl
  gradings p := by cases p <;> exact ⟨fun i => by simp [State.grading, State.powerOn, Grading.powerOn], rfl, rfl, rfl, rfl⟩
  mode := ⟨rfl, rfl⟩
  decisions := ⟨rfl, rfl, rfl, rfl, fun _ hi => entryD_replicate _ _ hi⟩
  saws k hk := by
    rw [saw_of_powerOn rfl hk]
    exact ⟨rfl, rfl, rfl, rfl, rfl, rfl, rfl, rfl⟩
  owner := rfl
  bins n _ hn := by
    rw [bin_of_powerOn rfl hn]
    exact ⟨rfl, rfl, rfl, rfl, rfl, rfl, rfl, rfl, rfl⟩
  sorts := rfl
  tallies := ⟨Tally.zero_allZero 1, Tally.zero_allZero 0⟩
  stream := rfl
  events := ⟨rfl, rfl, rfl⟩
  attention l := by cases l <;> rfl
  links l := by cases l <;> rfl
  notice := rfl
  settings := ⟨rfl, rfl, rfl, rfl, rfl⟩
  params ch := by cases ch <;> exact ⟨rfl, rfl⟩
  sawTable := by
    refine ⟨fun k h1 hk => ?_, fun k hk => entryD_replicate _ _ (by omega)⟩
    unfold State.sawPlace
    rw [if_neg (by omega)]
    exact entryD_replicate _ _ (by omega)
  sizeTable := ⟨fun _ hi => entryD_replicate _ _ hi, fun _ hi => entryD_replicate _ _ hi⟩
  gradeTable := by
    refine ⟨fun g hg => ?_, rfl⟩
    change (BitVec.allOnes 10).getLsbD g = true
    rw [BitVec.getLsbD_allOnes]
    exact decide_eq_true hg
  stationTable := rfl
  groupTable := ⟨fun _ hi => entryD_replicate _ _ hi, rfl, rfl, rfl⟩
  rules := rfl
  valid table := by cases table <;> rfl
  banks := ⟨rfl, rfl, rfl, rfl, rfl⟩
  prices _ hi := ⟨entryD_replicate _ _ hi, entryD_replicate _ _ hi⟩

/-- A power-on samples the pins and leaves the power-on values. -/
theorem State.powered_atPowerOn (s : State) (baud : BaudPins) (low : Bool) : AtPowerOn (s.powered baud low) :=
  State.powerOn_atPowerOn s.pins low baud s.pending fun
    | .optimizer => baudRate baud.a0 baud.b0
    | .lineController => baudRate baud.a1 baud.b1
    | .tallyStation => baudRate baud.a2 baud.b2

/-- RESETN held low leaves the power-on values, the rates as last sampled. -/
theorem State.held_atPowerOn (s : State) : AtPowerOn s.held :=
  State.powerOn_atPowerOn s.pins true _ s.pending fun l => (s.link l).baud

/-! ### The invariants after power-on -/

section
variable (waiting : List Instr)

theorem reset_placed : ({ State.reset with pending := waiting } : State).view.Placed := placed_of_powerOn rfl rfl

theorem reset_queuesBounded : QueuesBounded { State.reset with pending := waiting } := by
  refine ⟨Nat.zero_le _, Nat.zero_le _, fun p => ?_, fun l => ?_⟩
  · cases p <;> exact Nat.zero_le _
  · have h : ∀ rate, (LinkState.powerOn rate).Bounded := fun rate =>
      ⟨Nat.zero_le _, Nat.zero_le _, fun h => absurd rfl h, fun _ h => absurd h List.not_mem_nil, trivial⟩
    cases l <;> exact h _

theorem reset_stacksContiguous : StacksContiguous { State.reset with pending := waiting } := by
  have h : Grading.powerOn.Contiguous := ⟨0, Nat.zero_le 6, fun i => by simp [Grading.powerOn]⟩
  intro p
  cases p <;> exact h

theorem Tally.zero_balanced (shift : Nat) : (Tally.zero shift).Balanced := by
  intro _
  have hp : (Tally.zero shift).pieces = 0 := by
    unfold Tally.pieces Tally.zero
    rw [Vector.toList_replicate, List.map_replicate, List.sum_replicate]
    rfl
  rw [hp]
  rfl

theorem reset_tallyKept : TallyKept { State.reset with pending := waiting } where
  live := Tally.zero_balanced 1
  closed := Tally.zero_balanced 0
  keys _ h := absurd h List.not_mem_nil
  rules _ h := absurd h List.not_mem_nil

theorem reset_placesCounted : PlacesCounted { State.reset with pending := waiting } := by
  have hbin : ∀ n, n ≤ 48 → State.bin { State.reset with pending := waiting } n = .powerOn := fun n hn => bin_of_powerOn rfl hn
  refine ⟨((livesPlaced_iff _).mpr (reset_placed waiting)).placed, fun n _ hn => ?_, fun n _ hn it e => ?_,
    fun _ h => absurd h List.not_mem_nil, fun n _ hn e h => ?_, fun n _ hn => ?_⟩
  · rw [hbin n hn]; rfl
  · rw [hbin n hn] at e; cases e
  · rw [hbin n hn] at h; exact absurd h List.not_mem_nil
  · rw [hbin n hn]; exact List.nodup_nil

end

end Sys2Proof.Machine

namespace Sys2Proof.Proofs
open Sys2Proof.Machine

/-- Settles O3: POWER_ON, RESETN_ASSERT and RESETN_RELEASE write every block's power-on value. -/
theorem powerOnValues : Obligations.PowerOnValues := by
  unfold Obligations.PowerOnValues
  intro baud s
  exact ⟨⟨_, rfl, s.powered_atPowerOn baud _, rfl, rfl, rfl, rfl, rfl, rfl⟩, ⟨_, rfl, s.powered_atPowerOn baud _, rfl, rfl, rfl, rfl, rfl, rfl⟩,
    ⟨_, rfl, s.held_atPowerOn, rfl, rfl, rfl⟩⟩

/-- Settles O60: with no record, no event, no reply and nothing posted each invariant holds of the power-on values. -/
theorem resetMeetsInvariants : Obligations.ResetMeetsInvariants := by
  unfold Obligations.ResetMeetsInvariants
  intro waiting
  have hl := (livesPlaced_iff _).mpr (reset_placed waiting)
  exact ⟨rfl, reset_queuesBounded waiting, reset_stacksContiguous waiting, reset_tallyKept waiting, hl.placed, hl,
    reset_placesCounted waiting⟩

end Sys2Proof.Proofs
end

