-- ==== Sys2Proof/Proofs/Tracking.lean ====
section
/-! The chain units: encoder counts and the stop timer (O6), lug-eye edges (O7) and the synthetic advance (O8). Each command is given as an
equation in named steps, and each step's effect on the chain unit and its frame is stated once. -/

namespace Sys2Proof.Machine

-- One thread elaborates the many small proofs of this file.
set_option Elab.async false

/-- An event taken while inputs are taken acts. -/
theorem whenAwake_awake {s : State} {act : State → State} (h : s.awake = true) : whenAwake s act = .next (act s) := by
  simp [whenAwake, h]

/-! ### Encoder counts (R1, R2) -/

/-- An event does not read the chain units but for the TCU's serial. -/
theorem raiseEvent_setUnit (k : EventKind) (c : Option Chain) (n d : Nat) (s : State) (ch : Chain) (u : ChainUnit)
    (hu : u.serial = (s.unit ch).serial) :
    (raiseEvent k c n d s).setUnit ch u = raiseEvent k c n d (s.setUnit ch u) := by
  have hser : (s.setUnit ch u).tcu.serial = s.tcu.serial := setUnit_serial ch .trimmer u s hu
  unfold raiseEvent
  rw [State.setUnit_events, hser]
  split
  · cases ch <;> rfl
  · cases ch <;> rfl

/-- An encoder count taken: the new count and direction, STOPPED clear, the stop timer restarted, and CHAIN-RUN after a stop. -/
def State.counted (s : State) (ch : Chain) (count : Nat) (reverse : Bool) : State :=
  let t := s.setUnit ch { s.unit ch with
    count := count, stopped := false, reverse := reverse, stopTimer := some { elapsed := 0, limit := (s.params ch).stopTime } }
  if (s.unit ch).stopped then raiseEvent .chainRun (some ch) 0 0 t else t

/-- After the restart of the stop timer the count and the direction are written. -/
theorem countTaken_setUnit (ch : Chain) (s : State) (count : Nat) (reverse : Bool) :
    (countTaken ch s).setUnit ch { (countTaken ch s).unit ch with reverse := reverse, count := count } = s.counted ch count reverse := by
  unfold countTaken State.counted
  dsimp only
  split
  · simp only [raiseEvent_unit, State.setUnit_unit]
    rw [raiseEvent_setUnit _ _ _ _ _ _ _ (by simp), State.setUnit_setUnit]
  · simp only [State.setUnit_unit, State.setUnit_setUnit]

theorem countTaken_unit_count (ch : Chain) (s : State) : ((countTaken ch s).unit ch).count = (s.unit ch).count := by
  unfold countTaken
  dsimp only
  split
  · rw [raiseEvent_unit, State.setUnit_unit]
  · rw [State.setUnit_unit]

/-- A forward count: c raised, and the synthetic advance where one is due. -/
theorem forwardCount_eq (ch : Chain) (s : State) :
    forwardCount ch s =
      if syntheticDue s ch then syntheticAdvance ch (s.counted ch (incTo Config.countMax (s.unit ch).count) false)
      else s.counted ch (incTo Config.countMax (s.unit ch).count) false := by
  unfold forwardCount
  dsimp only
  rw [countTaken_setUnit, countTaken_unit_count]

/-- A reverse count: c lowered, and REVERSE by the first of a stretch. -/
theorem reverseCount_eq (ch : Chain) (s : State) :
    reverseCount ch s =
      if (s.unit ch).reverse then s.counted ch ((s.unit ch).count - 1) true
      else raiseEvent .reverse (some ch) 0 0 (s.counted ch ((s.unit ch).count - 1) true) := by
  unfold reverseCount
  dsimp only
  rw [countTaken_setUnit, countTaken_unit_count]

theorem syntheticDue_iff (s : State) (ch : Chain) : syntheticDue s ch = true ↔
    ((s.unit ch).sync = .locked ∨ (s.unit ch).sync = .coast) ∧
      (s.params ch).pitch + (s.params ch).tolerance ≤ (if (s.unit ch).count < 65535 then (s.unit ch).count + 1 else (s.unit ch).count) := by
  simp only [syntheticDue, Bool.and_eq_true, decide_eq_true_eq]
  rfl

theorem counted_unit (s : State) (ch : Chain) (count : Nat) (reverse : Bool) : (s.counted ch count reverse).unit ch =
    { s.unit ch with
      count := count, stopped := false, reverse := reverse, stopTimer := some { elapsed := 0, limit := (s.params ch).stopTime } } := by
  unfold State.counted
  dsimp only
  split
  · rw [raiseEvent_unit, State.setUnit_unit]
  · rw [State.setUnit_unit]

theorem counted_unit_ne (s : State) {ch other : Chain} (count : Nat) (reverse : Bool) (h : other ≠ ch) :
    (s.counted ch count reverse).unit other = s.unit other := by
  unfold State.counted
  dsimp only
  split
  · rw [raiseEvent_unit, State.setUnit_unit_ne _ _ h]
  · rw [State.setUnit_unit_ne _ _ h]

theorem counted_outside (s : State) (ch : Chain) (count : Nat) (reverse : Bool) :
    Outside { tcu := true, scu := true, events := true, attention := true } s (s.counted ch count reverse) := by
  unfold State.counted
  dsimp only
  split
  · exact .then (setUnit_outside _ _ s).weaken (raiseEvent_outside _ _ _ _ _)
  · exact (setUnit_outside _ _ s).weaken

/-! ### Sync changes (R10) -/

theorem changeSync_unit (ch : Chain) (new : Sync) (s : State) : (changeSync ch new s).unit ch = { s.unit ch with sync := new } := by
  unfold changeSync
  split
  · next h => rw [← h]
  · cases ch <;> dsimp only <;> simp only [latch_unit, raiseEvent_unit, State.setUnit_unit]

theorem changeSync_unit_ne {ch other : Chain} (new : Sync) (s : State) (h : other ≠ ch) :
    (changeSync ch new s).unit other = s.unit other := by
  unfold changeSync
  split
  · rfl
  · cases ch <;> dsimp only <;> simp only [latch_unit, raiseEvent_unit, State.setUnit_unit_ne _ _ h]

/-- A latched cause stands, and others stay. -/
theorem latch_edges (c : Cause) (s : State) (l : LinkId) (n : Nat) :
    ((latch c s).role l).edges.getLsbD n = ((s.role l).edges.getLsbD n || (decide (l = c.role) && (causeBit c.bit).getLsbD n)) := by
  unfold latch
  dsimp only
  by_cases h : l = c.role
  · rw [h, State.setRole_role]
    simp
  · rw [State.setRole_role_ne _ _ h]
    simp [h]

/-- A change to another sync state latches SYNC and, for the TCU, TRACK-SYNC. -/
theorem changeSync_latches {ch : Chain} {new : Sync} {s : State} (h : (s.unit ch).sync ≠ new) :
    (changeSync ch new s).attention.lineController.edges.getLsbD 5 = true ∧
      (ch = .trimmer → (changeSync ch new s).attention.optimizer.edges.getLsbD 0 = true) := by
  have hline : ∀ t : State, t.attention.lineController = t.role .lineController := fun _ => rfl
  have hopt : ∀ t : State, t.attention.optimizer = t.role .optimizer := fun _ => rfl
  unfold changeSync
  rw [if_neg h]
  cases ch
  · dsimp only
    rw [hline, hopt, latch_edges, latch_edges, latch_edges]
    exact ⟨by simp [Cause.role, Cause.bit, causeBit], fun _ => by simp [Cause.role, Cause.bit, causeBit]⟩
  · dsimp only
    rw [hline, latch_edges]
    exact ⟨by simp [Cause.role, Cause.bit, causeBit], fun h => nomatch h⟩

/-! ### Advances -/

theorem raiseSerial_unit (ch : Chain) (s : State) : (raiseSerial ch s).unit ch = { s.unit ch with serial := (s.unit ch).serial + 1 } :=
  State.setUnit_unit s ch _

theorem raiseSerial_unit_ne {ch other : Chain} (s : State) (h : other ≠ ch) : (raiseSerial ch s).unit other = s.unit other :=
  State.setUnit_unit_ne s _ h

theorem raiseSerial_outside (ch : Chain) (s : State) : Outside { tcu := true, scu := true } s (raiseSerial ch s) := setUnit_outside ch _ s

theorem suspectMap_outside (ch : Chain) (s : State) : Outside { trimmer := true, sorter := true } s (suspectMap ch s) := by
  cases ch <;> constructor <;> intro h <;> first | exact absurd h (by decide) | rfl

theorem suspectMap_unit (ch c : Chain) (s : State) : (suspectMap ch s).unit c = s.unit c := by
  cases ch <;> cases c <;> rfl

/-- The parts that an advance with its tracking can change. -/
def Touched.byAdvance : Touched :=
  { tcu := true, scu := true, trimmer := true, transfer := true, sorter := true, decision := true, saws := true, sort := true,
    tally := true, events := true, attention := true, gradingA := true, gradingB := true }

/-- The state in which a synthetic advance finds the boards (R7, R9). -/
def State.missed (s : State) (ch : Chain) : State :=
  let miss := (s.unit ch).miss + 1
  let t := raiseEvent .eyeMissed (some ch) 0 miss (s.setUnit ch { s.unit ch with count := (s.params ch).tolerance, miss := miss })
  if 3 ≤ miss then suspectMap ch (changeSync ch .lost (t.setUnit ch { t.unit ch with good := 0 })) else changeSync ch .coast t

theorem syntheticAdvance_eq (ch : Chain) (s : State) : syntheticAdvance ch s = raiseSerial ch (advanceLines ch (s.missed ch)) := rfl

theorem missed_unit (s : State) (ch : Chain) : (s.missed ch).unit ch =
    { s.unit ch with
      count := (s.params ch).tolerance, miss := (s.unit ch).miss + 1
      sync := if 3 ≤ (s.unit ch).miss + 1 then .lost else .coast, good := if 3 ≤ (s.unit ch).miss + 1 then 0 else (s.unit ch).good } := by
  unfold State.missed
  dsimp only
  split
  · next h =>
    simp only [suspectMap_unit, changeSync_unit, State.setUnit_unit, raiseEvent_unit]
  · next h =>
    simp only [changeSync_unit, State.setUnit_unit, raiseEvent_unit]

theorem missed_unit_ne (s : State) {ch other : Chain} (h : other ≠ ch) : (s.missed ch).unit other = s.unit other := by
  unfold State.missed
  dsimp only
  split
  · simp only [suspectMap_unit, changeSync_unit_ne _ _ h, State.setUnit_unit_ne _ _ h, raiseEvent_unit]
  · simp only [changeSync_unit_ne _ _ h, State.setUnit_unit_ne _ _ h, raiseEvent_unit]

theorem missed_outside (s : State) (ch : Chain) :
    Outside { tcu := true, scu := true, trimmer := true, sorter := true, events := true, attention := true } s (s.missed ch) := by
  unfold State.missed
  dsimp only
  split
  · exact .then (.then (.then (.then (setUnit_outside _ _ s).weaken (raiseEvent_outside _ _ _ _ _)) (setUnit_outside _ _ _))
      (changeSync_outside _ _ _)) (suspectMap_outside _ _)
  · exact .then (.then (setUnit_outside _ _ s).weaken (raiseEvent_outside _ _ _ _ _)) (changeSync_outside _ _ _)

theorem syntheticAdvance_unit (ch : Chain) (s : State) : (syntheticAdvance ch s).unit ch =
    { s.unit ch with
      count := (s.params ch).tolerance, serial := (s.unit ch).serial + 1, miss := (s.unit ch).miss + 1
      sync := if 3 ≤ (s.unit ch).miss + 1 then .lost else .coast, good := if 3 ≤ (s.unit ch).miss + 1 then 0 else (s.unit ch).good } := by
  rw [syntheticAdvance_eq, raiseSerial_unit, advanceLines_unit, missed_unit]

theorem syntheticAdvance_unit_ne {ch other : Chain} (s : State) (h : other ≠ ch) :
    (syntheticAdvance ch s).unit other = s.unit other := by
  rw [syntheticAdvance_eq, raiseSerial_unit_ne _ h, advanceLines_unit, missed_unit_ne _ h]

theorem syntheticAdvance_outside (ch : Chain) (s : State) : Outside .byAdvance s (syntheticAdvance ch s) := by
  rw [syntheticAdvance_eq]
  exact .then (.then (missed_outside s ch).weaken (advanceLines_outside ch _)) (raiseSerial_outside ch _)

/-! ### SUSPECT through an advance (R9) -/

/-- Every record of a list is SUSPECT. -/
def AllSuspect (rs : List Record) : Prop := ∀ r ∈ rs, r.flags.suspect = true

theorem markSuspect_all (rs : List Record) : AllSuspect (markSuspect rs) := by
  intro r hr
  obtain ⟨x, _, rfl⟩ := List.mem_map.mp hr
  rfl

theorem AllSuspect.mapTag {rs : List Record} (h : AllSuspect rs) (tag : Nat) {f : Record → Record}
    (hf : ∀ r ∈ rs, (f r).flags.suspect = true) : AllSuspect (mapTag tag f rs) := by
  intro r hr
  obtain ⟨x, hx, rfl⟩ := List.mem_map.mp hr
  split
  · exact hf x hx
  · exact h x hx

theorem AllSuspect.dropTag {rs : List Record} (h : AllSuspect rs) (tag : Nat) : AllSuspect (dropTag tag rs) :=
  fun r hr => h r (List.mem_filter.mp hr).1

theorem markSawMiss_suspect {s : State} (h : AllSuspect s.board.trimmer) : AllSuspect (markSawMiss s).board.trimmer := by
  unfold markSawMiss
  split
  · exact h
  · exact h.mapTag _ h

theorem missSaw_suspect (saw : Nat) {s : State} (h : AllSuspect s.board.trimmer) : AllSuspect (missSaw saw s).board.trimmer := by
  unfold missSaw
  dsimp only
  have hm : ∀ t : State, t.board.trimmer = s.board.trimmer →
      AllSuspect (markSawMiss (raiseEvent .sawMiss none saw (s.saw saw).commanded.toNat t)).board.trimmer := by
    intro t ht
    refine markSawMiss_suspect ?_
    rw [raiseEvent_board, ht]
    exact h
  split
  · rw [latch_board, raiseEvent_board]
    exact hm _ rfl
  · exact hm _ rfl

theorem endWindows_suspect {s : State} (h : AllSuspect s.board.trimmer) : AllSuspect (endWindows s).board.trimmer := by
  unfold endWindows
  induction allSaws generalizing s with
  | nil => exact h
  | cons saw rest ih =>
    refine ih ?_
    unfold endWindow
    dsimp only
    split
    · exact h
    · split
      · exact h
      · exact missSaw_suspect saw h

theorem decisionLine_suspect (now : Serial) {s : State} (h : AllSuspect s.board.trimmer) :
    AllSuspect (decisionLine now s).board.trimmer := by
  unfold decisionLine
  split
  · split
    · exact h.mapTag _ h
    · exact h
  · exact h

theorem cutLine_suspect (now : Serial) {s : State} (h : AllSuspect s.board.trimmer) : AllSuspect (cutLine now s).board.trimmer := by
  unfold cutLine
  split
  · exact h
  · next r hr =>
    split
    · exact h
    · dsimp only
      split
      · unfold retireFromTrimmer
        rw [(handToTally_outside _ _ _).trimmer rfl]
        exact h.dropTag _
      · exact h.mapTag _ fun _ _ => h r (List.mem_of_find?_eq_some hr)

theorem outfeedLine_suspect (now : Serial) {s : State} (h : AllSuspect s.board.trimmer) :
    AllSuspect (outfeedLine now s).board.trimmer := by
  unfold outfeedLine
  split
  · rw [(appendTransfer_outside _ _).trimmer rfl]
    exact h.dropTag _
  · exact h

theorem setLine_suspect (now : Serial) {s : State} (h : AllSuspect s.board.trimmer) : AllSuspect (setLine now s).board.trimmer := by
  unfold setLine
  dsimp only
  have hp : ∀ v, (applyPattern v s).board.trimmer = s.board.trimmer := fun v => (applyPattern_outside v s).trimmer rfl
  split
  · next r _ =>
    change AllSuspect (mapTag r.tag (fun x => { x with life := .set }) (applyPattern _ s).board.trimmer)
    rw [hp]
    exact h.mapTag _ fun x hx => h x hx
  · change AllSuspect (applyPattern (s.patternFor none) s).board.trimmer
    rw [hp]
    exact h

theorem trimmerLines_suspect (now : Serial) {s : State} (h : AllSuspect s.board.trimmer) :
    AllSuspect (trimmerLines now s).board.trimmer := by
  unfold trimmerLines
  apply setLine_suspect
  apply outfeedLine_suspect
  apply cutLine_suspect
  apply endWindows_suspect
  exact decisionLine_suspect now h

theorem advanceTrimmer_suspect {s : State} (h : AllSuspect s.board.trimmer) : AllSuspect (advanceTrimmer s).board.trimmer := by
  unfold advanceTrimmer
  dsimp only
  rw [(markAdvance_outside _ _ _).trimmer rfl, (markAdvance_outside _ _ _).trimmer rfl]
  split
  · exact trimmerLines_suspect _ h
  · exact h

theorem reroute_suspect (r : Record) (off : Nat) {s : State} (h : AllSuspect s.board.sorter) : AllSuspect (reroute r off s).board.sorter := by
  unfold reroute
  split
  · exact h
  · next p _ =>
    dsimp only
    generalize s.rerouteBin p off = new
    have hb : AllSuspect (if new = 0 then releaseReservation p.bin s else takeReservation new (releaseReservation p.bin s)).board.sorter := by
      split
      · rw [(releaseReservation_outside _ _).sorter rfl]; exact h
      · rw [(takeReservation_outside _ _).sorter rfl, (releaseReservation_outside _ _).sorter rfl]; exact h
    exact hb.mapTag _ hb

theorem completeDrop_suspect (r : Record) (bin : Nat) {s : State} (h : AllSuspect s.board.sorter) :
    AllSuspect (completeDrop r bin s).board.sorter := by
  unfold completeDrop
  dsimp only
  rw [(handToTally_outside _ _ _).sorter rfl]
  refine AllSuspect.dropTag ?_ _
  split
  · split
    · rw [(makeFull_outside _ _).sorter rfl, (modifyBin_outside _ _ _).sorter rfl]; exact h
    · rw [(modifyBin_outside _ _ _).sorter rfl]; exact h
  · rw [(modifyBin_outside _ _ _).sorter rfl]; exact h

theorem fireGate_suspect (r : Record) (bin : Nat) {s : State} (h : AllSuspect s.board.sorter) :
    AllSuspect (fireGate r bin s).board.sorter := by
  unfold fireGate
  have hb : AllSuspect (s.modifyBin bin fun b => { b with gateOpen := true, pulse := some 0 }).board.sorter := by
    rw [(modifyBin_outside _ _ _).sorter rfl]; exact h
  exact hb.mapTag _ hb

theorem dropLine_suspect (r : Record) (bin off : Nat) {s : State} (h : AllSuspect s.board.sorter) :
    AllSuspect (dropLine r bin off s).board.sorter := by
  unfold dropLine
  dsimp only
  split
  · have hb : AllSuspect (releaseReservation bin s).board.sorter := by rw [(releaseReservation_outside _ _).sorter rfl]; exact h
    exact hb.mapTag _ hb
  · split
    · exact reroute_suspect r off h
    · split
      · exact reroute_suspect r off (s := s.modifySortCounts _) h
      · have hf := fireGate_suspect r bin h
        split
        · rw [(modifyBin_outside _ _ _).sorter rfl]
          exact hf.mapTag _ hf
        · split
          · exact completeDrop_suspect _ bin hf
          · exact hf

theorem sorterLine_suspect (now : Serial) (tag : Nat) {s : State} (h : AllSuspect s.board.sorter) :
    AllSuspect (sorterLine now tag s).board.sorter := by
  unfold sorterLine
  split
  · exact h
  · dsimp only
    split
    · unfold retireFromSorter
      dsimp only
      rw [(handToTally_outside _ _ _).sorter rfl]
      refine AllSuspect.dropTag ?_ _
      rw [(modifyBin_outside _ _ _).sorter rfl, (releaseReservation_outside _ _).sorter rfl]
      exact h
    · split
      · exact dropLine_suspect _ _ _ h
      · exact h

theorem advanceSorter_suspect {s : State} (h : AllSuspect s.board.sorter) : AllSuspect (advanceSorter s).board.sorter := by
  have hfold : ∀ (tags : List Nat) (u : State), AllSuspect u.board.sorter →
      AllSuspect (tags.foldl (fun v tag => sorterLine (s.scu.serial + 1) tag v) u).board.sorter := by
    intro tags
    induction tags with
    | nil => exact fun u hu => hu
    | cons tag rest ih => exact fun u hu => ih _ (sorterLine_suspect _ tag hu)
  refine hfold _ _ ?_
  rw [(ageTransfer_outside s).sorter rfl]
  exact h

/-- The third miss in a row leaves every record of the chain's own map SUSPECT. -/
theorem syntheticAdvance_suspect {ch : Chain} {s : State} (h : 3 ≤ (s.unit ch).miss + 1) :
    (ch = .trimmer → AllSuspect (syntheticAdvance ch s).board.trimmer) ∧ (ch = .sorter → AllSuspect (syntheticAdvance ch s).board.sorter) := by
  have hm : ∃ t, s.missed ch = suspectMap ch t := by
    unfold State.missed
    dsimp only
    rw [if_pos h]
    exact ⟨_, rfl⟩
  obtain ⟨t, ht⟩ := hm
  rw [syntheticAdvance_eq, ht]
  refine ⟨fun e => ?_, fun e => ?_⟩
  · subst e
    rw [(raiseSerial_outside _ _).trimmer rfl]
    exact advanceTrimmer_suspect (markSuspect_all t.board.trimmer)
  · subst e
    rw [(raiseSerial_outside _ _).sorter rfl]
    exact advanceSorter_suspect (markSuspect_all t.board.sorter)

/-! ### Lug-eye edges (R3 to R10) -/

/-- A lug-eye on-edge that is taken acts on the state with the level outside set. -/
theorem exec_lugEye_taken {s : State} {ch : Chain} (h : s.edgeTaken (.lug ch)) :
    exec (.lugEyeOnEdge ch .on) s = .next (lugEdge ch (s.withPin (.lug ch) true)) := by
  obtain ⟨ha, hs⟩ := h
  change takeEdge (.lug ch) .on (lugEdge ch) id s = _
  simp only [takeEdge, ha, hs, Bool.not_false, Bool.and_true, if_true]
  rfl

/-- Whether a spacing is good, and the good count it leaves (R5). -/
def State.goodAfter (s : State) (ch : Chain) : Nat :=
  if (s.params ch).windowLow ≤ (s.unit ch).count ∧ (s.unit ch).count ≤ (s.params ch).windowHigh then (s.unit ch).good + 1 else 0

/-- An acquiring edge by its steps (R5, R9). -/
theorem acquireEdge_eq (ch : Chain) (s : State) :
    acquireEdge ch s = raiseSerial ch (
      if 4 ≤ s.goodAfter ch then
        changeSync ch .locked ((advanceLines ch (s.setUnit ch { s.unit ch with count := 0, good := s.goodAfter ch })).setUnit ch
          { s.unit ch with count := 0, good := 0, miss := 0 })
      else advanceLines ch (s.setUnit ch { s.unit ch with count := 0, good := s.goodAfter ch })) := by
  unfold acquireEdge
  dsimp only
  simp only [advanceLines_unit, State.setUnit_unit]
  rfl

theorem acquireEdge_unit (ch : Chain) (s : State) : (acquireEdge ch s).unit ch =
    if 4 ≤ s.goodAfter ch then
      { s.unit ch with count := 0, serial := (s.unit ch).serial + 1, sync := .locked, good := 0, miss := 0 }
    else { s.unit ch with count := 0, serial := (s.unit ch).serial + 1, good := s.goodAfter ch } := by
  rw [acquireEdge_eq, raiseSerial_unit]
  split
  · simp only [changeSync_unit, State.setUnit_unit]
  · simp only [advanceLines_unit, State.setUnit_unit]

theorem acquireEdge_unit_ne {ch other : Chain} (s : State) (h : other ≠ ch) : (acquireEdge ch s).unit other = s.unit other := by
  rw [acquireEdge_eq, raiseSerial_unit_ne _ h]
  split
  · rw [changeSync_unit_ne _ _ h, State.setUnit_unit_ne _ _ h, advanceLines_unit, State.setUnit_unit_ne _ _ h]
  · rw [advanceLines_unit, State.setUnit_unit_ne _ _ h]

theorem acquireEdge_outside (ch : Chain) (s : State) : Outside .byAdvance s (acquireEdge ch s) := by
  rw [acquireEdge_eq]
  refine .then ?_ (raiseSerial_outside ch _)
  split
  · exact .then (.then (.then (setUnit_outside ch _ s).weaken (advanceLines_outside ch _)) (setUnit_outside ch _ _))
      (changeSync_outside ch _ _)
  · exact .then (setUnit_outside ch _ s).weaken (advanceLines_outside ch _)

/-- The fourth good spacing in SEARCH or LOST raises SYNC and, for the TCU, TRACK-SYNC. -/
theorem acquireEdge_latches {ch : Chain} {s : State} (hg : 4 ≤ s.goodAfter ch) (hs : (s.unit ch).sync ≠ .locked) :
    (acquireEdge ch s).attention.lineController.edges.getLsbD 5 = true ∧
      (ch = .trimmer → (acquireEdge ch s).attention.optimizer.edges.getLsbD 0 = true) := by
  rw [acquireEdge_eq, if_pos hg, (raiseSerial_outside ch _).attention rfl]
  exact changeSync_latches (by rw [State.setUnit_unit]; exact hs)

/-- A tracking edge from the window low on, by its steps (R6, R8). -/
theorem trackEdge_eq {ch : Chain} {s : State} (h : (s.params ch).windowLow ≤ (s.unit ch).count) :
    trackEdge ch s = raiseSerial ch (changeSync ch .locked (advanceLines ch (s.setUnit ch { s.unit ch with count := 0, miss := 0 }))) := by
  unfold trackEdge
  dsimp only
  rw [if_neg (Nat.not_lt.mpr h)]

theorem trackEdge_unit {ch : Chain} {s : State} (h : (s.params ch).windowLow ≤ (s.unit ch).count) : (trackEdge ch s).unit ch =
    { s.unit ch with count := 0, serial := (s.unit ch).serial + 1, sync := .locked, miss := 0 } := by
  rw [trackEdge_eq h, raiseSerial_unit, changeSync_unit, advanceLines_unit, State.setUnit_unit]

theorem trackEdge_unit_ne {ch other : Chain} {s : State} (h : (s.params ch).windowLow ≤ (s.unit ch).count) (ho : other ≠ ch) :
    (trackEdge ch s).unit other = s.unit other := by
  rw [trackEdge_eq h, raiseSerial_unit_ne _ ho, changeSync_unit_ne _ _ ho, advanceLines_unit, State.setUnit_unit_ne _ _ ho]

theorem trackEdge_outside {ch : Chain} {s : State} (h : (s.params ch).windowLow ≤ (s.unit ch).count) :
    Outside .byAdvance s (trackEdge ch s) := by
  rw [trackEdge_eq h]
  exact .then (.then (.then (setUnit_outside ch _ s).weaken (advanceLines_outside ch _)) (changeSync_outside ch _ _))
    (raiseSerial_outside ch _)

/-- An edge that takes the chain out of COAST raises SYNC and, for the TCU, TRACK-SYNC. -/
theorem trackEdge_latches {ch : Chain} {s : State} (h : (s.params ch).windowLow ≤ (s.unit ch).count) (hs : (s.unit ch).sync = .coast) :
    (trackEdge ch s).attention.lineController.edges.getLsbD 5 = true ∧
      (ch = .trimmer → (trackEdge ch s).attention.optimizer.edges.getLsbD 0 = true) := by
  rw [trackEdge_eq h, (raiseSerial_outside ch _).attention rfl]
  exact changeSync_latches (by rw [advanceLines_unit, State.setUnit_unit, hs]; simp)

section
variable {s : State} {ch : Chain}

theorem withPin_unit (line : InputLine) (level : Bool) (c : Chain) : (s.withPin line level).unit c = s.unit c := by cases c <;> rfl

theorem lugEdge_acquiring (hv : (s.params ch).valid = true) (hr : (s.unit ch).reverse = false)
    (hs : (s.unit ch).sync = .search ∨ (s.unit ch).sync = .lost) :
    lugEdge ch s = if (s.unit ch).count < (s.params ch).halfPitch then s else acquireEdge ch s := by
  unfold lugEdge
  rw [if_neg (by simp [hv, hr])]
  obtain h | h := hs <;> simp only [h]

theorem lugEdge_tracking (hv : (s.params ch).valid = true) (hr : (s.unit ch).reverse = false)
    (hs : (s.unit ch).sync = .locked ∨ (s.unit ch).sync = .coast) : lugEdge ch s = trackEdge ch s := by
  unfold lugEdge
  rw [if_neg (by simp [hv, hr])]
  obtain h | h := hs <;> simp only [h]

end

end Sys2Proof.Machine

namespace Sys2Proof.Proofs
open Sys2Proof.Machine

/-- Settles O6, by the equations of the two counts. -/
theorem encoderCounts : Obligations.EncoderCounts := by
  unfold Obligations.EncoderCounts
  intro ch s ha
  refine ⟨fun hdue => ?_, ?_, ?_⟩
  · change whenAwake s (forwardCount ch) = _
    have hfalse : ¬ syntheticDue s ch = true := fun h => hdue ((syntheticDue_iff s ch).mp h)
    rw [whenAwake_awake ha, forwardCount_eq, if_neg hfalse]
    rfl
  · change whenAwake s (reverseCount ch) = _
    rw [whenAwake_awake ha, reverseCount_eq]
    rfl
  · change whenAwake s (stopChain ch) = _
    rw [whenAwake_awake ha]
    unfold stopChain
    cases (s.unit ch).stopTimer <;> rfl

/-- Settles O7, by the equations of an acquiring and of a tracking edge. -/
theorem lugEdges : Obligations.LugEdges := by
  unfold Obligations.LugEdges
  refine ⟨fun ch s ht hv hr hs => ?_, fun ch s ht hv hr hs => ?_⟩
  · have hpin := exec_lugEye_taken ht
    have hedge := lugEdge_acquiring (s := s.withPin (.lug ch) true) (ch := ch) (by cases ch <;> exact hv)
      (by rw [withPin_unit]; exact hr) (by rw [withPin_unit]; exact hs)
    have hpar : (s.withPin (.lug ch) true).params ch = s.params ch := by cases ch <;> rfl
    rw [withPin_unit, hpar] at hedge
    refine ⟨fun (hlt : (s.unit ch).count < (s.params ch).halfPitch) => ?_,
      fun (hle : (s.params ch).halfPitch ≤ (s.unit ch).count) => ?_⟩
    · rw [hpin, hedge, if_pos hlt]
    · rw [if_neg (Nat.not_lt.mpr hle)] at hedge
      have hgood : (s.withPin (.lug ch) true).goodAfter ch = s.goodAfter ch := by rw [State.goodAfter, withPin_unit, hpar]; rfl
      have hu := acquireEdge_unit ch (s.withPin (.lug ch) true)
      have ho := acquireEdge_outside ch (s.withPin (.lug ch) true)
      rw [withPin_unit, hgood] at hu
      refine ⟨_, hpin.trans (congrArg _ hedge), hu, fun other hne => ?_, fun h4 => acquireEdge_latches (hgood.symm ▸ h4) ?_,
        ho.pins rfl, ho.standing rfl, ho.timebase rfl, ho.links rfl, ho.tables rfl, ho.line rfl, ho.nextTag rfl, ho.postings rfl,
        ho.forces rfl, ho.pending rfl⟩
      · rw [acquireEdge_unit_ne _ hne, withPin_unit]
      · rw [withPin_unit]
        obtain h | h := hs <;> rw [h] <;> simp
  · have hpin := exec_lugEye_taken ht
    have hedge := lugEdge_tracking (s := s.withPin (.lug ch) true) (ch := ch) (by cases ch <;> exact hv)
      (by rw [withPin_unit]; exact hr) (by rw [withPin_unit]; exact hs)
    have hpar : (s.withPin (.lug ch) true).params ch = s.params ch := by cases ch <;> rfl
    refine ⟨fun hlt => ?_, fun hle => ?_⟩
    · rw [hpin, hedge]
      unfold trackEdge
      rw [withPin_unit, hpar]
      have hmin : min 255 (roundDiv (s.unit ch).count 16) =
          if roundDiv (s.unit ch).count 16 < 255 then roundDiv (s.unit ch).count 16 else 255 := by split <;> omega
      exact congrArg _ ((if_pos hlt).trans (by rw [hmin]))
    · have hlow : ((s.withPin (.lug ch) true).params ch).windowLow ≤ ((s.withPin (.lug ch) true).unit ch).count := by
        rw [withPin_unit, hpar]; exact hle
      have hu := trackEdge_unit hlow
      have ho := trackEdge_outside hlow
      rw [withPin_unit] at hu
      refine ⟨_, hpin.trans (congrArg _ hedge), hu, fun other hne => ?_, fun hc => trackEdge_latches hlow (by rw [withPin_unit]; exact hc),
        ho.pins rfl, ho.standing rfl, ho.timebase rfl, ho.links rfl, ho.tables rfl, ho.line rfl, ho.nextTag rfl, ho.postings rfl,
        ho.forces rfl, ho.pending rfl⟩
      rw [trackEdge_unit_ne hlow hne, withPin_unit]

/-- Settles O8, by the equation of the synthetic advance; SUSPECT is kept by every line. -/
theorem syntheticAdvance : Obligations.SyntheticAdvance := by
  unfold Obligations.SyntheticAdvance
  intro ch s ha
  have hexec : exec (.syntheticAdvance ch) s = .next (if syntheticDue s ch then forwardCount ch s else s) := whenAwake_awake ha
  refine ⟨fun hdue => ?_, fun hdue => ?_⟩
  · have htrue := (syntheticDue_iff s ch).mpr hdue
    have hfwd : exec (.encoderForwardCount ch) s = .next (forwardCount ch s) := whenAwake_awake ha
    rw [if_pos htrue] at hexec
    rw [forwardCount_eq, if_pos htrue] at hexec hfwd
    set c := s.counted ch (incTo Config.countMax (s.unit ch).count) false with hc
    have hcu : c.unit ch = _ := counted_unit s ch _ false
    have hpar : c.params ch = s.params ch := by
      have := (counted_outside s ch (incTo Config.countMax (s.unit ch).count) false).tables rfl
      cases ch <;> simp only [State.params, hc, this]
    have hu := syntheticAdvance_unit ch c
    rw [hcu, hpar] at hu
    have ho := Outside.then (counted_outside s ch (incTo Config.countMax (s.unit ch).count) false).weaken (syntheticAdvance_outside ch c)
      (m := .byAdvance)
    have hmiss : 3 ≤ (s.unit ch).miss + 1 → 3 ≤ (c.unit ch).miss + 1 := fun h => by rw [hcu]; exact h
    refine ⟨_, hexec, hfwd, hu, fun other hne => ?_, fun h3 => (syntheticAdvance_suspect (hmiss h3)).1,
      fun h3 => (syntheticAdvance_suspect (hmiss h3)).2, ho.pins rfl, ho.standing rfl, ho.timebase rfl, ho.links rfl, ho.tables rfl,
      ho.line rfl, ho.nextTag rfl, ho.postings rfl, ho.forces rfl, ho.pending rfl⟩
    rw [syntheticAdvance_unit_ne _ hne, counted_unit_ne _ _ _ hne]
  · rw [hexec, if_neg fun h => hdue ((syntheticDue_iff s ch).mp h)]

end Sys2Proof.Proofs
end

