-- ==== Sys2Proof/Proofs/SorterAdvances.lean ====
section
/-! What a sorter advance does (O13). The sorter lines read neither the levels outside nor the SCU, so they act on the state that an advance
has made ready just as they act on `foundByLines`, whose levels and SCU are those before the command. -/

namespace Sys2Proof.Machine

-- One thread elaborates the many small proofs of this file.
set_option Elab.async false

/-- The state with other levels outside and another SCU. -/
def State.wearing (s : State) (pins : Inputs) (scu : ChainUnit) : State := { s with pins, scu }

section
variable (s : State) (pins : Inputs) (u : ChainUnit)

theorem setUnit_sorter_eq_wearing (s : State) (v : ChainUnit) : s.setUnit .sorter v = s.wearing s.pins v := rfl

@[simp] theorem wearing_setUnit (v : ChainUnit) : (s.wearing pins u).setUnit .sorter v = s.wearing pins v := rfl
@[simp] theorem wearing_unit : (s.wearing pins u).unit .sorter = u := rfl
@[simp] theorem wearing_params (ch : Chain) : (s.wearing pins u).params ch = s.params ch := by cases ch <;> rfl
@[simp] theorem wearing_board : (s.wearing pins u).board = s.board := rfl
@[simp] theorem wearing_sort : (s.wearing pins u).sort = s.sort := rfl
@[simp] theorem wearing_tally : (s.wearing pins u).tally = s.tally := rfl
@[simp] theorem wearing_tables : (s.wearing pins u).tables = s.tables := rfl
@[simp] theorem wearing_bin (n : Nat) : (s.wearing pins u).bin n = s.bin n := rfl
@[simp] theorem wearing_dropOffset (n : Nat) : (s.wearing pins u).dropOffset n = s.dropOffset n := rfl
@[simp] theorem wearing_rerouteBin (p : SortPart) (n : Nat) : (s.wearing pins u).rerouteBin p n = s.rerouteBin p n := rfl

@[simp] theorem wearing_modifyLive (f : Tally → Tally) : (s.wearing pins u).modifyLive f = (s.modifyLive f).wearing pins u := rfl
@[simp] theorem wearing_modifyStream (f : Stream → Stream) : (s.wearing pins u).modifyStream f = (s.modifyStream f).wearing pins u := rfl
@[simp] theorem wearing_modifySorter (tag : Nat) (f : Record → Record) :
    (s.wearing pins u).modifySorter tag f = (s.modifySorter tag f).wearing pins u := rfl
@[simp] theorem wearing_leaveSorter (tag : Nat) : (s.wearing pins u).leaveSorter tag = (s.leaveSorter tag).wearing pins u := rfl
@[simp] theorem wearing_modifySortCounts (f : SortCounts → SortCounts) :
    (s.wearing pins u).modifySortCounts f = (s.modifySortCounts f).wearing pins u := rfl

@[simp] theorem wearing_closeSegment : closeSegment (s.wearing pins u) = (closeSegment s).wearing pins u := rfl

theorem wearing_modifyBin (n : Nat) (f : BinRec → BinRec) : (s.wearing pins u).modifyBin n f = (s.modifyBin n f).wearing pins u := by
  unfold State.modifyBin
  split <;> rfl

theorem wearing_latch (c : Cause) : latch c (s.wearing pins u) = (latch c s).wearing pins u := by cases c <;> rfl

theorem wearing_raiseEvent (k : EventKind) (c : Option Chain) (n d : Nat) :
    raiseEvent k c n d (s.wearing pins u) = (raiseEvent k c n d s).wearing pins u := by
  unfold raiseEvent
  have he : (s.wearing pins u).events = s.events := rfl
  rw [he]
  split
  · rfl
  · rfl

theorem wearing_judgeNear (n : Nat) : judgeNear n (s.wearing pins u) = (judgeNear n s).wearing pins u := by
  unfold judgeNear
  dsimp only
  rw [wearing_bin]
  split
  · rfl
  · split
    · rw [wearing_modifyBin, wearing_latch]
    · split
      · rw [wearing_modifyBin]
      · rfl

theorem wearing_takeReservation (n : Nat) : takeReservation n (s.wearing pins u) = (takeReservation n s).wearing pins u := by
  unfold takeReservation
  rw [wearing_modifyBin, wearing_judgeNear]

theorem wearing_releaseReservation (n : Nat) : releaseReservation n (s.wearing pins u) = (releaseReservation n s).wearing pins u := by
  unfold releaseReservation
  split
  · rfl
  · rw [wearing_modifyBin, wearing_judgeNear]

theorem wearing_handToTally (r : Record) (fate : Fate) : handToTally r fate (s.wearing pins u) = (handToTally r fate s).wearing pins u := by
  unfold handToTally streamAttempt
  dsimp only
  rw [wearing_modifyLive, wearing_tally]
  split
  · rw [wearing_modifyLive]
    split
    · rw [wearing_modifyStream, wearing_raiseEvent]
      rfl
    · rfl
  · rw [wearing_modifyStream, wearing_modifyLive, wearing_tally]
    split
    · rw [wearing_closeSegment]
    · rfl

theorem wearing_reroute (r : Record) (off : Nat) : reroute r off (s.wearing pins u) = (reroute r off s).wearing pins u := by
  unfold reroute
  split
  · rfl
  · dsimp only
    rw [wearing_rerouteBin, wearing_releaseReservation]
    split
    · rfl
    · rw [wearing_takeReservation]
      rfl

theorem wearing_completeDrop (r : Record) (n : Nat) : completeDrop r n (s.wearing pins u) = (completeDrop r n s).wearing pins u := by
  unfold completeDrop makeFull
  dsimp only
  rw [wearing_modifyBin, wearing_bin]
  split
  · split
    · rw [wearing_modifyBin, wearing_latch, wearing_leaveSorter, wearing_handToTally]
    · rw [wearing_leaveSorter, wearing_handToTally]
  · rw [wearing_leaveSorter, wearing_handToTally]

theorem wearing_fireGate (r : Record) (n : Nat) : fireGate r n (s.wearing pins u) = (fireGate r n s).wearing pins u := by
  unfold fireGate
  rw [wearing_modifyBin]
  rfl

theorem wearing_dropLine (r : Record) (n off : Nat) : dropLine r n off (s.wearing pins u) = (dropLine r n off s).wearing pins u := by
  unfold dropLine
  dsimp only
  rw [wearing_bin]
  split
  · rw [wearing_releaseReservation]
    rfl
  · split
    · exact wearing_reroute _ _ _ _ _
    · split
      · rw [wearing_modifySortCounts, wearing_reroute]
      · rw [wearing_fireGate, wearing_board]
        split
        · exact wearing_modifyBin ((fireGate r n s).modifySorter _ _) pins u n _
        · split
          · exact wearing_completeDrop _ _ _ _ _
          · rfl

theorem wearing_sorterLine (now : Serial) (tag : Nat) : sorterLine now tag (s.wearing pins u) = (sorterLine now tag s).wearing pins u := by
  unfold sorterLine
  rw [wearing_board]
  split
  · rfl
  · dsimp only
    rw [wearing_tables, wearing_dropOffset]
    split
    · unfold retireFromSorter
      dsimp only
      rw [wearing_releaseReservation, wearing_modifyBin, wearing_leaveSorter, wearing_handToTally]
    · split
      · rw [wearing_dropLine]
      · rfl

theorem foldl_wearing {α : Type} {f : State → α → State} (hf : ∀ x a, f (x.wearing pins u) a = (f x a).wearing pins u) (l : List α) :
    l.foldl f (s.wearing pins u) = (l.foldl f s).wearing pins u := by
  induction l generalizing s with
  | nil => rfl
  | cons a rest ih => rw [List.foldl_cons, hf, ih, List.foldl_cons]

/-- Retire a board of the transfer queue as LOST, with BOARD-LOST, detail 2 (R30). -/
def retireWaiting (s : State) (w : Waiting) : State := raiseEvent .boardLost (some .sorter) w.board.tag 2 (handToTally w.board .lost s)

theorem wearing_ageTransfer : ageTransfer (s.wearing pins u) = (ageTransfer s).wearing pins u := by
  have hw : ∀ x w, retireWaiting (State.wearing x pins u) w = (retireWaiting x w).wearing pins u := fun x w => by
    unfold retireWaiting
    rw [wearing_handToTally, wearing_raiseEvent]
  exact foldl_wearing ({ s with board := { s.board with transfer := _ } }) pins u hw _

/-- The sorter lines act alike under other levels outside and another SCU of the same lug serial. -/
theorem wearing_advanceSorter (hu : u.serial = s.scu.serial) :
    advanceSorter (s.wearing pins u) = (advanceSorter s).wearing pins u := by
  unfold advanceSorter
  dsimp only
  have hscu : (s.wearing pins u).scu.serial = s.scu.serial := hu
  rw [wearing_ageTransfer, hscu, wearing_board]
  exact foldl_wearing _ pins u (fun x tag => wearing_sorterLine x pins u _ tag) _

/-- A change of the SCU's sync state raises what `syncRaised` says, and only the SCU holds the new state. -/
theorem wearing_changeSync (new : Sync) (h : u.sync ≠ new) :
    changeSync .sorter new (s.wearing pins u) = (s.syncRaised .sorter new.code).wearing pins { u with sync := new } := by
  unfold changeSync
  rw [wearing_unit, if_neg h, wearing_setUnit, wearing_raiseEvent]
  rfl

theorem wearing_raiseSerial : raiseSerial .sorter (s.wearing pins u) = s.wearing pins { u with serial := u.serial + 1 } := rfl

theorem wearing_suspectMap : suspectMap .sorter (s.wearing pins u) = (suspectMap .sorter s).wearing pins u := rfl

end

/-- The aging of a transfer queue under given settings. -/
theorem ageTransfer_of {s : State} {w : List Waiting} {k : TableStore} (hw : s.board.transfer = w) (hk : s.tables = k) :
    ageTransfer s =
      ((w.map fun x => { x with age := x.age + 1 }).takeWhile fun x => decide (k.settings.ageLimit < x.age)).foldl retireWaiting
        { s with board := { s.board with
            transfer := (w.map fun x => { x with age := x.age + 1 }).dropWhile fun x => decide (k.settings.ageLimit < x.age) } } := by
  subst hw hk
  rfl

/-- An advance of the sorter map, by the transfer queue and the settings it starts from. -/
theorem advanceSorter_eq (s : State) :
    advanceSorter s = (s.board.sorter.map (·.tag)).foldl (fun x tag => sorterLine (s.scu.serial + 1) tag x) (ageTransfer s) := by
  unfold advanceSorter
  dsimp only
  rw [(ageTransfer_outside s).sorter rfl]

theorem foldl_handToTally_transfer (l : List Waiting) (s : State) :
    (l.foldl (fun x w => raiseEvent .boardLost (some .sorter) w.board.tag 2 (handToTally w.board .lost x)) s).board.transfer
      = s.board.transfer := by
  induction l generalizing s with
  | nil => rfl
  | cons w rest ih => rw [List.foldl_cons, ih, (raiseEvent_outside _ _ _ _ _).transfer rfl, (handToTally_outside _ _ _).transfer rfl]

/-- An advance leaves in the transfer queue the boards not older than H. -/
theorem advanceSorter_transfer (s : State) : (advanceSorter s).board.transfer =
    (s.board.transfer.map fun w => { w with age := w.age + 1 }).dropWhile fun w => decide (s.tables.settings.ageLimit < w.age) := by
  have hfold : ∀ (tags : List Nat) (x : State),
      (tags.foldl (fun x tag => sorterLine (s.scu.serial + 1) tag x) x).board.transfer = x.board.transfer := by
    intro tags
    induction tags with
    | nil => exact fun x => rfl
    | cons tag rest ih => exact fun x => (ih _).trans ((sorterLine_outside _ _ _).transfer rfl)
  rw [advanceSorter_eq, hfold]
  exact foldl_handToTally_transfer _ _

/-! ### What an advance has done before its lines, and what follows them -/

/-- The state with CHAIN-RUN raised for the sorter chain, where it was STOPPED (R2). -/
def State.resumed (s : State) : State := if s.scu.stopped then raiseEvent .chainRun (some .sorter) 0 0 s else s

theorem foundByLines_count (s : State) :
    s.foundByLines .sorter false =
      if 3 ≤ s.scu.miss + 1 then
        suspectMap .sorter ((raiseEvent .eyeMissed (some .sorter) 0 (s.scu.miss + 1) s.resumed).syncRaised .sorter 3)
      else if s.scu.sync = .coast then raiseEvent .eyeMissed (some .sorter) 0 (s.scu.miss + 1) s.resumed
      else (raiseEvent .eyeMissed (some .sorter) 0 (s.scu.miss + 1) s.resumed).syncRaised .sorter 2 := rfl

/-- A count taken, but for the SCU, is the state with CHAIN-RUN raised after a stop. -/
theorem counted_eq_wearing (s : State) (n : Nat) : s.counted .sorter n false = s.resumed.wearing s.pins { s.scu with
    count := n, stopped := false, reverse := false, stopTimer := some { elapsed := 0, limit := (s.params .sorter).stopTime } } := by
  unfold State.counted State.resumed
  dsimp only
  rw [setUnit_sorter_eq_wearing, wearing_raiseEvent]
  change (if s.scu.stopped = true then _ else _) = _
  split <;> rfl

/-- A count with its miss, but for the SCU, is what `foundByLines` says. -/
theorem missed_counted_eq_found {s : State} (n : Nat) (hs : s.scu.sync = .locked ∨ s.scu.sync = .coast) :
    ∃ u : ChainUnit, u.serial = s.scu.serial ∧
      (s.counted .sorter n false).missed .sorter = (s.foundByLines .sorter false).wearing s.pins u := by
  have hlost : s.scu.sync ≠ .lost := by obtain h | h := hs <;> rw [h] <;> simp
  rw [counted_eq_wearing, foundByLines_count]
  unfold State.missed
  dsimp only
  simp only [wearing_unit, wearing_setUnit, wearing_raiseEvent]
  split
  · rw [wearing_changeSync _ _ _ .lost (by exact hlost), wearing_suspectMap]
    exact ⟨_, by rfl, rfl⟩
  · split
    · next hc =>
      rw [changeSync, wearing_unit, if_pos (by exact hc)]
      exact ⟨_, by rfl, rfl⟩
    · next hc =>
      rw [wearing_changeSync _ _ _ .coast (by exact hc)]
      exact ⟨_, by rfl, rfl⟩

theorem syncRaised_sorter_outside (s : State) (n : Nat) :
    Outside { events := true, attention := true } s (s.syncRaised .sorter n) := by
  refine .trans (raiseEvent_outside .syncChange (some .sorter) 0 n s).weaken ?_
  constructor <;> intro h <;> first | exact absurd h (by decide) | rfl

/-- What the lines of a sorter advance find differs from the state before in the map, events and requests only. -/
theorem foundByLines_sorter_outside (s : State) (edge : Bool) :
    Outside { sorter := true, events := true, attention := true } s (s.foundByLines .sorter edge) := by
  have hr := fun (x : State) n => (syncRaised_sorter_outside x n).weaken (n := { sorter := true, events := true, attention := true })
  unfold State.foundByLines
  dsimp only
  split
  · exact .refl _ _
  · have ht : Outside { sorter := true, events := true, attention := true } s
        (if (s.unit .sorter).stopped then raiseEvent .chainRun (some .sorter) 0 0 s else s) := by
      split
      · exact (raiseEvent_outside _ _ _ _ _).weaken
      · exact .refl _ _
    have he := ht.trans (raiseEvent_outside .eyeMissed (some .sorter) 0 ((s.unit .sorter).miss + 1) _).weaken
    split
    · refine (he.trans (hr _ 3)).trans ?_
      constructor <;> intro h <;> first | exact absurd h (by decide) | rfl
    · split
      · exact he
      · exact he.trans (hr _ 2)

/-- An acquiring edge is the sorter lines, then the SYNC-CHANGE to LOCKED at the fourth good spacing. -/
theorem acquireEdge_wearing (s : State) (pins : Inputs) (hs : s.scu.sync ≠ .locked) :
    ∃ u, acquireEdge .sorter (s.wearing pins s.scu) =
      (if 4 ≤ s.goodAfter .sorter then (advanceSorter s).syncRaised .sorter 1 else advanceSorter s).wearing pins u := by
  have hgood : (s.wearing pins s.scu).goodAfter .sorter = s.goodAfter .sorter := rfl
  have hlines : ∀ v : ChainUnit, v.serial = s.scu.serial →
      advanceLines .sorter (s.wearing pins v) = (advanceSorter s).wearing pins v := fun v hv => wearing_advanceSorter s pins v hv
  rw [acquireEdge_eq, hgood, wearing_unit, wearing_setUnit, hlines _ (by rfl), wearing_setUnit]
  split
  · rw [wearing_changeSync (advanceSorter s) pins _ .locked (by exact hs), wearing_raiseSerial]
    exact ⟨_, rfl⟩
  · exact ⟨_, rfl⟩

/-- A tracking edge that advances is the sorter lines, then the SYNC-CHANGE to LOCKED from COAST. -/
theorem trackEdge_wearing {s : State} (pins : Inputs) (hc : (s.params .sorter).windowLow ≤ s.scu.count) :
    ∃ u, trackEdge .sorter (s.wearing pins s.scu) =
      (if s.scu.sync = .locked then advanceSorter s else (advanceSorter s).syncRaised .sorter 1).wearing pins u := by
  have hlines : ∀ v : ChainUnit, v.serial = s.scu.serial →
      advanceLines .sorter (s.wearing pins v) = (advanceSorter s).wearing pins v := fun v hv => wearing_advanceSorter s pins v hv
  rw [trackEdge_eq (by rw [wearing_params]; exact hc), wearing_unit, wearing_setUnit, hlines _ (by rfl)]
  split
  · next h =>
    rw [changeSync, wearing_unit, if_pos h]
    exact ⟨_, rfl⟩
  · next h =>
    rw [wearing_changeSync (advanceSorter s) pins _ .locked (by exact h), wearing_raiseSerial]
    exact ⟨_, rfl⟩

/-- A sorter advance is the sorter lines on `foundByLines`, then `afterLines`, but for the levels outside and the SCU. -/
theorem exec_advance_sorter {s : State} {edge : Bool} (h : s.advances .sorter edge) :
    ∃ (pins : Inputs) (u : ChainUnit), exec (advanceCommand .sorter edge) s =
      .next ((s.afterLines .sorter edge (advanceSorter (s.foundByLines .sorter edge))).wearing pins u) := by
  cases edge with
  | false =>
    obtain ⟨ha, hs, hc⟩ := h
    have hdue : syntheticDue s .sorter = true := (syntheticDue_iff s .sorter).mpr ⟨hs, hc⟩
    obtain ⟨u, hser, hfound⟩ := missed_counted_eq_found (incTo Config.countMax s.scu.count) hs
    have hserial : u.serial = (s.foundByLines .sorter false).scu.serial := by
      rw [hser, (foundByLines_sorter_outside s false).scu rfl]
    refine ⟨s.pins, { u with serial := u.serial + 1 }, ?_⟩
    change whenAwake s (forwardCount .sorter) = _
    rw [whenAwake_awake ha, forwardCount_eq, if_pos hdue, syntheticAdvance_eq]
    change Host.Outcome.next (raiseSerial .sorter (advanceSorter ((s.counted .sorter (incTo Config.countMax s.scu.count) false).missed .sorter))) = _
    rw [hfound, wearing_advanceSorter _ _ _ hserial]
    rfl
  | true =>
    obtain ⟨ht, hv, hr, hm⟩ := h
    have hexec := exec_lugEye_taken ht
    change ∃ pins u, exec (.lugEyeOnEdge .sorter .on) s = _
    refine ⟨s.pins.setLevel true (.lug .sorter), ?_⟩
    rw [hexec]
    change ∃ u, Host.Outcome.next (lugEdge .sorter (s.wearing (s.pins.setLevel true (.lug .sorter)) s.scu)) = _
    have hpar : ((s.wearing (s.pins.setLevel true (.lug .sorter)) s.scu).params .sorter).valid = true := hv
    change (match s.scu.sync with | .search | .lost => _ | .locked | .coast => _) at hm
    change ∃ u, _ = Host.Outcome.next (State.wearing (if (true && match s.scu.sync with
      | .search | .lost => decide (4 ≤ s.goodAfter .sorter)
      | .coast => true
      | .locked => false) then (advanceSorter s).syncRaised .sorter 1 else advanceSorter s) _ u)
    have hacq := lugEdge_acquiring hpar hr
    have htrk := lugEdge_tracking hpar hr
    rw [wearing_unit] at hacq htrk
    rw [wearing_params] at hacq
    cases hsync : s.scu.sync with
    | search =>
      rw [hsync] at hm
      have hle : (s.params .sorter).halfPitch ≤ s.scu.count := hm
      rw [hacq (.inl hsync), if_neg (Nat.not_lt.mpr hle)]
      obtain ⟨u, hu⟩ := acquireEdge_wearing s (s.pins.setLevel true (.lug .sorter)) (by simp [hsync])
      exact ⟨u, by rw [hu]; simp⟩
    | lost =>
      rw [hsync] at hm
      have hle : (s.params .sorter).halfPitch ≤ s.scu.count := hm
      rw [hacq (.inr hsync), if_neg (Nat.not_lt.mpr hle)]
      obtain ⟨u, hu⟩ := acquireEdge_wearing s (s.pins.setLevel true (.lug .sorter)) (by simp [hsync])
      exact ⟨u, by rw [hu]; simp⟩
    | locked =>
      rw [hsync] at hm
      obtain ⟨u, hu⟩ := trackEdge_wearing (s.pins.setLevel true (.lug .sorter)) hm
      exact ⟨u, by rw [htrk (.inl hsync), hu, if_pos hsync]; rfl⟩
    | coast =>
      rw [hsync] at hm
      obtain ⟨u, hu⟩ := trackEdge_wearing (s.pins.setLevel true (.lug .sorter)) hm
      exact ⟨u, by rw [htrk (.inr hsync), hu, if_neg (by simp [hsync])]; rfl⟩

/-- What follows the lines raises an event and requests at most. -/
theorem afterLines_outside (s : State) (edge : Bool) (lines : State) :
    Outside { events := true, attention := true } lines (s.afterLines .sorter edge lines) := by
  have hraise : ∀ c : Bool, Outside { events := true, attention := true } lines (if c then lines.syncRaised .sorter 1 else lines) := by
    intro c
    cases c with
    | true => exact syncRaised_sorter_outside lines 1
    | false => exact .refl _ _
  exact hraise _

end Sys2Proof.Machine

namespace Sys2Proof.Proofs
open Sys2Proof.Machine

/-- Settles O13, by the commuting of the sorter lines with the levels outside and the SCU. -/
theorem sorterAdvance : Obligations.SorterAdvance := by
  unfold Obligations.SorterAdvance
  intro edge s h
  obtain ⟨pins, u, hexec⟩ := exec_advance_sorter h
  have ho := advanceSorter_outside (s.foundByLines .sorter edge)
  have hf := foundByLines_sorter_outside s edge
  have ha := afterLines_outside s edge (advanceSorter (s.foundByLines .sorter edge))
  have hlines : advanceSorter (s.foundByLines .sorter edge) = _ := advanceSorter_eq _
  have hage := ageTransfer_of (hf.transfer rfl) (hf.tables rfl)
  have htransfer := advanceSorter_transfer (s.foundByLines .sorter edge)
  rw [hf.transfer rfl, hf.tables rfl] at htransfer
  have hfound := hf.weaken (n := { transfer := true, sorter := true, sort := true, tally := true, events := true, attention := true })
  have hall := (hfound.trans ho).trans ha.weaken
  intro now found aged tooOld retired lines
  have heq : advanceSorter (s.foundByLines .sorter edge) = lines := by
    have hserial : (s.foundByLines .sorter edge).scu.serial = s.scu.serial := by rw [hf.scu rfl]
    rw [hlines, hserial, hage]
    rfl
  rw [heq] at hexec ha hall htransfer
  refine ⟨_, hexec, ?_, ha.sort rfl, ha.tally rfl, rfl, rfl, hall.trimmer rfl, ?_, hall.tcu rfl, hall.gradingA rfl, hall.gradingB rfl,
    hall.decision rfl, hall.saws rfl, hall.links rfl, hall.tables rfl, hall.timebase rfl, hall.standing rfl, hall.pending rfl⟩
  · exact ha.weaken.board
  · exact (ha.transfer rfl).trans htransfer

end Sys2Proof.Proofs
end
-- ==== Sys2Proof/Proofs/Inputs.lean ====
section
/-! The input lines: the settle period, in which nothing is taken (O4), and the edges that are ignored (O5). -/

namespace Sys2Proof.Machine

-- One thread elaborates the many small proofs of this file.
set_option Elab.async false

/-- An event while inputs are not taken does nothing. -/
theorem whenAwake_asleep {s : State} {act : State → State} (h : s.awake = false) : whenAwake s act = .next s := by
  simp [whenAwake, h]

/-- A request while inputs are not taken does nothing. -/
theorem serve_asleep {r : Req} {l : LinkId} {num : Byte} {fields : List Byte} {act : Handler} {s : State} (h : s.awake = false)
    (hfit : fieldsFit fields = true) : serve r l num fields act s = .next s := by
  unfold serve
  rw [hfit, if_neg (by decide), whenAwake_asleep h]

/-! ### Changes of an input line -/

/-- An on-edge that does not act shows the line active outside, and nothing else. -/
theorem takeEdge_on_ignored {line : InputLine} {on off : State → State} {s : State}
    (h : s.awake = true → s.standing.level line = false → on (s.withPin line true) = s.withPin line true) :
    takeEdge line .on on off s = .next (s.withPin line true) := by
  unfold takeEdge
  dsimp only
  split
  · next hc =>
    obtain ⟨ha, hs⟩ : s.awake = true ∧ s.standing.level line = false := by simpa using hc
    exact congrArg _ (h ha hs)
  · rfl

theorem takeEdge_off (line : InputLine) (on off : State → State) (s : State) :
    takeEdge line .off on off s = .next (if s.awake then off (s.seenClear line) else s.seenClear line) := rfl

/-- An edge while inputs are not taken moves the level outside, and an off-edge ends the line's standing active. -/
theorem takeEdge_asleep {line : InputLine} {on off : State → State} {s : State} (h : s.awake = false) (edge : Edge) :
    takeEdge line edge on off s = .next (match edge with | .on => s.withPin line true | .off => s.seenClear line) := by
  cases edge with
  | on => exact takeEdge_on_ignored fun ha => absurd ha (by simp [h])
  | off => rw [takeEdge_off, h, if_neg Bool.false_ne_true]

/-- The bin of a number 1 to 48 exists. -/
theorem binExists_of_le {n : Nat} (h1 : 1 ≤ n) (h48 : n ≤ 48) : binExists n = true := by
  simp only [binExists, decide_eq_true_eq]
  exact ⟨h1, h48⟩

theorem exec_gateConfirm {n : Nat} (h : binExists n = true) (edge : Edge) (s : State) : exec (.gateConfirmOnEdge n edge) s =
    takeEdge (.confirm n) edge (confirmEdge n) (fun s => s.modifyBin n fun b => { b with confirmInput := false }) s := if_pos h

theorem exec_binFullSwitch {n : Nat} (h : binExists n = true) (edge : Edge) (s : State) : exec (.binFullSwitchOnEdge n edge) s =
    takeEdge (.full n) edge (fullSwitchEdge n) (fun s => s.modifyBin n fun b => { b with fullSwitch := false }) s := if_pos h

/-! ### The end of the settle period -/

/-- An entry in a vector's range. -/
theorem entryD_of_lt {α : Type} {k : Nat} (v : Vector α k) {n : Nat} (d : α) (h : n < k) : entryD v n d = v[n] := by
  simp [entryD, h]

theorem endSettle_recs (s : State) {k : Nat} (h : k < 13) :
    (endSettle s).saws.recs[k] = { s.saws.recs[k] with feedback := s.pins.feedback[k] } := by
  simp [endSettle]

theorem endSettle_bins (s : State) {n : Nat} (h : n < 48) :
    (endSettle s).sort.bins[n] = { s.sort.bins[n] with confirmInput := s.pins.confirm[n], fullSwitch := s.pins.full[n] } := by
  simp [endSettle]

theorem endSettle_saw (s : State) {k : Nat} (h : k ≤ 12) :
    (endSettle s).saw k = { s.saw k with feedback := entryD s.pins.feedback k false } := by
  have hk : k < 13 := by omega
  unfold State.saw
  rw [entryD_of_lt _ _ hk, entryD_of_lt _ _ hk, entryD_of_lt _ _ hk, endSettle_recs s hk]

theorem endSettle_bin (s : State) {n : Nat} (h1 : 1 ≤ n) (h48 : n ≤ 48) :
    (endSettle s).bin n = { s.bin n with confirmInput := entryD s.pins.confirm (n - 1) false,
                                         fullSwitch := entryD s.pins.full (n - 1) false } := by
  have hn : n - 1 < 48 := by omega
  have h0 : n ≠ 0 := by omega
  unfold State.bin
  rw [if_neg h0, if_neg h0, entryD_of_lt _ _ hn, entryD_of_lt _ _ hn, entryD_of_lt _ _ hn, entryD_of_lt _ _ hn, endSettle_bins s hn]

/-! ### Edges that are ignored -/

theorem lugEdge_ignored {s : State} {ch : Chain} (h : (s.params ch).valid = false ∨ (s.unit ch).reverse = true) : lugEdge ch s = s :=
  if_pos h

theorem scanEdge_ignored {s : State} (h : s.board.line = .config ∨ s.tcu.reverse = true) : scanEdge s = s := if_pos h

theorem pickupEdge_ignored {s : State}
    (h : s.board.line = .config ∨ s.scu.reverse = true ∨ ∃ r ∈ s.board.sorter, r.sorterOffset s.scu.serial = 0) : pickupEdge s = s := by
  refine if_pos (h.imp_right (Or.imp_right ?_))
  rintro ⟨r, hr, h0⟩
  exact List.find?_isSome.mpr ⟨r, hr, by simpa using h0⟩

end Sys2Proof.Machine

namespace Sys2Proof.Proofs
open Sys2Proof.Machine

/-- Settles O4, by the end of the settle period's own equations and by cases on the command. -/
theorem settlePeriod : Obligations.SettlePeriod := by
  unfold Obligations.SettlePeriod
  refine ⟨fun s => ⟨fun hs => ?_, fun hs => ?_⟩, fun i s hwf ha hpow hass hrel hend => ?_⟩
  · have hexec : exec .settlePeriodEnd s = .next (endSettle s) := congrArg _ (if_pos hs)
    have hlow : s.timebase.resetLow = false := by
      have := (Bool.and_eq_true _ _ ▸ hs : _ ∧ _).1
      simpa using this
    refine ⟨_, hexec, ?_, rfl, fun k hk => endSettle_saw s hk, fun n h1 h48 => endSettle_bin s h1 h48⟩
    simp [State.awake, endSettle, hlow]
  · exact congrArg _ (if_neg (by simp [hs]))
  · cases i
    case powerOn baud => exact absurd rfl (hpow baud)
    case resetnAssert => exact absurd rfl hass
    case resetnRelease baud => exact absurd rfl (hrel baud)
    case settlePeriodEnd => exact absurd rfl hend
    case lugEyeOnEdge ch edge => exact (takeEdge_asleep ha edge).trans (by cases edge <;> rfl)
    case scanEyeOnEdge edge => exact (takeEdge_asleep ha edge).trans (by cases edge <;> rfl)
    case pickupEyeOnEdge edge => exact (takeEdge_asleep ha edge).trans (by cases edge <;> rfl)
    case gateConfirmOnEdge n edge => rw [exec_gateConfirm hwf, takeEdge_asleep ha edge]; cases edge <;> rfl
    case binFullSwitchOnEdge n edge => rw [exec_binFullSwitch hwf, takeEdge_asleep ha edge]; cases edge <;> rfl
    case sawFeedbackChange saw down => exact (if_pos hwf).trans (whenAwake_asleep ha)
    case sawWindowExpiry saw => exact (if_pos hwf).trans (whenAwake_asleep ha)
    case gatePulseExpiry bin => exact (if_pos hwf).trans (whenAwake_asleep ha)
    case confirmWindowExpiry bin => exact (if_pos hwf).trans (whenAwake_asleep ha)
    case linkByteReceived l b stop => exact if_neg (by simp [ha])
    case txFrameSent l => exact if_neg (by simp [ha])
    case unknownRequestCode l code num fields =>
      obtain ⟨hcode, hfit⟩ : (requestOfCode code).isNone = true ∧ fieldsFit fields = true := by simpa [WellFormed] using hwf
      change execUnknownRequestCode l code num fields s = _
      unfold execUnknownRequestCode
      rw [if_neg (by simpa using hcode), if_neg (by simp [hfit]), whenAwake_asleep ha]
    case encoderForwardCount | encoderReverseCount | stopTimerExpiry | syntheticAdvance | keyUndo | keyClr | keyEnt =>
      exact whenAwake_asleep ha
    case keyMarkPush | keypadBadByte | keypadReplySent | pauseReceived | resumeReceived | linkBreak =>
      simp only [exec, execKeyMarkPush, execKeypadBadByte, execKeypadReplySent, execPauseReceived, execResumeReceived, execLinkBreak,
        whenAwake_asleep ha]
    all_goals exact serve_asleep ha hwf

/-- Settles O5, edge by edge. -/
theorem edgesIgnored : Obligations.EdgesIgnored := by
  unfold Obligations.EdgesIgnored
  intro s ha
  have hoff : ∀ (line : InputLine) (on off : State → State), takeEdge line .off on off s = .next (off (s.seenClear line)) := fun line on off => by
    rw [takeEdge_off, if_pos ha]
  refine ⟨fun ch h => ?_, fun h => ?_, fun h => ?_, fun ch h => ?_, fun h => ?_, fun h => ?_, fun n h1 h48 h => ?_, fun n h1 h48 h => ?_,
    fun ch => hoff (.lug ch) (lugEdge ch) id, hoff .scan scanEdge id, hoff .pickup pickupEdge id, fun n h1 h48 => ?_, fun n h1 h48 => ?_⟩
  · exact takeEdge_on_ignored (off := id) fun _ _ => lugEdge_ignored (by cases ch <;> exact h)
  · exact takeEdge_on_ignored (off := id) fun _ _ => scanEdge_ignored h
  · exact takeEdge_on_ignored (off := id) fun _ _ => pickupEdge_ignored h
  · exact takeEdge_on_ignored (off := id) fun _ hs => absurd h (by simp [hs])
  · exact takeEdge_on_ignored (off := id) fun _ hs => absurd h (by simp [hs])
  · exact takeEdge_on_ignored (off := id) fun _ hs => absurd h (by simp [hs])
  · rw [exec_gateConfirm (binExists_of_le h1 h48)]
    exact takeEdge_on_ignored fun _ hs => absurd h (by simp [hs])
  · rw [exec_binFullSwitch (binExists_of_le h1 h48)]
    exact takeEdge_on_ignored fun _ hs => absurd h (by simp [hs])
  · rw [exec_gateConfirm (binExists_of_le h1 h48), hoff]
  · rw [exec_binFullSwitch (binExists_of_le h1 h48), hoff]

end Sys2Proof.Proofs
end
-- ==== Sys2Proof/Proofs/Requests.lean ====
section
/-! A request that is ready is taken (R168 to R172): the receiver stores a frame's characters and no others, so the frame of a body
leaves that body waiting, and taking it leaves the link as `arrived` says. -/

namespace Sys2Proof.Machine

-- One thread elaborates the many small proofs of this file.
set_option Elab.async false

/-! ### The receiver on a frame (R168, R169) -/

/-- A link within a frame, with these bytes stored. -/
def LinkState.within (k : LinkState) (stored : List Byte) : LinkState := { k with rx := .frame stored false }

@[simp] theorem within_within (k : LinkState) (a b : List Byte) : (k.within a).within b = k.within b := rfl
@[simp] theorem within_waiting (k : LinkState) (a : List Byte) : (k.within a).waiting = k.waiting := rfl

/-- The characters of one frame byte store it, whether they escape it or not. -/
theorem foldl_receive_escapeByte (k : LinkState) (stored : List Byte) (b : Byte) :
    (escapeByte b).foldl LinkState.receive (k.within stored) = (k.within stored).store stored b := by
  unfold escapeByte
  split
  · next h =>
    have hcases : b = 0xF4 ∨ b = 0xF5 ∨ b = 0xF6 ∨ b = 0xF7 := by simpa [needsEscape, or_assoc, and_assoc] using h
    have hval : b ^^^ 0x20 ≠ 0xF4 ∧ b ^^^ 0x20 ≠ 0xF5 ∧ b ^^^ 0x20 ≠ 0xF6 := by
      obtain rfl | rfl | rfl | rfl := hcases <;> decide
    have hback : b ^^^ 0x20 ^^^ 0x20 = b := by rw [BitVec.xor_assoc, BitVec.xor_self, BitVec.xor_zero]
    have hmark : (k.within stored).receive 0xF7 = { k with rx := .frame stored true } := rfl
    rw [List.foldl_cons, List.foldl_cons, List.foldl_nil, hmark]
    unfold LinkState.receive
    rw [if_neg hval.2.1, if_neg hval.2.2]
    dsimp only
    rw [if_neg hval.1, if_pos rfl, hback, if_pos h]
    rfl
  · next h =>
    have hne : b ≠ 0xF4 ∧ b ≠ 0xF5 ∧ b ≠ 0xF6 ∧ b ≠ 0xF7 := by simpa [needsEscape, or_assoc, and_assoc] using h
    obtain ⟨h4, h5, h6, h7⟩ := hne
    rw [List.foldl_cons, List.foldl_nil]
    unfold LinkState.receive
    rw [if_neg h5, if_neg h6]
    change (if b = 0xF4 then _ else if false = true then _ else if b = 0xF7 then _ else _) = _
    rw [if_neg h4, if_neg Bool.false_ne_true, if_neg h7]

/-- A byte that is stored in an otherwise empty buffer, below the pause mark. -/
theorem store_within {k : LinkState} (hw : k.waiting = []) {stored : List Byte} {b : Byte} (hlen : stored.length < 768)
    (hfirst : stored = [] → 2 ≤ b.toNat ∧ b.toNat ≤ 240) :
    (k.within stored).store stored b =
      if frameComplete (stored ++ [b]) then (k.within (stored ++ [b])).finishFrame (stored ++ [b]) else k.within (stored ++ [b]) := by
  have hfill : ∀ a, (k.within a).fill = a.length := fun a => by simp [LinkState.fill, LinkState.within, hw, Receiver.stored]
  have hpause : (k.within (stored ++ [b])).pauseIfHigh = k.within (stored ++ [b]) := by
    unfold LinkState.pauseIfHigh
    rw [hfill, if_neg]
    rintro ⟨_, h⟩
    rw [List.length_append, List.length_singleton, Config.pauseAbove] at h
    omega
  unfold LinkState.store
  rw [if_neg, if_neg]
  · change (if _ then LinkState.finishFrame (k.within (stored ++ [b])).pauseIfHigh _ else (k.within (stored ++ [b])).pauseIfHigh) = _
    rw [hpause]
  · rw [hfill, Config.rxBytes]
    omega
  · rintro ⟨he, h⟩
    rw [Config.bodyMax] at h
    have := hfirst he
    omega

/-! ### A whole frame -/

/-- The bytes of a body's frame as stored: length, body, CRC. -/
def frameBytesOf (body : List Byte) : List Byte := framed body ++ crcBytes (crc16 (framed body))

theorem frameBytesOf_length (body : List Byte) : (frameBytesOf body).length = body.length + 3 := by
  simp [frameBytesOf, framed, crcBytes]

section
variable {body : List Byte} (h2 : 2 ≤ body.length) (h240 : body.length ≤ 240)
include h2 h240

theorem length_toNat : (BitVec.ofNat 8 body.length : Byte).toNat = body.length := by
  rw [BitVec.toNat_ofNat]
  omega

/-- Only the whole frame is complete. -/
theorem frameComplete_take {n : Nat} (hn : n < body.length + 3) :
    frameComplete ((frameBytesOf body).take (n + 1)) = decide (n = body.length + 2) := by
  have htake : (frameBytesOf body).take (n + 1) = BitVec.ofNat 8 body.length :: (body ++ crcBytes (crc16 (framed body))).take n := rfl
  rw [htake]
  unfold frameComplete
  dsimp only
  rw [length_toNat h2 h240, List.length_take, List.length_append]
  have : (crcBytes (crc16 (framed body))).length = 2 := rfl
  rw [this]
  congr 1
  rw [eq_iff_iff]
  omega

/-- The characters of the bytes before the last leave the link within the frame. -/
theorem foldl_receive_take {k : LinkState} (hw : k.waiting = []) (n : Nat) (hn : n < body.length + 3) :
    (((frameBytesOf body).take n).flatMap escapeByte).foldl LinkState.receive (k.within []) = k.within ((frameBytesOf body).take n) := by
  induction n with
  | zero => rfl
  | succ n ih =>
    have hlen : n < (frameBytesOf body).length := by rw [frameBytesOf_length]; omega
    rw [List.take_succ_eq_append_getElem hlen, List.flatMap_append, List.foldl_append, ih (by omega), List.flatMap_singleton,
      foldl_receive_escapeByte, store_within hw ?_ ?_, ← List.take_succ_eq_append_getElem hlen, frameComplete_take h2 h240 (by omega),
      if_neg (by simp; omega)]
    · rw [List.length_take]; omega
    · intro h0
      have : n = 0 := by
        have := congrArg List.length h0
        rw [List.length_take, List.length_nil, frameBytesOf_length] at this
        omega
      subst this
      change 2 ≤ (BitVec.ofNat 8 body.length : Byte).toNat ∧ (BitVec.ofNat 8 body.length : Byte).toNat ≤ 240
      rw [length_toNat h2 h240]
      omega

/-- The whole frame with its CRC right leaves its body waiting. -/
theorem finishFrame_whole (k : LinkState) :
    (k.within (frameBytesOf body)).finishFrame (frameBytesOf body) = { k with rx := .hunt, waiting := k.waiting ++ [body] } := by
  have hframed : (framed body).length = body.length + 1 := rfl
  have hcrc : (frameBytesOf body).drop ((frameBytesOf body).length - 2) = crcBytes (crc16 (framed body)) := by
    rw [frameBytesOf_length, frameBytesOf, show body.length + 3 - 2 = (framed body).length by rw [hframed]; omega, List.drop_left]
  have hhead : (frameBytesOf body).take ((frameBytesOf body).length - 2) = framed body := by
    rw [frameBytesOf_length, frameBytesOf, show body.length + 3 - 2 = (framed body).length by rw [hframed]; omega, List.take_left]
  have hbody : ((frameBytesOf body).drop 1).take ((frameBytesOf body).length - 3) = body := by
    rw [frameBytesOf_length, show body.length + 3 - 3 = body.length by omega]
    exact List.take_left
  unfold LinkState.finishFrame
  rw [hcrc, hhead, hbody, if_pos rfl]
  rfl

/-- A link that has come to the beginning of a frame's bytes. -/
def LinkState.begun (k : LinkState) : LinkState :=
  match k.rx with
  | .hunt | .skip => k
  | .frame _ _ => k.framingFault.discard (.frame [] false)

omit h2 h240 in
theorem receive_begin (k : LinkState) : k.receive 0xF4 = k.begun.within [] := by
  unfold LinkState.receive LinkState.begun
  rw [if_neg (by decide), if_neg (by decide)]
  rcases k.rx with _ | ⟨stored, escaped⟩ | _
  · rfl
  · dsimp only
    rw [if_pos rfl]
    unfold LinkState.discard LinkState.resumeIfLow
    split <;> rfl
  · rfl

omit h2 h240 in
theorem begun_waiting (k : LinkState) : k.begun.waiting = k.waiting := by
  unfold LinkState.begun
  split
  · rfl
  · rfl
  · unfold LinkState.discard LinkState.resumeIfLow
    split <;> rfl

/-- The characters of a body's frame leave the body waiting in a buffer in which none stood. -/
theorem foldl_receive_wireFrame {k : LinkState} (hw : k.waiting = []) :
    (wireFrame body).foldl LinkState.receive k = { k.begun with rx := .hunt, waiting := [body] } := by
  have hb : k.begun.waiting = [] := (begun_waiting k).trans hw
  have hlen : body.length + 2 < (frameBytesOf body).length := by rw [frameBytesOf_length]; omega
  have hwhole : (frameBytesOf body).take (body.length + 2 + 1) = frameBytesOf body :=
    List.take_of_length_le (by rw [frameBytesOf_length])
  change ((frameBytesOf body).flatMap escapeByte).foldl LinkState.receive (k.receive 0xF4) = _
  rw [receive_begin]
  conv_lhs => rw [← hwhole, List.take_succ_eq_append_getElem hlen]
  rw [List.flatMap_append, List.foldl_append, foldl_receive_take h2 h240 hb _ (by omega), List.flatMap_singleton,
    foldl_receive_escapeByte, store_within hb ?_ ?_, ← List.take_succ_eq_append_getElem hlen, frameComplete_take h2 h240 (by omega),
    if_pos (by simp), hwhole, finishFrame_whole h2 h240, hb]
  · rfl
  · rw [List.length_take]; omega
  · intro h0
    have := congrArg List.length h0
    rw [List.length_take, List.length_nil, frameBytesOf_length] at this
    omega

/-- Taking the frame that has just arrived leaves the link as `arrived` says. -/
theorem takeFrame_wireFrame {k : LinkState} (hw : k.waiting = []) :
    ((wireFrame body).foldl LinkState.receive k).takeFrame = k.arrived.takeFrame := by
  rw [foldl_receive_wireFrame h2 h240 hw]
  unfold LinkState.arrived
  rw [if_pos hw]
  unfold LinkState.begun
  rcases k.rx with _ | ⟨stored, escaped⟩ | _
  · simp [LinkState.takeFrame, LinkState.resumeIfLow, LinkState.fill, Receiver.stored, hw]
  · cases hp : k.rxPause <;>
    simp [LinkState.takeFrame, LinkState.resumeIfLow, LinkState.fill, LinkState.discard, LinkState.framingFault, Receiver.stored, hw, hp,
      Config.resumeAt]
  · simp [LinkState.takeFrame, LinkState.resumeIfLow, LinkState.fill, Receiver.stored, hw]

end

/-! ### Ready requests (R172) -/

/-- The state in which a link's next request has arrived and been taken. -/
def State.taken (s : State) (l : LinkId) : State := s.modifyLink l fun k => k.arrived.takeFrame

theorem receive_tx (k : LinkState) (b : Byte) : (k.receive b).tx = k.tx := by
  have hresume : ∀ x : LinkState, x.resumeIfLow.tx = x.tx := fun x => by unfold LinkState.resumeIfLow; split <;> rfl
  have hpause : ∀ x : LinkState, x.pauseIfHigh.tx = x.tx := fun x => by unfold LinkState.pauseIfHigh; split <;> rfl
  have hdiscard : ∀ (x : LinkState) r, (x.discard r).tx = x.tx := fun x r => hresume _
  have hbegin : ∀ x : LinkState, x.beginSending.tx = x.tx := fun x => by unfold LinkState.beginSending; split <;> rfl
  have hstore : ∀ (x : LinkState) st v, (x.store st v).tx = x.tx := by
    intro x st v
    unfold LinkState.store
    split
    · exact hdiscard _ _
    · split
      · exact hdiscard _ _
      · dsimp only
        split
        · unfold LinkState.finishFrame
          dsimp only
          split
          · exact hpause _
          · rw [hresume]; exact hpause _
        · exact hpause _
  unfold LinkState.receive
  split
  · rfl
  · split
    · exact hbegin _
    · split
      · split <;> rfl
      · split <;> rfl
      · split
        · exact hdiscard _ _
        · split
          · dsimp only
            split
            · exact hstore _ _ _
            · exact hdiscard _ _
          · split
            · rfl
            · exact hstore _ _ _

theorem foldl_receive_tx (bytes : List Byte) (k : LinkState) : (bytes.foldl LinkState.receive k).tx = k.tx := by
  induction bytes generalizing k with
  | nil => rfl
  | cons b rest ih => rw [List.foldl_cons, ih, receive_tx]

theorem takeable_iff (s : State) (l : LinkId) (body : List Byte) :
    s.takeable l body = true ↔ (s.link l).waiting.head? = some body ∧ (s.link l).tx.length < Config.txSlots := by
  simp [State.takeable, LinkState.freeSlots]

/-- A ready request's frame, received, can be taken, and taking it leaves the link as `taken` says. -/
theorem deliver_ready {s : State} {l : LinkId} {body : List Byte} (h : s.Ready l body) (h2 : 2 ≤ body.length) (h240 : body.length ≤ 240) :
    (deliver l body s).takeable l body = true ∧ (deliver l body s).modifyLink l LinkState.takeFrame = s.taken l := by
  obtain ⟨_, hwait, htx⟩ := h
  unfold deliver
  obtain hw | hw := hwait
  · have hnot : ¬ s.takeable l body = true := by
      rw [takeable_iff, hw]
      simp
    rw [if_neg hnot, takeable_iff]
    unfold receiveAll
    rw [State.modifyLink_link, foldl_receive_tx, foldl_receive_wireFrame h2 h240 hw]
    refine ⟨⟨rfl, htx⟩, ?_⟩
    have htaken : s.taken l = s.setLink l ((wireFrame body).foldl LinkState.receive (s.link l)).takeFrame :=
      congrArg (s.setLink l) (takeFrame_wireFrame h2 h240 hw).symm
    rw [htaken, State.modifyLink_modifyLink]
    rfl
  · have hyes : s.takeable l body = true := (takeable_iff s l body).mpr ⟨hw, htx⟩
    have hne : (s.link l).waiting ≠ [] := fun h => by simp [h] at hw
    rw [if_pos hyes]
    refine ⟨hyes, ?_⟩
    unfold State.taken State.modifyLink LinkState.arrived
    dsimp only
    rw [if_neg hne]

/-- A ready request is taken: its link as `taken` says, then the checks and the owning block, then the response. -/
theorem serve_ready {r : Req} {l : LinkId} {num : Byte} {fields : List Byte} (act : Handler) {s : State}
    (h : s.Ready l (requestCode r :: num :: fields)) (hfit : fields.length ≤ 238) :
    serve r l num fields act s = .next (respond l (requestCode r) num (judgeRequest r l fields act (s.taken l)).2
      (judgeRequest r l fields act (s.taken l)).1) := by
  have hfits : fieldsFit fields = true := by simp [fieldsFit, Config.bodyMax]; omega
  obtain ⟨htake, htaken⟩ := deliver_ready h (by simp) (by simp; omega)
  unfold serve
  rw [hfits, if_neg (by decide), whenAwake_awake h.1]
  dsimp only
  rw [if_pos htake, takeRequest_eq, htaken]

/-- A ready request whose role and form are right is answered by the owning block. -/
theorem serve_answered {r : Req} {l : LinkId} {num : Byte} {fields : List Byte} {act : Handler} {s t : State} {a : Answer}
    (h : s.Ready l (requestCode r :: num :: fields)) (hfit : fields.length ≤ 238) (hright : hasRight l r = true)
    (hform : formOk r fields = true) (hact : act l fields (s.taken l) = (t.taken l, a)) :
    serve r l num fields act s = .next (t.answered l (requestCode r :: num :: a.status.code :: a.fields)) := by
  have hjudge : judgeRequest r l fields act (s.taken l) = (t.taken l, a) := by
    unfold judgeRequest
    rw [hright, hform, hact]
    rfl
  rw [serve_ready act h hfit, hjudge]
  refine congrArg Host.Outcome.next ?_
  unfold respond State.taken State.answered
  rw [State.modifyLink_modifyLink]

end Sys2Proof.Machine
end
-- ==== Sys2Proof/Proofs/TableLoads.lean ====
section
/-! LOAD-TABLE: its cases in order, the staging area and the station table (O43). -/

namespace Sys2Proof.Machine

-- One thread elaborates the many small proofs of this file.
set_option Elab.async false

/-! ### A request taken leaves the blocks alone -/

section
variable (s : State) (l : LinkId)

@[simp] theorem taken_tables : (s.taken l).tables = s.tables := State.modifyLink_tables s l _
@[simp] theorem taken_board : (s.taken l).board = s.board := State.modifyLink_board s l _
@[simp] theorem taken_sort : (s.taken l).sort = s.sort := State.modifyLink_sort s l _
@[simp] theorem taken_events : (s.taken l).events = s.events := State.modifyLink_events s l _
@[simp] theorem taken_attention : (s.taken l).attention = s.attention := State.modifyLink_attention s l _
@[simp] theorem taken_unit (ch : Chain) : (s.taken l).unit ch = s.unit ch := by cases l <;> cases ch <;> rfl
@[simp] theorem taken_bin (n : Nat) : (s.taken l).bin n = s.bin n := by unfold State.bin; rw [taken_sort]

theorem taken_modifyTables (f : TableStore → TableStore) : (s.taken l).modifyTables f = (s.modifyTables f).taken l := by cases l <;> rfl

end

/-! ### Bytes -/

theorem u8_toNat (b : Byte) : u8 b.toNat = [b] := by simp [u8]

/-- A one-byte field of a field list. -/
theorem fieldAt_one (fields : List Byte) (i : Nat) : fieldAt fields i 1 = ((fields[i]?).getD 0).toNat := by
  simp [fieldAt, number]

theorem tableOfCode_code (t : TableId) : tableOfCode t.code = some t := by cases t <;> rfl

theorem tableOfCode_eq_none {n : Nat} (h : n < 1 ∨ 8 < n) : tableOfCode n = none := by
  unfold tableOfCode
  split <;> first | omega | rfl

/-! ### LOAD-TABLE by its fields -/

theorem loadTable_inRun {s : State} (h : s.board.line = .run) (l : LinkId) (fields : List Byte) :
    loadTable l fields s = (s, .bare .state) := by
  unfold loadTable
  rw [h]

theorem loadTable_config {s : State} (hc : s.board.line = .config) (l : LinkId) (code part last : Byte) (bytes : List Byte) :
    loadTable l (code :: part :: last :: bytes) s =
      match tableOfCode code.toNat with
      | none => (s, loadRange (0, 0))
      | some table =>
        if 7 < part.toNat ∨ 1 < last.toNat then (s, loadRange (0, 0))
        else judgePart table part.toNat (decide (last.toNat = 1)) bytes s := by
  unfold loadTable
  rw [hc]
  simp only [fieldAt_one]
  rfl

/-- The answer to a LOAD-TABLE that is ready, from what its handler does. -/
theorem exec_loadTable {num code part last : Byte} {bytes : List Byte} {s t : State} {a : Answer}
    (h : s.Ready .lineController (0x13 :: num :: code :: part :: last :: bytes)) (hb : bytes.length ≤ 235)
    (hact : loadTable .lineController (code :: part :: last :: bytes) (s.taken .lineController) = (t.taken .lineController, a)) :
    exec (.loadTable .lineController num (code :: part :: last :: bytes)) s =
      .next (t.answered .lineController (0x13 :: num :: a.status.code :: a.fields)) :=
  serve_answered (r := .loadTable) h (by simp; omega) (by decide) (by simp [formOk]) hact

/-- The entries staged before a part. -/
def State.stagedBefore (s : State) (part : Nat) : List Byte := if part = 0 then [] else (s.tables.staging.map (·.bytes)).getD []

/-- The entries staged with a part. -/
def State.stagedCount (s : State) (table : TableId) (part : Nat) (bytes : List Byte) : Nat :=
  entryCount table (s.stagedBefore part) + entryCount table bytes

section
variable {s : State} {table : TableId} {part : Nat} {last : Bool} {bytes : List Byte}

/-- A part that the staging area does not expect is refused STATE. -/
theorem judgePart_unexpected (h7 : part = 7 → last = true) (h0 : part ≠ 0) (he : stagingExpects s.tables.staging table part = false) :
    judgePart table part last bytes s = (s, { status := .state, fields := stagingBytes s.tables.staging }) := by
  unfold judgePart
  dsimp only
  rw [if_neg (by rintro ⟨h, hl⟩; rw [h7 h] at hl; cases hl), if_pos ⟨h0, he⟩]

variable (h7 : part = 7 → last = true) (he : part = 0 ∨ stagingExpects s.tables.staging table part = true)
include h7 he

/-- A part that is expected, by its bytes and its flag. -/
theorem judgePart_expected : judgePart table part last bytes s =
    if wholeEntries table bytes = false ∨ maxEntries table < s.stagedCount table part bytes then (s, loadRange (0, 0))
    else if last then completeLoad table part bytes (s.stagedBefore part ++ bytes) (s.stagedCount table part bytes) s
    else
      (s.modifyTables fun t => { t with staging := some { table, expected := some (part + 1), bytes := s.stagedBefore part ++ bytes } },
        { status := .ok, fields := u8 table.code ++ u8 part ++ u8 (s.stagedCount table part bytes) }) := by
  unfold judgePart
  dsimp only
  rw [if_neg (by rintro ⟨h, hl⟩; rw [h7 h] at hl; cases hl), if_neg]
  · rfl
  · rintro ⟨h0, hf⟩
    obtain h | h := he
    · exact h0 h
    · rw [h] at hf; cases hf

omit h7 in
/-- A part marked last whose bytes are in order completes the load. -/
theorem judgePart_last (hw : wholeEntries table bytes = true) (hc : s.stagedCount table part bytes ≤ maxEntries table) :
    judgePart table part true bytes s =
      completeLoad table part bytes (s.stagedBefore part ++ bytes) (s.stagedCount table part bytes) s := by
  rw [judgePart_expected (fun _ => rfl) he, hw, if_neg (by simpa using hc), if_pos rfl]

/-- Bytes that do not end on a whole entry or pass the most entries are refused RANGE. -/
theorem judgePart_range (h : wholeEntries table bytes = false ∨ maxEntries table < s.stagedCount table part bytes) :
    judgePart table part last bytes s = (s, loadRange (0, 0)) := by
  rw [judgePart_expected h7 he, if_pos h]

end

/-- Whole entries of a table whose entries have one size. -/
theorem wholeEntries_iff {table : TableId} (h : table ≠ .binGroup) (bytes : List Byte) :
    wholeEntries table bytes = true ↔ bytes.length % entryBytes table = 0 := by
  cases table <;> simp [wholeEntries] at h ⊢

theorem entryCount_eq {table : TableId} (h : table ≠ .binGroup) (bytes : List Byte) :
    entryCount table bytes = bytes.length / entryBytes table := by
  cases table <;> first | rfl | exact absurd rfl h

/-! ### The station table (R13) -/

theorem loadFault_station {s : State} {bytes : List Byte} (h : bytes ≠ []) :
    s.loadFault .station bytes = stationFault (stationTableOf bytes) := if_neg h

/-- The eight bytes of a station table are sent as they were loaded. -/
theorem stationTableOf_bytes {bytes : List Byte} (h : bytes.length = 8) : (stationTableOf bytes).bytes = bytes := by
  have hfield : ∀ i (hi : i < bytes.length), u8 (fieldAt bytes i 1) = [bytes[i]] := fun i hi => by
    rw [fieldAt_one, List.getElem?_eq_getElem hi, Option.getD_some, u8_toNat]
  unfold StationTable.bytes stationTableOf
  dsimp only
  rw [hfield 0 (by omega), hfield 1 (by omega), hfield 2 (by omega), hfield 3 (by omega), hfield 4 (by omega), hfield 5 (by omega),
    hfield 6 (by omega), hfield 7 (by omega)]
  refine List.ext_getElem (by simp [h]) fun i h1 _ => ?_
  have hi : i < 8 := by simpa using h1
  interval_cases i <;> rfl

theorem takeLoad_station (bytes : List Byte) (s : State) : takeLoad .station bytes s =
    s.modifyTables fun t => { t with station := stationTableOf bytes, staging := none, valid := { t.valid with station := true } } := rfl

end Sys2Proof.Machine

namespace Sys2Proof.Proofs
open Sys2Proof.Machine

/-- Settles O43, case by case of R175. -/
theorem loadTable : Obligations.LoadTable := by
  unfold Obligations.LoadTable
  intro num code part last bytes s hr hb run refused
  have hrefuse : ∀ a : Answer, Machine.loadTable .lineController (code :: part :: last :: bytes) (s.taken .lineController) =
      (s.taken .lineController, a) → refused a.status.code a.fields := fun a ha => exec_loadTable hr hb ha
  refine ⟨fun hrun => ?_, fun hc => ?_⟩
  · exact hrefuse (.bare .state) (loadTable_inRun (by rw [taken_board]; exact hrun) _ _)
  have hfields := loadTable_config (s := s.taken .lineController) (by rw [taken_board]; exact hc) .lineController code part last bytes
  refine ⟨fun hbad => hrefuse (loadRange (0, 0)) ?_, fun table htable hpart hlast hseven => ?_⟩
  · rw [hfields]
    split
    · rfl
    · next table htable =>
      split
      · rfl
      · next hin =>
        have hcode : ¬ (code.toNat < 1 ∨ 8 < code.toNat) := fun h => by rw [tableOfCode_eq_none h] at htable; cases htable
        obtain h | h | h | h | ⟨rfl, rfl⟩ := hbad
        · exact absurd (.inl h) hcode
        · exact absurd (.inr h) hcode
        · exact absurd (.inl h) hin
        · exact absurd (.inr h) hin
        · rfl
  have hjudge : Machine.loadTable .lineController (code :: part :: last :: bytes) (s.taken .lineController) =
      judgePart table part.toNat (decide (last.toNat = 1)) bytes (s.taken .lineController) := by
    rw [hfields, htable, tableOfCode_code]
    exact if_neg (by omega)
  have h7 : part.toNat = 7 → decide (last.toNat = 1) = true := fun h => by
    have : part = 7 := BitVec.eq_of_toNat_eq h
    rw [hseven this]
    rfl
  have hzero : part.toNat = 0 ↔ part = 0 := ⟨fun h => BitVec.eq_of_toNat_eq h, fun h => by rw [h]; rfl⟩
  have hcode : u8 table.code = [code] := by rw [← htable, u8_toNat]
  intro size most expected
  refine ⟨fun h0 hnone => ?_, fun st h0 hst hne => ?_, fun hexp hgroup => ?_, fun hstation hlast1 hpart0 hlen => ?_⟩
  · refine hrefuse { status := .state, fields := [0, 0] } ?_
    rw [hjudge, judgePart_unexpected h7 (fun h => h0 (hzero.mp h)) (by rw [taken_tables, hnone]; rfl), taken_tables, hnone]
    rfl
  · refine hrefuse { status := .state, fields := stagingBytes (some st) } ?_
    rw [hjudge, judgePart_unexpected h7 (fun h => h0 (hzero.mp h)), taken_tables, hst]
    rw [taken_tables, hst]
    simpa [stagingExpects, or_iff_not_imp_left] using hne
  · have hexpected : part.toNat = 0 ∨ stagingExpects (s.taken .lineController).tables.staging table part.toNat = true := by
      refine hexp.imp hzero.mpr ?_
      rintro ⟨st, hst, rfl, he⟩
      simp [taken_tables, hst, stagingExpects, he]
    have hsize : size = entryBytes table := by cases table <;> first | rfl | exact absurd rfl hgroup
    have hmost : most = maxEntries table := by cases table <;> rfl
    have hbefore : (s.taken .lineController).stagedBefore part.toNat =
        if part = 0 then [] else (s.tables.staging.map (·.bytes)).getD [] := by
      unfold State.stagedBefore
      rw [taken_tables]
      by_cases h : part = 0
      · rw [if_pos h, if_pos (hzero.mpr h)]
      · rw [if_neg h, if_neg fun e => h (hzero.mp e)]
    intro staged count
    have hcount : (s.taken .lineController).stagedCount table part.toNat bytes = count := by
      unfold State.stagedCount
      rw [entryCount_eq hgroup, entryCount_eq hgroup, hbefore, ← hsize]
    have hwhole : wholeEntries table bytes = true ↔ bytes.length % size = 0 := by rw [wholeEntries_iff hgroup, hsize]
    refine ⟨fun hbad => hrefuse (loadRange (0, 0)) ?_, fun hmod hle hlast0 => ⟨?_, ?_⟩⟩
    · rw [hjudge, judgePart_range h7 hexpected]
      rw [hcount, ← hmost]
      exact hbad.imp_left fun h => by rwa [← Bool.not_eq_true, hwhole]
    · refine (exec_loadTable hr hb (t := s.modifyTables fun t => { t with
          staging := some { table := table, expected := some (part.toNat + 1), bytes := staged ++ bytes } })
        (a := { status := .ok, fields := u8 table.code ++ u8 part.toNat ++ u8 count }) ?_).trans ?_
      · rw [hjudge, judgePart_expected h7 hexpected, hcount, ← hmost, hbefore, hlast0, if_neg, taken_modifyTables]
        · rfl
        · rw [← Bool.not_eq_true, hwhole]
          omega
      · rw [hcode, u8_toNat]
        rfl
    · have : part.toNat ≠ 7 := fun h => by
        have := h7 h
        rw [hlast0] at this
        cases this
      omega
  · subst hstation hlast1 hpart0
    have hne : bytes ≠ [] := fun h => by rw [h] at hlen; cases hlen
    intro loaded meets
    have hloaded : stationFault loaded = none ↔ meets := stationFault_eq_none loaded
    have hcomplete : Machine.loadTable .lineController (code :: 0 :: 1 :: bytes) (s.taken .lineController) =
        completeLoad .station 0 bytes bytes 1 (s.taken .lineController) := by
      have hcount : (s.taken .lineController).stagedCount .station 0 bytes = 1 := by
        change 0 / 8 + bytes.length / 8 = 1
        rw [hlen]
      have hwhole : wholeEntries .station bytes = true := (wholeEntries_iff (by decide) _).mpr (by rw [hlen]; rfl)
      refine hjudge.trans ((judgePart_last (.inl rfl) hwhole (by rw [hcount]; decide)).trans ?_)
      rw [hcount]
      rfl
    have hfault : (s.taken .lineController).loadFault .station bytes = stationFault loaded := loadFault_station hne
    unfold completeLoad at hcomplete
    rw [hfault] at hcomplete
    refine ⟨fun hmeets => ?_, fun hmeets => ?_⟩
    · rw [hloaded.mpr hmeets] at hcomplete
      have hstored : storedPart (takeLoad .station bytes (s.taken .lineController)) .station bytes = bytes :=
        (if_neg hne).trans (stationTableOf_bytes hlen)
      refine (exec_loadTable hr hb (t := s.modifyTables fun t =>
        { t with station := loaded, staging := none, valid := { t.valid with station := true } })
        (a := { status := .ok, fields := [5, 0, 1] ++ bytes }) ?_)
      rw [hcomplete]
      dsimp only
      rw [hstored, takeLoad_station, taken_modifyTables]
      rfl
    · obtain ⟨at_, hat⟩ : ∃ at_, stationFault loaded = some at_ := by
        cases hf : stationFault loaded with
        | none => exact absurd (hloaded.mp hf) hmeets
        | some at_ => exact ⟨at_, rfl⟩
      rw [hat] at hcomplete
      refine ⟨_, _, exec_loadTable hr hb (t := s.modifyTables fun t => { t with
        staging := some { table := .station, expected := none, bytes := bytes } }) (a := loadRange at_) ?_⟩
      rw [hcomplete]
      dsimp only
      rw [taken_modifyTables]

end Sys2Proof.Proofs
end
-- ==== Sys2Proof/Proofs/SettingsLoads.lean ====
section
/-! A completed settings load (O47). What a chain's return to SEARCH reports depends on the event queue, the flags, the tally and the TCU's
serial alone, so it can be told from the state before the load. -/

namespace Sys2Proof.Machine

-- One thread elaborates the many small proofs of this file.
set_option Elab.async false

/-! ### What events and postings read -/

/-- Two states that raise the same events, latch the same requests and post the same boards. -/
structure SameReports (s t : State) : Prop where
  serial : s.tcu.serial = t.tcu.serial
  events : s.events = t.events
  attention : s.attention = t.attention
  tally : s.tally = t.tally

namespace SameReports
variable {s t : State}

theorem refl (s : State) : SameReports s s := ⟨rfl, rfl, rfl, rfl⟩

theorem symm (h : SameReports s t) : SameReports t s := ⟨h.serial.symm, h.events.symm, h.attention.symm, h.tally.symm⟩

theorem trans {u : State} (h : SameReports s t) (k : SameReports t u) : SameReports s u :=
  ⟨h.serial.trans k.serial, h.events.trans k.events, h.attention.trans k.attention, h.tally.trans k.tally⟩

/-- What leaves the SCU, the boards, the blocks and the links to differ leaves the reports. -/
theorem of_outside {m : Touched} (h : Outside m s t) (h1 : m.tcu = false) (h2 : m.events = false) (h3 : m.attention = false)
    (h4 : m.tally = false) : SameReports s t :=
  ⟨by rw [h.tcu h1], (h.events h2).symm, (h.attention h3).symm, (h.tally h4).symm⟩

theorem setUnit (ch : Chain) (s : State) (u : ChainUnit) (hu : u.serial = (s.unit ch).serial) : SameReports s (s.setUnit ch u) := by
  cases ch <;> exact ⟨by first | exact hu.symm | rfl, rfl, rfl, rfl⟩

theorem latch (h : SameReports s t) (c : Cause) : SameReports (latch c s) (latch c t) := by
  have hrole : s.role c.role = t.role c.role := by unfold State.role; rw [h.attention]
  unfold Machine.latch
  dsimp only
  rw [hrole]
  cases c.role <;>
  exact ⟨h.serial, h.events, by simp only [State.setRole, h.attention], h.tally⟩

theorem raiseEvent (h : SameReports s t) (k : EventKind) (c : Option Chain) (n d : Nat) :
    SameReports (raiseEvent k c n d s) (raiseEvent k c n d t) := by
  unfold Machine.raiseEvent
  rw [h.events, h.serial]
  split
  · exact ⟨h.serial, rfl, h.attention, h.tally⟩
  · exact latch (s := { s with events := { t.events with overflow := true, lost := inc32 t.events.lost } })
      (t := { t with events := { t.events with overflow := true, lost := inc32 t.events.lost } })
      ⟨h.serial, rfl, h.attention, h.tally⟩ .eventOverflow

end SameReports

/-- A SYNC-CHANGE, with SYNC and, for the TCU, TRACK-SYNC, by its steps. -/
theorem syncRaised_trimmer (s : State) (n : Nat) :
    s.syncRaised .trimmer n = latch .trackSync (latch .sync (raiseEvent .syncChange (some .trimmer) 0 n s)) := rfl
theorem syncRaised_sorter (s : State) (n : Nat) :
    s.syncRaised .sorter n = latch .sync (raiseEvent .syncChange (some .sorter) 0 n s) := rfl

namespace SameReports
variable {s t : State}

theorem syncRaised (h : SameReports s t) (ch : Chain) (n : Nat) : SameReports (s.syncRaised ch n) (t.syncRaised ch n) := by
  cases ch with
  | trimmer =>
    rw [syncRaised_trimmer, syncRaised_trimmer]
    exact ((h.raiseEvent _ _ _ _).latch _).latch _
  | sorter =>
    rw [syncRaised_sorter, syncRaised_sorter]
    exact (h.raiseEvent _ _ _ _).latch _

/-- A chain that changes to another sync state reports what `syncRaised` says. -/
theorem changeSync_of_ne (h : SameReports s t) {ch : Chain} {new : Sync} (hs : (s.unit ch).sync ≠ new) :
    SameReports (changeSync ch new s) (t.syncRaised ch new.code) := by
  have hset := (setUnit ch s { s.unit ch with sync := new } rfl).symm.trans h
  unfold changeSync
  rw [if_neg hs]
  cases ch with
  | trimmer => exact ((hset.raiseEvent _ _ _ _).latch _).latch _
  | sorter => exact (hset.raiseEvent _ _ _ _).latch _

/-- A chain brought to SEARCH reports a change where it was in another state. -/
theorem changeSync_search (h : SameReports s t) (ch : Chain) :
    SameReports (changeSync ch .search s) (if (s.unit ch).sync = .search then t else t.syncRaised ch 0) := by
  split
  · next hs =>
    unfold changeSync
    rw [if_pos hs]
    exact h
  · next hs => exact h.changeSync_of_ne hs

/-- A chain whose parameters are loaded reports its return to SEARCH. -/
theorem returnToSearch (h : SameReports s t) (ch : Chain) :
    SameReports (returnToSearch ch s) (if (s.unit ch).sync = .search then t else t.syncRaised ch 0) := by
  have hset := (setUnit ch s (s.unit ch).untracked rfl).symm.trans h
  have hc := hset.changeSync_search ch
  rw [State.setUnit_unit] at hc
  exact hc

end SameReports

/-! ### A settings load (R11, R176) -/

theorem returnToSearch_unit (ch : Chain) (s : State) : (returnToSearch ch s).unit ch =
    { s.unit ch with count := 0, sync := .search, good := 0, miss := 0 } := by
  unfold returnToSearch
  rw [changeSync_unit, State.setUnit_unit]
  rfl

theorem returnToSearch_unit_ne {ch other : Chain} (s : State) (h : other ≠ ch) : (returnToSearch ch s).unit other = s.unit other := by
  unfold returnToSearch
  rw [changeSync_unit_ne _ _ h, State.setUnit_unit_ne _ _ h]

/-- A chain that a settings load carries returns to SEARCH (R11). -/
def loadTracking (mark : Nat) (ch : Chain) (s : State) : State := if mark = 1 then returnToSearch ch s else s

theorem loadTracking_unit (mark : Nat) (ch : Chain) (s : State) : (loadTracking mark ch s).unit ch =
    if mark = 1 then { s.unit ch with count := 0, sync := .search, good := 0, miss := 0 } else s.unit ch := by
  unfold loadTracking
  split
  · rw [returnToSearch_unit]
  · rfl

theorem loadTracking_unit_ne (mark : Nat) {ch other : Chain} (s : State) (h : other ≠ ch) :
    (loadTracking mark ch s).unit other = s.unit other := by
  unfold loadTracking
  split
  · rw [returnToSearch_unit_ne _ h]
  · rfl

theorem loadTracking_outside (mark : Nat) (ch : Chain) (s : State) :
    Outside { tcu := true, scu := true, events := true, attention := true } s (loadTracking mark ch s) := by
  unfold loadTracking
  split
  · exact returnToSearch_outside ch s
  · exact .refl _ s

theorem SameReports.loadTracking {s t : State} (h : SameReports s t) (mark : Nat) (ch : Chain) :
    SameReports (loadTracking mark ch s) (if mark = 1 ∧ (s.unit ch).sync ≠ .search then t.syncRaised ch 0 else t) := by
  unfold Machine.loadTracking
  split
  · next hm =>
    have hr := h.returnToSearch ch
    by_cases hs : (s.unit ch).sync = .search
    · rw [if_neg (by simp [hs])]
      rwa [if_pos hs] at hr
    · rw [if_pos ⟨hm, hs⟩]
      rwa [if_neg hs] at hr
  · next hm =>
    rw [if_neg fun hc => hm hc.1]
    exact h

/-- A state is told by its parts. -/
theorem State.eq_of_parts {s t : State} (hp : s.pins = t.pins) (hs : s.standing = t.standing) (htb : s.timebase = t.timebase)
    (htc : s.tcu = t.tcu) (hsc : s.scu = t.scu) (hb : s.board = t.board) (hga : s.gradingA = t.gradingA) (hgb : s.gradingB = t.gradingB)
    (hd : s.decision = t.decision) (hsa : s.saws = t.saws) (hso : s.sort = t.sort) (hta : s.tally = t.tally) (he : s.events = t.events)
    (ha : s.attention = t.attention) (hl : s.links = t.links) (htt : s.tables = t.tables) (hpe : s.pending = t.pending) : s = t := by
  obtain ⟨_, _, _, _, _, _, _, _, _, _, _, _, _, _, _, _, _⟩ := s
  obtain ⟨_, _, _, _, _, _, _, _, _, _, _, _, _, _, _, _, _⟩ := t
  simp only at *
  subst_vars
  rfl

/-! ### A part marked last (R175) -/

section
variable {s : State} {num : Byte} {table : TableId} {part : Nat} {staged bytes : List Byte}

/-- A last part that is the one to be taken, its bytes in order, completes the load. -/
theorem exec_loads (h : s.loads num table part true staged bytes) (hw : wholeEntries table bytes = true)
    (hc : entryCount table staged + entryCount table bytes ≤ maxEntries table) {t : State} {a : Answer}
    (hact : completeLoad table part bytes (staged ++ bytes) (entryCount table staged + entryCount table bytes) (s.taken .lineController) =
      (t.taken .lineController, a)) :
    s.loadPart num table part true bytes = .next (t.answered .lineController (0x13 :: num :: a.status.code :: a.fields)) := by
  obtain ⟨hr, hb, hline, h7, -, hstaged⟩ := h
  have hpart : (BitVec.ofNat 8 part : Byte).toNat = part := by rw [BitVec.toNat_ofNat]; omega
  have hcode : (BitVec.ofNat 8 table.code : Byte).toNat = table.code := by cases table <;> rfl
  have hbefore : (s.taken .lineController).stagedBefore part = staged := by
    unfold State.stagedBefore
    rw [taken_tables]
    obtain ⟨h0, rfl⟩ | ⟨h0, hst⟩ := hstaged
    · rw [if_pos h0]
    · rw [if_neg h0, hst]
      rfl
  have hexpected : part = 0 ∨ stagingExpects (s.taken .lineController).tables.staging table part = true := by
    rw [taken_tables]
    obtain ⟨h0, -⟩ | ⟨-, hst⟩ := hstaged
    · exact .inl h0
    · exact .inr (by simp [hst, stagingExpects])
  have hcount : (s.taken .lineController).stagedCount table part bytes = entryCount table staged + entryCount table bytes := by
    rw [State.stagedCount, hbefore]
  refine exec_loadTable hr hb ?_
  rw [loadTable_config (by rw [taken_board]; exact hline), hcode, tableOfCode_code, hpart]
  dsimp only
  rw [if_neg (by simp; omega)]
  change judgePart table part true bytes _ = _
  rw [judgePart_last hexpected hw (by rw [hcount]; exact hc), hcount, hbefore, hact]

/-- A load with a fault is refused RANGE and leaves the staging area with no part expected. -/
theorem exec_loads_refused (h : s.loads num table part true staged bytes) (hw : wholeEntries table bytes = true)
    (hc : entryCount table staged + entryCount table bytes ≤ maxEntries table)
    (hf : (s.taken .lineController).loadFault table (staged ++ bytes) ≠ none) :
    s.loadRefused num table (staged ++ bytes) (s.loadPart num table part true bytes) := by
  obtain ⟨at_, hat⟩ := Option.ne_none_iff_exists'.mp hf
  refine ⟨_, _, exec_loads h hw hc (t := s.modifyTables fun t => { t with
    staging := some { table := table, expected := none, bytes := staged ++ bytes } }) (a := loadRange at_) ?_⟩
  unfold completeLoad
  rw [hat]
  dsimp only
  rw [taken_modifyTables]

end

/-! ### The figures of a settings load (R11, R176) -/

/-- A chain's parameters in a settings load are in range. -/
def ChainSound (bytes : List Byte) (at_ : Nat) : Prop :=
  fieldAt bytes at_ 1 ≤ 1 ∧ (fieldAt bytes at_ 1 = 1 →
    64 ≤ fieldAt bytes (at_ + 1) 2 ∧ fieldAt bytes (at_ + 1) 2 ≤ 4096 ∧ 20 ≤ fieldAt bytes (at_ + 5) 2 ∧ fieldAt bytes (at_ + 5) 2 ≤ 2000)

theorem outside_eq_false {lo hi n : Nat} : outside lo hi n = false ↔ lo ≤ n ∧ n ≤ hi := by
  simp only [outside, Bool.or_eq_false_iff, decide_eq_false_iff_not]
  omega

theorem chainChecks_sound (bytes : List Byte) (at_ item : Nat) :
    (∀ c ∈ chainChecks bytes at_ item, c.1 = false) ↔ ChainSound bytes at_ := by
  simp only [chainChecks, ChainSound, List.forall_mem_cons, List.not_mem_nil, false_implies, implies_true, and_true,
    decide_eq_false_iff_not, Bool.and_eq_false_iff, outside_eq_false]
  omega

theorem settingsFault_eq_none (bytes : List Byte) : settingsFault bytes = none ↔
    fieldAt bytes 0 2 ≤ 100 ∧ fieldAt bytes 2 2 ≤ 200 ∧ 10 ≤ fieldAt bytes 4 2 ∧ fieldAt bytes 4 2 ≤ 1000 ∧
      1 ≤ fieldAt bytes 6 1 ∧ fieldAt bytes 6 1 ≤ 15 ∧ 1 ≤ fieldAt bytes 7 1 ∧ fieldAt bytes 7 1 ≤ 16 ∧
      ChainSound bytes 8 ∧ ChainSound bytes 15 := by
  simp only [settingsFault, firstFault_eq_none, List.forall_mem_append, chainChecks_sound, List.forall_mem_cons, List.not_mem_nil,
    false_implies, implies_true, and_true, outside_eq_false]
  constructor
  · rintro ⟨⟨⟨⟨-, h1⟩, ⟨-, h2⟩, h3, h4, h5⟩, h6⟩, h7⟩
    exact ⟨h1, h2, h3.1, h3.2, h4.1, h4.2, h5.1, h5.2, h6, h7⟩
  · rintro ⟨h1, h2, h3, h3', h4, h4', h5, h5', h6, h7⟩
    exact ⟨⟨⟨⟨Nat.zero_le _, h1⟩, ⟨Nat.zero_le _, h2⟩, ⟨h3, h3'⟩, ⟨h4, h4'⟩, h5, h5'⟩, h6⟩, h7⟩

/-- A number is brought to a limit exactly where it lies outside. -/
theorem decide_clampTo_ne (lo hi n : Nat) : decide (clampTo lo hi n ≠ n) = outside lo hi n := by
  unfold clampTo outside
  split
  · next h =>
    rw [decide_eq_true h.ne', decide_eq_true h]
    rfl
  · next h =>
    rw [decide_eq_false h, Bool.false_or]
    split
    · next h' => rw [decide_eq_true h'.ne, decide_eq_true h']
    · next h' => rw [decide_eq_false (by simp), decide_eq_false h']

/-- A settings load that passes leaves the tracking, the events and the requests of its chains, and the table as loaded. -/
theorem takeLoad_settings (bytes : List Byte) (s : State) : takeLoad .settings bytes s =
    (loadTracking (fieldAt bytes 15 1) .sorter (loadTracking (fieldAt bytes 8 1) .trimmer
      (s.modifyTables fun t => { t with settings := settingsOf bytes t.settings }))).modifyTables
        fun t => { t with valid := { t.valid with settings := true }, staging := none } := rfl

end Sys2Proof.Machine

namespace Sys2Proof.Proofs
open Sys2Proof.Machine

/-- Settles O47, by the parts of the state a completed load leaves. -/
theorem settingsLoad : Obligations.SettingsLoad := by
  unfold Obligations.SettingsLoad
  intro num part staged bytes s hl hone hlen total old run at_ mark C E stop nearest meets params loaded searching raised unit clamped chain
  have hlens : staged.length + bytes.length = 22 := by rw [← List.length_append]; exact hlen
  have hw : wholeEntries .settings bytes = true := by
    rw [wholeEntries_iff (by decide)]
    change bytes.length % 22 = 0
    obtain rfl | rfl := hone
    · simp at hlens ⊢; omega
    · rfl
  have hcount : entryCount .settings staged + entryCount .settings bytes = 1 := by
    change staged.length / 22 + bytes.length / 22 = 1
    obtain rfl | rfl := hone
    · simp at hlens ⊢; omega
    · simp at hlens ⊢; omega
  have hne : total ≠ [] := fun h => by rw [show staged ++ bytes = [] from h] at hlen; cases hlen
  have hfault : (s.taken .lineController).loadFault .settings total = none ↔ meets := by
    have : (s.taken .lineController).loadFault .settings total = settingsFault total := if_neg hne
    rw [this, settingsFault_eq_none]
    refine and_congr_right' (and_congr_right' (and_congr_right' (and_congr_right' (and_congr_right' (and_congr_right'
      (and_congr_right' (and_congr_right' ?_)))))))
    exact ⟨fun h ch => by cases ch; exacts [h.1, h.2], fun h => ⟨h .trimmer, h .sorter⟩⟩
  refine ⟨fun hm => ?_, fun hm => exec_loads_refused hl hw (by rw [hcount]; decide) (fun h => hm (hfault.mp h))⟩
  set v := s.taken .lineController with hv
  set x := v.modifyTables fun t => { t with settings := settingsOf total t.settings } with hx
  set y := loadTracking (fieldAt total 8 1) .trimmer x with hy
  set z := loadTracking (fieldAt total 15 1) .sorter y with hz
  have hload : takeLoad .settings total v = z.modifyTables fun t => { t with valid := { t.valid with settings := true }, staging := none } :=
    takeLoad_settings total v
  have hxs : SameReports x s := ⟨rfl, rfl, rfl, rfl⟩
  have hyr : SameReports y (searching .trimmer s) := hxs.loadTracking _ .trimmer
  have hyu : (y.unit .sorter).sync = (s.unit .sorter).sync := by rw [hy, loadTracking_unit_ne _ _ (by decide)]; rfl
  have hzr : SameReports z raised := by
    have := hyr.loadTracking (fieldAt total 15 1) .sorter
    rwa [hyu] at this
  have hzo := (loadTracking_outside (fieldAt total 8 1) .trimmer x).trans (loadTracking_outside (fieldAt total 15 1) .sorter y)
  have hztcu : z.tcu = unit .trimmer := by
    have : z.unit .trimmer = _ := (loadTracking_unit_ne _ y (by decide)).trans (loadTracking_unit (fieldAt total 8 1) .trimmer x)
    exact this
  have hzscu : z.scu = unit .sorter := by
    have h1 : z.unit .sorter = _ := loadTracking_unit (fieldAt total 15 1) .sorter y
    have h2 : y.unit .sorter = s.unit .sorter := loadTracking_unit_ne _ x (by decide)
    rw [h2] at h1
    exact h1
  have hset : settingsOf total s.tables.settings = loaded := rfl
  have hztables : z.tables = { s.tables with settings := loaded } := hzo.tables rfl
  set R : State := { s with
    tcu := unit .trimmer, scu := unit .sorter, events := raised.events, attention := raised.attention,
    tables := { s.tables with settings := loaded, valid := { s.tables.valid with settings := true }, staging := none } } with hR
  have hleft : takeLoad .settings total v = R.taken .lineController := by
    rw [hload]
    refine State.eq_of_parts (hzo.pins rfl) (hzo.standing rfl) (hzo.timebase rfl) hztcu hzscu (hzo.weaken.board)
      (hzo.gradingA rfl) (hzo.gradingB rfl) (hzo.decision rfl) (hzo.saws rfl) (hzo.sort rfl) (hzo.tally rfl) hzr.events hzr.attention
      (hzo.links rfl) ?_ (hzo.pending rfl)
    simp only [State.modifyTables, hztables, taken_tables, hR]
  have hclamped : loadClamped .settings total = clamped := by
    have hc : ∀ ch, chainClamped total (at_ ch) = (decide (mark ch = 1) && decide (nearest ch ≠ E ch)) := fun ch =>
      congrArg (decide (mark ch = 1) && ·) (decide_clampTo_ne 1 (roundDiv (C ch) 4) (E ch)).symm
    exact congrArg₂ (· || ·) (hc .trimmer) (hc .sorter)
  have hstored : storedPart (R.taken .lineController) .settings bytes = if bytes = [] then [] else loaded.bytes := by
    unfold storedPart
    rw [taken_tables]
  have hexec := exec_loads hl hw (by rw [hcount]; decide) (t := R) (a := {
    status := if clamped then .okClamped else .ok
    fields := u8 1 ++ u8 part ++ u8 1 ++ if bytes = [] then [] else loaded.bytes }) (by
      unfold completeLoad
      rw [hfault.mpr hm]
      dsimp only
      rw [hleft, hstored, hcount, hclamped]
      rfl)
  refine hexec.trans ?_
  have hcode : (if clamped then Status.okClamped else .ok).code = if clamped then 0x01 else 0x00 := by cases clamped <;> rfl
  dsimp only
  rw [hcode]
  rfl

end Sys2Proof.Proofs
end
-- ==== Sys2Proof/Proofs/LineState.lean ====
section
/-! START with its checks, and RESTART-TRACKING (O42). -/

namespace Sys2Proof.Machine

-- One thread elaborates the many small proofs of this file.
set_option Elab.async false

/-! ### The checks of START (R177) -/

/-- The first check of a list that fails; a check is its table, its number and whether it fails. -/
def firstFailing (checks : List (TableId × Nat × Bool)) : Option (TableId × Nat) := (checks.find? (·.2.2)).map fun c => (c.1, c.2.1)

theorem firstFailing_nil : firstFailing [] = none := rfl

theorem firstFailing_cons (t : TableId) (n : Nat) (b : Bool) (rest : List (TableId × Nat × Bool)) :
    firstFailing ((t, n, b) :: rest) = if b then some (t, n) else firstFailing rest := by
  cases b <;> rfl

/-- START's checks in order, each as table, number and failure. -/
def State.startChecks (s : State) : List (TableId × Nat × Bool) :=
  let t := s.tables
  let fitted (bin : Nat) : Bool := (s.bin bin).items.isSome
  let dropsLate (bin : Nat) : Bool := ((s.bin bin).items.map fun it => decide (t.station.runout ≤ it.drop)).getD false
  let special (bin : Nat) : Bool := decide (bin = 0) || fitted bin
  [(.settings, 1, !t.valid.settings), (.settings, 2, !(t.settings.trimmer.valid && t.settings.sorter.valid)), (.saw, 1, !t.valid.saw),
   (.size, 1, !t.valid.size), (.grade, 1, !t.valid.grade),
   (.grade, 2, !(decide (1 ≤ t.grade.default) && decide (t.grade.default ≤ 10) && t.grade.enabled.getLsbD (t.grade.default - 1))),
   (.station, 1, !t.valid.station), (.bin, 1, !t.valid.bin), (.bin, 2, (List.range 48).any fun i => dropsLate (i + 1)),
   (.binGroup, 1, !t.valid.binGroup),
   (.binGroup, 2, !(((List.range 24).all fun i => (s.groupBins (i + 1)).all fitted) && special t.groups.reject && special t.groups.reman &&
     special t.groups.overflow)),
   (.sortRule, 1, !t.valid.sortRule), (.sortRule, 2, t.rules.any fun rule => decide (s.groupBins rule.group = []))]

/-- A fitted bin's drop line lies at the runout line or after it. -/
def State.dropsLate (s : State) : Bool := 
  allBins.any fun bin => match s.dropOffset bin with
    | some d => decide (s.tables.station.runout ≤ d)
    | none => false

theorem dropsLate_eq (s : State) : s.dropsLate =
    (List.range 48).any fun i => ((s.bin (i + 1)).items.map fun it => decide (s.tables.station.runout ≤ it.drop)).getD false := by
  unfold State.dropsLate allBins State.dropOffset
  rw [List.any_map]
  congr 1
  funext i
  dsimp only [Function.comp]
  cases (s.bin (i + 1)).items <;> rfl

/-- A special bin is named unless it is 0. -/
theorem all_filter_ne_zero (f : Nat → Bool) (bins : List Nat) :
    (bins.filter fun b => b != 0).all f = bins.all fun b => decide (b = 0) || f b := by
  rw [List.all_filter]
  congr 1
  funext b
  by_cases h : b = 0
  · simp [h]
  · simp [h]

theorem named_eq (s : State) (f : Nat → Bool) (a b c : Nat) :
    (((List.range 24).flatMap fun i => s.groupBins (i + 1)) ++ ([a, b, c].filter fun n => n != 0)).all f =
      (((List.range 24).all fun i => (s.groupBins (i + 1)).all f) && (decide (a = 0) || f a) && (decide (b = 0) || f b) &&
        (decide (c = 0) || f c)) := by
  rw [List.all_append, List.all_flatMap, all_filter_ne_zero]
  simp only [List.all_cons, List.all_nil, Bool.and_true, Bool.and_assoc]

/-- The chain of START's checks as a list. -/
theorem startFault_firstFailing (s : State) : s.startFault = firstFailing
    [(.settings, 1, !s.tables.valid.settings), (.settings, 2, !(s.tables.settings.trimmer.valid && s.tables.settings.sorter.valid)),
     (.saw, 1, !s.tables.valid.saw), (.size, 1, !s.tables.valid.size), (.grade, 1, !s.tables.valid.grade),
     (.grade, 2, !s.gradeEnabled s.tables.grade.default), (.station, 1, !s.tables.valid.station), (.bin, 1, !s.tables.valid.bin),
     (.bin, 2, s.dropsLate), (.binGroup, 1, !s.tables.valid.binGroup),
     (.binGroup, 2, !((((List.range 24).flatMap fun i => s.groupBins (i + 1)) ++
       ([s.tables.groups.reject, s.tables.groups.reman, s.tables.groups.overflow].filter fun b => b != 0)).all
         fun bin => (s.bin bin).items.isSome)),
     (.sortRule, 1, !s.tables.valid.sortRule), (.sortRule, 2, s.tables.rules.any fun rule => decide (s.groupBins rule.group = []))] := by
  simp only [firstFailing_cons, firstFailing_nil]
  rfl

theorem startFault_eq (s : State) : s.startFault = firstFailing s.startChecks := by
  rw [startFault_firstFailing, dropsLate_eq, named_eq]
  rfl

theorem startLine_fault {s : State} (h : s.board.line = .config) {table : TableId} {check : Nat} (hf : s.startFault = some (table, check))
    (l : LinkId) (fields : List Byte) :
    startLine l fields s = (s, { status := .state, fields := u8 table.code ++ u8 check }) := by
  simp only [startLine, h, hf]

theorem startLine_ok {s : State} (h : s.board.line = .config) (hf : s.startFault = none) (l : LinkId) (fields : List Byte) :
    startLine l fields s = (setLineState .run { s with tables := { s.tables with staging := none } }, .bare .ok) := by
  simp only [startLine, h, hf]

theorem startLine_run {s : State} (h : s.board.line = .run) (l : LinkId) (fields : List Byte) :
    startLine l fields s = (s, { status := .state, fields := u8 0 ++ u8 0 }) := by
  unfold startLine
  rw [h]

theorem startFault_taken (s : State) (l : LinkId) : (s.taken l).startFault = s.startFault := by cases l <;> rfl

/-! ### RESTART-TRACKING (R40, R41) -/

theorem SameReports.modifyLive {s t : State} (h : SameReports s t) (f : Tally → Tally) :
    SameReports (s.modifyLive f) (t.modifyLive f) :=
  ⟨h.serial, h.events, h.attention, by unfold State.modifyLive; rw [h.tally]⟩

theorem SameReports.modifyStream {s t : State} (h : SameReports s t) (f : Stream → Stream) :
    SameReports (s.modifyStream f) (t.modifyStream f) :=
  ⟨h.serial, h.events, h.attention, by unfold State.modifyStream; rw [h.tally]⟩

theorem SameReports.closeSegment {s t : State} (h : SameReports s t) : SameReports (closeSegment s) (closeSegment t) := by
  unfold Machine.closeSegment
  rw [h.tally]
  exact h.modifyStream _

theorem SameReports.streamAttempt {s t : State} (h : SameReports s t) (r : Record) (f : Fate) :
    SameReports (streamAttempt r f s) (streamAttempt r f t) := by
  unfold Machine.streamAttempt
  rw [h.tally]
  split
  · have hd := h.modifyLive fun t => t.count .dropped
    dsimp only
    split
    · have hm := hd.modifyStream fun st => { st with spellDropped := true }
      rw [hd.tally]
      exact hm.raiseEvent _ _ _ _
    · exact hd
  · have hw := (h.modifyStream fun st => { st.put st.slot (streamRecord r f) with slot := st.slot + 1 }).modifyLive
      fun t => t.count .written
    dsimp only
    rw [hw.tally]
    split
    · exact hw.closeSegment
    · exact hw

theorem SameReports.handToTally {s t : State} (h : SameReports s t) (r : Record) (f : Fate) :
    SameReports (handToTally r f s) (handToTally r f t) := by
  unfold Machine.handToTally
  exact (h.modifyLive _).streamAttempt r f

theorem loseFold_reports {s t : State} (h : SameReports s t) (rs : List Record) :
    SameReports (rs.foldl (fun x r => handToTally r .lost x) s) (rs.foldl (fun x r => handToTally r .lost x) t) := by
  induction rs generalizing s t with
  | nil => exact h
  | cons r rest ih => exact ih (h.handToTally r .lost)

/-- The boards of a state, in the order in which RESTART-TRACKING posts them LOST (R41). -/
def State.lostOrder (s : State) : List Record := s.board.sorter ++ s.board.transfer.map (·.board) ++ s.board.trimmer

/-- The state in which every live record has been posted LOST. -/
def State.allLost (s : State) : State := s.lostOrder.foldl (fun x r => handToTally r .lost x) s

theorem lostOrder_length (s : State) : s.lostOrder.length = s.live.length := by
  simp only [State.lostOrder, State.live, List.length_append, List.length_map]
  omega

theorem loseAll_reports {s u : State} (h : SameReports u s) (hb : u.board = s.board) : SameReports (loseAll u) s.allLost := by
  unfold loseAll State.allLost State.lostOrder
  rw [hb]
  exact loseFold_reports (s := { u with board := { s.board with sorter := [], transfer := [], trimmer := [] } }) ⟨h.serial, h.events, h.attention, h.tally⟩ _

/-! ### Postings of lost boards (R41, R144) -/

theorem count_cells (t : Tally) (c : TallyCounter) : (t.count c).cells = t.cells := by cases c <;> rfl

theorem count_lost_of_ne (t : Tally) {c : TallyCounter} (h : c ≠ .lost) : (t.count c).lost = t.lost := by
  cases c <;> first | rfl | exact absurd rfl h

theorem ite_count_cells (b : Prop) [Decidable b] (t : Tally) (c : TallyCounter) : (if b then t.count c else t).cells = t.cells := by
  split
  · exact count_cells t c
  · rfl

theorem ite_count_lost (b : Prop) [Decidable b] (t : Tally) {c : TallyCounter} (h : c ≠ .lost) :
    (if b then t.count c else t).lost = t.lost := by
  split
  · exact count_lost_of_ne t h
  · rfl

theorem post_lost_cells (t : Tally) (r : Record) : (t.post r .lost).cells = t.cells := by
  unfold Tally.post
  dsimp only
  rw [ite_count_cells, ite_count_cells, ite_count_cells, count_cells]

theorem post_lost_lost (t : Tally) (r : Record) : (t.post r .lost).lost = (satAdd Config.max32 t.lost 1).1 := by
  unfold Tally.post
  dsimp only
  rw [ite_count_lost _ _ (by decide), ite_count_lost _ _ (by decide), ite_count_lost _ _ (by decide)]
  rfl

theorem ite_closeSegment_tally (b : Prop) [Decidable b] (s : State) :
    (if b then closeSegment s else s).tally.closed = s.tally.closed ∧ (if b then closeSegment s else s).tally.live = s.tally.live := by
  split
  · simp only [closeSegment, State.modifyStream, and_self]
  · exact ⟨rfl, rfl⟩

/-- A stream attempt counts a record written or dropped, and no other piece of the tally. -/
theorem streamAttempt_tally (r : Record) (f : Fate) (s : State) :
    (streamAttempt r f s).tally.closed = s.tally.closed ∧
      ∃ c, c ≠ .lost ∧ (streamAttempt r f s).tally.live = s.tally.live.count c := by
  unfold streamAttempt
  split
  · dsimp only
    refine ⟨?_, .dropped, by decide, ?_⟩
    · split
      · rw [(raiseEvent_outside _ _ _ _ _).tally rfl]
        rfl
      · rfl
    · split
      · rw [(raiseEvent_outside _ _ _ _ _).tally rfl]
        rfl
      · rfl
  · dsimp only
    generalize (fun st : Stream => { st.put st.slot (streamRecord r f) with slot := st.slot + 1 }) = put
    obtain ⟨hclosed, hlive⟩ := ite_closeSegment_tally
      (((s.modifyStream put).modifyLive fun t => t.count .written).tally.stream.slot = Config.segmentRecords)
      ((s.modifyStream put).modifyLive fun t => t.count .written)
    exact ⟨hclosed, .written, by decide, hlive⟩

theorem handToTally_lost (r : Record) (s : State) :
    (handToTally r .lost s).tally.closed = s.tally.closed ∧ (handToTally r .lost s).tally.live.cells = s.tally.live.cells ∧
      (handToTally r .lost s).tally.live.lost = (satAdd Config.max32 s.tally.live.lost 1).1 := by
  obtain ⟨hclosed, c, hc, hlive⟩ := streamAttempt_tally r .lost (s.modifyLive fun t => t.post r .lost)
  unfold handToTally
  rw [hclosed, hlive, count_cells, count_lost_of_ne _ hc]
  exact ⟨rfl, post_lost_cells _ r, post_lost_lost _ r⟩

theorem loseFold_tally (rs : List Record) (s : State) :
    (rs.foldl (fun x r => handToTally r .lost x) s).tally.closed = s.tally.closed ∧
      (rs.foldl (fun x r => handToTally r .lost x) s).tally.live.cells = s.tally.live.cells ∧
      (s.tally.live.lost + rs.length ≤ 4294967295 →
        (rs.foldl (fun x r => handToTally r .lost x) s).tally.live.lost = s.tally.live.lost + rs.length) := by
  induction rs generalizing s with
  | nil => exact ⟨rfl, rfl, fun _ => rfl⟩
  | cons r rest ih =>
    obtain ⟨hclosed, hcells, hlost⟩ := handToTally_lost r s
    obtain ⟨ihclosed, ihcells, ihlost⟩ := ih (handToTally r .lost s)
    refine ⟨ihclosed.trans hclosed, ihcells.trans hcells, fun hle => ?_⟩
    rw [List.length_cons] at hle ⊢
    have hone : (satAdd Config.max32 s.tally.live.lost 1).1 = s.tally.live.lost + 1 := by
      unfold satAdd
      rw [if_pos (by rw [Config.max32]; omega)]
    rw [hone] at hlost
    have := ihlost (by rw [hlost]; omega)
    rw [List.foldl_cons, this, hlost]
    omega

/-- Both LINE-STATE causes latched (R38). -/
def Attention.lineStateRaised (a : Attention) : Attention :=
  { a with
    optimizer := { a.optimizer with edges := a.optimizer.edges ||| 2#8 }
    lineController := { a.lineController with edges := a.lineController.edges ||| 64#8 } }

/-- The state with both LINE-STATE causes latched. -/
def State.lineStateRaised (s : State) : State := { s with attention := s.attention.lineStateRaised }

theorem setLineState_of_ne {line : LineState} {s : State} (h : s.board.line ≠ line) :
    setLineState line s = ({ s with board := { s.board with line := line } } : State).lineStateRaised := by
  unfold setLineState
  rw [if_neg h]
  rfl

theorem setLineState_self {line : LineState} {s : State} (h : s.board.line = line) : setLineState line s = s := if_pos h

/-! ### The parts of the state after RESTART-TRACKING -/

section
variable (s : State)

theorem blocksRestarted_unit (ch : Chain) : s.blocksRestarted.unit ch = s.unit ch := by cases ch <;> rfl

/-- The state with the chains brought to SEARCH, before their figures are zeroed. -/
def State.searching (s : State) : State := changeSync .sorter .search (changeSync .trimmer .search (loseAll s).blocksRestarted)

theorem searching_outside : Outside { tcu := true, scu := true, events := true, attention := true } (loseAll s).blocksRestarted s.searching :=
  (changeSync_outside .trimmer .search _).trans (changeSync_outside .sorter .search _)

theorem restart_searching : restart s = setLineState .config s.searching.unitsZeroed := restart_eq s

theorem restart_after_blocks : Outside { tcu := true, scu := true, line := true, events := true, attention := true }
    (loseAll s).blocksRestarted (restart s) := by
  rw [restart_searching]
  exact .then (.then (searching_outside s).weaken (unitsZeroed_outside _)) (setLineState_outside _ _)

theorem searching_unit (ch : Chain) : s.searching.unit ch = { s.unit ch with sync := .search } := by
  have hlose : (loseAll s).blocksRestarted.unit ch = s.unit ch := by
    rw [blocksRestarted_unit]
    cases ch
    · exact (loseAll_outside s).tcu rfl
    · exact (loseAll_outside s).scu rfl
  unfold State.searching
  cases ch
  · rw [changeSync_unit_ne _ _ (by decide), changeSync_unit, hlose]
  · rw [changeSync_unit, changeSync_unit_ne _ _ (by decide), hlose]

theorem restart_unit (ch : Chain) : (restart s).unit ch = { s.unit ch with count := 0, serial := 0, sync := .search, good := 0, miss := 0 } := by
  have hset : (restart s).unit ch = s.searching.unitsZeroed.unit ch := by
    rw [restart_searching]
    cases ch
    · exact (setLineState_outside _ _).tcu rfl
    · exact (setLineState_outside _ _).scu rfl
  have hzero : s.searching.unitsZeroed.unit ch = { (s.searching.unit ch).untracked with serial := 0 } := by cases ch <;> rfl
  rw [hset, hzero, searching_unit]
  rfl

theorem restart_saws : (restart s).saws = { recs := mapVec SawRec.restarted s.saws.recs, owner := 0 } := by
  rw [(restart_after_blocks s).saws rfl, State.blocksRestarted, (loseAll_outside s).saws rfl]

theorem restart_sort : (restart s).sort = { s.sort with bins := mapVec BinRec.restarted s.sort.bins } := by
  rw [(restart_after_blocks s).sort rfl, State.blocksRestarted, (loseAll_outside s).sort rfl]

theorem restart_grading (p : Position) : (restart s).grading p = (s.grading p).restarted := by
  cases p
  · change (restart s).gradingA = s.gradingA.restarted
    rw [(restart_after_blocks s).gradingA rfl, State.blocksRestarted, (loseAll_outside s).gradingA rfl]
  · change (restart s).gradingB = s.gradingB.restarted
    rw [(restart_after_blocks s).gradingB rfl, State.blocksRestarted, (loseAll_outside s).gradingB rfl]

end

/-- What a restart reports before its LINE-STATE: the postings, then a SYNC-CHANGE of each chain that was not in SEARCH. -/
theorem searching_reports {s u : State} (h : SameReports u s) (hb : u.board = s.board) (hu : ∀ ch, u.unit ch = s.unit ch) :
    SameReports u.searching
      (let trimmer := if s.tcu.sync = .search then s.allLost else s.allLost.syncRaised .trimmer 0
       if s.scu.sync = .search then trimmer else trimmer.syncRaised .sorter 0) := by
  have hlose := loseAll_reports h hb
  have hblocks : SameReports (loseAll u).blocksRestarted s.allLost :=
    (SameReports.of_outside (blocksRestarted_outside _) rfl rfl rfl rfl).symm.trans hlose
  have hunit : ∀ ch, (loseAll u).blocksRestarted.unit ch = s.unit ch := fun ch => by
    rw [blocksRestarted_unit, ← hu]
    cases ch
    · exact (loseAll_outside u).tcu rfl
    · exact (loseAll_outside u).scu rfl
  have ht := hblocks.changeSync_search .trimmer
  have hs := ht.changeSync_search .sorter
  rw [changeSync_unit_ne _ _ (by decide)] at hs
  rw [hunit, hunit] at hs
  exact hs

/-- The last step of a restart: a line that was in RUN latches both LINE-STATE causes. -/
theorem restart_line_reports (s : State) : (restart s).events = s.searching.events ∧
    (restart s).attention = if s.board.line = .run then s.searching.attention.lineStateRaised else s.searching.attention := by
  have hline : s.searching.unitsZeroed.board.line = s.board.line := by
    rw [(unitsZeroed_outside _).line rfl, (searching_outside s).line rfl, (blocksRestarted_outside _).line rfl, (loseAll_outside s).line rfl]
  rw [restart_searching]
  by_cases h : s.board.line = .config
  · rw [setLineState_self (hline.trans h), if_neg (by simp [h])]
    exact ⟨rfl, rfl⟩
  · have hrun : s.board.line = .run := by cases hl : s.board.line <;> simp_all
    rw [setLineState_of_ne (hline ▸ h), if_pos hrun]
    exact ⟨rfl, rfl⟩

theorem entryD_mapVec {α β : Type} {k : Nat} (f : α → β) (v : Vector α k) {n : Nat} (d : β) (e : α) (h : n < k) :
    entryD (mapVec f v) n d = f (entryD v n e) := by
  rw [entryD_of_lt _ _ h, entryD_of_lt _ _ h]
  simp [mapVec]

theorem restart_saw (s : State) {k : Nat} (h : k ≤ 12) : (restart s).saw k = (s.saw k).restarted := by
  unfold State.saw
  rw [restart_saws]
  exact entryD_mapVec _ _ _ _ (by omega)

theorem restart_bin (s : State) {n : Nat} (h1 : 1 ≤ n) (h48 : n ≤ 48) : (restart s).bin n = (s.bin n).restarted := by
  unfold State.bin
  rw [restart_sort, if_neg (by omega), if_neg (by omega)]
  exact entryD_mapVec _ _ _ _ (by omega)

/-- A stack restarted: empty with no target, TARGET-OFF where there was one (R74). -/
theorem Grading.restarted_eq (g : Grading) :
    g.restarted = { g with
      slots := Vector.replicate 6 .empty, top := 0, target := none
      replies := if g.target.isSome && decide (g.replies.length < 8) then g.replies ++ [.targetOff] else g.replies
      counts := { g.counts with
        repliesLost := if g.target.isSome && !decide (g.replies.length < 8) then inc32 g.counts.repliesLost else g.counts.repliesLost } } := by
  unfold Grading.restarted Grading.retarget Grading.reply
  dsimp only
  cases ht : g.target with
  | none => simp
  | some n =>
    by_cases hr : g.replies.length < 8
    · simp [hr, Config.replySlots]
    · simp [hr, Config.replySlots]

end Sys2Proof.Machine

namespace Sys2Proof.Proofs
open Sys2Proof.Machine

/-- START's half of O42. -/
theorem start_answers (num : Byte) (s : State) (hr : s.Ready .lineController [0x11, num]) :
    (s.board.line = .run →
      exec (.start .lineController num []) s = .next (s.answered .lineController [0x11, num, 0x04, 0, 0])) ∧
    (s.board.line = .config →
      (∀ table check, s.startFault = some (table, check) → exec (.start .lineController num []) s =
        .next (s.answered .lineController [0x11, num, 0x04, BitVec.ofNat 8 table.code, BitVec.ofNat 8 check])) ∧
      (s.startFault = none → exec (.start .lineController num []) s =
        .next (({ s with board := { s.board with line := .run }, tables := { s.tables with staging := none } } : State).lineStateRaised.answered
          .lineController [0x11, num, 0x00]))) := by
  have hserve : ∀ {t : State} {a : Answer}, startLine .lineController [] (s.taken .lineController) = (t.taken .lineController, a) →
      exec (.start .lineController num []) s = .next (t.answered .lineController (0x11 :: num :: a.status.code :: a.fields)) :=
    fun h => serve_answered (r := .start) hr (by simp) (by decide) (by decide) h
  refine ⟨fun hl => ?_, fun hl => ⟨fun table check hf => ?_, fun hf => ?_⟩⟩
  · exact hserve (startLine_run (by rw [taken_board]; exact hl) _ _)
  · exact hserve (startLine_fault (by rw [taken_board]; exact hl) (by rw [startFault_taken]; exact hf) _ _)
  · refine hserve (a := .bare .ok) ?_
    rw [startLine_ok (by rw [taken_board]; exact hl) (by rw [startFault_taken]; exact hf), setLineState_of_ne]
    · rfl
    · change (s.taken .lineController).board.line ≠ .run
      rw [taken_board, hl]
      decide

/-- RESTART-TRACKING that is ready restarts the state with the request taken, and answers the boards lost. -/
theorem exec_restart (num : Byte) (s : State) (hr : s.Ready .lineController [0x12, num]) :
    exec (.restartTracking .lineController num []) s = .next ((restart (s.taken .lineController)).modifyLink .lineController
      fun k => k.enqueue [0x12, num, 0x00, BitVec.ofNat 8 s.live.length]) := by
  have hlive : (s.taken .lineController).live = s.live := by unfold State.live; rw [taken_board]
  have hjudge : judgeRequest .restartTracking .lineController [] restartTracking (s.taken .lineController) =
      (restart (s.taken .lineController), { status := .ok, fields := u8 s.live.length }) := by
    rw [← hlive]
    rfl
  have hserve := serve_ready (r := .restartTracking) restartTracking hr (by simp)
  rw [hjudge] at hserve
  exact hserve

/-- Settles O42, START by its list of checks and RESTART-TRACKING by its steps. -/
theorem lineStateRequests : Obligations.LineStateRequests := by
  unfold Obligations.LineStateRequests
  refine ⟨fun num s hr => ?_, fun num s hr => ?_⟩
  · intro run t fitted group dropsLate special checks
    obtain ⟨hrun, hconfig⟩ := start_answers num s hr
    refine ⟨hrun, fun hl => ?_⟩
    obtain ⟨hfault, hok⟩ := hconfig hl
    have hfirstCheck : checks.find? (fun c => c.2.2) =
        (s.startChecks.find? fun c => c.2.2).map fun c => (BitVec.ofNat 8 c.1.code, BitVec.ofNat 8 c.2.1, c.2.2) :=
      List.find?_map (l := s.startChecks) (f := fun c => (BitVec.ofNat 8 c.1.code, BitVec.ofNat 8 c.2.1, c.2.2)) (p := fun c => c.2.2)
    rw [hfirstCheck]
    have hfirst := startFault_eq s
    unfold firstFailing at hfirst
    cases hfind : s.startChecks.find? (·.2.2) with
    | none =>
      rw [hfind] at hfirst
      exact hok hfirst
    | some c =>
      rw [hfind] at hfirst
      exact hfault _ _ hfirst
  · intro lost posted trimmer chains a
    set u := s.taken .lineController with hu
    set resp := fun k : LinkState => k.enqueue [0x12, num, 0x00, BitVec.ofNat 8 s.live.length] with hresp
    have hub : u.board = s.board := taken_board s _
    have hus : SameReports u s := ⟨rfl, rfl, rfl, rfl⟩
    have huu : ∀ ch, u.unit ch = s.unit ch := taken_unit s _
    have ho := (loseAll_outside u).weaken.trans (restart_outside u).weaken
      (m := { tcu := true, scu := true, trimmer := true, transfer := true, sorter := true, line := true, gradingA := true, gradingB := true,
              saws := true, sort := true, tally := true, events := true, attention := true })
    have hboard : (restart u).board = { s.board with sorter := [], transfer := [], trimmer := [], line := .config } := by
      rw [restart_board, hub]
    have hreports : SameReports u.searching chains := searching_reports hus hub huu
    have htally : (restart u).tally = posted.tally := by
      rw [(restart_outside u).tally rfl]
      exact (loseAll_reports hus hub).tally
    obtain ⟨hevents, hattention⟩ := restart_line_reports u
    rw [hreports.events] at hevents
    rw [hub, hreports.attention] at hattention
    obtain ⟨hclosed, hcells, hlost⟩ := loseFold_tally s.lostOrder s
    rw [lostOrder_length] at hlost
    have htboard := (State.modifyLink_board (restart u) .lineController resp).trans hboard
    have hkept : ((restart u).modifyLink .lineController resp).tally = posted.tally := (State.modifyLink_tally _ _ _).trans htally
    have hlinks : (restart u).links = u.links := ho.links rfl
    have hlink : ∀ l, (restart u).link l = u.link l := fun l => by cases l <;> simp only [State.link, hlinks]
    have hafter := modifyLink_outside .lineController resp (restart u)
    refine ⟨(restart u).modifyLink .lineController resp, exec_restart num s hr, ?_, ?_, by rw [htboard], by rw [htboard], by rw [htboard],
      by rw [htboard], fun ch => ?_, fun p => ?_, (hafter.events rfl).trans hevents, ?_, fun other hne => ?_, ?_,
      (hafter.standing rfl).trans (ho.standing rfl), (hafter.pending rfl).trans (ho.pending rfl), fun k hk => ?_, ?_,
      fun n h1 h48 => ?_, ?_, (hafter.tables rfl).trans (ho.tables rfl), (hafter.decision rfl).trans (ho.decision rfl),
      (hafter.timebase rfl).trans (ho.timebase rfl), (hafter.pins rfl).trans (ho.pins rfl), hkept, ?_, ?_, ?_⟩
    · rw [State.modifyLink_link, hlink, hu, State.taken, State.modifyLink_link]
    · unfold State.live
      rw [htboard]
      rfl
    · have hunit : ((restart u).modifyLink .lineController resp).unit ch = (restart u).unit ch := by
        cases ch
        · exact hafter.tcu rfl
        · exact hafter.scu rfl
      rw [hunit, restart_unit, huu]
    · have hgrading : ((restart u).modifyLink .lineController resp).grading p = (restart u).grading p := by
        cases p
        · exact hafter.gradingA rfl
        · exact hafter.gradingB rfl
      have hu' : u.grading p = s.grading p := by cases p <;> rfl
      rw [hgrading, restart_grading, hu', Grading.restarted_eq]
      exact ⟨fun i => by simp, rfl, rfl, rfl, rfl⟩
    · refine ((hafter.attention rfl).trans hattention).trans ?_
      by_cases hl : s.board.line = .run
      · rw [if_pos hl, if_pos hl]
        rfl
      · rw [if_neg hl, if_neg hl]
    · rw [State.modifyLink_link_ne _ _ hne, hlink, hu, State.taken, State.modifyLink_link_ne _ _ hne]
    · have hnotice : ∀ (x : State) f, (x.modifyLink .lineController f).links.notice = x.links.notice := fun _ _ => rfl
      rw [hnotice, hlinks, hu, State.taken, hnotice]
    · rw [State.saw, hafter.saws rfl]
      exact restart_saw u hk
    · rw [hafter.saws rfl, restart_saws]
    · rw [State.bin, hafter.sort rfl]
      exact restart_bin u h1 h48
    · rw [hafter.sort rfl, restart_sort, hu, taken_sort]
    · rw [hkept]
      exact hclosed
    · rw [hkept]
      exact hcells
    · rw [hkept]
      exact hlost

end Sys2Proof.Proofs
end
-- ==== Sys2Proof/Proofs/Layouts.lean ====
section
/-! The layouts of records, bins, trailers, events and status pages (O50). A READ-RECORD answer is a list of parts of fixed lengths, so
each field is one of the parts. -/

namespace Sys2Proof.Machine

-- One thread elaborates the many small proofs of this file.
set_option Elab.async false

/-! ### Numbers and bits -/

theorem u32_eq (n : Nat) : u32 n = u16 (n / 65536) ++ u16 n := by
  simp [u32, u16, Nat.div_div_eq_div_mul]

theorem flag8_eq (b : Bool) : flag8 b = [if b then 1 else 0] := by cases b <;> rfl

/-- A flag's weight in a flag byte. -/
theorem ite_eq_mul_toNat (b : Bool) (n : Nat) : (if b then n else 0) = n * b.toNat := by cases b <;> simp

theorem packBits_cons (b : Bool) (bits : List Bool) : packBits (b :: bits) = 2 * packBits bits + b.toNat := rfl

theorem packBits_nil : packBits [] = 0 := rfl

/-- Flag bits are the sum of the weights of those set. -/
theorem packBits_eq_sum (bits : List Bool) :
    packBits bits = ((List.range bits.length).map fun j => if (bits[j]?).getD false then 2 ^ j else 0).sum := by
  induction bits with
  | nil => rfl
  | cons b rest ih =>
    have hshift : ∀ j, (if ((b :: rest)[j + 1]?).getD false then 2 ^ (j + 1) else 0) =
        2 * (if (rest[j]?).getD false then 2 ^ j else 0) := fun j => by
      rw [List.getElem?_cons_succ]
      split
      · rw [Nat.pow_succ, Nat.mul_comm]
      · rfl
    rw [packBits_cons, ih, List.length_cons, List.range_succ_eq_map, List.map_cons, List.map_map, List.sum_cons]
    simp only [Function.comp_def, Nat.succ_eq_add_one, hshift, List.sum_map_mul_left]
    cases b
    · simp
    · simp; omega

theorem sawBits_eq (v : Vector Bool 13) :
    sawBits v = u16 ((List.range 13).map fun j => if entryD v j false then 2 ^ j else 0).sum := by
  unfold sawBits
  rw [packBits_eq_sum]
  simp only [Vector.getElem?_toList, Vector.length_toList]
  rfl

/-- The entries of a vector in order. -/
theorem toList_eq_map_entryD {α : Type} {k : Nat} (v : Vector α k) (d : α) : v.toList = (List.range k).map fun i => entryD v i d := by
  refine List.ext_getElem (by simp) fun i h1 h2 => ?_
  have hi : i < k := by simpa using h1
  simp [entryD, hi]

/-! ### Fields of a list of parts -/

/-- The bytes of a list of parts at one part's offset are that part. -/
theorem field_flatten {parts : List (List Byte)} {lens : List Nat} (h : parts.map List.length = lens) {i : Nat} (hi : i < parts.length) :
    (parts.flatten.drop (lens.take i).sum).take (parts[i]).length = parts[i] := by
  subst h
  have hsplit : parts.take i ++ parts[i] :: parts.drop (i + 1) = parts := by
    rw [List.getElem_cons_drop, List.take_append_drop]
  have hlen : ((parts.map List.length).take i).sum = (parts.take i).flatten.length := by
    rw [List.length_flatten, List.map_take]
  have hflat : parts.flatten = (parts.take i).flatten ++ (parts[i] ++ (parts.drop (i + 1)).flatten) := by
    rw [← List.flatten_cons, ← List.flatten_append, hsplit]
  rw [hlen, hflat, List.drop_left, List.take_left]

/-- A field within a field. -/
theorem field_field (bytes : List Byte) {a n b m : Nat} (h : b + m ≤ n) :
    (bytes.drop (a + b)).take m = (((bytes.drop a).take n).drop b).take m := by
  rw [List.drop_take, List.take_take, List.drop_drop, Nat.min_eq_left (by omega)]

/-! ### READ-RECORD (R181) -/

theorem partBytes_length {α : Type} {n : Nat} {f : α → List Byte} (h : ∀ x, (f x).length = n) (o : Option α) :
    (partBytes n f o).length = n := by
  cases o with
  | none => exact List.length_replicate
  | some x => exact h x

theorem candidates_length (cs : List Candidate) : (cs.flatMap Candidate.bytes).length = 3 * cs.length := by
  induction cs with
  | nil => rfl
  | cons c rest ih =>
    rw [List.flatMap_cons, List.length_append, ih, List.length_cons]
    change 3 + _ = _
    omega

theorem candidateBytes_length (cs : List Candidate) : (candidateBytes cs).length = 24 := by
  unfold candidateBytes
  dsimp only
  rw [List.length_append, candidates_length, zeros, List.length_replicate, List.length_take]
  omega

/-- The place of a candidate in the entries: its three bytes, or zeros. -/
theorem candidates_field (cs : List Candidate) (n i : Nat) (h : 3 * i + 3 ≤ 3 * cs.length + n) :
    (((cs.flatMap Candidate.bytes ++ zeros n).drop (3 * i)).take 3) = match cs[i]? with
      | some c => c.bytes
      | none => zeros 3 := by
  induction cs generalizing i with
  | nil =>
    rw [List.length_nil] at h
    change ((zeros n).drop (3 * i)).take 3 = zeros 3
    rw [zeros, zeros, List.drop_replicate, List.take_replicate]
    congr 1
    omega
  | cons c rest ih =>
    have hc : c.bytes.length = 3 := rfl
    cases i with
    | zero =>
      rw [List.flatMap_cons, List.append_assoc]
      change (c.bytes ++ _).take 3 = c.bytes
      exact List.take_left' hc
    | succ i =>
      rw [List.length_cons] at h
      rw [List.flatMap_cons, List.append_assoc, show 3 * (i + 1) = c.bytes.length + 3 * i by rw [hc]; omega,
        List.drop_length_add_append]
      exact ih i (by omega)

theorem candidateBytes_field (cs : List Candidate) {i : Nat} (h : i < 8) :
    ((candidateBytes cs).drop (3 * i)).take 3 = match cs[i]? with
      | some c => c.bytes
      | none => zeros 3 := by
  unfold candidateBytes
  dsimp only
  have hlen := candidates_length (cs.take 8)
  rw [candidates_field _ _ _ (by rw [hlen, List.length_take]; omega), List.getElem?_take_of_lt h]

/-- The parts of a READ-RECORD answer, in order. -/
def recordParts (r : Record) (place : Place) : List (List Byte) :=
  [u16 r.tag, u8 r.origin.code, u8 r.life.code, u8 r.flags.byte, u8 r.parts, u32 r.creation.toNat, u32 (r.sorterSerial.getD 0).toNat,
   place.bytes, partBytes 4 ScanSummary.bytes r.scan, partBytes 26 Solution.bytes r.solution, partBytes 6 MarkSet.bytes r.marks,
   partBytes 5 Force.bytes r.force, partBytes 17 Decision.bytes r.decision, partBytes 15 SawOutcome.bytes r.outcome,
   partBytes 10 SortPart.bytes r.sort]

theorem recordBytes_eq (r : Record) (place : Place) : recordBytes r place = (recordParts r place).flatten := by
  simp only [recordBytes, recordParts, List.flatten_cons, List.flatten_nil, List.append_assoc, List.append_nil]

theorem recordParts_length (r : Record) (place : Place) :
    (recordParts r place).map List.length = [2, 1, 1, 1, 1, 4, 4, 3, 4, 26, 6, 5, 17, 15, 10] := by
  have hplace : place.bytes.length = 3 := by cases place <;> rfl
  have hsolution : ∀ x : Solution, x.bytes.length = 26 := fun x => by
    rw [Solution.bytes, List.length_append, candidateBytes_length]
    rfl
  have hforce : ∀ x : Force, x.bytes.length = 5 := fun x => rfl
  simp only [recordParts, List.map_cons, List.map_nil, hplace, partBytes_length hsolution, partBytes_length hforce,
    partBytes_length (n := 4) (f := ScanSummary.bytes) (fun _ => rfl), partBytes_length (n := 6) (f := MarkSet.bytes) (fun _ => rfl),
    partBytes_length (n := 17) (f := Decision.bytes) (fun _ => rfl), partBytes_length (n := 15) (f := SawOutcome.bytes) (fun _ => rfl),
    partBytes_length (n := 10) (f := SortPart.bytes) (fun _ => rfl)]
  rfl

theorem recordBytes_length (r : Record) (place : Place) : (recordBytes r place).length = 100 := by
  rw [recordBytes_eq, List.length_flatten, recordParts_length]
  rfl

/-- A field of a READ-RECORD answer at a part's offset is that part. -/
theorem recordBytes_field (r : Record) (place : Place) (i : Nat) {a n : Nat} {part : List Byte}
    (hpart : (recordParts r place)[i]? = some part)
    (ha : ([2, 1, 1, 1, 1, 4, 4, 3, 4, 26, 6, 5, 17, 15, 10].take i).sum = a)
    (hn : ([2, 1, 1, 1, 1, 4, 4, 3, 4, 26, 6, 5, 17, 15, 10] : List Nat)[i]? = some n) :
    ((recordBytes r place).drop a).take n = part := by
  obtain ⟨hlt, rfl⟩ := List.getElem?_eq_some_iff.mp hpart
  have hlen : (recordParts r place)[i].length = n := by
    rw [← recordParts_length r place, List.getElem?_map, hpart] at hn
    exact Option.some.inj hn
  have := field_flatten (recordParts_length r place) hlt
  rwa [hlen, ha, ← recordBytes_eq] at this

/-! ### Parts of a record as the manual lists them (R178, R181) -/

theorem flags_byte_eq (f : RecordFlags) : f.byte =
    (if f.suspect then 1 else 0) + (if f.double then 2 else 0) + (if f.miscut then 4 else 0) + (if f.sawMiss then 8 else 0) +
      (if f.gateMiss then 16 else 0) + (if f.rerouted then 32 else 0) + (if f.redecided then 64 else 0) := by
  simp only [RecordFlags.byte, packBits_cons, packBits_nil, ite_eq_mul_toNat]
  omega

theorem record_parts_eq (r : Record) : r.parts =
    (if r.scan.isSome then 1 else 0) + (if r.solution.isSome then 2 else 0) + (if r.marks.isSome then 4 else 0) +
      (if r.force.isSome then 8 else 0) + (if r.decision.isSome then 16 else 0) + (if r.outcome.isSome then 32 else 0) +
      (if r.sort.isSome then 64 else 0) := by
  simp only [Record.parts, packBits_cons, packBits_nil, ite_eq_mul_toNat]
  omega

/-- A candidate's place in the solution's bytes. -/
theorem solution_candidate (o : Option Solution) {i : Nat} (h : i < 8) :
    ((partBytes 26 Solution.bytes o).drop (2 + 3 * i)).take 3 = match ((o.map (·.candidates)).getD [])[i]? with
      | some c => [BitVec.ofNat 8 c.saw, if c.fence then 1 else 0, BitVec.ofNat 8 c.grade]
      | none => [0, 0, 0] := by
  cases o with
  | none =>
    change ((zeros 26).drop (2 + 3 * i)).take 3 = zeros 3
    rw [zeros, zeros, List.drop_replicate, List.take_replicate]
    congr 1
    omega
  | some x =>
    have hdrop : (partBytes 26 Solution.bytes (some x)).drop (2 + 3 * i) = (candidateBytes x.candidates).drop (3 * i) := by
      rw [Nat.add_comm]
      rfl
    rw [hdrop, candidateBytes_field _ h]
    change _ = match x.candidates[i]? with
      | some c => [BitVec.ofNat 8 c.saw, if c.fence then 1 else 0, BitVec.ofNat 8 c.grade]
      | none => [0, 0, 0]
    cases x.candidates[i]? with
    | none => rfl
    | some c =>
      change u8 c.saw ++ flag8 c.fence ++ u8 c.grade = _
      rw [flag8_eq]
      rfl

/-- A READ-BINS entry (R182). -/
theorem bin_layout (b : BinRec) :
    let item (f : BinItems → Nat) : Nat := (b.items.map f).getD 0
    let bit (x : Bool) (n : Nat) : Nat := if x then n else 0
    b.bytes = u8 (bit b.items.isSome 128 + match b.state with
        | .opened => 0
        | .full => 1
        | .unloading => 2
        | .disabled => 3) ++
      u16 b.dropped ++ u16 b.reserved ++ u16 (b.dropped + b.reserved) ++ u16 (item (·.capacity)) ++ u16 (item (·.hi)) ++
      u16 (item (·.lo)) ++ [if b.near then 1 else 0] ++ u8 b.misses ++ u8 b.pending.length ++
      u8 (bit b.gateOpen 1 + bit b.fullSwitch 2 + bit b.confirmInput 4) ∧ b.bytes.length = 17 := by
  intro item bit
  have hflags : packBits [b.gateOpen, b.fullSwitch, b.confirmInput] =
      (if b.gateOpen then 1 else 0) + (if b.fullSwitch then 2 else 0) + (if b.confirmInput then 4 else 0) := by
    simp only [packBits_cons, packBits_nil, ite_eq_mul_toNat]
    omega
  refine ⟨?_, rfl⟩
  unfold BinRec.bytes
  rw [hflags, flag8_eq, Nat.add_comm b.state.code]
  rfl

/-! ### Status pages (R180) -/

/-- A grading position's items. -/
theorem gradingStatus_eq (s : State) (l : LinkId) (p : Position) :
    let g := s.grading p
    let slots := (List.range 6).map fun i => entryD g.slots i .empty
    let offset : Nat := match g.target.bind fun tag => byTag s.board.trimmer tag with
      | some r => r.trimmerOffset s.tcu.serial
      | none => 0
    let c := g.counts
    gradingStatus s l p = u8 (slots.filter fun x => decide (x ≠ .empty)).length ++ u8 g.top.val ++ u16 (g.target.getD 0) ++ u8 offset ++
      [c.keys, c.voids, c.refusals, c.commits, c.passes, c.missed, c.badBytes, c.repliesLost].flatMap u32 ++
      (if l = .lineController then slots.map Slot.tagByte ++ slots.map Slot.keyByte else []) := by
  intro g slots offset c
  have hcounts : c.bytes = [c.keys, c.voids, c.refusals, c.commits, c.passes, c.missed, c.badBytes, c.repliesLost].flatMap u32 := by
    simp [MarkCounts.bytes]
  have hslots : g.slots.toList = slots := toList_eq_map_entryD g.slots .empty
  have hdepth : g.depth = (slots.filter fun x => decide (x ≠ .empty)).length := by
    unfold Grading.depth
    rw [hslots]
    congr 2
    funext x
    cases x <;> rfl
  have hoffset : ((g.target.bind fun t => byTag s.board.trimmer t).map fun r => r.trimmerOffset s.tcu.serial).getD 0 = offset := by
    change _ = match g.target.bind fun tag => byTag s.board.trimmer tag with
      | some r => r.trimmerOffset s.tcu.serial
      | none => 0
    cases g.target.bind fun t => byTag s.board.trimmer t <;> rfl
  unfold gradingStatus
  dsimp only
  change u8 g.depth ++ u8 g.top.val ++ u16 (g.target.getD 0) ++ u8 _ ++ c.bytes ++ _ = _
  rw [hdepth, hoffset, hslots, hcounts]
  cases l <;> rfl

theorem confirmMode_byte (m : ConfirmMode) : u8 m.code = [match m with
    | .none => (1 : Byte)
    | .confirm => 2
    | .retry => 3] := by cases m <;> rfl

theorem writer_byte (blocked : Bool) : u8 (if blocked then 2 else 1) = [if blocked then (2 : Byte) else 1] := by cases blocked <;> rfl

theorem lineMode_bytes (m : LineMode) : m.bytes =
    (match m.saws with
      | .auto => [(1 : Byte), 0]
      | .fixed k => [2, BitVec.ofNat 8 k]
      | .trashAll => [3, 0]
      | .bypass => [4, 0]) ++
    (match m.sort with
      | .byProduct => [1]
      | .allReject => [2]
      | .allRunout => [3]) := by
  obtain ⟨saws, sort⟩ := m
  cases saws <;> cases sort <;> rfl

end Sys2Proof.Machine

namespace Sys2Proof.Proofs
open Sys2Proof.Machine

/-- Settles O50, a record by its list of parts and each page by its items. -/
theorem readLayouts : Obligations.ReadLayouts := by
  unfold Obligations.ReadLayouts
  refine ⟨fun n => ⟨rfl, rfl, rfl, u32_eq n⟩, fun r place => ?_, ?_, fun b => ?_, fun sequence count dropped shift shiftEnd => ?_,
    fun e => ?_, fun s l => ?_⟩
  · intro bytes field bit small who kind saws f posted
    have hfield := @recordBytes_field r place
    have hsolution : (bytes.drop 21).take 26 = partBytes 26 Solution.bytes r.solution := hfield 9 rfl rfl rfl
    have hkind : ∀ k : Disposition, kind k = k.code := fun k => by cases k <;> rfl
    have hwho : ∀ (o : Option Position) n, who o n = n * (o.map Position.code).getD 0 := fun o n => by
      rcases o with _ | _ | _
      · rfl
      · exact (Nat.mul_one n).symm
      · exact Nat.mul_comm 2 n
    have hsaws : ∀ v, saws v = sawBits v := fun v => (sawBits_eq v).symm
    refine ⟨recordBytes_length r place, hfield 0 rfl rfl rfl, ?_, hfield 2 rfl rfl rfl, ?_, ?_, hfield 5 rfl rfl rfl, ?_, ?_, ?_, ?_, fun i hi => ?_, ?_, ?_, fun hd => ?_,
      fun d hd => ?_, ?_, ?_⟩
    · refine (hfield 1 rfl rfl rfl).trans ?_
      cases r.origin <;> rfl
    · exact (hfield 3 rfl rfl rfl).trans (congrArg u8 (flags_byte_eq r.flags))
    · exact (hfield 4 rfl rfl rfl).trans (congrArg u8 (record_parts_eq r))
    · refine (hfield 6 rfl rfl rfl).trans ?_
      cases r.sorterSerial <;> rfl
    · refine (hfield 7 rfl rfl rfl).trans ?_
      cases place <;> rfl
    · refine (hfield 8 rfl rfl rfl).trans ?_
      cases r.scan <;> rfl
    · refine (field_field bytes (a := 21) (n := 26) (b := 0) (m := 2) (by omega)).trans ?_
      rw [hsolution]
      cases r.solution <;> rfl
    · have hat : field (23 + 3 * i) 3 = (bytes.drop (21 + (2 + 3 * i))).take 3 := by rw [← Nat.add_assoc]
      rw [hat, field_field bytes (n := 26) (by omega), hsolution]
      exact solution_candidate r.solution hi
    · refine (hfield 10 rfl rfl rfl).trans ?_
      cases r.marks with
      | none => rfl
      | some m =>
        have hby : packBits [m.byA, m.byB] = bit m.byA 1 + bit m.byB 2 := by
          change _ = (if m.byA then 1 else 0) + if m.byB then 2 else 0
          simp only [packBits_cons, packBits_nil, ite_eq_mul_toNat]
          omega
        have hset : m.setters = who (m.grade.map (·.setBy)) 1 + who (m.cutback.map (·.setBy)) 4 + who (m.disposition.map (·.setBy)) 16 +
            who m.noFence 64 := by
          rw [hwho, hwho, hwho, hwho, Nat.one_mul]
          rfl
        change m.bytes = _
        unfold MarkSet.bytes
        rw [hset, hby, flag8_eq]
        simp only [hkind]
        rfl
    · refine (hfield 11 rfl rfl rfl).trans ?_
      cases r.force with
      | none => rfl
      | some x =>
        change x.bytes = _
        obtain ⟨forced, fence, grade, disposition⟩ := x
        have hfence : opt8 (fence.map fun on => if on then 1 else 2) = [match fence with
            | none => 0
            | some true => 1
            | some false => 2] := by rcases fence with _ | _ | _ <;> rfl
        unfold Force.bytes
        dsimp only
        rw [hfence]
        rcases forced with _ | _ | _ | _ <;> rfl
    · refine (hfield 12 rfl rfl rfl).trans ?_
      rw [hd]
      rfl
    · refine ⟨(hfield 12 rfl rfl rfl).trans (by rw [hd]; rfl), ?_⟩
      unfold Decision.bytes
      rw [hkind, flag8_eq]
      rfl
    · refine (hfield 13 rfl rfl rfl).trans ?_
      cases r.outcome with
      | none => rfl
      | some o =>
        change o.bytes = _
        unfold SawOutcome.bytes
        dsimp only
        rw [hsaws, hsaws, hkind]
        cases o.result <;> rfl
    · refine (hfield 14 rfl rfl rfl).trans ?_
      cases r.sort with
      | none => rfl
      | some q =>
        change q.bytes = _
        unfold SortPart.bytes
        dsimp only
        rw [hkind]
        cases q.route <;> cases q.result <;> rfl
  · decide
  · exact bin_layout b
  · change u16 0 ++ u32 sequence.toNat ++ u8 count ++ u32 dropped ++ u16 shift ++ flag8 shiftEnd ++ zeros 6 = _
    rw [flag8_eq]
    rfl
  · cases e with
    | mk kind chain serial subject detail => rcases chain with _ | _ | _ <;> rfl
  · intro sync chain position saw link d q f st t n
    have hchain : ∀ ch, chainStatus (s.unit ch) (s.params ch) = chain ch := fun ch => rfl
    have hposition : ∀ p, gradingStatus s l p = position p := fun p => gradingStatus_eq s l p
    have hsaw : sawStatus s = saw := by
      funext k
      unfold sawStatus
      rw [confirmMode_byte]
      rfl
    have hlink : ∀ k, linkStatus k = link k := fun k => by
      change _ = [Config.receiverStateCode (match k.rx with
        | .hunt => 0
        | .frame _ _ => 1
        | .skip => 2)] ++ u16 k.fill ++ flag8 k.rxPause ++ flag8 k.txPause ++ u8 k.tx.length ++
        [k.stray, k.framing, k.crcFaults, k.overruns, k.taken, k.denied, k.format, k.breaks].flatMap u32
      simp only [linkStatus, List.flatMap_cons, List.flatMap_nil, List.append_assoc, List.append_nil]
      rfl
    refine ⟨rfl, congrArg some ?_, congrArg some ?_, congrArg some ?_, congrArg some ?_, congrArg some ?_, rfl, congrArg some ?_,
      fun page hp => ?_⟩
    · rw [hposition, hposition]
    · rw [statusSaws, hsaw]
      rfl
    · have hreasons : d.reasons.toList.flatMap u32 = (List.range 12).flatMap fun i => u32 (entryD d.reasons i 0) := by
        rw [toList_eq_map_entryD d.reasons 0, List.flatMap_map]
      rw [statusDecisions, hreasons, lineMode_bytes]
      simp only [List.flatMap_cons, List.flatMap_nil, List.append_assoc, List.append_nil]
      rfl
    · rw [statusTally, writer_byte]
      simp only [List.flatMap_cons, List.flatMap_nil, List.append_assoc, List.append_nil]
      rfl
    · rw [hlink, hlink, hlink]
      rfl
    · simp only [SortCounts.bytes, List.flatMap_cons, List.flatMap_nil, List.append_assoc, List.append_nil]
      rfl
    · unfold statusPage
      split <;> first | omega | rfl

end Sys2Proof.Proofs
end
-- ==== Sys2Proof/Proofs/Timers.lean ====
section
/-! The timers at a tick, for O2: each is raised by 1 ms and then expires if it is due. A timer's expiry neither reads nor moves the time
of a later one, so raising the later one first makes no difference. -/

namespace Sys2Proof.Machine

-- One thread elaborates the many small proofs of this file.
set_option Elab.async false

/-! ### Changes of one entry -/

theorem modifyAt_self {α : Type} {k : Nat} (v : Vector α k) {n : Nat} {f : α → α} (d : α) (h : f (entryD v n d) = entryD v n d) :
    modifyAt v n f = v := by
  unfold modifyAt
  split
  · next hn =>
    rw [entryD_of_lt _ _ hn] at h
    rw [h, Vector.set_getElem_self]
  · rfl

theorem modifyAt_modifyAt {α : Type} {k : Nat} (v : Vector α k) (n : Nat) (f g : α → α) :
    modifyAt (modifyAt v n g) n f = modifyAt v n fun a => f (g a) := by
  unfold modifyAt
  split
  · simp
  · rfl

theorem modifyAt_comm {α : Type} {k : Nat} (v : Vector α k) {m n : Nat} (f g : α → α) (h : m ≠ n) :
    modifyAt (modifyAt v n g) m f = modifyAt (modifyAt v m f) n g := by
  unfold modifyAt
  by_cases hm : m < k
  · by_cases hn : n < k
    · simp only [hm, hn, dite_true, Vector.getElem_set_ne _ _ h.symm, Vector.getElem_set_ne _ _ h]
      exact Vector.set_comm _ _ h.symm
    · simp only [hm, hn, dite_true, dite_false]
  · by_cases hn : n < k
    · simp only [hm, hn, dite_true, dite_false]
    · simp only [hm, hn, dite_false]

theorem modifyBin_self {s : State} {n : Nat} {f : BinRec → BinRec} (h : f (s.bin n) = s.bin n) : s.modifyBin n f = s := by
  unfold State.modifyBin
  split
  · rfl
  · next h0 =>
    rw [State.bin, if_neg h0] at h
    rw [modifyAt_self _ _ h]

theorem modifyBin_modifyBin (s : State) (n : Nat) (f g : BinRec → BinRec) :
    (s.modifyBin n g).modifyBin n f = s.modifyBin n fun b => f (g b) := by
  unfold State.modifyBin
  by_cases h : n = 0
  · rw [if_pos h, if_pos h, if_pos h]
  · rw [if_neg h, if_neg h, if_neg h]
    simp only [modifyAt_modifyAt]

theorem modifyBin_comm (s : State) {m n : Nat} (f g : BinRec → BinRec) (h : m ≠ n) :
    (s.modifyBin n g).modifyBin m f = (s.modifyBin m f).modifyBin n g := by
  unfold State.modifyBin
  by_cases hm : m = 0
  · rw [if_pos hm, if_pos hm]
  · by_cases hn : n = 0
    · rw [if_pos hn, if_pos hn]
    · rw [if_neg hm, if_neg hn, if_neg hm, if_neg hn]
      simp only [modifyAt_comm s.sort.bins f g (show m - 1 ≠ n - 1 by omega)]

/-- What a change of a bin leaves of it, it leaves of every bin. -/
theorem modifyBin_part {α : Type} (part : BinRec → α) {f : BinRec → BinRec} (h : ∀ b, part (f b) = part b) (s : State) (n m : Nat) :
    part ((s.modifyBin n f).bin m) = part (s.bin m) := by
  by_cases hm : m = n
  · subst hm
    by_cases hb : binExists m = true
    · rw [State.modifyBin_bin _ _ hb, h]
    · have hb' : m = 0 ∨ 48 < m := by
        simp only [binExists, decide_eq_true_eq] at hb
        omega
      obtain rfl | h48 := hb'
      · rfl
      · have hs : s.modifyBin m f = s := by
          unfold State.modifyBin
          rw [if_neg (by omega), modifyAt_size _ _ _ (by omega)]
        rw [hs]
  · rw [State.modifyBin_bin_ne _ _ hm]

theorem modifySaw_self {s : State} {k : Nat} {f : SawRec → SawRec} (h : f (s.saw k) = s.saw k) : s.modifySaw k f = s := by
  unfold State.modifySaw
  rw [modifyAt_self _ _ h]

theorem modifySaw_comm (s : State) {j k : Nat} (f g : SawRec → SawRec) (h : j ≠ k) :
    (s.modifySaw k g).modifySaw j f = (s.modifySaw j f).modifySaw k g := by
  unfold State.modifySaw
  simp only [modifyAt_comm s.saws.recs f g h]

/-! ### Operations that do not reach the bins or the saws -/

/-- The state with another sort unit. -/
def State.withSort (s : State) (x : SortUnit) : State := { s with sort := x }

/-- The state with other saw records. -/
def State.withSaws (s : State) (x : SawUnit) : State := { s with saws := x }

theorem modifyBin_withSort (n : Nat) (f : BinRec → BinRec) : ∃ g : SortUnit → SortUnit, ∀ t : State,
    t.modifyBin n f = t.withSort (g t.sort) := by
  by_cases h : n = 0
  · exact ⟨id, fun t => by rw [State.modifyBin, if_pos h]; rfl⟩
  · exact ⟨fun x => { x with bins := modifyAt x.bins (n - 1) f }, fun t => by rw [State.modifyBin, if_neg h]; rfl⟩

section
variable (s : State) (x : SortUnit)

theorem withSort_latch (c : Cause) : latch c (s.withSort x) = (latch c s).withSort x := by cases c <;> rfl

theorem withSort_raiseEvent (k : EventKind) (c : Option Chain) (n d : Nat) :
    raiseEvent k c n d (s.withSort x) = (raiseEvent k c n d s).withSort x := by
  have he : (s.withSort x).events = s.events := rfl
  unfold raiseEvent
  rw [he]
  split <;> rfl

theorem withSort_stopChain (ch : Chain) : stopChain ch (s.withSort x) = (stopChain ch s).withSort x := by
  have hu : (s.withSort x).unit ch = s.unit ch := by cases ch <;> rfl
  have hset : ∀ u, (s.withSort x).setUnit ch u = (s.setUnit ch u).withSort x := fun u => by cases ch <;> rfl
  unfold stopChain
  rw [hu, hset, withSort_raiseEvent]
  split <;> rfl

theorem withSort_markSawMiss : markSawMiss (s.withSort x) = (markSawMiss s).withSort x := by
  have ho : (s.withSort x).saws = s.saws := rfl
  unfold markSawMiss
  rw [ho]
  split <;> rfl

theorem withSort_modifySaw (k : Nat) (f : SawRec → SawRec) : (s.withSort x).modifySaw k f = (s.modifySaw k f).withSort x := rfl

theorem withSort_missSaw (k : Nat) : missSaw k (s.withSort x) = (missSaw k s).withSort x := by
  have hs : (s.withSort x).saw k = s.saw k := rfl
  have ht : ∀ t : State, (t.withSort x).tables = t.tables := fun _ => rfl
  unfold missSaw
  dsimp only
  rw [hs, withSort_modifySaw, withSort_raiseEvent, withSort_markSawMiss, ht]
  split
  · rw [withSort_modifySaw, withSort_raiseEvent, withSort_latch]
  · rfl

theorem withSort_expireWindow (k : Nat) : expireWindow k (s.withSort x) = (expireWindow k s).withSort x := by
  have hs : (s.withSort x).saw k = s.saw k := rfl
  have hm : (s.withSort x).sawMode k = s.sawMode k := rfl
  unfold expireWindow
  rw [hs, hm, withSort_missSaw, withSort_modifySaw]
  split
  · rfl
  · rfl
  · split <;> rfl

end

section
variable (s : State) (x : SawUnit)

theorem withSaws_raiseEvent (k : EventKind) (c : Option Chain) (n d : Nat) :
    raiseEvent k c n d (s.withSaws x) = (raiseEvent k c n d s).withSaws x := by
  have he : (s.withSaws x).events = s.events := rfl
  unfold raiseEvent
  rw [he]
  split <;> rfl

theorem withSaws_stopChain (ch : Chain) : stopChain ch (s.withSaws x) = (stopChain ch s).withSaws x := by
  have hu : (s.withSaws x).unit ch = s.unit ch := by cases ch <;> rfl
  have hset : ∀ u, (s.withSaws x).setUnit ch u = (s.setUnit ch u).withSaws x := fun u => by cases ch <;> rfl
  unfold stopChain
  rw [hu, hset, withSaws_raiseEvent]
  split <;> rfl

end

/-! ### Expiries and the time of a later timer -/

theorem stopChain_sort (ch : Chain) (s : State) : (stopChain ch s).sort = s.sort := by
  unfold stopChain
  split
  · rfl
  · rw [(raiseEvent_outside _ _ _ _ _).sort rfl]
    cases ch <;> rfl

theorem stopChain_saws (ch : Chain) (s : State) : (stopChain ch s).saws = s.saws := by
  unfold stopChain
  split
  · rfl
  · rw [(raiseEvent_outside _ _ _ _ _).saws rfl]
    cases ch <;> rfl

theorem stopChain_modifyBin (ch : Chain) (s : State) (n : Nat) (f : BinRec → BinRec) :
    stopChain ch (s.modifyBin n f) = (stopChain ch s).modifyBin n f := by
  obtain ⟨g, hg⟩ := modifyBin_withSort n f
  rw [hg, hg, withSort_stopChain, stopChain_sort]

theorem expireWindow_modifyBin (k : Nat) (s : State) (n : Nat) (f : BinRec → BinRec) :
    expireWindow k (s.modifyBin n f) = (expireWindow k s).modifyBin n f := by
  obtain ⟨g, hg⟩ := modifyBin_withSort n f
  rw [hg, hg, withSort_expireWindow, (expireWindow_outside k s).sort rfl]

theorem stopChain_modifySaw (ch : Chain) (s : State) (k : Nat) (f : SawRec → SawRec) :
    stopChain ch (s.modifySaw k f) = (stopChain ch s).modifySaw k f := by
  have hw : ∀ t : State, t.modifySaw k f = t.withSaws { t.saws with recs := modifyAt t.saws.recs k f } := fun _ => rfl
  rw [hw, hw, withSaws_stopChain, stopChain_saws]

/-- The stop of one chain and a change of the other that keeps its serial. -/
theorem stopChain_setUnit_sorter (s : State) (u : ChainUnit) (hu : u.serial = s.scu.serial) :
    stopChain .trimmer (s.setUnit .sorter u) = (stopChain .trimmer s).setUnit .sorter u := by
  unfold stopChain
  change (match s.tcu.stopTimer with | none => _ | some _ => _) = (match s.tcu.stopTimer with | none => _ | some _ => _ : State).setUnit .sorter u
  cases s.tcu.stopTimer with
  | none => rfl
  | some t => exact (raiseEvent_setUnit .chainStop (some .trimmer) 0 0
      (s.setUnit .trimmer { s.tcu with stopped := true, stopTimer := none }) .sorter u hu).symm

section
variable {j k : Nat} (s : State) (f : SawRec → SawRec) (h : j ≠ k)

theorem modifySaw_raiseEvent (e : EventKind) (c : Option Chain) (n d : Nat) :
    raiseEvent e c n d (s.modifySaw k f) = (raiseEvent e c n d s).modifySaw k f := by
  have hw : ∀ t : State, t.modifySaw k f = t.withSaws { t.saws with recs := modifyAt t.saws.recs k f } := fun _ => rfl
  rw [hw, hw, withSaws_raiseEvent, (raiseEvent_outside _ _ _ _ _).saws rfl]

theorem modifySaw_markSawMiss : markSawMiss (s.modifySaw k f) = (markSawMiss s).modifySaw k f := by
  have ho : (s.modifySaw k f).saws.owner = s.saws.owner := rfl
  unfold markSawMiss
  rw [ho]
  split <;> rfl

theorem modifySaw_latch (c : Cause) : latch c (s.modifySaw k f) = (latch c s).modifySaw k f := by cases c <;> rfl

include h

/-- A missed saw and the time of another saw's window. -/
theorem missSaw_modifySaw : missSaw j (s.modifySaw k f) = (missSaw j s).modifySaw k f := by
  have ht : ∀ t : State, (t.modifySaw k f).tables = t.tables := fun _ => rfl
  unfold missSaw
  dsimp only
  rw [State.modifySaw_saw_ne _ _ h, modifySaw_comm _ _ _ h, modifySaw_raiseEvent, modifySaw_markSawMiss, ht]
  split
  · rw [modifySaw_comm _ _ _ h, modifySaw_raiseEvent, modifySaw_latch]
  · rfl

theorem expireWindow_modifySaw : expireWindow j (s.modifySaw k f) = (expireWindow j s).modifySaw k f := by
  have hm : (s.modifySaw k f).sawMode j = s.sawMode j := rfl
  unfold expireWindow
  rw [State.modifySaw_saw_ne _ _ h, hm, missSaw_modifySaw s f h, modifySaw_comm _ _ _ h]
  split
  · rfl
  · rfl
  · split <;> rfl

end

/-! ### Expired confirm windows and the time of another bin -/

/-- A bin record with another time of its gate pulse and its pending drops. -/
def BinRec.timed (gp : Option Nat → Option Nat) (gq : List PendingDrop → List PendingDrop) (b : BinRec) : BinRec :=
  { b with pulse := gp b.pulse, pending := gq b.pending }

/-- A bin record without its times. -/
def BinRec.untimed (b : BinRec) : BinRec := { b with pulse := none, pending := [] }

/-- The state with another time of a bin's gate pulse and pending drops. -/
def State.retimed (s : State) (n : Nat) (gp : Option Nat → Option Nat) (gq : List PendingDrop → List PendingDrop) : State :=
  s.modifyBin n (BinRec.timed gp gq)

section
variable (s : State) (n : Nat) (gp : Option Nat → Option Nat) (gq : List PendingDrop → List PendingDrop)

theorem retimed_untimed (m : Nat) : ((s.retimed n gp gq).bin m).untimed = (s.bin m).untimed :=
  modifyBin_part BinRec.untimed (f := BinRec.timed gp gq) (fun _ => rfl) s n m

theorem retimed_items (m : Nat) : ((s.retimed n gp gq).bin m).items = (s.bin m).items := by
  have h := congrArg BinRec.items (retimed_untimed s n gp gq m)
  exact h
theorem retimed_state (m : Nat) : ((s.retimed n gp gq).bin m).state = (s.bin m).state := by
  have h := congrArg BinRec.state (retimed_untimed s n gp gq m)
  exact h
theorem retimed_near (m : Nat) : ((s.retimed n gp gq).bin m).near = (s.bin m).near := by
  have h := congrArg BinRec.near (retimed_untimed s n gp gq m)
  exact h
theorem retimed_load (m : Nat) : ((s.retimed n gp gq).bin m).load = (s.bin m).load := by
  have h := congrArg BinRec.load (retimed_untimed s n gp gq m)
  exact h
theorem retimed_tables : (s.retimed n gp gq).tables = s.tables := State.modifyBin_tables s n _
theorem retimed_board : (s.retimed n gp gq).board = s.board := State.modifyBin_board s n _
theorem retimed_scu : (s.retimed n gp gq).scu = s.scu := State.modifyBin_scu s n _

theorem retimed_modifyBin (m : Nat) {f : BinRec → BinRec} (h : ∀ b, f (b.timed gp gq) = (f b).timed gp gq) :
    (s.retimed n gp gq).modifyBin m f = (s.modifyBin m f).retimed n gp gq := by
  unfold State.retimed
  by_cases hm : m = n
  · subst hm
    rw [modifyBin_modifyBin, modifyBin_modifyBin]
    congr 1
    funext b
    exact h b
  · exact modifyBin_comm s _ _ hm

theorem retimed_raiseEvent (k : EventKind) (c : Option Chain) (a d : Nat) :
    raiseEvent k c a d (s.retimed n gp gq) = (raiseEvent k c a d s).retimed n gp gq := by
  obtain ⟨g, hg⟩ := modifyBin_withSort n (BinRec.timed gp gq)
  unfold State.retimed
  rw [hg, hg, withSort_raiseEvent, (raiseEvent_outside _ _ _ _ _).sort rfl]

theorem retimed_latch (c : Cause) : latch c (s.retimed n gp gq) = (latch c s).retimed n gp gq := by
  obtain ⟨g, hg⟩ := modifyBin_withSort n (BinRec.timed gp gq)
  unfold State.retimed
  rw [hg, hg, withSort_latch, (latch_outside _ _).sort rfl]

theorem retimed_modifySorter (tag : Nat) (f : Record → Record) :
    (s.retimed n gp gq).modifySorter tag f = (s.modifySorter tag f).retimed n gp gq := by
  obtain ⟨g, hg⟩ := modifyBin_withSort n (BinRec.timed gp gq)
  unfold State.retimed
  rw [hg, hg]
  rfl

theorem retimed_modifySortCounts (f : SortCounts → SortCounts) :
    (s.retimed n gp gq).modifySortCounts f = (s.modifySortCounts f).retimed n gp gq := by
  unfold State.retimed State.modifyBin
  split <;> rfl

theorem retimed_judgeNear (m : Nat) : judgeNear m (s.retimed n gp gq) = (judgeNear m s).retimed n gp gq := by
  unfold judgeNear
  dsimp only
  rw [retimed_items, retimed_near, retimed_load, retimed_modifyBin _ _ _ _ _ (by intro; rfl), retimed_modifyBin _ _ _ _ _ (by intro; rfl),
    retimed_latch]
  split
  · rfl
  · split
    · rfl
    · split <;> rfl

theorem retimed_takeReservation (m : Nat) : takeReservation m (s.retimed n gp gq) = (takeReservation m s).retimed n gp gq := by
  unfold takeReservation
  rw [retimed_modifyBin _ _ _ _ _ (by intro; rfl), retimed_judgeNear]

theorem retimed_releaseReservation (m : Nat) : releaseReservation m (s.retimed n gp gq) = (releaseReservation m s).retimed n gp gq := by
  unfold releaseReservation
  rw [retimed_modifyBin _ _ _ _ _ (by intro; rfl), retimed_judgeNear]
  split <;> rfl

theorem retimed_rerouteBin (p : SortPart) (off : Nat) : (s.retimed n gp gq).rerouteBin p off = s.rerouteBin p off := by
  unfold State.rerouteBin State.takes State.dropOffset State.routeBins State.groupBins
  simp only [retimed_items, retimed_state, retimed_load, retimed_tables]

theorem retimed_reroute (r : Record) (off : Nat) : reroute r off (s.retimed n gp gq) = (reroute r off s).retimed n gp gq := by
  unfold reroute
  split
  · rfl
  · dsimp only
    rw [retimed_rerouteBin, retimed_releaseReservation]
    split
    · rw [retimed_modifySorter, retimed_modifySortCounts]
    · rw [retimed_takeReservation, retimed_modifySorter, retimed_modifySortCounts]

theorem retimed_judgeMisses (m misses : Nat) : judgeMisses m misses (s.retimed n gp gq) = (judgeMisses m misses s).retimed n gp gq := by
  unfold judgeMisses
  dsimp only
  rw [retimed_items, retimed_state, retimed_modifyBin _ _ _ _ _ (by intro; rfl), retimed_raiseEvent]
  split <;> rfl

/-- An expired confirm window and the times of another bin. -/
theorem expireConfirm_retimed {m : Nat} (h : m ≠ n) : expireConfirm m (s.retimed n gp gq) = (expireConfirm m s).retimed n gp gq := by
  have hbin : (s.retimed n gp gq).bin m = s.bin m := State.modifyBin_bin_ne s _ h
  have hmod : ∀ f, (s.retimed n gp gq).modifyBin m f = (s.modifyBin m f).retimed n gp gq := fun f => modifyBin_comm s _ _ h
  unfold expireConfirm
  rw [hbin]
  split
  · rfl
  · dsimp only
    rw [hmod, retimed_modifySortCounts, retimed_modifySorter, retimed_raiseEvent, retimed_board, retimed_scu]
    split
    · rw [retimed_reroute, retimed_judgeMisses]
    · rw [retimed_judgeMisses]

theorem expireDue_retimed {m : Nat} (h : m ≠ n) (count : Nat) :
    expireDue m count (s.retimed n gp gq) = (expireDue m count s).retimed n gp gq := by
  induction count generalizing s with
  | zero => rfl
  | succ count ih =>
    have hbin : (s.retimed n gp gq).bin m = s.bin m := State.modifyBin_bin_ne s _ h
    unfold expireDue
    rw [hbin, expireConfirm_retimed s n gp gq h, ih]
    split
    · rfl
    · split <;> rfl

end

end Sys2Proof.Machine
end
-- ==== Sys2Proof/Proofs/Ticks.lean ====
section
/-! One clock period (O2): a tick is a list of timers, each raised and then expired if due; raising all of them first and then running the
expiries that are due as commands comes to the same. -/

namespace Sys2Proof.Machine

-- One thread elaborates the many small proofs of this file.
set_option Elab.async false

/-! ### The timers (R2, R115, R135, R138) -/

/-- A timer of the part: a chain's stop timer, a saw's window, a bin's gate pulse, a bin's confirm windows. -/
inductive Timer
  | stop (ch : Chain)
  | saw (k : Nat)
  | pulse (n : Nat)
  | confirm (n : Nat)

/-- A chain unit 1 ms later. -/
def ChainUnit.later (u : ChainUnit) : ChainUnit :=
  { u with stopTimer := u.stopTimer.map fun t => { t with elapsed := t.elapsed + 1 } }

/-- A saw record 1 ms later. -/
def SawRec.later (r : SawRec) : SawRec := if r.stage = .idle then r else { r with timer := r.timer + 1 }

/-- A gate pulse 1 ms later. -/
def pulseLater : Option Nat → Option Nat := Option.map (· + 1)

/-- Pending drops 1 ms later. -/
def pendingLater : List PendingDrop → List PendingDrop := List.map fun e => { e with elapsed := e.elapsed + 1 }

/-- A timer raised by 1 ms. -/
def Timer.raise : Timer → State → State
  | .stop ch, s => s.setUnit ch (s.unit ch).later
  | .saw k, s => s.modifySaw k SawRec.later
  | .pulse n, s => s.retimed n pulseLater id
  | .confirm n, s => s.retimed n id pendingLater

/-- A stop timer has reached its duration. -/
def State.stopDue (s : State) (ch : Chain) : Bool := (s.unit ch).stopTimer.any fun t => decide (t.limit ≤ t.elapsed)

/-- A saw's window has reached its duration. -/
def State.windowDue (s : State) (k : Nat) : Bool :=
  decide ((s.saw k).stage ≠ .idle) && decide (s.tables.settings.window ≤ (s.saw k).timer)

/-- A gate pulse has reached its duration. -/
def State.pulseDue (s : State) (n : Nat) : Bool :=
  (s.bin n).pulse.any fun t => decide (((s.bin n).items.map (·.pulse)).getD 0 ≤ t)

/-- The pending drops of a bin whose confirm windows have reached their duration, oldest first. -/
def State.dropsDue (s : State) (n : Nat) : List PendingDrop :=
  (s.bin n).pending.takeWhile fun e => decide (((s.bin n).items.map (·.window)).getD 0 ≤ e.elapsed)

/-- The expiries of a timer that are due. -/
def Timer.due : Timer → State → List Instr
  | .stop ch, s => if s.stopDue ch then [.stopTimerExpiry ch] else []
  | .saw k, s => if s.windowDue k then [.sawWindowExpiry k] else []
  | .pulse n, s => if s.pulseDue n then [.gatePulseExpiry n] else []
  | .confirm n, s => (s.dropsDue n).map fun _ => .confirmWindowExpiry n

/-- A timer expired where it is due. -/
def Timer.expire : Timer → State → State
  | .stop ch, s => if s.stopDue ch then stopChain ch s else s
  | .saw k, s => if s.windowDue k then expireWindow k s else s
  | .pulse n, s => if s.pulseDue n then closeGate n s else s
  | .confirm n, s => expireDue n (s.bin n).pending.length s

/-- The lines of a timer exist. -/
def Timer.Exists : Timer → Prop
  | .stop _ => True
  | .saw k => sawExists k = true
  | .pulse n | .confirm n => binExists n = true

/-- A timer and one that a tick comes to after it. -/
def Timer.Before : Timer → Timer → Prop
  | .stop ch, .stop ch' => ch = .trimmer ∧ ch' = .sorter
  | .stop _, .saw _ | .stop _, .pulse _ | .stop _, .confirm _ => True
  | .saw j, .saw k => j ≠ k
  | .saw _, .pulse _ | .saw _, .confirm _ => True
  | .pulse m, .pulse n => m ≠ n
  | .pulse _, .confirm _ => True
  | .confirm m, .confirm n => m ≠ n
  | .saw _, .stop _ | .pulse _, .stop _ | .pulse _, .saw _ | .confirm _, .stop _ | .confirm _, .saw _ | .confirm _, .pulse _ => False

/-- The timers in the order of a tick. -/
def allTimers : List Timer :=
  [.stop .trimmer, .stop .sorter] ++ (List.range 13).map .saw ++ allBins.map .pulse ++ allBins.map .confirm

theorem allTimers_exist : ∀ t ∈ allTimers, t.Exists := by
  simp only [allTimers, allBins, List.mem_append, List.mem_cons, List.not_mem_nil, or_false, List.mem_map, List.mem_range]
  rintro t ((((rfl | rfl) | ⟨k, hk, rfl⟩) | ⟨_, ⟨i, hi, rfl⟩, rfl⟩) | ⟨_, ⟨i, hi, rfl⟩, rfl⟩)
  · trivial
  · trivial
  · exact decide_eq_true (by omega)
  · exact binExists_of_le (by omega) (by omega)
  · exact binExists_of_le (by omega) (by omega)

theorem allBins_nodup : allBins.Nodup := List.nodup_range.map fun _ _ h => Nat.succ.inj h

theorem allTimers_pairwise : allTimers.Pairwise Timer.Before := by
  unfold allTimers
  rw [List.pairwise_append, List.pairwise_append, List.pairwise_append, List.pairwise_map, List.pairwise_map, List.pairwise_map]
  refine ⟨⟨⟨by simp [Timer.Before], List.nodup_range, ?_⟩, allBins_nodup, ?_⟩, allBins_nodup, ?_⟩
  · simp [Timer.Before]
  · simp [Timer.Before, or_imp, forall_and]
  · simp [Timer.Before, or_imp, forall_and]

/-! ### Expiries and later timers -/

theorem modifyBin_unit (s : State) (n : Nat) (f : BinRec → BinRec) (ch : Chain) : (s.modifyBin n f).unit ch = s.unit ch := by
  cases ch
  · exact State.modifyBin_tcu s n f
  · exact State.modifyBin_scu s n f

/-- A closing gate and other times of the same or another bin. -/
theorem closeGate_modifyBin_ne (s : State) {m n : Nat} (f : BinRec → BinRec) (h : m ≠ n) :
    closeGate m (s.modifyBin n f) = (closeGate m s).modifyBin n f := by
  unfold closeGate
  rw [State.modifyBin_bin_ne _ _ h, modifyBin_comm _ _ _ h]
  split <;> rfl

theorem closeGate_retimed_pending (s : State) (m n : Nat) (gq : List PendingDrop → List PendingDrop) :
    closeGate m (s.retimed n id gq) = (closeGate m s).retimed n id gq := by
  have hpulse : ((s.retimed n id gq).bin m).pulse = (s.bin m).pulse := modifyBin_part (f := BinRec.timed id gq) BinRec.pulse (fun _ => rfl) s n m
  unfold closeGate
  rw [hpulse, retimed_modifyBin _ _ _ _ _ (by intro; rfl)]
  split <;> rfl

/-! ### What an expiry leaves of the timers after it -/

theorem bin_of_sort {s t : State} (h : t.sort = s.sort) (n : Nat) : t.bin n = s.bin n := by
  unfold State.bin
  rw [h]

/-- What a bin's confirm windows are judged by: its figures and its pending drops. -/
def BinRec.drops (b : BinRec) : Option BinItems × List PendingDrop := (b.items, b.pending)

section
variable (s : State) (n : Nat)

theorem drops_modifyBin (m : Nat) {f : BinRec → BinRec} (h : ∀ b, (f b).drops = b.drops) : ((s.modifyBin m f).bin n).drops = (s.bin n).drops :=
  modifyBin_part BinRec.drops h s m n

theorem drops_raiseEvent (k : EventKind) (c : Option Chain) (a d : Nat) : ((raiseEvent k c a d s).bin n).drops = (s.bin n).drops :=
  congrArg BinRec.drops (bin_of_sort ((raiseEvent_outside _ _ _ _ _).sort rfl) n)

theorem drops_latch (c : Cause) : ((latch c s).bin n).drops = (s.bin n).drops :=
  congrArg BinRec.drops (bin_of_sort ((latch_outside _ _).sort rfl) n)

theorem drops_judgeNear (m : Nat) : ((judgeNear m s).bin n).drops = (s.bin n).drops := by
  unfold judgeNear
  dsimp only
  split
  · rfl
  · split
    · rw [drops_latch, drops_modifyBin _ _ _ (by intro; rfl)]
    · split
      · rw [drops_modifyBin _ _ _ (by intro; rfl)]
      · rfl

theorem drops_takeReservation (m : Nat) : ((takeReservation m s).bin n).drops = (s.bin n).drops := by
  unfold takeReservation
  rw [drops_judgeNear, drops_modifyBin _ _ _ (by intro; rfl)]

theorem drops_releaseReservation (m : Nat) : ((releaseReservation m s).bin n).drops = (s.bin n).drops := by
  unfold releaseReservation
  split
  · rfl
  · rw [drops_judgeNear, drops_modifyBin _ _ _ (by intro; rfl)]

theorem drops_reroute (r : Record) (off : Nat) : ((reroute r off s).bin n).drops = (s.bin n).drops := by
  have hrest : ∀ t : State, ∀ tag f g, (((t.modifySorter tag f).modifySortCounts g).bin n).drops = (t.bin n).drops := fun _ _ _ _ => rfl
  unfold reroute
  split
  · rfl
  · dsimp only
    rw [hrest]
    split
    · rw [drops_releaseReservation]
    · rw [drops_takeReservation, drops_releaseReservation]

theorem drops_judgeMisses (m misses : Nat) : ((judgeMisses m misses s).bin n).drops = (s.bin n).drops := by
  unfold judgeMisses
  dsimp only
  split
  · rw [drops_raiseEvent, drops_modifyBin _ _ _ (by intro; rfl)]
  · rfl

/-- The state in which an expired confirm window's record is routed again (R138): the drop is off the list and missed. -/
def State.missedDrop (s : State) (m : Nat) (e : PendingDrop) (rest : List PendingDrop) : State :=
  let misses := incTo Config.missHold (s.bin m).misses
  raiseEvent .gateMiss none m misses
    (((s.modifyBin m fun b => { b with pending := rest, misses }).modifySortCounts fun c => { c with misses := inc32 c.misses }).modifySorter
      e.tag fun r => { r with flags := { r.flags with gateMiss := true }, life := .onSorter })

theorem missedDrop_bin (m : Nat) (e : PendingDrop) (rest : List PendingDrop) : (s.missedDrop m e rest).bin n =
    (s.modifyBin m fun b => { b with pending := rest, misses := incTo Config.missHold (s.bin m).misses }).bin n :=
  bin_of_sort ((raiseEvent_outside _ _ _ _ _).sort rfl) n

/-- The bins after an expired confirm window hold the drops they hold once the drop is off the list. -/
theorem drops_expireConfirm {m : Nat} {e : PendingDrop} {rest : List PendingDrop} (h : (s.bin m).pending = e :: rest) :
    ((expireConfirm m s).bin n).drops = ((s.missedDrop m e rest).bin n).drops := by
  unfold expireConfirm
  rw [h]
  dsimp only
  rw [drops_judgeMisses]
  split
  · rw [drops_reroute]
    rfl
  · rfl

theorem drops_expireConfirm_ne {m : Nat} (h : n ≠ m) : ((expireConfirm m s).bin n).drops = (s.bin n).drops := by
  cases hp : (s.bin m).pending with
  | nil =>
    unfold expireConfirm
    rw [hp]
  | cons e rest => rw [drops_expireConfirm s n hp, missedDrop_bin, State.modifyBin_bin_ne _ _ h]

theorem drops_expireDue {m : Nat} (h : n ≠ m) (count : Nat) : ((expireDue m count s).bin n).drops = (s.bin n).drops := by
  induction count generalizing s with
  | zero => rfl
  | succ count ih =>
    unfold expireDue
    split
    · rfl
    · split
      · rw [ih, drops_expireConfirm_ne s n h]
      · rfl

theorem closeGate_bin_ne {m : Nat} (h : n ≠ m) : (closeGate m s).bin n = s.bin n := by
  unfold closeGate
  split
  · rw [State.modifyBin_bin_ne _ _ h]
  · rfl

theorem drops_closeGate (m : Nat) : ((closeGate m s).bin n).drops = (s.bin n).drops := by
  unfold closeGate
  split
  · exact drops_modifyBin _ _ _ (by intro; rfl)
  · rfl

end

theorem missSaw_saw_ne (s : State) {j k : Nat} (h : k ≠ j) : (missSaw j s).saw k = s.saw k := by
  have hevent : ∀ e c a d (t : State), (raiseEvent e c a d t).saw k = t.saw k := fun e c a d t => by
    unfold State.saw
    rw [(raiseEvent_outside e c a d t).saws rfl]
  have hlatch : ∀ c (t : State), (latch c t).saw k = t.saw k := fun c t => by
    unfold State.saw
    rw [(latch_outside c t).saws rfl]
  have hmark : ∀ t : State, (markSawMiss t).saw k = t.saw k := fun t => by
    unfold State.saw
    rw [(markSawMiss_outside t).saws rfl]
  unfold missSaw
  dsimp only
  split
  · rw [hlatch, hevent, State.modifySaw_saw_ne _ _ h, hmark, hevent, State.modifySaw_saw_ne _ _ h]
  · rw [hmark, hevent, State.modifySaw_saw_ne _ _ h]

theorem expireWindow_saw_ne (s : State) {j k : Nat} (h : k ≠ j) : (expireWindow j s).saw k = s.saw k := by
  unfold expireWindow
  split
  · rfl
  · exact missSaw_saw_ne s h
  · split
    · exact State.modifySaw_saw_ne _ _ h
    · exact missSaw_saw_ne s h
    · exact missSaw_saw_ne s h

theorem stopChain_tables (ch : Chain) (s : State) : (stopChain ch s).tables = s.tables := by
  unfold stopChain
  split
  · rfl
  · rw [(raiseEvent_outside _ _ _ _ _).tables rfl, (setUnit_outside _ _ _).tables rfl]

theorem stopChain_trimmer_scu (s : State) : (stopChain .trimmer s).scu = s.scu := by
  unfold stopChain
  split
  · rfl
  · rw [(raiseEvent_outside _ _ _ _ _).scu rfl]
    rfl

theorem windowDue_congr {s t : State} {k : Nat} (hsaw : t.saw k = s.saw k) (htables : t.tables = s.tables) : t.windowDue k = s.windowDue k := by
  unfold State.windowDue
  rw [hsaw, htables]

theorem windowDue_of_saws {s t : State} (hsaws : t.saws = s.saws) (htables : t.tables = s.tables) (k : Nat) : t.windowDue k = s.windowDue k :=
  windowDue_congr (by unfold State.saw; rw [hsaws]) htables

theorem pulseDue_congr {s t : State} {n : Nat} (hbin : t.bin n = s.bin n) : t.pulseDue n = s.pulseDue n := by
  unfold State.pulseDue
  rw [hbin]

theorem dropsDue_congr {s t : State} {n : Nat} (h : (t.bin n).drops = (s.bin n).drops) : t.dropsDue n = s.dropsDue n := by
  obtain ⟨hitems, hpending⟩ := Prod.mk.inj h
  unfold State.dropsDue
  rw [hitems, hpending]

theorem stopDue_congr {s t : State} {ch : Chain} (h : t.unit ch = s.unit ch) : t.stopDue ch = s.stopDue ch := by
  unfold State.stopDue
  rw [h]

/-- What an expiry leaves, it leaves where it is not due. -/
theorem reading_ite {α : Type} (reading : State → α) (c : Bool) {t s : State} (h : reading t = reading s) :
    reading (if c then t else s) = reading s := by
  cases c
  · rfl
  · exact h

/-- An expiry leaves what is due of a later timer. -/
theorem due_expire {t u : Timer} (h : t.Before u) (s : State) : u.due (t.expire s) = u.due s := by
  have hpulse : ∀ {n : Nat} {a b : State}, a.pulseDue n = b.pulseDue n → (Timer.pulse n).due a = (Timer.pulse n).due b := fun {n a b} e => by
    unfold Timer.due
    dsimp only
    rw [e]
  have hwindow : ∀ {k : Nat} {a b : State}, a.windowDue k = b.windowDue k → (Timer.saw k).due a = (Timer.saw k).due b := fun {k a b} e => by
    unfold Timer.due
    dsimp only
    rw [e]
  have hdrops : ∀ {n : Nat} {a b : State}, (a.bin n).drops = (b.bin n).drops → (Timer.confirm n).due a = (Timer.confirm n).due b :=
    fun {n a b} e => by
      unfold Timer.due
      dsimp only
      rw [dropsDue_congr e]
  cases t with
  | stop ch =>
    refine reading_ite u.due _ ?_
    cases u with
    | stop ch' =>
      obtain ⟨rfl, rfl⟩ := h
      unfold Timer.due
      dsimp only
      rw [stopDue_congr (ch := .sorter) (stopChain_trimmer_scu s)]
    | saw k => exact hwindow (windowDue_of_saws (stopChain_saws ch s) (stopChain_tables ch s) k)
    | pulse n => exact hpulse (pulseDue_congr (bin_of_sort (stopChain_sort ch s) n))
    | confirm n => exact hdrops (congrArg BinRec.drops (bin_of_sort (stopChain_sort ch s) n))
  | saw j =>
    have hout := expireWindow_outside j s
    refine reading_ite u.due _ ?_
    cases u with
    | stop => cases h
    | saw k => exact hwindow (windowDue_congr (expireWindow_saw_ne s (Ne.symm h)) (hout.tables rfl))
    | pulse n => exact hpulse (pulseDue_congr (bin_of_sort (hout.sort rfl) n))
    | confirm n => exact hdrops (congrArg BinRec.drops (bin_of_sort (hout.sort rfl) n))
  | pulse m =>
    refine reading_ite u.due _ ?_
    cases u with
    | stop => cases h
    | saw => cases h
    | pulse n => exact hpulse (pulseDue_congr (closeGate_bin_ne s n (Ne.symm h)))
    | confirm n => exact hdrops (drops_closeGate s n m)
  | confirm m =>
    cases u with
    | stop => cases h
    | saw => cases h
    | pulse => cases h
    | confirm n => exact hdrops (drops_expireDue s n (Ne.symm h) _)

/-! ### An expiry and the raise of a later timer -/

/-- An expiry commutes with a change that it commutes with where it is due and that leaves whether it is. -/
theorem raise_ite {due : State → Bool} {expire raise : State → State} {s : State} (hdue : due (raise s) = due s)
    (hexpire : expire (raise s) = raise (expire s)) :
    raise (if due s then expire s else s) = if due (raise s) then expire (raise s) else raise s := by
  rw [hdue, hexpire]
  cases due s <;> rfl

theorem pulseDue_retimed_pending (s : State) (m n : Nat) (gq : List PendingDrop → List PendingDrop) :
    (s.retimed n id gq).pulseDue m = s.pulseDue m := by
  have hpulse : ((s.retimed n id gq).bin m).pulse = (s.bin m).pulse := modifyBin_part (f := BinRec.timed id gq) BinRec.pulse (fun _ => rfl) s n m
  unfold State.pulseDue
  rw [hpulse, retimed_items]

/-- Raising a later timer first makes no difference to an expiry. -/
theorem raise_expire {t u : Timer} (h : t.Before u) (s : State) : u.raise (t.expire s) = t.expire (u.raise s) := by
  cases t with
  | stop ch =>
    cases u with
    | stop ch' =>
      obtain ⟨rfl, rfl⟩ := h
      refine raise_ite (due := fun s => s.stopDue .trimmer) (raise := Timer.raise (.stop .sorter)) rfl ?_
      calc
        _ = (stopChain .trimmer s).setUnit .sorter s.scu.later := stopChain_setUnit_sorter s _ rfl
        _ = (stopChain .trimmer s).setUnit .sorter (stopChain .trimmer s).scu.later := by rw [stopChain_trimmer_scu]
    | saw k =>
      exact raise_ite (due := fun s => s.stopDue ch) (raise := Timer.raise (.saw k)) (stopDue_congr (by cases ch <;> rfl))
        (stopChain_modifySaw ch s k _)
    | pulse n =>
      exact raise_ite (due := fun s => s.stopDue ch) (raise := Timer.raise (.pulse n)) (stopDue_congr (modifyBin_unit s n _ ch))
        (stopChain_modifyBin ch s n _)
    | confirm n =>
      exact raise_ite (due := fun s => s.stopDue ch) (raise := Timer.raise (.confirm n))
        (stopDue_congr (modifyBin_unit s n _ ch)) (stopChain_modifyBin ch s n _)
  | saw j =>
    cases u with
    | stop => cases h
    | saw k =>
      exact raise_ite (due := fun s => s.windowDue j) (raise := Timer.raise (.saw k))
        (windowDue_congr (State.modifySaw_saw_ne s _ h) rfl) (expireWindow_modifySaw s _ h)
    | pulse n =>
      exact raise_ite (due := fun s => s.windowDue j) (raise := Timer.raise (.pulse n))
        (windowDue_of_saws (State.modifyBin_saws s n _) (State.modifyBin_tables s n _) j) (expireWindow_modifyBin j s n _)
    | confirm n =>
      exact raise_ite (due := fun s => s.windowDue j) (raise := Timer.raise (.confirm n))
        (windowDue_of_saws (State.modifyBin_saws s n _) (State.modifyBin_tables s n _) j) (expireWindow_modifyBin j s n _)
  | pulse m =>
    cases u with
    | stop => cases h
    | saw => cases h
    | pulse n =>
      exact raise_ite (due := fun s => s.pulseDue m) (raise := Timer.raise (.pulse n))
        (pulseDue_congr (State.modifyBin_bin_ne s _ h)) (closeGate_modifyBin_ne s _ h)
    | confirm n =>
      exact raise_ite (due := fun s => s.pulseDue m) (raise := Timer.raise (.confirm n))
        (pulseDue_retimed_pending s m n _) (closeGate_retimed_pending s m n _)
  | confirm m =>
    cases u with
    | stop => cases h
    | saw => cases h
    | pulse => cases h
    | confirm n =>
      have hbin : ((s.retimed n id pendingLater).bin m) = s.bin m := State.modifyBin_bin_ne s _ h
      unfold Timer.expire Timer.raise
      dsimp only
      rw [hbin, expireDue_retimed s n _ _ h]

/-! ### A tick as a fold -/

/-- Steps that commute with the raises after them can wait for all raises. -/
theorem foldl_raise_first {σ τ : Type} {raise expire : τ → σ → σ} {before : τ → τ → Prop}
    (hcomm : ∀ t u, before t u → ∀ s, raise u (expire t s) = expire t (raise u s)) {l : List τ} (hl : l.Pairwise before) (s : σ) :
    l.foldl (fun s t => expire t (raise t s)) s = l.foldl (fun s t => expire t s) (l.foldl (fun s t => raise t s) s) := by
  have hpast : ∀ (t : τ) (rest : List τ), (∀ u ∈ rest, before t u) → ∀ s,
      rest.foldl (fun s u => raise u s) (expire t s) = expire t (rest.foldl (fun s u => raise u s) s) := by
    intro t rest
    induction rest with
    | nil => exact fun _ _ => rfl
    | cons u rest ih =>
      intro hb s
      rw [List.foldl_cons, hcomm t u (hb u List.mem_cons_self), ih fun v hv => hb v (List.mem_cons_of_mem _ hv)]
      rfl
  induction l generalizing s with
  | nil => rfl
  | cons t rest ih =>
    obtain ⟨ht, hrest⟩ := List.pairwise_cons.mp hl
    rw [List.foldl_cons, ih hrest, hpast t rest ht]
    rfl

theorem execAll_cons {i : Instr} {s t : State} (h : exec i s = .next t) (rest : List Instr) : execAll (i :: rest) s = execAll rest t := by
  change (match exec i s with | .next t => execAll rest t | .fault f => .fault f | .refused f => .refused f) = execAll rest t
  rw [h]

theorem execAll_append {l : List Instr} {s t : State} (h : execAll l s = .next t) (m : List Instr) : execAll (l ++ m) s = execAll m t := by
  induction l generalizing s with
  | nil => cases h; rfl
  | cons i rest ih =>
    cases he : exec i s with
    | next u =>
      rw [execAll_cons he] at h
      rw [List.cons_append, execAll_cons he, ih h]
    | fault f =>
      change (match exec i s with | .next t => execAll rest t | .fault f => .fault f | .refused f => .refused f) = _ at h
      rw [he] at h
      cases h
    | refused f =>
      change (match exec i s with | .next t => execAll rest t | .fault f => .fault f | .refused f => .refused f) = _ at h
      rw [he] at h
      cases h

end Sys2Proof.Machine
end
-- ==== Sys2Proof/Proofs/TickSteps.lean ====
section
/-! For O2: the expiries of a timer as commands, and a timer at a tick as its raise and then its expiry. -/

namespace Sys2Proof.Machine

-- One thread elaborates the many small proofs of this file.
set_option Elab.async false

/-! ### An expiry as commands -/

theorem stopChain_timebase (ch : Chain) (s : State) : (stopChain ch s).timebase = s.timebase := by
  unfold stopChain
  split
  · rfl
  · rw [(raiseEvent_outside _ _ _ _ _).timebase rfl, (setUnit_outside _ _ _).timebase rfl]

theorem expireDue_outside (n count : Nat) (s : State) :
    Outside { sorter := true, sort := true, events := true, attention := true } s (expireDue n count s) := by
  induction count generalizing s with
  | zero => exact .refl _ s
  | succ count ih =>
    unfold expireDue
    split
    · exact .refl _ s
    · split
      · exact (expireConfirm_outside n s).trans (ih _)
      · exact .refl _ s

theorem expire_timebase (t : Timer) (s : State) : (t.expire s).timebase = s.timebase := by
  cases t with
  | stop ch => exact reading_ite State.timebase _ (stopChain_timebase ch s)
  | saw k => exact reading_ite State.timebase _ ((expireWindow_outside k s).timebase rfl)
  | pulse n => exact reading_ite State.timebase _ ((closeGate_outside n s).timebase rfl)
  | confirm n => exact (expireDue_outside n _ s).timebase rfl

theorem awake_expire (t : Timer) (s : State) : (t.expire s).awake = s.awake := by
  unfold State.awake
  rw [expire_timebase]

theorem exec_stopTimerExpiry {s : State} (h : s.awake = true) (ch : Chain) : exec (.stopTimerExpiry ch) s = .next (stopChain ch s) :=
  whenAwake_awake h

theorem exec_sawWindowExpiry {s : State} (h : s.awake = true) {k : Nat} (hk : sawExists k = true) :
    exec (.sawWindowExpiry k) s = .next (expireWindow k s) := (if_pos hk).trans (whenAwake_awake h)

theorem exec_gatePulseExpiry {s : State} (h : s.awake = true) {n : Nat} (hn : binExists n = true) :
    exec (.gatePulseExpiry n) s = .next (closeGate n s) := (if_pos hn).trans (whenAwake_awake h)

theorem exec_confirmWindowExpiry {s : State} (h : s.awake = true) {n : Nat} (hn : binExists n = true) :
    exec (.confirmWindowExpiry n) s = .next (expireConfirm n s) := (if_pos hn).trans (whenAwake_awake h)

theorem execAll_ite {i : Instr} {s t : State} (h : exec i s = .next t) (c : Bool) :
    execAll (if c then [i] else []) s = .next (if c then t else s) := by
  cases c
  · rfl
  · exact execAll_cons h []

/-- The drops of an expired confirm window's bin: those behind the one that is off the list. -/
theorem drops_expireConfirm_self {s : State} {n : Nat} {e : PendingDrop} {rest : List PendingDrop} (hn : binExists n = true)
    (h : (s.bin n).pending = e :: rest) : ((expireConfirm n s).bin n).drops = ((s.bin n).items, rest) := by
  rw [drops_expireConfirm s n h, missedDrop_bin, State.modifyBin_bin _ _ hn]
  rfl

/-- The confirm windows of a bin that are due expire one command each. -/
theorem execAll_dropsDue {n : Nat} (hn : binExists n = true) (count : Nat) {s : State} (h : s.awake = true)
    (hlen : (s.bin n).pending.length ≤ count) :
    execAll ((s.dropsDue n).map fun _ => .confirmWindowExpiry n) s = .next (expireDue n count s) := by
  induction count generalizing s with
  | zero =>
    have hnil : (s.bin n).pending = [] := List.length_eq_zero_iff.mp (Nat.le_zero.mp hlen)
    unfold State.dropsDue
    rw [hnil]
    rfl
  | succ count ih =>
    cases hp : (s.bin n).pending with
    | nil =>
      unfold State.dropsDue expireDue
      rw [hp]
      rfl
    | cons e rest =>
      have hself := drops_expireConfirm_self hn hp
      obtain ⟨hitems, hpending⟩ := Prod.mk.inj hself
      have hawake : (expireConfirm n s).awake = true := by
        unfold State.awake at h ⊢
        rw [(expireConfirm_outside n s).timebase rfl]
        exact h
      unfold State.dropsDue expireDue
      rw [hp, List.takeWhile_cons]
      by_cases hdue : ((s.bin n).items.map (·.window)).getD 0 ≤ e.elapsed
      · have hrest : (expireConfirm n s).dropsDue n = rest.takeWhile fun e => decide (((s.bin n).items.map (·.window)).getD 0 ≤ e.elapsed) := by
          unfold State.dropsDue
          rw [hitems, hpending]
        have hcount : ((expireConfirm n s).bin n).pending.length ≤ count := by
          rw [hpending]
          rw [hp] at hlen
          exact Nat.le_of_succ_le_succ hlen
        rw [if_pos (decide_eq_true hdue), List.map_cons, execAll_cons (exec_confirmWindowExpiry h hn), ← hrest, ih hawake hcount]
        exact congrArg _ (if_pos hdue).symm
      · rw [if_neg (by simpa using hdue)]
        exact congrArg _ (if_neg hdue).symm

/-- The expiries of a timer that are due, as commands. -/
theorem execAll_due {t : Timer} (ht : t.Exists) {s : State} (h : s.awake = true) : execAll (t.due s) s = .next (t.expire s) := by
  cases t with
  | stop ch => exact execAll_ite (exec_stopTimerExpiry h ch) _
  | saw k => exact execAll_ite (exec_sawWindowExpiry h ht) _
  | pulse n => exact execAll_ite (exec_gatePulseExpiry h ht) _
  | confirm n => exact execAll_dropsDue ht _ h (Nat.le_refl _)

/-- The expiries that are due, judged before any of them, as commands. -/
theorem execAll_allDue {l : List Timer} (hl : l.Pairwise Timer.Before) (hex : ∀ t ∈ l, t.Exists) {s : State} (h : s.awake = true) :
    execAll (l.flatMap fun t => t.due s) s = .next (l.foldl (fun s t => t.expire s) s) := by
  induction l generalizing s with
  | nil => rfl
  | cons t rest ih =>
    obtain ⟨ht, hrest⟩ := List.pairwise_cons.mp hl
    have hdue : (rest.flatMap fun u => u.due s) = rest.flatMap fun u => u.due (t.expire s) :=
      List.flatMap_congr fun u hu => (due_expire (ht u hu) s).symm
    rw [List.flatMap_cons, execAll_append (execAll_due (hex t List.mem_cons_self) h), hdue,
      ih hrest (fun u hu => hex u (List.mem_cons_of_mem _ hu)) ((awake_expire t s).trans h)]
    rfl

/-! ### A timer raised by a tick -/

theorem modifyAt_congr {α : Type} {k : Nat} (v : Vector α k) {n : Nat} {f g : α → α} (d : α) (h : f (entryD v n d) = g (entryD v n d)) :
    modifyAt v n f = modifyAt v n g := by
  unfold modifyAt
  split
  · next hn =>
    rw [entryD_of_lt _ _ hn] at h
    rw [h]
  · rfl

theorem modifySaw_congr {s : State} {k : Nat} {f g : SawRec → SawRec} (h : f (s.saw k) = g (s.saw k)) :
    s.modifySaw k f = s.modifySaw k g := by
  unfold State.modifySaw
  rw [modifyAt_congr _ _ h]

theorem modifyBin_congr {s : State} {n : Nat} {f g : BinRec → BinRec} (h : f (s.bin n) = g (s.bin n)) :
    s.modifyBin n f = s.modifyBin n g := by
  unfold State.modifyBin
  split
  · rfl
  · next h0 =>
    rw [State.bin, if_neg h0] at h
    rw [modifyAt_congr _ _ h]

section
variable {s t : State}

/-- A stop timer that a tick raises is due when 1 ms more reaches its duration. -/
theorem stopDue_later {ch : Chain} (h : t.unit ch = (s.unit ch).later) :
    t.stopDue ch = (s.unit ch).stopTimer.any fun x => decide (x.limit ≤ x.elapsed + 1) := by
  unfold State.stopDue
  rw [h]
  unfold ChainUnit.later
  cases (s.unit ch).stopTimer <;> rfl

/-- A saw window that a tick raises is due when 1 ms more reaches W. -/
theorem windowDue_later {k : Nat} (h : t.saw k = (s.saw k).later) (htables : t.tables = s.tables) :
    t.windowDue k = (decide ((s.saw k).stage ≠ .idle) && decide (s.tables.settings.window ≤ (s.saw k).timer + 1)) := by
  unfold State.windowDue
  rw [h, htables]
  unfold SawRec.later
  by_cases hidle : (s.saw k).stage = .idle
  · rw [if_pos hidle, hidle]
    rfl
  · rw [if_neg hidle]

/-- A gate pulse that a tick raises is due when 1 ms more reaches its duration. -/
theorem pulseDue_later {n : Nat} (hitems : (t.bin n).items = (s.bin n).items) (hpulse : (t.bin n).pulse = pulseLater (s.bin n).pulse) :
    t.pulseDue n = (s.bin n).pulse.any fun x => decide (((s.bin n).items.map (·.pulse)).getD 0 ≤ x + 1) := by
  unfold State.pulseDue
  rw [hitems, hpulse]
  cases (s.bin n).pulse <;> rfl

end

/-! ### The tick -/

theorem ite_eq_ite_decide {α : Type} (c : Prop) [Decidable c] {d : Bool} (h : d = decide c) (a b : α) :
    (if c then a else b) = if d then a else b := by
  subst h
  by_cases hc : c
  · rw [if_pos hc, if_pos (decide_eq_true hc)]
  · rw [if_neg hc, if_neg (by simpa using hc)]

theorem tickStop_eq (ch : Chain) (s : State) : tickStop ch s = (Timer.stop ch).expire ((Timer.stop ch).raise s) := by
  have hdue := stopDue_later (s := s) (State.setUnit_unit s ch (s.unit ch).later)
  unfold tickStop
  cases hu : (s.unit ch).stopTimer with
  | none =>
    have hlater : (s.unit ch).later = s.unit ch := by
      unfold ChainUnit.later
      rw [hu]
      exact congrArg (fun o => { s.unit ch with stopTimer := o }) hu.symm
    rw [hu, hlater, State.setUnit_self] at hdue
    have hraise : (Timer.stop ch).raise s = s := by
      unfold Timer.raise
      dsimp only
      rw [hlater, State.setUnit_self]
    rw [hraise]
    exact (if_neg (ne_true_of_eq_false hdue)).symm
  | some t =>
    have hlater : (s.unit ch).later = { s.unit ch with stopTimer := some { t with elapsed := t.elapsed + 1 } } := by
      unfold ChainUnit.later
      rw [hu]
      rfl
    rw [hu] at hdue
    dsimp only
    rw [← hlater]
    exact ite_eq_ite_decide _ hdue _ _

theorem tickSaw_eq {k : Nat} (hk : sawExists k = true) (s : State) : tickSaw s k = (Timer.saw k).expire ((Timer.saw k).raise s) := by
  have hdue := windowDue_later (State.modifySaw_saw s SawRec.later hk) rfl
  unfold tickSaw
  dsimp only
  by_cases hidle : (s.saw k).stage = .idle
  · have hraise : s.modifySaw k SawRec.later = s := modifySaw_self (if_pos hidle)
    rw [hidle, hraise] at hdue
    change _ = (Timer.saw k).expire (s.modifySaw k SawRec.later)
    rw [if_pos hidle, hraise]
    exact (if_neg (ne_true_of_eq_false hdue)).symm
  · have hraise : (s.modifySaw k fun r => { r with timer := r.timer + 1 }) = s.modifySaw k SawRec.later := modifySaw_congr (if_neg hidle).symm
    rw [decide_eq_true hidle, Bool.true_and] at hdue
    rw [if_neg hidle, hraise]
    exact ite_eq_ite_decide _ hdue _ _

theorem tickPulse_eq {n : Nat} (hn : binExists n = true) (s : State) : tickPulse s n = (Timer.pulse n).expire ((Timer.pulse n).raise s) := by
  have hraised : (s.retimed n pulseLater id).bin n = (s.bin n).timed pulseLater id := State.modifyBin_bin _ _ hn
  have hdue := pulseDue_later (s := s) (retimed_items s n pulseLater id n) (congrArg BinRec.pulse hraised)
  unfold tickPulse
  dsimp only
  cases hp : (s.bin n).pulse with
  | none =>
    have hraise : s.retimed n pulseLater id = s := modifyBin_self (by
      unfold BinRec.timed
      rw [hp]
      exact congrArg (fun o => { s.bin n with pulse := o }) hp.symm)
    rw [hp, hraise] at hdue
    change _ = (Timer.pulse n).expire (s.retimed n pulseLater id)
    rw [hraise]
    exact (if_neg (ne_true_of_eq_false hdue)).symm
  | some t =>
    have hraise : (s.modifyBin n fun b => { b with pulse := some (t + 1) }) = s.retimed n pulseLater id := modifyBin_congr (by
      unfold BinRec.timed
      rw [hp]
      rfl)
    rw [hp] at hdue
    dsimp only
    rw [hraise]
    exact ite_eq_ite_decide _ hdue _ _

theorem tickConfirm_eq (n : Nat) (s : State) : tickConfirm s n = (Timer.confirm n).expire ((Timer.confirm n).raise s) := rfl

end Sys2Proof.Machine
end
-- ==== Sys2Proof/Proofs/ClockPeriods.lean ====
section
/-! One clock period (O2): a tick raises all timers and then runs the expiries that are due as commands. -/

namespace Sys2Proof.Machine

-- One thread elaborates the many small proofs of this file.
set_option Elab.async false

/-! ### All timers raised -/

/-- A bin record 1 ms later. -/
def BinRec.later (b : BinRec) : BinRec := b.timed pulseLater pendingLater

/-- The state with every timer raised by 1 ms. -/
def State.raised (s : State) : State :=
  { s with
    tcu := s.tcu.later, scu := s.scu.later
    saws := { s.saws with recs := s.saws.recs.map SawRec.later }
    sort := { s.sort with bins := s.sort.bins.map BinRec.later } }

theorem foldl_modifyAt {α : Type} {k : Nat} (f : α → α) (v : Vector α k) (m : Nat) (i : Nat) (hi : i < k) :
    ((List.range m).foldl (fun v n => modifyAt v n f) v)[i] = if i < m then f v[i] else v[i] := by
  induction m with
  | zero => rfl
  | succ m ih =>
    rw [List.range_succ, List.foldl_append, List.foldl_cons, List.foldl_nil]
    unfold modifyAt at ih ⊢
    by_cases hm : m < k
    · rw [dif_pos hm]
      by_cases him : m = i
      · subst him
        rw [Vector.getElem_set_self, ih, if_neg (Nat.lt_irrefl m), if_pos (Nat.lt_succ_self m)]
      · rw [Vector.getElem_set_ne _ _ him, ih]
        by_cases h : i < m
        · rw [if_pos h, if_pos (by omega)]
        · rw [if_neg h, if_neg (by omega)]
    · rw [dif_neg hm, ih, if_pos (by omega), if_pos (by omega)]

/-- An entry changed after another, until all are. -/
theorem foldl_modifyAt_all {α : Type} {k : Nat} (f : α → α) (v : Vector α k) :
    (List.range k).foldl (fun v n => modifyAt v n f) v = v.map f := by
  refine Vector.ext fun i hi => ?_
  rw [foldl_modifyAt f v k i hi, if_pos hi, Vector.getElem_map]

theorem foldl_modifySaw (f : SawRec → SawRec) (l : List Nat) (s : State) :
    l.foldl (fun s k => s.modifySaw k f) s =
      { s with saws := { s.saws with recs := l.foldl (fun v k => modifyAt v k f) s.saws.recs } } := by
  induction l generalizing s with
  | nil => rfl
  | cons k rest ih =>
    rw [List.foldl_cons, ih]
    rfl

theorem foldl_modifyBin (f : BinRec → BinRec) (l : List Nat) (s : State) :
    l.foldl (fun s i => s.modifyBin (i + 1) f) s =
      { s with sort := { s.sort with bins := l.foldl (fun v i => modifyAt v i f) s.sort.bins } } := by
  induction l generalizing s with
  | nil => rfl
  | cons i rest ih =>
    rw [List.foldl_cons, ih]
    rfl

theorem foldl_raise (s : State) : allTimers.foldl (fun s t => t.raise s) s = s.raised := by
  have hbins : ∀ gp gq (u : State), (List.range 48).foldl (fun u i => u.retimed (i + 1) gp gq) u =
      { u with sort := { u.sort with bins := u.sort.bins.map (BinRec.timed gp gq) } } := fun gp gq u => by
    unfold State.retimed
    rw [foldl_modifyBin, foldl_modifyAt_all]
  unfold allTimers allBins
  rw [List.foldl_append, List.foldl_append, List.foldl_append, List.foldl_map, List.foldl_map, List.foldl_map, List.foldl_map, List.foldl_map]
  simp only [Timer.raise]
  rw [foldl_modifySaw, foldl_modifyAt_all, hbins, hbins, Vector.map_map]
  rfl

/-- A tick after the settle period raises every timer and then runs what is due as commands. -/
theorem tick_awake {s : State} (h : s.settling = false) :
    tick s = allTimers.foldl (fun s t => t.expire s) s.raised := by
  have hfold : tick s = allTimers.foldl (fun s t => t.expire (t.raise s)) s := by
    have hbin : ∀ n ∈ allBins, binExists n = true := fun n hn =>
      allTimers_exist (.pulse n) (List.mem_append_left _ (List.mem_append_right _ (List.mem_map_of_mem hn)))
    have hsaws : ∀ u : State, allSaws.foldl tickSaw u = ((List.range 13).map Timer.saw).foldl (fun s t => t.expire (t.raise s)) u := fun u => by
      rw [List.foldl_map]
      exact List.foldl_ext _ _ _ fun s k hk => tickSaw_eq (decide_eq_true (Nat.le_of_lt_succ (List.mem_range.mp hk))) s
    have hpulses : ∀ u : State, allBins.foldl tickPulse u = (allBins.map Timer.pulse).foldl (fun s t => t.expire (t.raise s)) u := fun u => by
      rw [List.foldl_map]
      exact List.foldl_ext _ _ _ fun s n hn => tickPulse_eq (hbin n hn) s
    have hconfirms : ∀ u : State, allBins.foldl tickConfirm u = (allBins.map Timer.confirm).foldl (fun s t => t.expire (t.raise s)) u := fun u => by
      rw [List.foldl_map]
      exact List.foldl_ext _ _ _ fun s n _ => tickConfirm_eq n s
    unfold tick allTimers
    rw [h, if_neg Bool.false_ne_true, List.foldl_append, List.foldl_append, List.foldl_append, ← hsaws, ← hpulses, ← hconfirms,
      List.foldl_cons, List.foldl_cons, List.foldl_nil, ← tickStop_eq, ← tickStop_eq]
  rw [hfold, foldl_raise_first (raise := Timer.raise) (expire := Timer.expire) (fun t u h s => raise_expire h s) allTimers_pairwise,
    foldl_raise]

/-! ### What is due of the raised timers -/

theorem flatMap_ite {α β : Type} (p : α → Bool) (f : α → β) (l : List α) :
    (l.flatMap fun a => if p a then [f a] else []) = (l.filter p).map f := by
  induction l with
  | nil => rfl
  | cons a rest ih =>
    rw [List.flatMap_cons, ih, List.filter_cons]
    cases p a <;> rfl

section
variable (s : State)

theorem raised_unit (ch : Chain) : s.raised.unit ch = (s.unit ch).later := by cases ch <;> rfl

theorem raised_saw {k : Nat} (hk : k < 13) : s.raised.saw k = (s.saw k).later := by
  unfold State.saw
  rw [entryD_of_lt _ _ hk, entryD_of_lt _ _ hk]
  exact Vector.getElem_map _ _

theorem raised_bin {n : Nat} (hn : n ∈ allBins) : s.raised.bin n = (s.bin n).later := by
  obtain ⟨i, hi, rfl⟩ := List.mem_map.mp hn
  have hi' : i < 48 := List.mem_range.mp hi
  unfold State.bin
  rw [if_neg (Nat.succ_ne_zero i), if_neg (Nat.succ_ne_zero i), Nat.add_sub_cancel, entryD_of_lt _ _ hi', entryD_of_lt _ _ hi']
  exact Vector.getElem_map _ _

/-- The stop timers, saw windows, gate pulses and pending drops that a tick raises to their durations. -/
def State.stopsRaised : List Chain :=
  [Chain.trimmer, Chain.sorter].filter fun ch => (s.unit ch).stopTimer.any fun t => decide (t.limit ≤ t.elapsed + 1)
@[inherit_doc State.stopsRaised] def State.windowsRaised : List Nat :=
  (List.range 13).filter fun k => decide ((s.saw k).stage ≠ .idle) && decide (s.tables.settings.window ≤ (s.saw k).timer + 1)
@[inherit_doc State.stopsRaised] def State.pulsesRaised : List Nat :=
  allBins.filter fun n => (s.bin n).pulse.any fun t => decide (((s.bin n).items.map (·.pulse)).getD 0 ≤ t + 1)
@[inherit_doc State.stopsRaised] def State.dropsRaised : List Nat :=
  allBins.flatMap fun n =>
    ((s.bin n).pending.takeWhile fun e => decide (((s.bin n).items.map (·.window)).getD 0 ≤ e.elapsed + 1)).map fun _ => n

/-- The expiries due of the raised timers, in the order of a tick. -/
theorem allDue_raised : (allTimers.flatMap fun t => t.due s.raised) =
    s.stopsRaised.map .stopTimerExpiry ++ s.windowsRaised.map .sawWindowExpiry ++ s.pulsesRaised.map .gatePulseExpiry ++
      s.dropsRaised.map .confirmWindowExpiry := by
  have hstops : s.stopsRaised = [Chain.trimmer, Chain.sorter].filter s.raised.stopDue :=
    (List.filter_congr fun ch _ => stopDue_later (raised_unit s ch)).symm
  have hwindows : s.windowsRaised = (List.range 13).filter s.raised.windowDue :=
    (List.filter_congr fun k hk => windowDue_later (raised_saw s (List.mem_range.mp hk)) rfl).symm
  have hpulses : s.pulsesRaised = allBins.filter s.raised.pulseDue :=
    (List.filter_congr fun n hn => pulseDue_later (s := s) (by rw [raised_bin s hn]; rfl) (by rw [raised_bin s hn]; rfl)).symm
  have hdrops : s.dropsRaised.map Instr.confirmWindowExpiry = allBins.flatMap fun n => (Timer.confirm n).due s.raised := by
    unfold State.dropsRaised
    rw [List.map_flatMap]
    refine List.flatMap_congr fun n hn => ?_
    unfold Timer.due State.dropsDue
    dsimp only
    rw [raised_bin s hn]
    change _ = ((List.map _ _).takeWhile _).map _
    rw [List.takeWhile_map, List.map_map, List.map_map]
    rfl
  rw [hdrops, hstops, hwindows, hpulses, ← flatMap_ite, ← flatMap_ite, ← flatMap_ite]
  unfold allTimers
  rw [List.flatMap_append, List.flatMap_append, List.flatMap_append, List.flatMap_map, List.flatMap_map, List.flatMap_map]
  rfl

end

/-- A tick after the settle period, as the commands of the expiries that are due on the raised timers. -/
theorem tick_eq_execAll {s : State} (h : s.awake = true) (hsettling : s.settling = false) :
    execAll (s.stopsRaised.map .stopTimerExpiry ++ s.windowsRaised.map .sawWindowExpiry ++ s.pulsesRaised.map .gatePulseExpiry ++
      s.dropsRaised.map .confirmWindowExpiry) s.raised = .next (tick s) := by
  have hraised : s.raised.awake = true := h
  rw [← allDue_raised, execAll_allDue allTimers_pairwise allTimers_exist hraised, ← tick_awake hsettling]

/-! ### A chain unit at a tick -/

/-- A chain unit whose stop timer has reached its duration, stopped (R2). -/
def ChainUnit.expired (u : ChainUnit) : ChainUnit :=
  if u.stopTimer.any fun t => decide (t.limit ≤ t.elapsed) then { u with stopped := true, stopTimer := none } else u

theorem stopChain_unit {ch : Chain} {s : State} {t : StopTimer} (h : (s.unit ch).stopTimer = some t) :
    (stopChain ch s).unit ch = { s.unit ch with stopped := true, stopTimer := none } := by
  have hevent : ∀ u : State, (raiseEvent .chainStop (some ch) 0 0 u).unit ch = u.unit ch := fun u => by
    cases ch
    · exact (raiseEvent_outside _ _ _ _ _).tcu rfl
    · exact (raiseEvent_outside _ _ _ _ _).scu rfl
  unfold stopChain
  rw [h]
  dsimp only
  rw [hevent, State.setUnit_unit]

theorem expire_stop_unit (ch : Chain) (s : State) : ((Timer.stop ch).expire s).unit ch = (s.unit ch).expired := by
  unfold Timer.expire State.stopDue ChainUnit.expired
  dsimp only
  cases hu : (s.unit ch).stopTimer with
  | none => rfl
  | some t =>
    rw [Option.any_some]
    by_cases hdue : t.limit ≤ t.elapsed
    · rw [if_pos (decide_eq_true hdue), if_pos (decide_eq_true hdue), stopChain_unit hu]
    · rw [if_neg (by simpa using hdue), if_neg (by simpa using hdue)]

theorem stopChain_unit_ne {ch ch' : Chain} (h : ch' ≠ ch) (s : State) : (stopChain ch s).unit ch' = s.unit ch' := by
  have hevent : ∀ u : State, (raiseEvent .chainStop (some ch) 0 0 u).unit ch' = u.unit ch' := fun u => by
    cases ch'
    · exact (raiseEvent_outside _ _ _ _ _).tcu rfl
    · exact (raiseEvent_outside _ _ _ _ _).scu rfl
  unfold stopChain
  split
  · rfl
  · rw [hevent, State.setUnit_unit_ne _ _ h]

/-- An expiry of another timer leaves a chain unit. -/
theorem expire_unit_ne {t : Timer} {ch : Chain} (h : t ≠ .stop ch) (s : State) : (t.expire s).unit ch = s.unit ch := by
  have hunit : ∀ {u : State}, u.tcu = s.tcu → u.scu = s.scu → u.unit ch = s.unit ch := fun ht hs => by
    cases ch
    · exact ht
    · exact hs
  cases t with
  | stop ch' => exact reading_ite (fun s => s.unit ch) _ (stopChain_unit_ne (fun e => h (congrArg Timer.stop e.symm)) s)
  | saw k =>
    exact reading_ite (fun s => s.unit ch) _ (hunit ((expireWindow_outside k s).tcu rfl) ((expireWindow_outside k s).scu rfl))
  | pulse n => exact reading_ite (fun s => s.unit ch) _ (hunit ((closeGate_outside n s).tcu rfl) ((closeGate_outside n s).scu rfl))
  | confirm n => exact hunit ((expireDue_outside n _ s).tcu rfl) ((expireDue_outside n _ s).scu rfl)

theorem foldl_expire_unit_ne {l : List Timer} {ch : Chain} (h : Timer.stop ch ∉ l) (s : State) :
    (l.foldl (fun s t => t.expire s) s).unit ch = s.unit ch := by
  induction l generalizing s with
  | nil => rfl
  | cons t rest ih =>
    rw [List.foldl_cons, ih fun hm => h (List.mem_cons_of_mem _ hm), expire_unit_ne fun e => h (e ▸ List.mem_cons_self)]

/-- A chain's stop timer expires in a tick and nothing else moves the chain's unit. -/
theorem foldl_expire_unit (ch : Chain) (s : State) : (allTimers.foldl (fun s t => t.expire s) s).unit ch = (s.unit ch).expired := by
  have hlines : Timer.stop ch ∉ (List.range 13).map Timer.saw ++ allBins.map Timer.pulse ++ allBins.map Timer.confirm := by simp
  have hlist : allTimers = Timer.stop .trimmer :: Timer.stop .sorter ::
      ((List.range 13).map Timer.saw ++ allBins.map Timer.pulse ++ allBins.map Timer.confirm) := by
    unfold allTimers
    simp only [List.append_assoc, List.cons_append, List.nil_append]
  rw [hlist, List.foldl_cons, List.foldl_cons, foldl_expire_unit_ne hlines]
  cases ch with
  | trimmer => rw [expire_unit_ne (by simp), expire_stop_unit]
  | sorter => rw [expire_stop_unit, expire_unit_ne (by simp)]

/-- A running stop timer at a tick (R2). -/
theorem tick_unit {s : State} (hsettling : s.settling = false) {ch : Chain} {timer : StopTimer} (h : (s.unit ch).stopTimer = some timer) :
    (tick s).unit ch =
      if timer.elapsed + 1 < timer.limit then { s.unit ch with stopTimer := some { timer with elapsed := timer.elapsed + 1 } }
      else { s.unit ch with stopped := true, stopTimer := none } := by
  rw [tick_awake hsettling, foldl_expire_unit, raised_unit]
  unfold ChainUnit.expired ChainUnit.later
  rw [h, Option.map_some, Option.any_some]
  by_cases hlimit : timer.elapsed + 1 < timer.limit
  · rw [if_neg (by simpa using hlimit), if_pos hlimit]
  · rw [if_pos (by simpa using hlimit), if_neg hlimit]

/-! ### The clock period -/

theorem controlSent_of_nil {k : LinkState} (h : k.control = []) : k.controlSent = k := by
  unfold LinkState.controlSent
  rw [← h]

/-- A period in which no control byte is due counts the dividers, and ticks when both wrap. -/
theorem clockPeriod_quiet {s : State} (hlow : s.timebase.resetLow = false) (hcontrol : ∀ l, (s.link l).control = []) :
    clockPeriod s =
      if s.timebase.div1 < 15 then { s with timebase := { s.timebase with div1 := s.timebase.div1 + 1 } }
      else if s.timebase.div2 < 999 then { s with timebase := { s.timebase with div1 := 0, div2 := s.timebase.div2 + 1 } }
      else tick { s with timebase := { s.timebase with div1 := 0, div2 := 0 } } := by
  have hoptimizer : s.links.optimizer.controlSent = s.links.optimizer := controlSent_of_nil (hcontrol .optimizer)
  have hline : s.links.lineController.controlSent = s.links.lineController := controlSent_of_nil (hcontrol .lineController)
  have htally : s.links.tallyStation.controlSent = s.links.tallyStation := controlSent_of_nil (hcontrol .tallyStation)
  unfold clockPeriod
  rw [hlow, if_neg Bool.false_ne_true, hoptimizer, hline, htally]
  rfl

theorem step_of_empty {s : State} (h : s.pending = []) : step s = .next (clockPeriod s) := by
  unfold step
  rw [h]

theorem settling_eq {s : State} (hlow : s.timebase.resetLow = false) : s.settling = decide (s.timebase.settle < 256) := by
  unfold State.settling
  rw [hlow]
  rfl

theorem tick_settling {s : State} (hlow : s.timebase.resetLow = false) (h : s.timebase.settle + 1 < 256) :
    tick s = { s with timebase := { s.timebase with settle := s.timebase.settle + 1 } } := by
  have hmore : s.timebase.settle + 1 < Config.settleTicks := h
  unfold tick
  rw [settling_eq hlow, if_pos (decide_eq_true (by omega)), if_pos hmore]

theorem tick_settled {s : State} (hlow : s.timebase.resetLow = false) (h : s.timebase.settle = 255) :
    .next (tick s) = exec .settlePeriodEnd s := by
  have hsettling : s.settling = true := by
    rw [settling_eq hlow, h]
    rfl
  have hlast : ¬ s.timebase.settle + 1 < Config.settleTicks := by
    rw [h]
    exact Nat.lt_irrefl 256
  unfold tick
  rw [if_pos hsettling, if_neg hlast]
  exact congrArg _ (if_pos hsettling).symm

end Sys2Proof.Machine

namespace Sys2Proof.Proofs
open Sys2Proof.Machine

/-- Settles O2, from the period in which no control byte is due: the tick raises every timer first, since an expiry neither reads nor moves
a timer that comes after it. -/
theorem clockPeriods : Obligations.ClockPeriods := by
  intro s hpending hcontrol
  rw [step_of_empty hpending]
  refine ⟨fun hlow => congrArg _ (if_pos hlow), fun hlow => ?_⟩
  rw [clockPeriod_quiet hlow hcontrol]
  refine ⟨fun h1 => congrArg _ (if_pos h1), fun h1 h2 => ?_, fun h1 h2 => ?_⟩
  · rw [if_neg (Nat.not_lt.mpr h1), if_pos h2]
  · rw [if_neg (Nat.not_lt.mpr h1), if_neg (Nat.not_lt.mpr h2)]
    intro rolled
    have hlow' : rolled.timebase.resetLow = false := hlow
    have hsettling (hs : 256 ≤ s.timebase.settle) : rolled.settling = false :=
      (settling_eq hlow').trans (decide_eq_false (Nat.not_lt.mpr hs))
    refine ⟨fun hs => congrArg _ (tick_settling hlow' hs), fun hs => tick_settled hlow' hs, fun hs => ?_,
      fun ch timer hs ht => ⟨_, rfl, tick_unit (s := rolled) (hsettling hs) ht⟩⟩
    intro stop saw bin raised bins stops windows pulses drops
    have hawake : rolled.awake = true := by
      unfold State.awake
      rw [hlow']
      exact decide_eq_true hs
    have hstops : stops = rolled.stopsRaised := List.filter_congr fun ch _ => by
      change _ = (s.unit ch).stopTimer.any _
      cases (s.unit ch).stopTimer <;> rfl
    have hpulses : pulses = rolled.pulsesRaised := List.filter_congr fun n _ => by
      change _ = (s.bin n).pulse.any _
      cases (s.bin n).pulse <;> rfl
    rw [hstops, hpulses]
    exact (tick_eq_execAll hawake (hsettling hs)).symm

end Sys2Proof.Proofs
end

