-- ==== Sys2Proof/Proofs/Commands.lean ====
section
/-! Commands sorted by what they can touch, for the invariants of every step: what a command that is no link's does to a chain's tracking and
reports (`Tracks`), what a predicate must be kept by so that every such command keeps it (`FieldKept`), and the frames of the requests'
handlers. -/

namespace Sys2Proof.Machine

-- One thread elaborates the many small proofs of this file.
set_option Elab.async false

/-! ### Tracking and reports (R1 to R10) -/

/-- Changes of a chain's tracking that keep its serial, events and latched causes, and maps marked SUSPECT, one after another. -/
inductive Tracks : State → State → Prop
  | refl (s : State) : Tracks s s
  | unit {s t : State} (ch : Chain) (u : ChainUnit) (hu : u.serial = (t.unit ch).serial) (h : Tracks s t) : Tracks s (t.setUnit ch u)
  | event {s t : State} (k : EventKind) (c : Option Chain) (n d : Nat) (h : Tracks s t) : Tracks s (raiseEvent k c n d t)
  | cause {s t : State} (c : Cause) (h : Tracks s t) : Tracks s (latch c t)
  | suspect {s t : State} (ch : Chain) (h : Tracks s t) : Tracks s (suspectMap ch t)

theorem Tracks.sync {s t : State} (ch : Chain) (new : Sync) (h : Tracks s t) : Tracks s (changeSync ch new t) := by
  unfold changeSync
  split
  · exact h
  · have hevent := (h.unit ch { t.unit ch with sync := new } rfl).event .syncChange (some ch) 0 new.code
    cases ch
    · exact (hevent.cause .sync).cause .trackSync
    · exact hevent.cause .sync

theorem Tracks.counted {s t : State} (ch : Chain) (count : Nat) (reverse : Bool) (h : Tracks s t) : Tracks s (t.counted ch count reverse) := by
  have hset := h.unit ch { t.unit ch with
    count := count, stopped := false, reverse := reverse, stopTimer := some { elapsed := 0, limit := (t.params ch).stopTime } } rfl
  unfold State.counted
  dsimp only
  split
  · exact hset.event _ _ _ _
  · exact hset

theorem Tracks.missed {s t : State} (ch : Chain) (h : Tracks s t) : Tracks s (t.missed ch) := by
  have hevent := (h.unit ch { t.unit ch with count := (t.params ch).tolerance, miss := (t.unit ch).miss + 1 } rfl).event .eyeMissed
    (some ch) 0 ((t.unit ch).miss + 1)
  unfold State.missed
  dsimp only
  split
  · exact ((hevent.unit ch _ (by rfl)).sync ch .lost).suspect ch
  · exact hevent.sync ch .coast

theorem reverseCount_tracks (ch : Chain) (s : State) : Tracks s (reverseCount ch s) := by
  have hcount := (Tracks.refl s).counted ch ((s.unit ch).count - 1) true
  rw [reverseCount_eq]
  split
  · exact hcount
  · exact hcount.event _ _ _ _

theorem stopChain_tracks (ch : Chain) (s : State) : Tracks s (stopChain ch s) := by
  unfold stopChain
  split
  · exact .refl s
  · exact ((Tracks.refl s).unit ch { s.unit ch with stopped := true, stopTimer := none } rfl).event _ _ _ _

/-- An event of a chain tracks, or tracks on both sides of the chain's lines, whose advance raises the serial. -/
def Advances (ch : Chain) (s t : State) : Prop :=
  Tracks s t ∨ ∃ u v, Tracks s u ∧ Tracks (advanceLines ch u) v ∧ t = raiseSerial ch v

theorem forwardCount_advances (ch : Chain) (s : State) : Advances ch s (forwardCount ch s) := by
  have hcount := (Tracks.refl s).counted ch (incTo Config.countMax (s.unit ch).count) false
  rw [forwardCount_eq]
  split
  · exact .inr ⟨_, _, hcount.missed ch, .refl _, syntheticAdvance_eq ch _⟩
  · exact .inl hcount

theorem acquireEdge_advances (ch : Chain) (s : State) : Advances ch s (acquireEdge ch s) := by
  refine .inr ⟨_, _, (Tracks.refl s).unit ch { s.unit ch with count := 0, good := s.goodAfter ch } rfl, ?_, acquireEdge_eq ch s⟩
  split
  · refine ((Tracks.refl _).unit ch _ ?_).sync ch .locked
    rw [advanceLines_unit, State.setUnit_unit]
  · exact .refl _

theorem lugEdge_advances (ch : Chain) (s : State) : Advances ch s (lugEdge ch s) := by
  have hacquire : Advances ch s (if (s.unit ch).count < (s.params ch).halfPitch then s else acquireEdge ch s) := by
    split
    · exact .inl (.refl s)
    · exact acquireEdge_advances ch s
  have htrack : Advances ch s (trackEdge ch s) := by
    by_cases hlow : (s.unit ch).count < (s.params ch).windowLow
    · unfold trackEdge
      rw [if_pos hlow]
      exact .inl ((Tracks.refl s).event _ _ _ _)
    · exact .inr ⟨_, _, (Tracks.refl s).unit ch { s.unit ch with count := 0, miss := 0 } rfl, (Tracks.refl _).sync ch .locked,
        trackEdge_eq (Nat.le_of_not_lt hlow)⟩
  unfold lugEdge
  split
  · exact .inl (.refl s)
  · split
    · exact hacquire
    · exact hacquire
    · exact htrack
    · exact htrack

theorem Tracks.serial {s t : State} (h : Tracks s t) (ch : Chain) : (t.unit ch).serial = (s.unit ch).serial := by
  induction h with
  | refl => rfl
  | unit c u hu _ ih => rw [setUnit_serial c ch u _ hu, ih]
  | event k c n d _ ih => rw [raiseEvent_unit, ih]
  | cause c _ ih => rw [latch_unit, ih]
  | suspect c _ ih => rw [suspectMap_unit, ih]

/-- The parts that tracking can change. -/
theorem Tracks.outside {s t : State} (h : Tracks s t) :
    Outside { tcu := true, scu := true, trimmer := true, sorter := true, events := true, attention := true } s t := by
  induction h with
  | refl => exact .refl _ _
  | unit c u _ _ ih => exact .then ih (setUnit_outside c u _)
  | event k c n d _ ih => exact .then ih (raiseEvent_outside k c n d _)
  | cause c _ ih => exact .then ih (latch_outside c _)
  | suspect c _ ih => exact .then ih (suspectMap_outside c _)

/-! ### What every command but the links' keeps -/

/-- A command of the power inputs, the field lines, the keypads or the timers, and no link's (R168 to R173). -/
def offLinks : Instr → Bool
  | .powerOn _ | .resetnAssert | .resetnRelease _ | .settlePeriodEnd | .encoderForwardCount _ | .encoderReverseCount _ | .stopTimerExpiry _
  | .lugEyeOnEdge _ _ | .syntheticAdvance _ | .scanEyeOnEdge _ | .pickupEyeOnEdge _ | .sawFeedbackChange _ _ | .sawWindowExpiry _
  | .gatePulseExpiry _ | .gateConfirmOnEdge _ _ | .confirmWindowExpiry _ | .binFullSwitchOnEdge _ _ | .keyMarkPush _ _ | .keyUndo _
  | .keyClr _ | .keyEnt _ | .keypadBadByte _ | .keypadReplySent _ => true
  | _ => false

/-- Reply codes are kept within their queue (R61). -/
def Grading.RepliesKept (g h : Grading) : Prop := g.replies.length ≤ Config.replySlots → h.replies.length ≤ Config.replySlots

/-- What a predicate must be kept by for every command but the links' to keep it: the power inputs, and of each block the operations its
commands are made of. -/
structure FieldKept (I : State → Prop) : Prop where
  powered : ∀ (s : State) baud low, I (s.powered baud low)
  held : ∀ s : State, I s.held
  levels : ∀ s pins standing, I s → I { s with pins := pins, standing := standing }
  settled : ∀ s, I s → I (endSettle s)
  clocked : ∀ s timebase, I s → I { s with timebase := timebase }
  raised : ∀ s : State, I s → I s.raised
  tracks : ∀ s t, Tracks s t → I s → I t
  advance : ∀ ch s t, I s → Tracks (advanceLines ch s) t → I (raiseSerial ch t)
  scan : ∀ s, I s → I (scanEdge s)
  pickup : ∀ s, I s → I (pickupEdge s)
  feedback : ∀ saw down s, I s → I (takeFeedback saw down s)
  window : ∀ saw s, I s → I (expireWindow saw s)
  gate : ∀ bin s, I s → I (closeGate bin s)
  confirm : ∀ bin s, I s → I (confirmEdge bin s)
  drop : ∀ bin s, I s → I (expireConfirm bin s)
  fullSwitch : ∀ bin s, I s → I (fullSwitchEdge bin s)
  inputs : ∀ bin (f : BinRec → BinRec) s, I s → I (s.modifyBin bin f)
  grading : ∀ p g s, (s.grading p).RepliesKept g → I s → I (s.setGrading p g)
  commits : ∀ p target s, I s → I (commit p target s)

namespace FieldKept
variable {I : State → Prop}

theorem advances (hI : FieldKept I) {ch : Chain} {s t : State} (h : Advances ch s t) (hs : I s) : I t := by
  obtain h | ⟨u, v, hu, hv, rfl⟩ := h
  · exact hI.tracks s t h hs
  · exact hI.advance ch u v (hI.tracks s u hu hs) hv

theorem edge (hI : FieldKept I) {line : InputLine} {edge : Edge} {onEdge offEdge : State → State} {s t : State}
    (hon : ∀ s, I s → I (onEdge s)) (hoff : ∀ s, I s → I (offEdge s)) (h : takeEdge line edge onEdge offEdge s = .next t) (hs : I s) : I t :=
  takeEdge_keeps hI.levels hon hoff h hs

end FieldKept

/-! ### Keypads and replies (R60 to R70) -/

theorem Grading.reply_kept (code : Reply) (g : Grading) : g.RepliesKept (g.reply code) := by
  intro h
  unfold Grading.reply
  split
  · next hlt => simpa using hlt
  · exact h

theorem Grading.push_kept (key : MarkKey) (valid : Bool) (g : Grading) : g.RepliesKept (g.push key valid) := by
  unfold Grading.push
  dsimp only
  split
  · exact g.reply_kept .refuse
  · split
    · exact id
    · exact id

theorem Grading.undo_kept (g : Grading) : g.RepliesKept g.undo := by
  unfold Grading.undo
  split
  · exact g.reply_kept .refuse
  · exact id

theorem Grading.retarget_kept (new : Option Nat) (g : Grading) : g.RepliesKept (g.retarget new) := by
  unfold Grading.retarget
  split
  · exact id
  · cases new with
    | none => exact Grading.reply_kept .targetOff { g with target := none }
    | some tag => exact Grading.reply_kept .targetOn { g with target := some tag }

theorem Grading.missTarget_kept (g : Grading) : g.RepliesKept g.missTarget := by
  unfold Grading.missTarget
  split
  · exact id
  · exact g.cleared.reply_kept .missed

theorem Grading.replySent_kept (g : Grading) : g.RepliesKept { g with replies := g.replies.tail } :=
  fun h => (List.tail_sublist g.replies).length_le.trans h

namespace FieldKept
variable {I : State → Prop}

theorem key (hI : FieldKept I) (p : Position) {act : State → State} {s : State} (hact : I s → I (act s)) (hs : I s) :
    I (keyEvent p act s) := by
  unfold keyEvent
  split
  · exact hact hs
  · exact hI.grading p _ s ((s.grading p).reply_kept .refuse) hs

/-- Every command that is no link's keeps it. -/
theorem exec (hI : FieldKept I) {i : Instr} {s t : State} (hi : offLinks i = true) (h : exec i s = .next t) (hs : I s) : I t := by
  have hawake : ∀ {u : State} {act : State → State}, whenAwake u act = .next t → I u → (I u → I (act u)) → I t :=
    fun h hu hact => whenAwake_keeps hact h hu
  cases i
  case powerOn baud => cases h; exact hI.powered s baud _
  case resetnAssert => cases h; exact hI.held s
  case resetnRelease baud => cases h; exact hI.powered s baud false
  case settlePeriodEnd =>
    cases h
    split
    · exact hI.settled s hs
    · exact hs
  case encoderForwardCount ch => exact hawake h hs (hI.advances (forwardCount_advances ch s))
  case encoderReverseCount ch => exact hawake h hs (hI.tracks s _ (reverseCount_tracks ch s))
  case stopTimerExpiry ch => exact hawake h hs (hI.tracks s _ (stopChain_tracks ch s))
  case lugEyeOnEdge ch edge => exact hI.edge (fun s => hI.advances (lugEdge_advances ch s)) (fun _ => id) h hs
  case syntheticAdvance ch =>
    refine hawake h hs fun hs => ?_
    split
    · exact hI.advances (forwardCount_advances ch s) hs
    · exact hs
  case scanEyeOnEdge edge => exact hI.edge hI.scan (fun _ => id) h hs
  case pickupEyeOnEdge edge => exact hI.edge hI.pickup (fun _ => id) h hs
  case sawFeedbackChange saw down =>
    change execSawFeedbackChange saw down s = .next t at h
    unfold execSawFeedbackChange at h
    split at h
    · exact hawake h (hI.levels s _ s.standing hs) (hI.feedback saw down _)
    · cases h
  case sawWindowExpiry saw =>
    change execSawWindowExpiry saw s = .next t at h
    unfold execSawWindowExpiry at h
    split at h
    · exact hawake h hs (hI.window saw s)
    · cases h
  case gatePulseExpiry bin =>
    change execGatePulseExpiry bin s = .next t at h
    unfold execGatePulseExpiry at h
    split at h
    · exact hawake h hs (hI.gate bin s)
    · cases h
  case gateConfirmOnEdge bin edge =>
    change execGateConfirmOnEdge bin edge s = .next t at h
    unfold execGateConfirmOnEdge at h
    split at h
    · exact hI.edge (hI.confirm bin) (hI.inputs bin _) h hs
    · cases h
  case confirmWindowExpiry bin =>
    change execConfirmWindowExpiry bin s = .next t at h
    unfold execConfirmWindowExpiry at h
    split at h
    · exact hawake h hs (hI.drop bin s)
    · cases h
  case binFullSwitchOnEdge bin edge =>
    change execBinFullSwitchOnEdge bin edge s = .next t at h
    unfold execBinFullSwitchOnEdge at h
    split at h
    · exact hI.edge (hI.fullSwitch bin) (hI.inputs bin _) h hs
    · cases h
  case keyMarkPush p key =>
    change execKeyMarkPush p key s = .next t at h
    unfold execKeyMarkPush at h
    refine hawake h hs fun hs => ?_
    split
    · exact hI.key p (hI.grading p _ s (Grading.push_kept key _ _)) hs
    · exact hI.grading p _ s id hs
  case keyUndo p => exact hawake h hs (hI.key p (hI.grading p _ s (Grading.undo_kept _)))
  case keyClr p => exact hawake h hs (hI.key p (hI.grading p _ s id))
  case keyEnt p =>
    refine hawake h hs (hI.key p fun hs => ?_)
    split
    · exact hI.grading p _ s ((s.grading p).reply_kept .refuse) hs
    · exact hI.commits p _ s hs
  case keypadBadByte p =>
    change execKeypadBadByte p s = .next t at h
    unfold execKeypadBadByte at h
    exact hawake h hs (hI.grading p _ s id)
  case keypadReplySent p =>
    change execKeypadReplySent p s = .next t at h
    unfold execKeypadReplySent at h
    exact hawake h hs (hI.grading p _ s (Grading.replySent_kept _))
  all_goals cases hi

/-- A run of commands, none a link's, keeps it. -/
theorem execAll (hI : FieldKept I) {l : List Instr} (hl : ∀ i ∈ l, offLinks i = true) {s t : State} (h : execAll l s = .next t)
    (hs : I s) : I t := by
  induction l generalizing s with
  | nil => cases h; exact hs
  | cons i rest ih =>
    unfold Machine.execAll at h
    split at h
    · next u hu =>
      exact ih (fun j hj => hl j (List.mem_cons_of_mem i hj)) h (hI.exec (hl i List.mem_cons_self) hu hs)
    · cases h
    · cases h

/-- A tick raises the timers, and then expires those due as their commands do (R16). -/
theorem tick (hI : FieldKept I) {s : State} (hlow : s.timebase.resetLow = false) (hs : I s) : I (tick s) := by
  by_cases hset : s.settling = true
  · unfold Machine.tick
    rw [if_pos hset]
    split
    · exact hI.clocked s _ hs
    · exact hI.settled s hs
  · have hawake : s.awake = true := by
      rw [settling_eq hlow] at hset
      unfold State.awake
      rw [hlow]
      exact decide_eq_true (Nat.le_of_not_lt fun hlt => hset (decide_eq_true hlt))
    refine hI.execAll (fun i hi => ?_) (tick_eq_execAll hawake (eq_false_of_ne_true hset)) (hI.raised s hs)
    simp only [List.mem_append, List.mem_map] at hi
    obtain ((⟨_, _, rfl⟩ | ⟨_, _, rfl⟩) | ⟨_, _, rfl⟩) | ⟨_, _, rfl⟩ := hi <;> rfl

/-- A clock period keeps what the sending of due control bytes also keeps. -/
theorem clockPeriod (hI : FieldKept I)
    (hcontrol : ∀ s, I s → I { s with links := { s.links with
      optimizer := s.links.optimizer.controlSent, lineController := s.links.lineController.controlSent,
      tallyStation := s.links.tallyStation.controlSent } }) {s : State} (hs : I s) : I (clockPeriod s) := by
  unfold Machine.clockPeriod
  split
  · exact hs
  · next hlow =>
    have hsent := hcontrol s hs
    dsimp only
    split
    · exact hI.clocked _ _ hsent
    · split
      · exact hI.clocked _ _ hsent
      · exact hI.tick (eq_false_of_ne_true hlow) (hI.clocked _ _ hsent)

end FieldKept

/-! ### Links' commands -/

/-- A request command is the command of its request. -/
theorem requestInstr_of_parts {i : Instr} {l : LinkId} {code num : Byte} {fields : List Byte}
    (h : requestParts i = some (l, code, num, fields)) :
    (∃ r, code = requestCode r ∧ i = requestInstr r l num fields) ∨ i = .unknownRequestCode l code num fields := by
  cases i <;> simp only [requestParts, Option.some.injEq, Prod.mk.injEq, reduceCtorEq] at h <;> obtain ⟨rfl, rfl, rfl, rfl⟩ := h
  case unknownRequestCode => exact .inr rfl
  all_goals exact .inl ⟨_, rfl, rfl⟩

/-- A link's command that carries no request. -/
theorem offLinks_or_request (i : Instr) : offLinks i = true ∨ (∃ l code num fields, requestParts i = some (l, code, num, fields)) ∨
    (∃ l b stopBit, i = .linkByteReceived l b stopBit) ∨ (∃ l, i = .pauseReceived l) ∨ (∃ l, i = .resumeReceived l) ∨
    (∃ l, i = .txFrameSent l) ∨ ∃ l, i = .linkBreak l := by
  cases i <;> simp [offLinks, requestParts]

/-- A predicate that every command but the links' keeps, and that changes of links, the handlers and the end of a load being staged keep, is
kept by every step. -/
theorem FieldKept.step {I : State → Prop} (hI : FieldKept I) (hlink : ∀ s l f, I s → I (s.modifyLink l f))
    (hact : ∀ r l fields s, I s → I (handlerOf r l fields s).1)
    (hstage : ∀ s, I s → I { s with tables := { s.tables with staging := none } })
    (hcontrol : ∀ s links, I s → I { s with links := links }) (hpending : ∀ s rest, I s → I { s with pending := rest }) {s t : State}
    (h : step s = .next t) (hs : I s) : I t := by
  refine step_keeps (I := I) (fun _ => hI.clockPeriod fun s => hcontrol s _) hpending (fun i s t h hs => ?_) h hs
  have hawake : ∀ {act : State → State}, whenAwake s act = .next t → (I s → I (act s)) → I t := fun h hact => whenAwake_keeps hact h hs
  have htake : ∀ {l u}, takeOldest l u = .next t → I u → I t := fun h hu => takeOldest_keeps hlink hact h hu
  obtain hi | ⟨l, code, num, fields, hi⟩ | ⟨l, b, stopBit, rfl⟩ | ⟨l, rfl⟩ | ⟨l, rfl⟩ | ⟨l, rfl⟩ | ⟨l, rfl⟩ := offLinks_or_request i
  · exact hI.exec hi h hs
  · obtain ⟨r, -, rfl⟩ | rfl := requestInstr_of_parts hi
    · rw [exec_requestInstr] at h
      exact serve_keeps hlink (hact r) h hs
    · exact execUnknownRequestCode_keeps hlink h hs
  · change execLinkByteReceived l b stopBit s = .next t at h
    unfold execLinkByteReceived at h
    split at h
    · exact htake h (hlink s l _ hs)
    · cases h; exact hs
  · exact hawake (act := fun s => s.modifyLink l LinkState.paused) h (hlink s l _)
  · exact hawake (act := fun s => s.modifyLink l LinkState.resumed) h (hlink s l _)
  · change execTxFrameSent l s = .next t at h
    unfold execTxFrameSent at h
    split at h
    · exact htake h (hlink s l _ hs)
    · cases h; exact hs
  · refine hawake (act := fun s => abandonStaging l (s.modifyLink l LinkState.broken)) h fun hs => ?_
    have hbroken := hlink s l LinkState.broken hs
    cases l
    · exact hbroken
    · exact hstage _ hbroken
    · exact hbroken

/-! ### Frames of the requests' handlers (R172) -/

/-- The parts that a request's handler can change. -/
def handlerTouched : Req → Touched
  | .postScan | .postSolution => { trimmer := true, postings := true }
  | .readRecord | .readStatus | .readBins | .readTable | .readTableTallyForm | .readSegment | .readMatrix | .readClosed => {}
  | .ackAttention | .setAttentionEnable => { attention := true }
  | .setLineMode => { decision := true }
  | .forceBoard => { trimmer := true, forces := true, decision := true }
  | .sawEnable | .sawDisable => { saws := true }
  | .binUnload | .binEmptied | .binEnable | .binDisable => { sort := true, attention := true }
  | .readEvents | .clearEventOverflow => { events := true }
  | .start => { line := true, attention := true, tables := true }
  | .restartTracking =>
    { tcu := true, scu := true, trimmer := true, transfer := true, sorter := true, line := true, gradingA := true, gradingB := true,
      saws := true, sort := true, tally := true, events := true, attention := true }
  | .loadTable => .byLoad
  | .releaseSegment | .flush => { tally := true }
  | .shiftClose => { tally := true, attention := true }
  | .priceEdit | .priceSwitch => { tables := true }

theorem modifyPostings_outside (f : PostingCounts → PostingCounts) (s : State) : Outside { postings := true } s (s.modifyPostings f) := by
  constructor <;> intro h <;> first | exact absurd h (by decide) | rfl

theorem modifyForces_outside (f : ForceCounts → ForceCounts) (s : State) : Outside { forces := true } s (s.modifyForces f) := by
  constructor <;> intro h <;> first | exact absurd h (by decide) | rfl

/-- A posting stores in its record, and counts (R53). -/
theorem posting_outside (tag : Nat) {store : Record → Nat → State → State × Answer} {s : State}
    (hstore : ∀ r off, Outside { trimmer := true } s (store r off s).1) :
    Outside { trimmer := true, postings := true } s (posting tag store s).1 := by
  unfold posting
  cases s.onTrimmerBelow tag s.tables.station.decision with
  | error a => exact (modifyPostings_outside _ s).weaken
  | ok p => exact .then (hstore p.1 p.2).weaken (modifyPostings_outside _ _)

theorem postScan_outside (l : LinkId) (fields : List Byte) (s : State) :
    Outside { trimmer := true, postings := true } s (postScan l fields s).1 := by
  refine posting_outside _ fun r off => ?_
  unfold storeScan
  split
  · exact .refl _ s
  · split
    · exact .refl _ s
    · split
      · exact .refl _ s
      · exact modifyTrimmer_outside _ _ s

theorem postSolution_outside (l : LinkId) (fields : List Byte) (s : State) :
    Outside { trimmer := true, postings := true } s (postSolution l fields s).1 := by
  refine posting_outside _ fun r off => ?_
  unfold storeSolution
  split
  · exact .refl _ s
  · split
    · exact .refl _ s
    · exact modifyTrimmer_outside _ _ s

theorem storeForce_outside (force : Force) (r : Record) (off : Nat) (s : State) :
    Outside { trimmer := true, decision := true } s (storeForce force r off s).1 := by
  unfold storeForce
  dsimp only
  split
  · exact .then (modifyTrimmer_outside _ _ s).weaken (redecide_outside _ _)
  · exact (modifyTrimmer_outside _ _ s).weaken

theorem forceBoard_outside (l : LinkId) (fields : List Byte) (s : State) :
    Outside { trimmer := true, forces := true, decision := true } s (forceBoard l fields s).1 := by
  unfold forceBoard
  dsimp only
  split
  · exact (modifyForces_outside _ s).weaken
  · split
    · exact (modifyForces_outside _ s).weaken
    · exact .then (storeForce_outside _ _ _ s).weaken (modifyForces_outside _ _)

theorem startLine_outside (l : LinkId) (fields : List Byte) (s : State) :
    Outside { line := true, attention := true, tables := true } s (startLine l fields s).1 := by
  unfold startLine
  split
  · exact .refl _ s
  · split
    · exact .refl _ s
    · exact .trans (withTables_outside s _).weaken (setLineState_outside .run _).weaken

theorem handlerOf_outside (r : Req) (l : LinkId) (fields : List Byte) (s : State) :
    Outside (handlerTouched r) s (handlerOf r l fields s).1 := by
  cases r
  case postScan => exact postScan_outside l fields s
  case postSolution => exact postSolution_outside l fields s
  case readRecord => exact .of_eq (readRecord_state l fields s)
  case readStatus => exact .of_eq (readStatus_state l fields s)
  case readBins => exact .of_eq (readBins_state l fields s)
  case readTable => exact .of_eq (readTable_state l fields s)
  case readTableTallyForm => exact .of_eq (readTable_state l fields s)
  case readSegment => exact .of_eq (readSegment_state l fields s)
  case readMatrix => exact .of_eq (readTally_state (·.live) l fields s)
  case readClosed => exact .of_eq (readTally_state (·.closed) l fields s)
  case ackAttention => exact attentionRequest_outside _ l fields s
  case setAttentionEnable => exact attentionRequest_outside _ l fields s
  case setLineMode => exact setLineMode_outside l fields s
  case forceBoard => exact forceBoard_outside l fields s
  case sawEnable => exact sawService_outside _ l fields s
  case sawDisable => exact sawService_outside _ l fields s
  case binUnload => exact unloadBin_outside l fields s
  case binEmptied => exact emptiedBin_outside l fields s
  case binEnable => exact enableBin_outside l fields s
  case binDisable => exact disableBin_outside l fields s
  case readEvents => exact readEvents_outside l fields s
  case clearEventOverflow => exact clearEventOverflow_outside l fields s
  case start => exact startLine_outside l fields s
  case restartTracking => exact .trans (loseAll_outside s).weaken (restart_outside s).weaken
  case loadTable => exact loadTable_outside l fields s
  case releaseSegment => exact releaseSegment_outside l fields s
  case flush => exact flushStream_outside l fields s
  case shiftClose => exact shiftClose_outside l fields s
  case priceEdit => exact priceEdit_outside l fields s
  case priceSwitch => exact priceSwitch_outside l fields s

/-- No handler changes a link: the request is taken before it and answered after it. -/
theorem handlerOf_links (r : Req) (l : LinkId) (fields : List Byte) (s : State) : (handlerOf r l fields s).1.links = s.links :=
  (handlerOf_outside r l fields s).links (by cases r <;> rfl)

end Sys2Proof.Machine
end

