-- ==== Sys2Proof/Proofs/BoardsPlaced.lean ====
section
/-! The placing of boards without their lives (O57): tags and places are what is left of the view when lives and parts are wiped out of it, and
on what is left each line of an advance only takes a record away or moves it on. -/

namespace Sys2Proof.Machine

-- One thread elaborates the many small proofs of this file.
set_option Elab.async false

/-! ### The view without lives -/

/-- A stand's tag and place, every life and part wiped out. -/
def Stand.bare (x : Stand) : Stand := { x with life := .inTransfer, decided := true, cut := true, sorted := true }

/-- A view's tags and places. -/
def BoardView.bare (v : BoardView) : BoardView :=
  { v with trimmer := v.trimmer.map Stand.bare, transfer := v.transfer.map Stand.bare, sorter := v.sorter.map Stand.bare }

/-- Below the lines at which the records leave the two maps. -/
def BoardView.Within (n m : Nat) (v : BoardView) : Prop := v.bare.Travels (fun off _ => off < n) fun off _ => off < m

/-- The boards of a view have tags and places of their own, below O and R. -/
def BoardView.Boarded (v : BoardView) : Prop := v.Within v.station.outfeed v.station.runout

theorem BoardView.bare_tags (v : BoardView) : v.bare.tags = v.tags := by
  simp [BoardView.bare, BoardView.tags, Stand.bare, Function.comp_def]

theorem mapTag_bare (tag : Nat) {f : Record → Record} (h : ∀ r, (f r).stand.bare = r.stand.bare) (rs : List Record) :
    ((mapTag tag f rs).map Record.stand).map Stand.bare = (rs.map Record.stand).map Stand.bare := by
  simp only [mapTag, List.map_map]
  refine List.map_congr_left fun r _ => ?_
  simp only [Function.comp_apply]
  split
  · exact h r
  · rfl

theorem modifyTrimmer_bare (tag : Nat) {f : Record → Record} (h : ∀ r, (f r).stand.bare = r.stand.bare) (s : State) (a b : Serial) :
    ((s.modifyTrimmer tag f).viewAt a b).bare = (s.viewAt a b).bare := by
  simp only [State.viewAt, State.modifyTrimmer, BoardView.bare, mapTag_bare tag h]

/-- A record's tag and place are not changed with those of another under its tag. -/
theorem mapTag_replace_bare {rs : List Record} {r x : Record} (h : x.stand.bare = r.stand.bare)
    (hr : ∀ y ∈ rs, y.tag = r.tag → y = r) :
    ((mapTag r.tag (fun _ => x) rs).map Record.stand).map Stand.bare = (rs.map Record.stand).map Stand.bare := by
  simp only [mapTag, List.map_map]
  refine List.map_congr_left fun y hy => ?_
  simp only [Function.comp_apply]
  split
  · next e => rw [h, hr y hy e]
  · rfl

theorem BoardView.bare_offTrimmer (v : BoardView) (tag : Nat) : (v.offTrimmer tag).bare = v.bare.offTrimmer tag := by
  simp only [BoardView.bare, BoardView.offTrimmer, List.filter_map]
  rfl

theorem BoardView.bare_offSorter (v : BoardView) (tag : Nat) : (v.offSorter tag).bare = v.bare.offSorter tag := by
  simp only [BoardView.bare, BoardView.offSorter, List.filter_map]
  rfl

theorem BoardView.bare_onSorter (v : BoardView) (tag : Nat) {g : Stand → Stand} (h : ∀ x, (g x).bare = x.bare) :
    (v.onSorter tag g).bare = v.bare := by
  simp only [BoardView.bare, BoardView.onSorter, List.map_map]
  congr 1
  refine List.map_congr_left fun x _ => ?_
  simp only [Function.comp_apply]
  split
  · exact h x
  · rfl

/-- `BoardsPlaced` reads the tags and the places. -/
theorem boardsPlaced_iff (s : State) : BoardsPlaced s ↔ s.view.Boarded := by
  have htr : ∀ {P : Stand → Prop}, (∀ x ∈ s.view.bare.trimmer, P x) ↔ ∀ r ∈ s.board.trimmer, P r.stand.bare := by
    intro P
    simp [BoardView.bare, State.view, State.viewAt]
  have hso : ∀ {P : Stand → Prop}, (∀ x ∈ s.view.bare.sorter, P x) ↔ ∀ r ∈ s.board.sorter, P r.stand.bare := by
    intro P
    simp [BoardView.bare, State.view, State.viewAt]
  have hsize : s.view.bare.transfer.length = s.board.transfer.length := by simp [BoardView.bare, State.view, State.viewAt]
  have htags : s.view.bare.tags = s.live.map (·.tag) := by rw [BoardView.bare_tags, State.view, ← State.live_tags]
  constructor
  · intro h
    refine ⟨⟨htags ▸ h.distinct, fun t ht => ?_, fun hl => ?_⟩, h.counter, ?_, htr.mpr h.trimmerReach, hsize ▸ h.transferSize, fun x hx => ?_,
      ?_, hso.mpr h.sorterReach, h.stations⟩
    · obtain ⟨r, hr, rfl⟩ := List.mem_map.mp (htags ▸ ht)
      exact h.tags r hr
    · rw [htags, h.idleLine hl]
      rfl
    · exact List.pairwise_map.mpr (List.pairwise_map.mpr h.trimmerOrder)
    · obtain ⟨y, _, rfl⟩ := List.mem_map.mp hx
      exact ⟨rfl, rfl⟩
    · exact List.pairwise_map.mpr (List.pairwise_map.mpr h.sorterOrder)
  · intro h
    refine ⟨htags ▸ h.tags.distinct, fun r hr => ?_, h.counter, ?_, htr.mp h.trimmer, ?_, hso.mp h.sorter, hsize ▸ h.transferSize, h.stations,
      fun hl => ?_⟩
    · exact h.tags.inRange _ (htags ▸ List.mem_map_of_mem hr)
    · exact List.pairwise_map.mp (List.pairwise_map.mp h.trimmerFalls)
    · exact List.pairwise_map.mp (List.pairwise_map.mp h.sorterFalls)
    · exact List.map_eq_nil_iff.mp (htags ▸ h.tags.idle hl)

/-- Boards that stand where their lives say have tags and places of their own. -/
theorem BoardView.Placed.boarded {s : State} (h : s.view.Placed) : s.view.Boarded :=
  (boardsPlaced_iff s).mp ((livesPlaced_iff s).mpr h).placed

/-- In CONFIG no record is live, so every life is that of its place. -/
theorem BoardView.Boarded.placed_of_config {v : BoardView} (h : v.Boarded) (hl : v.line = .config) : v.Placed := by
  have hnil : v.tags = [] := (BoardView.bare_tags v) ▸ h.tags.idle hl
  simp only [BoardView.tags, List.map_eq_nil_iff, List.append_eq_nil_iff] at hnil
  exact BoardView.placed_of_empty hnil.1.1 hnil.1.2 hnil.2 h.counter h.stations

/-! ### A trimmer advance -/

section
variable {s : State} {now b : Serial} {n m : Nat}

theorem trimmerAt_bare {k : Nat} {r : Record} (e : s.trimmerAt now k = some r) :
    r.stand.bare ∈ (s.viewAt now b).bare.trimmer ∧ offsetAt now r.creation = k :=
  ⟨List.mem_map_of_mem (trimmerAt_some (b := b) e).1, (trimmerAt_some (b := b) e).2⟩

theorem decisionLine_bare : ((decisionLine now s).viewAt now b).bare = (s.viewAt now b).bare := by
  unfold decisionLine
  split
  · split
    · exact modifyTrimmer_bare _ (by intro; rfl) s now b
    · rfl
  · rfl

theorem setLine_bare : ((setLine now s).viewAt now b).bare = (s.viewAt now b).bare := by
  have hpattern : ∀ v, (applyPattern v s).viewAt now b = s.viewAt now b := fun v => (applyPattern_outside v s).weaken.viewAt now b
  have howner : ∀ (u : State) o, ({ u with saws := { u.saws with owner := o } } : State).viewAt now b = u.viewAt now b := fun _ _ => rfl
  unfold setLine
  dsimp only
  split
  · rw [howner, modifyTrimmer_bare _ (by intro; rfl), hpattern]
  · rw [howner, hpattern]

/-- The cut line leaves the records where they are, or takes away the one at K. -/
theorem cutLine_within (h : (s.viewAt now b).Within n m) : ((cutLine now s).viewAt now b).Within n m := by
  unfold cutLine
  split
  · exact h
  · next r e =>
    split
    · exact h
    · dsimp only
      split
      · unfold retireFromTrimmer
        rw [handToTally_viewAt, leaveTrimmer_viewAt, BoardView.Within, BoardView.bare_offTrimmer]
        exact h.offTrimmer fun _ _ _ hp => hp
      · have hunique : ∀ y ∈ s.board.trimmer, y.tag = r.tag → y = r := fun y hy hyt => by
          have hd := h.tags.distinct
          rw [BoardView.bare_tags, ← State.live_tags] at hd
          exact List.inj_on_of_nodup_map hd (List.mem_append_left _ (List.mem_append_left _ hy))
            (List.mem_append_left _ (List.mem_append_left _ (List.mem_of_find?_eq_some e))) hyt
        have hview : ∀ x : Record, x.stand.bare = r.stand.bare →
            ((s.modifyTrimmer r.tag fun _ => x).viewAt now b).bare = (s.viewAt now b).bare := fun x hx => by
          simp only [State.viewAt, State.modifyTrimmer, BoardView.bare]
          rw [mapTag_replace_bare hx hunique]
        rw [BoardView.Within, hview _ (by rfl)]
        exact h

/-- A record that has left the trimmer map leaves its tag free. -/
theorem BoardView.Travels.free_offTrimmer {v : BoardView} {P Q : Nat → Stand → Prop} (h : v.Travels P Q) {r : Stand} (hr : r ∈ v.trimmer) :
    r.tag ∉ (v.offTrimmer r.tag).tags := by
  have hd := h.tags.distinct
  have hmem : r.tag ∈ v.trimmer.map (·.tag) := List.mem_map_of_mem (f := fun x : Stand => x.tag) hr
  simp only [BoardView.tags, BoardView.offTrimmer, List.map_append, List.mem_append, not_or] at hd ⊢
  refine ⟨⟨fun hin => ?_, List.disjoint_of_nodup_append hd.of_append_left hmem⟩,
    List.disjoint_of_nodup_append hd (List.mem_append_left _ hmem)⟩
  obtain ⟨x, hx, hxt⟩ := List.mem_map.mp hin
  exact absurd hxt (by simpa using (List.mem_filter.mp hx).2)

/-- The outfeed line takes the record at O to the transfer queue, whose head leaves where it is full (R29). -/
theorem outfeedLine_within (hn : s.tables.station.outfeed = n) (hrun : s.board.line = .run)
    (h : (s.viewAt now b).Within (n + 1) m) : ((outfeedLine now s).viewAt now b).Within n m := by
  have hrest : ∀ off (x : Stand), off ≠ n → off < n + 1 → off < n := fun off _ _ _ => by omega
  unfold outfeedLine
  rw [hn]
  split
  · next r e =>
    obtain ⟨hr, hoff⟩ := trimmerAt_bare (b := b) e
    have hleft := h.leaveLine hr hoff hrest
    have hfree := h.free_offTrimmer hr
    rw [appendTransfer_viewAt, leaveTrimmer_viewAt]
    set v := s.viewAt now b
    set ws := if Config.transferSlots ≤ (v.offTrimmer r.tag).transfer.length then (v.offTrimmer r.tag).transfer.tail
      else (v.offTrimmer r.tag).transfer with hws
    have hsub : (ws.map Stand.bare).Sublist v.bare.transfer := by
      refine List.Sublist.map Stand.bare ?_
      rw [hws]
      split
      · exact List.tail_sublist _
      · exact .refl _
    have hsize : (ws.map Stand.bare).length < Config.transferSlots := by
      have hle : v.transfer.length ≤ Config.transferSlots := by simpa [BoardView.bare] using h.transferSize
      change v.transfer.length ≤ 8 at hle
      rw [List.length_map, hws]
      change _ < 8
      split
      · change v.transfer.tail.length < 8
        rw [List.length_tail]
        omega
      · next hlt => exact Nat.lt_of_not_le hlt
    have hjoin := (hleft.fewerWait hsub).joinTransfer hrun (y := r.stand.bare)
      (fun hin => hfree ((((hsub.append_left _).append_right _).map _).subset hin))
      (h.tags.inRange r.tag (List.mem_map_of_mem (f := fun x : Stand => x.tag) (List.mem_append_left _ (List.mem_append_left _ hr))))
      ⟨rfl, rfl⟩ hsize
    have hbare : ({ v.offTrimmer r.tag with transfer := ws ++ [{ r.stand with life := .inTransfer }] } : BoardView).bare =
        { v.bare.offTrimmer r.tag with transfer := ws.map Stand.bare ++ [r.stand.bare] } := by
      rw [← BoardView.bare_offTrimmer]
      simp only [BoardView.bare, List.map_append]
      rfl
    rw [BoardView.Within, hbare]
    exact hjoin
  · next e =>
    refine h.emptyLine (fun x hx => ?_) hrest
    obtain ⟨y, hy, rfl⟩ := List.mem_map.mp hx
    exact trimmerAt_none e y hy

end

/-- A trimmer advance carries every record on by 1, and the one at O to the transfer queue. -/
theorem advanceTrimmer_boarded {s : State} (h : s.view.Boarded) :
    ((advanceTrimmer s).viewAt (s.tcu.serial + 1) s.scu.serial).Boarded := by
  have hst := (stationFault_eq_none _).mp h.stations
  have hO : s.tables.station.outfeed ≤ 60 := hst.2.2.2.2.2.2.2.2.1
  set st := s.tables.station with hstn
  have hreach : ∀ x ∈ s.view.bare.trimmer, offsetAt s.tcu.serial x.creation < st.outfeed := h.trimmer
  have harrive : (s.viewAt (s.tcu.serial + 1) s.scu.serial).Within (st.outfeed + 1) st.runout := by
    refine { h with trimmerFalls := h.trimmerFalls.advance (n := st.outfeed) (by omega) hreach, trimmer := fun x hx => ?_ }
    change offsetAt (s.tcu.serial + 1) x.creation < _
    rw [offsetAt_advance (by have := hreach x hx; omega)]
    exact Nat.succ_lt_succ (hreach x hx)
  have hstation : (advanceTrimmer s).tables.station = st := by rw [(advanceTrimmer_outside s).tables rfl]
  change BoardView.Within (advanceTrimmer s).tables.station.outfeed (advanceTrimmer s).tables.station.runout _
  rw [hstation]
  unfold advanceTrimmer
  dsimp only
  rw [(markAdvance_outside _ _ _).weaken.viewAt, (markAdvance_outside _ _ _).weaken.viewAt]
  split
  · next hrun =>
    unfold trimmerLines
    have h1 : ((endWindows (decisionLine (s.tcu.serial + 1) s)).viewAt (s.tcu.serial + 1) s.scu.serial).Within (st.outfeed + 1) st.runout := by
      rw [endWindows_viewAt, BoardView.Within, decisionLine_bare]
      exact harrive
    have o1 := Outside.then (decisionLine_outside (s.tcu.serial + 1) s).weaken (endWindows_outside _)
      (m := { trimmer := true, decision := true, saws := true, tally := true, events := true, attention := true })
    have o2 := o1.then (cutLine_outside (s.tcu.serial + 1) _)
    rw [BoardView.Within, setLine_bare]
    exact outfeedLine_within (by rw [o2.tables rfl]) (by rw [o2.line rfl, hrun]) (cutLine_within h1)
  · next hcfg =>
    have hnil : s.view.bare.trimmer = [] := by
      have := h.tags.idle hcfg
      simp only [BoardView.tags, List.map_eq_nil_iff, List.append_eq_nil_iff] at this
      exact this.1.1
    exact harrive.imp (fun x hx _ => absurd (hnil ▸ hx) List.not_mem_nil) fun _ _ hq => hq

/-! ### A sorter advance -/

/-- One tag met by a sorter advance: afterwards no record of that tag stands at the runout line. -/
theorem sorterLine_boarded {s : State} {a now : Serial} {P : Nat → Stand → Prop} {n tag : Nat} {rest : List Nat}
    (hn : s.tables.station.runout = n)
    (h : (s.viewAt a now).bare.Travels P fun off x => off < n + 1 ∧ (off = n → x.tag ∈ tag :: rest)) :
    ((sorterLine now tag s).viewAt a now).bare.Travels P fun off x => off < n + 1 ∧ (off = n → x.tag ∈ rest) := by
  have hother : ∀ off (x : Stand), x.tag ≠ tag → (off < n + 1 ∧ (off = n → x.tag ∈ tag :: rest)) → off < n + 1 ∧ (off = n → x.tag ∈ rest) :=
    fun off x hne hq => ⟨hq.1, fun ho => (List.mem_cons.mp (hq.2 ho)).resolve_left hne⟩
  obtain hv | ⟨hnot, hv⟩ := sorterLine_viewAt now tag s a now
  · rw [hv, BoardView.bare_offSorter]
    exact h.offSorter fun x _ hne hq => hother _ x hne hq
  · have hbare : ((sorterLine now tag s).viewAt a now).bare = (s.viewAt a now).bare := by
      obtain hv | hv := hv
      · rw [hv]
      · rw [hv, BoardView.bare_onSorter _ _ (by intro; rfl)]
    rw [hbare]
    refine h.imp (fun _ _ hp => hp) fun x hx hq => ?_
    by_cases hxt : x.tag = tag
    · refine ⟨hq.1, fun ho => ?_⟩
      simp only [BoardView.bare, State.viewAt, List.map_map, List.mem_map, Function.comp_apply] at hx
      obtain ⟨r, hr, rfl⟩ := hx
      cases e : byTag s.board.sorter tag with
      | none => exact absurd hxt (byTag_none e r hr)
      | some y =>
        have hy := byTag_some e
        have hmem : ∀ z ∈ s.board.sorter, z.stand.bare ∈ (s.viewAt a now).bare.sorter := fun z hz =>
          List.mem_map_of_mem (List.mem_map_of_mem hz)
        have hxy := h.sorter_eq_of_tag (hmem r hr) (hmem y hy.1) (hxt.trans hy.2.symm)
        rw [hxy] at ho
        exact absurd (hn ▸ ho) (hnot y e)
    · exact hother _ x hxt hq

/-- A sorter advance carries every record on by 1, those at R gone. -/
theorem advanceSorter_boarded {s : State} (h : s.view.Boarded) :
    ((advanceSorter s).viewAt s.tcu.serial (s.scu.serial + 1)).Boarded := by
  have hstation : (advanceSorter s).tables.station = s.tables.station := by rw [(advanceSorter_outside s).tables rfl]
  change BoardView.Within (advanceSorter s).tables.station.outfeed (advanceSorter s).tables.station.runout _
  rw [hstation, advanceSorter_eq]
  set n := s.tables.station.runout with hn
  have hrun : n ≤ 127 := ((stationFault_eq_none _).mp h.stations).2.2.2.2.2.2.2.2.2.2
  have hreach : ∀ x ∈ s.view.bare.sorter, offsetAt s.scu.serial x.sorterSerial < n := h.sorter
  obtain ⟨ws, hws, hage⟩ := ageTransfer_viewAt s s.tcu.serial (s.scu.serial + 1)
  have hmoved : ((ageTransfer s).viewAt s.tcu.serial (s.scu.serial + 1)).bare.Travels (fun off _ => off < s.tables.station.outfeed)
      fun off x => off < n + 1 ∧ (off = n → x.tag ∈ s.board.sorter.map (·.tag)) := by
    rw [hage]
    refine BoardView.Travels.fewerWait (v := (s.viewAt s.tcu.serial (s.scu.serial + 1)).bare) ?_ (hws.map Stand.bare)
    refine { h with sorterFalls := h.sorterFalls.advance (n := n) (by omega) hreach, sorter := fun x hx => ⟨?_, fun _ => ?_⟩ }
    · change offsetAt (s.scu.serial + 1) x.sorterSerial < _
      rw [offsetAt_advance (by have := hreach x hx; omega)]
      exact Nat.succ_lt_succ (hreach x hx)
    · simp only [BoardView.bare, State.viewAt, List.map_map, List.mem_map, Function.comp_apply] at hx
      obtain ⟨r, hr, rfl⟩ := hx
      exact List.mem_map_of_mem (f := fun r : Record => r.tag) hr
  have hfold : ∀ (tags : List Nat) (u : State), u.tables.station.runout = n →
      ((u.viewAt s.tcu.serial (s.scu.serial + 1)).bare.Travels (fun off _ => off < s.tables.station.outfeed)
        fun off x => off < n + 1 ∧ (off = n → x.tag ∈ tags)) →
      ((tags.foldl (fun x tag => sorterLine (s.scu.serial + 1) tag x) u).viewAt s.tcu.serial (s.scu.serial + 1)).bare.Travels
        (fun off _ => off < s.tables.station.outfeed) fun off x => off < n + 1 ∧ (off = n → x.tag ∈ []) := by
    intro tags
    induction tags with
    | nil => intro u _ hu; exact hu
    | cons tag rest ih =>
      intro u hun hu
      refine ih _ ?_ (sorterLine_boarded hun hu)
      rw [(sorterLine_outside _ tag u).tables rfl, hun]
  have hstat : (ageTransfer s).tables.station.runout = n := by rw [(ageTransfer_outside s).tables rfl]
  refine (hfold _ _ hstat hmoved).imp (fun _ _ hp => hp) fun x _ hq => ?_
  exact Nat.lt_of_le_of_ne (Nat.le_of_lt_succ hq.1) fun ho => List.not_mem_nil (hq.2 ho)

/-! ### Tracking and advances -/

theorem Tracks.viewAt {s t : State} (h : Tracks s t) (a b : Serial) : t.viewAt a b = s.viewAt a b := by
  induction h with
  | refl => rfl
  | unit c u _ _ ih => rw [(setUnit_outside c u _).weaken.viewAt, ih]
  | event k c n d _ ih => rw [raiseEvent_viewAt, ih]
  | cause c _ ih => rw [(latch_outside c _).weaken.viewAt, ih]
  | @suspect t c _ ih => rw [← ih]; exact congrArg (fun v : BoardView => { v with trimmerNow := a, sorterNow := b }) (suspectMap_view c t)

theorem Tracks.view {s t : State} (h : Tracks s t) : t.view = s.view := by
  have ht : t.tcu.serial = s.tcu.serial := h.serial .trimmer
  have hs : t.scu.serial = s.scu.serial := h.serial .sorter
  rw [State.view, ht, hs, h.viewAt]
  rfl

theorem raiseSerial_boarded (ch : Chain) {s t : State} (h : s.view.Boarded) (ht : Tracks (advanceLines ch s) t) :
    (raiseSerial ch t).view.Boarded := by
  have htcu : t.tcu.serial = s.tcu.serial := (ht.serial .trimmer).trans (congrArg _ (advanceLines_unit ch .trimmer s))
  have hscu : t.scu.serial = s.scu.serial := (ht.serial .sorter).trans (congrArg _ (advanceLines_unit ch .sorter s))
  cases ch
  · change (t.viewAt (t.tcu.serial + 1) t.scu.serial).Boarded
    rw [htcu, hscu, ht.viewAt]
    exact advanceTrimmer_boarded h
  · change (t.viewAt t.tcu.serial (t.scu.serial + 1)).Boarded
    rw [htcu, hscu, ht.viewAt]
    exact advanceSorter_boarded h

/-! ### Records that join -/

/-- At most 195 records are live (R23), so the next free tag is free. -/
theorem BoardView.Boarded.nextFreeTag {s : State} (h : s.view.Boarded) :
    s.nextFreeTag ∉ s.view.bare.tags ∧ 1 ≤ s.nextFreeTag ∧ s.nextFreeTag ≤ Config.tagMax := by
  have hst := (stationFault_eq_none _).mp h.stations
  have h1 := h.trimmerFalls.length_le h.trimmer
  have h2 := h.sorterFalls.length_le h.sorter
  have h3 : s.view.bare.transfer.length ≤ 8 := h.transferSize
  have hO : s.view.station.outfeed ≤ 60 := hst.2.2.2.2.2.2.2.2.1
  have hR : s.view.station.runout ≤ 127 := hst.2.2.2.2.2.2.2.2.2.2
  have hlen : s.live.length = s.view.bare.trimmer.length + s.view.bare.transfer.length + s.view.bare.sorter.length := by
    simp [State.live, BoardView.bare, State.view, State.viewAt, Nat.add_assoc]
  have hfree := State.nextFreeTag_free h.counter (show s.live.length < 65535 by omega)
  rwa [State.live_tags s s.tcu.serial s.scu.serial, ← BoardView.bare_tags] at hfree

theorem scanEdge_boarded {s : State} (h : s.view.Boarded) : (scanEdge s).view.Boarded := by
  unfold scanEdge
  split
  · exact h
  · next hrun =>
    have hline : s.board.line = .run := by
      cases e : s.board.line
      · exact absurd (.inl e) hrun
      · rfl
    split
    · next r _ =>
      have hv : (s.modifyTrimmer r.tag fun x => { x with flags := { x.flags with double := true } }).view = s.view :=
        modifyTrimmer_view_same _ (by intro; rfl) s
      exact hv ▸ h
    · next e =>
      obtain ⟨hfree, hrange⟩ := h.nextFreeTag
      have hst := (stationFault_eq_none _).mp h.stations
      unfold createScanned
      dsimp only
      rw [(offerNotice_outside _ _).view, (offerNotice_outside _ _).weaken.viewAt]
      set r := newRecord s.nextFreeTag .scanned s.tcu.serial .scanned s.tcu.sync.untrusted
      have hjoin := h.joinTrimmer hline (y := r.stand.bare) hfree hrange rfl (show 0 < s.tables.station.outfeed by
          change _ ∧ _ ∧ _ ∧ _ ∧ _ ∧ _ ∧ _ ∧ s.tables.station.sawSet + 1 ≤ s.tables.station.outfeed ∧ _ at hst
          omega)
        (fun x hx => by
          obtain ⟨y, hy, rfl⟩ := List.mem_map.mp hx
          exact trimmerAt_none (b := s.scu.serial) e y hy) (tagAfter_range hrange)
      have hbare : (({ s with board := { s.board with
          trimmer := s.board.trimmer ++ [r], nextTag := tagAfter s.nextFreeTag } } : State).viewAt s.tcu.serial s.scu.serial).bare =
          { s.view.bare with trimmer := s.view.bare.trimmer ++ [r.stand.bare], nextTag := tagAfter s.nextFreeTag } := by
        simp only [State.viewAt, State.view, BoardView.bare, List.map_append, List.map_cons, List.map_nil]
      exact (congrArg (fun v : BoardView => v.Travels _ _) hbare).mpr hjoin

/-- A record with a free tag is placed in RUN on a sorter lug with none at offset 0 (R32, R33). -/
theorem placeOnSorter_boarded {r : Record} {s : State} (h : s.view.Boarded) (hrun : s.board.line = .run) (hfree : r.tag ∉ s.view.bare.tags)
    (hr : 1 ≤ r.tag ∧ r.tag ≤ Config.tagMax) (hx : ∀ x ∈ s.view.bare.sorter, offsetAt s.scu.serial x.sorterSerial ≠ 0) :
    (placeOnSorter r s).view.Boarded := by
  have hst := (stationFault_eq_none _).mp h.stations
  have hpos : 0 < s.tables.station.runout := hst.2.2.2.2.2.2.2.2.2.1
  rw [(placeOnSorter_outside r s).view]
  unfold placeOnSorter
  dsimp only
  rw [allocate_viewAt]
  set y : Record := { r with sorterSerial := some s.scu.serial, life := .onSorter,
                             flags := { r.flags with suspect := r.flags.suspect || s.scu.sync.untrusted } }
  have hbare : ((({ s with board := { s.board with sorter := s.board.sorter ++ [y] } } : State).viewAt s.tcu.serial s.scu.serial).onSorter
      y.tag fun x => { x with sorted := true }).bare = { s.view.bare with sorter := s.view.bare.sorter ++ [y.stand.bare] } := by
    rw [BoardView.bare_onSorter _ _ (by intro; rfl)]
    simp only [State.viewAt, State.view, BoardView.bare, List.map_append, List.map_cons, List.map_nil]
  exact (congrArg (fun v : BoardView => v.Travels _ _) hbare).mpr
    (h.joinSorter hrun (y := y.stand.bare) hfree hr rfl hpos (fun _ _ hq => hq) hx)

theorem pickupEdge_boarded {s : State} (h : s.view.Boarded) : (pickupEdge s).view.Boarded := by
  unfold pickupEdge
  split
  · exact h
  · next hrun =>
    have hline : s.board.line = .run := by
      cases e : s.board.line
      · exact absurd (.inl e) hrun
      · rfl
    have hempty : ∀ x ∈ s.view.bare.sorter, offsetAt s.scu.serial x.sorterSerial ≠ 0 := by
      intro x hx h0
      simp only [BoardView.bare, State.view, State.viewAt, List.map_map, List.mem_map, Function.comp_apply] at hx
      obtain ⟨r, hr, rfl⟩ := hx
      refine hrun (.inr (.inr ?_))
      rw [State.sorterAt, List.find?_isSome]
      exact ⟨r, hr, decide_eq_true h0⟩
    split
    · obtain ⟨hfree, hrange⟩ := h.nextFreeTag
      unfold createUnknown
      dsimp only
      set u : State := { s with board := { s.board with nextTag := tagAfter s.nextFreeTag } }
      have hv : (raiseEvent .boardUnknown (some .sorter) s.nextFreeTag 0 u).view = { s.view with nextTag := tagAfter s.nextFreeTag } := by
        rw [(raiseEvent_outside _ _ _ _ _).view, raiseEvent_viewAt]
        rfl
      refine placeOnSorter_boarded (hv ▸ { h with counter := tagAfter_range hrange }) ?_ (hv ▸ hfree) hrange ?_
      · rw [raiseEvent_board]
        exact hline
      · rw [hv, raiseEvent_scu]
        exact hempty
    · next head rest hq =>
      have htr : s.view.bare.transfer = head.board.stand.bare :: (rest.map fun w => w.board.stand).map Stand.bare := by
        simp [BoardView.bare, State.view, State.viewAt, hq]
      have hhead : head.board.stand.bare ∈ s.view.bare.transfer := htr ▸ List.mem_cons_self
      refine placeOnSorter_boarded ?_ hline ?_ (h.tags.inRange head.board.tag (List.mem_map_of_mem (f := fun x : Stand => x.tag)
        (List.mem_append_left _ (List.mem_append_right _ hhead)))) hempty
      · exact h.fewerWait (htr ▸ List.sublist_cons_self _ _)
      · have hd := h.tags.distinct
        change _ ∉ ({ s.view.bare with transfer := (rest.map fun w => w.board.stand).map Stand.bare } : BoardView).tags
        simp only [BoardView.tags, htr, List.map_append, List.map_cons] at hd ⊢
        refine (List.nodup_cons.mp ((List.Perm.nodup_iff ?_).mp hd)).1
        exact List.perm_iff_count.mpr fun t => by simp [List.count_append, List.count_cons, Record.stand, Stand.bare]; omega

/-! ### Gates -/

theorem confirmEdge_boarded (bin : Nat) {s : State} (h : s.view.Boarded) : (confirmEdge bin s).view.Boarded := by
  rw [(confirmEdge_outside bin s).view]
  obtain hv | ⟨tag, hv⟩ := confirmEdge_viewAt bin s s.tcu.serial s.scu.serial
  · exact hv ▸ h
  · rw [hv]
    change (BoardView.bare _).Travels _ _
    rw [BoardView.bare_offSorter]
    exact BoardView.Travels.offSorter h fun _ _ _ hq => hq

theorem expireConfirm_boarded (bin : Nat) {s : State} (h : s.view.Boarded) : (expireConfirm bin s).view.Boarded := by
  rw [(expireConfirm_outside bin s).view]
  obtain hv | ⟨tag, hv⟩ := expireConfirm_viewAt bin s s.tcu.serial s.scu.serial
  · exact hv ▸ h
  · rw [hv]
    change (BoardView.bare _).Travels _ _
    rw [BoardView.bare_onSorter _ _ (by intro; rfl)]
    exact h

/-! ### Requests -/

theorem forceBoard_bare (l : LinkId) (fields : List Byte) (s : State) : (forceBoard l fields s).1.view.bare = s.view.bare := by
  unfold forceBoard
  dsimp only
  split
  · rfl
  · split
    · rfl
    · next r off _ _ force _ =>
      have hforced := modifyTrimmer_bare r.tag (f := fun x => { x with force := some force }) (by intro; rfl) s s.tcu.serial s.scu.serial
      change (storeForce force r off s).1.view.bare = _
      unfold storeForce
      dsimp only
      split
      · exact (modifyTrimmer_bare r.tag (by intro; rfl) _ s.tcu.serial s.scu.serial).trans hforced
      · exact hforced

theorem priceEdit_view (l : LinkId) (fields : List Byte) (s : State) : (priceEdit l fields s).1.view = s.view := by
  refine (priceEdit_outside l fields s).weaken.view_station ?_
  unfold priceEdit TableStore.edit
  dsimp only
  split
  · rfl
  · split <;> rfl

theorem priceSwitch_view (l : LinkId) (fields : List Byte) (s : State) : (priceSwitch l fields s).1.view = s.view := by
  refine (priceSwitch_outside l fields s).weaken.view_station ?_
  unfold priceSwitch TableStore.activate
  dsimp only
  split
  · rfl
  · dsimp only
    split <;> rfl

/-- RESTART-TRACKING leaves no record (R40). -/
theorem restart_boarded {s : State} (h : s.view.Boarded) : (restart s).view.Boarded := by
  have hb := restart_board s
  have ht : (restart s).tables = s.tables := ((restart_outside s).tables rfl).trans ((loseAll_outside s).tables rfl)
  refine (BoardView.placed_of_empty ?_ ?_ ?_ ?_ ?_).boarded
  · simp only [State.view, State.viewAt, hb, List.map_nil]
  · simp only [State.view, State.viewAt, hb, List.map_nil]
  · simp only [State.view, State.viewAt, hb, List.map_nil]
  · change 1 ≤ (restart s).board.nextTag ∧ (restart s).board.nextTag ≤ Config.tagMax
    rw [hb]
    exact h.counter
  · change stationFault (restart s).tables.station = none
    rw [ht]
    exact h.stations

/-- Every request's handler keeps the tags and places. -/
theorem handlerOf_boarded (r : Req) (l : LinkId) (fields : List Byte) (s : State) (h : s.view.Boarded) :
    (handlerOf r l fields s).1.view.Boarded := by
  have ho := handlerOf_outside r l fields s
  cases r
  case postScan => exact (postScan_view l fields s).symm ▸ h
  case postSolution => exact (postSolution_view l fields s).symm ▸ h
  case forceBoard =>
    have hstation : (forceBoard l fields s).1.view.station = s.view.station := congrArg (·.station) (ho.tables rfl)
    change (forceBoard l fields s).1.view.Boarded
    unfold BoardView.Boarded BoardView.Within
    rw [forceBoard_bare, hstation]
    exact h
  case start =>
    cases hl : s.board.line with
    | run =>
      have hrun : startLine l fields s = (s, { status := .state, fields := u8 0 ++ u8 0 }) := by unfold startLine; rw [hl]
      change (startLine l fields s).1.view.Boarded
      rw [hrun]
      exact h
    | config => exact (startLine_placed l fields (h.placed_of_config hl)).boarded
  case loadTable =>
    cases hl : s.board.line with
    | run => exact (loadTable_run l fields hl).symm ▸ h
    | config => exact (loadTable_placed l fields (h.placed_of_config hl)).boarded
  case restartTracking => exact restart_boarded h
  case priceEdit => exact (priceEdit_view l fields s).symm ▸ h
  case priceSwitch => exact (priceSwitch_view l fields s).symm ▸ h
  all_goals exact (Outside.view_same (ho.weaken)).symm ▸ h

/-- Every command but the links' keeps the tags and places. -/
theorem boarded_kept : FieldKept fun s => s.view.Boarded where
  powered s baud low := (placed_of_powerOn rfl rfl).boarded
  held s := (placed_of_powerOn rfl rfl).boarded
  levels s pins standing h := h
  settled s h := h
  clocked s timebase h := h
  raised s h := h
  tracks s t ht h := ht.view ▸ h
  advance ch s t h ht := raiseSerial_boarded ch h ht
  scan s h := scanEdge_boarded h
  pickup s h := pickupEdge_boarded h
  feedback saw down s h := (takeFeedback_outside saw down s).weaken.view_same.symm ▸ h
  window saw s h := (expireWindow_view saw s).symm ▸ h
  gate bin s h := (closeGate_outside bin s).weaken.view_same.symm ▸ h
  confirm bin s h := confirmEdge_boarded bin h
  drop bin s h := expireConfirm_boarded bin h
  fullSwitch bin s h := (fullSwitchEdge_outside bin s).weaken.view_same.symm ▸ h
  inputs bin f s h := (modifyBin_outside bin f s).weaken.view_same.symm ▸ h
  grading p g s _ h := (setGrading_outside p g s).weaken.view_same.symm ▸ h
  commits p target s h := (commit_view p target s).symm ▸ h

end Sys2Proof.Machine

namespace Sys2Proof.Proofs
open Sys2Proof.Machine

/-- Settles O57: tags and places are what is left of the view without lives, and no command but an advance, a record that joins and
RESTART-TRACKING reaches them. -/
theorem boardsStayPlaced : Obligations.BoardsStayPlaced := by
  unfold Obligations.BoardsStayPlaced
  intro s t hs h
  rw [boardsPlaced_iff] at hs ⊢
  exact boarded_kept.step (fun s l f h => (modifyLink_outside l f s).weaken.view_same.symm ▸ h) handlerOf_boarded (fun _ h => h)
    (fun _ _ h => h) (fun _ _ h => h) h hs

end Sys2Proof.Proofs
end

