-- ==== Sys2Proof/Proofs/LinkSizes.lean ====
section
/-! A link's queue and buffer within their sizes (R168 to R172), for O54: what the receiver, the transmitter and the taking of a frame do to
them. -/

namespace Sys2Proof.Machine

-- One thread elaborates the many small proofs of this file.
set_option Elab.async false

/-! ### Sizes -/

/-- The frame in progress, if its length byte has come, is of a length that R168 allows. -/
def Receiver.Sound : Receiver → Prop
  | .frame (len :: _) _ => 2 ≤ len.toNat ∧ len.toNat ≤ Config.bodyMax
  | .frame [] _ | .hunt | .skip => True

/-- A link within its sizes, whether or not a frame waits that it could take. -/
structure LinkState.Sized (k : LinkState) : Prop where
  queue : k.tx.length ≤ Config.txSlots
  buffer : k.fill ≤ Config.rxBytes
  bodies : ∀ body ∈ k.waiting, 2 ≤ body.length ∧ body.length ≤ Config.bodyMax
  sound : k.rx.Sound

theorem LinkState.bounded_iff (k : LinkState) : k.Bounded ↔ k.Sized ∧ (k.waiting ≠ [] → k.tx.length = Config.txSlots) := by
  have hsound : (match k.rx with
      | .frame (len :: _) _ => 2 ≤ len.toNat ∧ len.toNat ≤ Config.bodyMax
      | .frame [] _ | .hunt | .skip => True) ↔ k.rx.Sound := by
    rcases k.rx with _ | ⟨_ | ⟨len, rest⟩, e⟩ | _ <;> rfl
  exact ⟨fun h => ⟨⟨h.queue, h.buffer, h.bodies, hsound.mp h.progress⟩, h.taken⟩,
    fun ⟨h, ht⟩ => ⟨h.queue, h.buffer, ht, h.bodies, hsound.mpr h.sound⟩⟩

/-- A receiver state that stores no more is within the sizes. -/
theorem LinkState.Sized.of_rx {k m : LinkState} (h : k.Sized) (htx : m.tx = k.tx) (hw : m.waiting = k.waiting)
    (hstored : m.rx.stored ≤ k.rx.stored) (hsound : m.rx.Sound) : m.Sized where
  queue := htx ▸ h.queue
  buffer := by
    refine le_trans ?_ h.buffer
    unfold LinkState.fill
    rw [hw]
    exact Nat.add_le_add_left hstored _
  bodies := hw ▸ h.bodies
  sound := hsound

theorem LinkState.Sized.same {k m : LinkState} (h : k.Sized) (htx : m.tx = k.tx) (hw : m.waiting = k.waiting) (hrx : m.rx = k.rx) :
    m.Sized := h.of_rx htx hw (hrx ▸ Nat.le_refl _) (hrx ▸ h.sound)

theorem LinkState.Bounded.same {k m : LinkState} (h : k.Bounded) (htx : m.tx = k.tx) (hw : m.waiting = k.waiting) (hrx : m.rx = k.rx) :
    m.Bounded := by
  rw [LinkState.bounded_iff] at h ⊢
  exact ⟨h.1.same htx hw hrx, htx ▸ hw ▸ h.2⟩

theorem LinkState.powerOn_bounded (baud : BaudRate) : (LinkState.powerOn baud).Bounded :=
  ⟨Nat.zero_le _, Nat.zero_le _, fun h => absurd rfl h, fun _ h => absurd h List.not_mem_nil, trivial⟩

/-! ### Pause marks and the transmitter (R170, R171) -/

section
variable (k : LinkState)

@[simp] theorem LinkState.resumeIfLow_tx : k.resumeIfLow.tx = k.tx := by unfold LinkState.resumeIfLow; split <;> rfl
@[simp] theorem LinkState.resumeIfLow_waiting : k.resumeIfLow.waiting = k.waiting := by unfold LinkState.resumeIfLow; split <;> rfl
@[simp] theorem LinkState.resumeIfLow_rx : k.resumeIfLow.rx = k.rx := by unfold LinkState.resumeIfLow; split <;> rfl
@[simp] theorem LinkState.pauseIfHigh_tx : k.pauseIfHigh.tx = k.tx := by unfold LinkState.pauseIfHigh; split <;> rfl
@[simp] theorem LinkState.pauseIfHigh_waiting : k.pauseIfHigh.waiting = k.waiting := by unfold LinkState.pauseIfHigh; split <;> rfl
@[simp] theorem LinkState.pauseIfHigh_rx : k.pauseIfHigh.rx = k.rx := by unfold LinkState.pauseIfHigh; split <;> rfl
@[simp] theorem LinkState.beginSending_tx : k.beginSending.tx = k.tx := by unfold LinkState.beginSending; split <;> rfl
@[simp] theorem LinkState.beginSending_waiting : k.beginSending.waiting = k.waiting := by unfold LinkState.beginSending; split <;> rfl
@[simp] theorem LinkState.beginSending_rx : k.beginSending.rx = k.rx := by unfold LinkState.beginSending; split <;> rfl
@[simp] theorem LinkState.enqueue_tx (body : List Byte) : (k.enqueue body).tx = k.tx ++ [body] := LinkState.beginSending_tx _
@[simp] theorem LinkState.enqueue_waiting (body : List Byte) : (k.enqueue body).waiting = k.waiting := LinkState.beginSending_waiting _
@[simp] theorem LinkState.enqueue_rx (body : List Byte) : (k.enqueue body).rx = k.rx := LinkState.beginSending_rx _
@[simp] theorem LinkState.takeFrame_tx : k.takeFrame.tx = k.tx := LinkState.resumeIfLow_tx _
@[simp] theorem LinkState.takeFrame_waiting : k.takeFrame.waiting = k.waiting.tail := LinkState.resumeIfLow_waiting _
@[simp] theorem LinkState.takeFrame_rx : k.takeFrame.rx = k.rx := LinkState.resumeIfLow_rx _

end

/-- A frame queued where a slot is free. -/
theorem LinkState.Sized.enqueue {k : LinkState} (h : k.Sized) (hfree : k.tx.length < Config.txSlots) (body : List Byte) :
    (k.enqueue body).Sized where
  queue := by simpa using hfree
  buffer := by
    unfold LinkState.fill
    rw [LinkState.enqueue_waiting, LinkState.enqueue_rx]
    exact h.buffer
  bodies := by rw [LinkState.enqueue_waiting]; exact h.bodies
  sound := by rw [LinkState.enqueue_rx]; exact h.sound

theorem LinkState.Sized.takeFrame {k : LinkState} (h : k.Sized) : k.takeFrame.Sized where
  queue := by rw [LinkState.takeFrame_tx]; exact h.queue
  buffer := by
    refine le_trans ?_ h.buffer
    unfold LinkState.fill
    rw [LinkState.takeFrame_waiting, LinkState.takeFrame_rx]
    exact Nat.add_le_add_right (((List.tail_sublist k.waiting).map frameBytes).sum_le_sum fun _ _ => Nat.zero_le _) _
  bodies body hb := by
    rw [LinkState.takeFrame_waiting] at hb
    exact h.bodies body (List.mem_of_mem_tail hb)
  sound := by rw [LinkState.takeFrame_rx]; exact h.sound

theorem LinkState.Sized.frameSent {k : LinkState} (h : k.Sized) : k.frameSent.Sized := by
  unfold LinkState.frameSent
  split
  · have htail : ({ k with tx := k.tx.tail, sending := false } : LinkState).Sized :=
      ⟨((List.tail_sublist k.tx).length_le).trans h.queue, h.buffer, h.bodies, h.sound⟩
    exact htail.same (by simp) (by simp) (by simp)
  · exact h

theorem LinkState.frameSent_waiting (k : LinkState) : k.frameSent.waiting = k.waiting := by
  unfold LinkState.frameSent
  split
  · rw [LinkState.beginSending_waiting]
  · rfl

/-- A frame sent frees one slot at most. -/
theorem LinkState.frameSent_tx_length (k : LinkState) : k.tx.length ≤ k.frameSent.tx.length + 1 := by
  unfold LinkState.frameSent
  split
  · rw [LinkState.beginSending_tx, List.length_tail]
    omega
  · exact Nat.le_succ _

/-! ### The receiver (R169) -/

/-- A frame in progress given up leaves less stored. -/
theorem LinkState.Sized.discard {k : LinkState} (h : k.Sized) {r : Receiver} (hr : r.stored = 0) (hs : r.Sound) : (k.discard r).Sized :=
  h.of_rx (by simp [LinkState.discard]) (by simp [LinkState.discard]) (by simp [LinkState.discard, hr]) (by simpa [LinkState.discard] using hs)

theorem LinkState.Sized.framingFault {k : LinkState} (h : k.Sized) : k.framingFault.Sized := h.same rfl rfl rfl

/-- A complete frame waits, or is given up. -/
theorem LinkState.Sized.finishFrame {k : LinkState} (h : k.Sized) {stored : List Byte} {e : Bool} (hrx : k.rx = .frame stored e)
    (hc : frameComplete stored = true) : (k.finishFrame stored).Sized := by
  unfold LinkState.finishFrame
  dsimp only
  split
  · obtain _ | ⟨len, rest⟩ := stored
    · cases hc
    · have hlen : rest.length = len.toNat + 2 := by simpa [frameComplete] using hc
      have hsound : 2 ≤ len.toNat ∧ len.toNat ≤ Config.bodyMax := by have := h.sound; rw [hrx] at this; exact this
      have hbody : (rest.take (rest.length + 1 - 3)).length = len.toNat := by rw [List.length_take]; omega
      refine ⟨h.queue, ?_, fun body hb => ?_, trivial⟩
      · have hfill := h.buffer
        unfold LinkState.fill at hfill ⊢
        rw [hrx] at hfill
        simp only [List.map_append, List.map_cons, List.map_nil, List.sum_append, List.sum_cons, List.sum_nil, frameBytes, Receiver.stored,
          List.drop_succ_cons, List.drop_zero, List.length_cons] at hfill ⊢
        rw [hbody]
        omega
      · obtain hb | hb := List.mem_append.mp hb
        · exact h.bodies body hb
        · rw [List.mem_singleton.mp hb]
          change 2 ≤ (rest.take (rest.length + 1 - 3)).length ∧ (rest.take (rest.length + 1 - 3)).length ≤ _
          rw [hbody]
          exact hsound
  · exact h.of_rx (by simp) (by simp) (by simp [Receiver.stored]) (by simp [Receiver.Sound])

/-- A byte of the frame in progress. -/
theorem LinkState.Sized.store {k : LinkState} (h : k.Sized) {stored : List Byte} {e : Bool} (hrx : k.rx = .frame stored e) (b : Byte) :
    (k.store stored b).Sized := by
  unfold LinkState.store
  split
  · exact h.framingFault.discard rfl trivial
  · next hlen =>
    split
    · exact (h.same (m := { k with overruns := inc32 k.overruns }) rfl rfl rfl).discard rfl trivial
    · next hroom =>
      have hstored : ({ k with rx := .frame (stored ++ [b]) false } : LinkState).pauseIfHigh.Sized := by
        refine ⟨by simpa using h.queue, ?_, by simpa using h.bodies, ?_⟩
        · unfold LinkState.fill at hroom ⊢
          rw [hrx] at hroom
          rw [LinkState.pauseIfHigh_waiting, LinkState.pauseIfHigh_rx]
          simp only [Receiver.stored, List.length_append, List.length_singleton] at hroom ⊢
          omega
        · rw [LinkState.pauseIfHigh_rx]
          obtain _ | ⟨len, rest⟩ := stored
          · have : ¬ (b.toNat < 2 ∨ Config.bodyMax < b.toNat) := fun hb => hlen ⟨rfl, hb⟩
            exact ⟨by omega, by omega⟩
          · have := h.sound
            rw [hrx] at this
            exact this
      dsimp only
      split
      · next hc => exact hstored.finishFrame (LinkState.pauseIfHigh_rx _) hc
      · exact hstored

theorem LinkState.Sized.receive {k : LinkState} (h : k.Sized) (b : Byte) : (k.receive b).Sized := by
  unfold LinkState.receive
  split
  · exact h.same rfl rfl rfl
  · split
    · exact h.same (LinkState.beginSending_tx _) (LinkState.beginSending_waiting _) (LinkState.beginSending_rx _)
    · split
      · next hrx =>
        split
        · exact h.of_rx rfl rfl (by simp [hrx, Receiver.stored]) trivial
        · exact h.same rfl rfl rfl
      · next hrx =>
        split
        · exact h.of_rx rfl rfl (by simp [hrx, Receiver.stored]) trivial
        · exact h
      · next stored escaped hrx =>
        split
        · exact h.framingFault.discard rfl trivial
        · split
          · dsimp only
            split
            · exact h.store hrx _
            · exact h.framingFault.discard rfl trivial
          · split
            · refine h.of_rx rfl rfl (by simp [hrx, Receiver.stored]) ?_
              have := h.sound
              rw [hrx] at this
              obtain _ | ⟨len, rest⟩ := stored
              · trivial
              · exact this
            · exact h.store hrx b

theorem LinkState.Sized.receiveBroken {k : LinkState} (h : k.Sized) : k.receiveBroken.Sized := by
  unfold LinkState.receiveBroken
  split
  · exact h.framingFault.discard rfl trivial
  · exact h.framingFault
  · exact h.framingFault

theorem LinkState.Sized.foldl_receive {k : LinkState} (h : k.Sized) (bytes : List Byte) : (bytes.foldl LinkState.receive k).Sized := by
  induction bytes generalizing k with
  | nil => exact h
  | cons b rest ih => exact ih (h.receive b)

/-! ### Frames that wait -/

/-- A received character lets one frame more wait, or none. -/
def LinkState.OneMore (k m : LinkState) : Prop := m.waiting = k.waiting ∨ ∃ body, m.waiting = k.waiting ++ [body]

theorem LinkState.discard_waiting (k : LinkState) (r : Receiver) : (k.discard r).waiting = k.waiting := by simp [LinkState.discard]

theorem LinkState.store_oneMore (k : LinkState) (stored : List Byte) (b : Byte) : k.OneMore (k.store stored b) := by
  unfold LinkState.store
  split
  · exact .inl (LinkState.discard_waiting _ _)
  · split
    · exact .inl (LinkState.discard_waiting _ _)
    · dsimp only
      split
      · unfold LinkState.finishFrame
        dsimp only
        split
        · exact .inr ⟨_, congrArg (· ++ [_]) (LinkState.pauseIfHigh_waiting _)⟩
        · exact .inl (by simp)
      · exact .inl (by simp)

theorem LinkState.receive_oneMore (k : LinkState) (b : Byte) : k.OneMore (k.receive b) := by
  unfold LinkState.receive
  split
  · exact .inl rfl
  · split
    · exact .inl (LinkState.beginSending_waiting _)
    · split
      · split <;> exact .inl rfl
      · split <;> exact .inl rfl
      · split
        · exact .inl (LinkState.discard_waiting _ _)
        · split
          · dsimp only
            split
            · exact LinkState.store_oneMore _ _ _
            · exact .inl (LinkState.discard_waiting _ _)
          · split
            · exact .inl rfl
            · exact LinkState.store_oneMore _ _ _

theorem LinkState.receiveBroken_tx (k : LinkState) : k.receiveBroken.tx = k.tx := by
  unfold LinkState.receiveBroken
  split
  · simp [LinkState.discard, LinkState.framingFault]
  · rfl
  · rfl

theorem LinkState.receiveBroken_waiting (k : LinkState) : k.receiveBroken.waiting = k.waiting := by
  unfold LinkState.receiveBroken
  split
  · exact LinkState.discard_waiting _ _
  · rfl
  · rfl

/-- A link within its sizes on which only the oldest frame that waits could be taken: a second one waits with one slot free at most. -/
def LinkState.Due (k : LinkState) : Prop := k.Sized ∧ (k.waiting.tail ≠ [] → Config.txSlots ≤ k.tx.length + 1)

theorem LinkState.Bounded.due_receive {k : LinkState} (h : k.Bounded) (b : Byte) : (k.receive b).Due := by
  obtain ⟨hsized, htaken⟩ := (LinkState.bounded_iff k).mp h
  refine ⟨hsized.receive b, fun hne => ?_⟩
  have hw : k.waiting ≠ [] := fun h0 => by
    obtain hm | ⟨body, hm⟩ := k.receive_oneMore b <;> rw [hm, h0] at hne <;> exact hne rfl
  rw [receive_tx, htaken hw]
  exact Nat.le_succ _

theorem LinkState.Bounded.due_receiveBroken {k : LinkState} (h : k.Bounded) : k.receiveBroken.Due := by
  obtain ⟨hsized, htaken⟩ := (LinkState.bounded_iff k).mp h
  refine ⟨hsized.receiveBroken, fun hne => ?_⟩
  rw [k.receiveBroken_waiting] at hne
  rw [k.receiveBroken_tx, htaken fun h0 => hne (by rw [h0]; rfl)]
  exact Nat.le_succ _

theorem LinkState.Bounded.due_frameSent {k : LinkState} (h : k.Bounded) : k.frameSent.Due := by
  obtain ⟨hsized, htaken⟩ := (LinkState.bounded_iff k).mp h
  refine ⟨hsized.frameSent, fun hne => ?_⟩
  rw [k.frameSent_waiting] at hne
  exact (htaken fun h0 => hne (by rw [h0]; rfl)).symm.le.trans k.frameSent_tx_length

/-- With no slot free the frames wait. -/
theorem LinkState.Due.bounded_of_full {k : LinkState} (h : k.Due) (hfull : k.freeSlots = 0) : k.Bounded := by
  refine (LinkState.bounded_iff k).mpr ⟨h.1, fun _ => Nat.le_antisymm h.1.queue ?_⟩
  exact Nat.le_of_sub_eq_zero hfull

theorem LinkState.Due.bounded_of_none {k : LinkState} (h : k.Due) (hnone : k.waiting = []) : k.Bounded :=
  (LinkState.bounded_iff k).mpr ⟨h.1, fun hne => absurd hnone hne⟩

/-- With a slot free the oldest frame is taken and answered. -/
theorem LinkState.Due.answered {k m : LinkState} (h : k.Due) (hfree : k.tx.length < Config.txSlots) (htx : m.tx = k.tx)
    (hw : m.waiting = k.waiting.tail) (hrx : m.rx = k.rx) (body : List Byte) : (m.enqueue body).Bounded := by
  have hm : m.Sized := h.1.takeFrame.same (by rw [htx, LinkState.takeFrame_tx]) (by rw [hw, LinkState.takeFrame_waiting])
    (by rw [hrx, LinkState.takeFrame_rx])
  refine (LinkState.bounded_iff _).mpr ⟨hm.enqueue (htx ▸ hfree) body, fun hne => ?_⟩
  rw [LinkState.enqueue_waiting, hw] at hne
  rw [LinkState.enqueue_tx, List.length_append, List.length_singleton, htx]
  exact Nat.le_antisymm hfree (h.2 hne)

end Sys2Proof.Machine
end

