-- ==== Sys2Proof/Proofs/Queues.lean ====
section
/-! Every step keeps the queues and buffers within their sizes and leaves no frame waiting that a link could take (O54). The links are reached by
their own commands, by requests and by a lug notice; the other queues by no link's command but through the requests' handlers. -/

namespace Sys2Proof.Machine

-- One thread elaborates the many small proofs of this file.
set_option Elab.async false

/-! ### Links -/

/-- Every link is within its sizes, with no frame waiting that it could take. -/
def LinksBounded (s : State) : Prop := ∀ l, (s.link l).Bounded

theorem link_congr {s t : State} (h : t.links = s.links) (l : LinkId) : t.link l = s.link l := by
  unfold State.link
  rw [h]

theorem LinksBounded.of_links {s t : State} (hs : LinksBounded s) (h : t.links = s.links) : LinksBounded t :=
  fun l => (link_congr h l).symm ▸ hs l

theorem LinksBounded.modify {s : State} {l : LinkId} {f : LinkState → LinkState} (hs : ∀ o, o ≠ l → (s.link o).Bounded)
    (hf : (f (s.link l)).Bounded) : LinksBounded (s.modifyLink l f) := by
  intro o
  by_cases h : o = l
  · rw [h, State.modifyLink_link]
    exact hf
  · rw [State.modifyLink_link_ne _ _ h]
    exact hs o h

/-- A notice is queued only where two slots are free, so where no frame waits (R55). -/
theorem offerNotice_links (r : Record) {s : State} (hs : LinksBounded s) : LinksBounded (offerNotice r s) := by
  unfold offerNotice
  dsimp only
  set u : State := { s with links := { s.links with notice := if s.links.notice < 65535 then s.links.notice + 1 else 0 } } with hu
  have hlink : ∀ l, u.link l = s.link l := fun l => by cases l <;> rfl
  have hbounded : LinksBounded u := fun l => (hlink l).symm ▸ hs l
  split
  · next hroom =>
    refine LinksBounded.modify (fun o _ => hbounded o) ?_
    obtain ⟨hsized, htaken⟩ := (LinkState.bounded_iff _).mp (hbounded .optimizer)
    have hfree : (u.link .optimizer).tx.length + 2 ≤ Config.txSlots := by
      unfold LinkState.freeSlots at hroom
      omega
    refine (LinkState.bounded_iff _).mpr ⟨hsized.enqueue (by omega) _, fun hne => ?_⟩
    rw [LinkState.enqueue_waiting] at hne
    have := htaken hne
    omega
  · exact hbounded

theorem scanEdge_links {s : State} (hs : LinksBounded s) : LinksBounded (scanEdge s) := by
  unfold scanEdge
  split
  · exact hs
  · split
    · exact hs
    · exact offerNotice_links _ hs

theorem pickupEdge_frame (s : State) : Outside
    { transfer := true, sorter := true, nextTag := true, sort := true, events := true, attention := true } s (pickupEdge s) := by
  have hboard : ∀ q n, Outside { transfer := true, nextTag := true } s
      { s with board := { s.board with transfer := q, nextTag := n } } := fun q n => by
    constructor <;> intro h <;> first | exact absurd h (by decide) | rfl
  unfold pickupEdge
  split
  · exact .refl _ s
  · split
    · unfold createUnknown
      exact .trans (.then (hboard s.board.transfer _).weaken (raiseEvent_outside _ _ _ _ _)) (placeOnSorter_outside _ _).weaken
    · exact .trans (hboard _ s.board.nextTag).weaken (placeOnSorter_outside _ _).weaken

theorem powered_links (s : State) (baud : BaudPins) (low : Bool) : LinksBounded (s.powered baud low) := by
  intro l
  cases l <;> exact LinkState.powerOn_bounded _

theorem linksBounded_kept : FieldKept LinksBounded where
  powered := powered_links
  held s l := by cases l <;> exact LinkState.powerOn_bounded _
  levels s pins standing h := h
  settled s h := h
  clocked s timebase h := h
  raised s h := h
  tracks s t ht h := h.of_links (ht.outside.links rfl)
  advance ch s t h ht :=
    h.of_links (((raiseSerial_outside ch t).links rfl).trans ((ht.outside.links rfl).trans ((advanceLines_outside ch s).links rfl)))
  scan s h := scanEdge_links h
  pickup s h := h.of_links ((pickupEdge_frame s).links rfl)
  feedback saw down s h := h.of_links ((takeFeedback_outside saw down s).links rfl)
  window saw s h := h.of_links ((expireWindow_outside saw s).links rfl)
  gate bin s h := h.of_links ((closeGate_outside bin s).links rfl)
  confirm bin s h := h.of_links ((confirmEdge_outside bin s).links rfl)
  drop bin s h := h.of_links ((expireConfirm_outside bin s).links rfl)
  fullSwitch bin s h := h.of_links ((fullSwitchEdge_outside bin s).links rfl)
  inputs bin f s h := h.of_links ((modifyBin_outside bin f s).links rfl)
  grading p g s _ h := h.of_links ((setGrading_outside p g s).links rfl)
  commits p target s h := h.of_links ((commit_outside p target s).links rfl)

/-! ### Requests taken (R172) -/

/-- A link whose oldest frame has been taken and answered, its counts apart. -/
def LinkState.Answers (k m : LinkState) : Prop :=
  ∃ n body, n.tx = k.tx ∧ n.waiting = k.waiting.tail ∧ n.rx = k.rx ∧ m = LinkState.enqueue n body

/-- A link that has a frame to take, if any link has. -/
def State.DueOn (s : State) (l : LinkId) : Prop := (s.link l).Due ∧ ∀ o, o ≠ l → (s.link o).Bounded

theorem State.DueOn.answered {s t : State} {l : LinkId} (h : s.DueOn l) (hfree : (s.link l).tx.length < Config.txSlots)
    (ht : (s.link l).Answers (t.link l)) (ho : ∀ o, o ≠ l → t.link o = s.link o) : LinksBounded t := by
  intro o
  by_cases hl : o = l
  · subst hl
    obtain ⟨n, body, htx, hw, hrx, hm⟩ := ht
    rw [hm]
    exact h.1.answered hfree htx hw hrx body
  · rw [ho o hl]
    exact h.2 o hl

/-- The checks and the owning block change of the links the request's counts alone (R172). -/
theorem judgeRequest_link {act : Handler} (hact : ∀ l fields s, (act l fields s).1.links = s.links) (r : Req) (l o : LinkId)
    (fields : List Byte) (s : State) :
    let k := ((judgeRequest r l fields act s).1).link o
    k.tx = (s.link o).tx ∧ k.waiting = (s.link o).waiting ∧ k.rx = (s.link o).rx ∧ (o ≠ l → k = s.link o) := by
  have hcount : ∀ f : LinkState → LinkState, (∀ k, (f k).tx = k.tx ∧ (f k).waiting = k.waiting ∧ (f k).rx = k.rx) →
      let k := (s.modifyLink l f).link o
      k.tx = (s.link o).tx ∧ k.waiting = (s.link o).waiting ∧ k.rx = (s.link o).rx ∧ (o ≠ l → k = s.link o) := by
    intro f hf
    by_cases h : o = l
    · subst h
      rw [State.modifyLink_link]
      exact ⟨(hf _).1, (hf _).2.1, (hf _).2.2, fun hne => absurd rfl hne⟩
    · rw [State.modifyLink_link_ne _ _ h]
      exact ⟨rfl, rfl, rfl, fun _ => rfl⟩
  unfold judgeRequest
  split
  · exact hcount _ fun _ => ⟨rfl, rfl, rfl⟩
  · split
    · exact hcount _ fun _ => ⟨rfl, rfl, rfl⟩
    · dsimp only
      rw [link_congr (hact l fields s)]
      exact ⟨rfl, rfl, rfl, fun _ => rfl⟩

/-- A request taken answers on its link and leaves the others. -/
theorem takeRequest_answers {act : Handler} (hact : ∀ l fields s, (act l fields s).1.links = s.links) (r : Req) (l : LinkId) (num : Byte)
    (fields : List Byte) (s : State) :
    (s.link l).Answers ((takeRequest r l num fields act s).link l) ∧
      ∀ o, o ≠ l → (takeRequest r l num fields act s).link o = s.link o := by
  rw [takeRequest_eq]
  unfold respond
  refine ⟨?_, fun o ho => ?_⟩
  · obtain ⟨htx, hw, hrx, -⟩ := judgeRequest_link hact r l l fields (s.modifyLink l LinkState.takeFrame)
    rw [State.modifyLink_link] at htx hw hrx
    exact ⟨_, _, htx.trans (LinkState.takeFrame_tx _), hw.trans (LinkState.takeFrame_waiting _), hrx.trans (LinkState.takeFrame_rx _),
      State.modifyLink_link _ _ _⟩
  · obtain ⟨-, -, -, hother⟩ := judgeRequest_link hact r l o fields (s.modifyLink l LinkState.takeFrame)
    rw [State.modifyLink_link_ne _ _ ho, hother ho, State.modifyLink_link_ne _ _ ho]

/-- The state after an unknown code is taken and refused FORMAT (R172). -/
def State.refusedCode (s : State) (l : LinkId) (code num : Byte) (fields : List Byte) : State :=
  respond l code num (formAnswer fields)
    ((s.modifyLink l LinkState.takeFrame).modifyLink l fun k => { k with format := inc32 k.format })

theorem refusedCode_answers (l : LinkId) (code num : Byte) (fields : List Byte) (s : State) :
    (s.link l).Answers ((s.refusedCode l code num fields).link l) ∧ ∀ o, o ≠ l → (s.refusedCode l code num fields).link o = s.link o := by
  unfold State.refusedCode respond
  rw [State.modifyLink_modifyLink, State.modifyLink_modifyLink]
  refine ⟨?_, fun o ho => State.modifyLink_link_ne _ _ ho⟩
  rw [State.modifyLink_link]
  exact ⟨{ (s.link l).takeFrame with format := inc32 (s.link l).takeFrame.format }, _, LinkState.takeFrame_tx _,
    LinkState.takeFrame_waiting _, LinkState.takeFrame_rx _, rfl⟩

/-- A frame that arrives is one to take, or waits with no slot free. -/
theorem deliver_links {s : State} (hs : LinksBounded s) (l : LinkId) {body : List Byte} (h2 : 2 ≤ body.length) (h240 : body.length ≤ 240) :
    (deliver l body s).DueOn l ∧ ((deliver l body s).takeable l body = false → LinksBounded (deliver l body s)) := by
  obtain ⟨hsized, htaken⟩ := (LinkState.bounded_iff _).mp (hs l)
  have hnot : ¬ s.takeable l body = true := fun h => by
    obtain ⟨hhead, hfree⟩ := (takeable_iff s l body).mp h
    have := htaken fun h0 => by rw [h0] at hhead; cases hhead
    omega
  unfold deliver
  rw [if_neg hnot]
  unfold receiveAll
  have hothers : ∀ o, o ≠ l → ((s.modifyLink l fun k => (wireFrame body).foldl LinkState.receive k).link o).Bounded := fun o ho => by
    rw [State.modifyLink_link_ne _ _ ho]
    exact hs o
  have hrest := hsized.foldl_receive (wireFrame body)
  have htx := foldl_receive_tx (wireFrame body) (s.link l)
  by_cases hfull : (s.link l).tx.length = Config.txSlots
  · have hlink : ((wireFrame body).foldl LinkState.receive (s.link l)).Bounded :=
      (LinkState.bounded_iff _).mpr ⟨hrest, fun _ => htx ▸ hfull⟩
    refine ⟨⟨?_, hothers⟩, fun _ => LinksBounded.modify (fun o _ => hs o) hlink⟩
    rw [State.modifyLink_link]
    exact ⟨hrest, fun _ => by rw [htx, hfull]; exact Nat.le_succ _⟩
  · have hw : (s.link l).waiting = [] := by
      by_contra hne
      exact hfull (htaken hne)
    have hframe := foldl_receive_wireFrame h2 h240 hw
    refine ⟨⟨?_, hothers⟩, fun hno => absurd hno ?_⟩
    · rw [State.modifyLink_link]
      exact ⟨hrest, fun hne => absurd (by rw [hframe]; rfl) hne⟩
    · rw [Bool.not_eq_false, takeable_iff, State.modifyLink_link, htx, hframe]
      exact ⟨rfl, Nat.lt_of_le_of_ne hsized.queue hfull⟩

/-- A request served keeps the links within their sizes. -/
theorem serve_links {act : Handler} (hact : ∀ l fields s, (act l fields s).1.links = s.links) {r : Req} {l : LinkId} {num : Byte}
    {fields : List Byte} {s t : State} (h : serve r l num fields act s = .next t) (hs : LinksBounded s) : LinksBounded t := by
  unfold serve at h
  split at h
  · cases h
  · next hfit =>
    have hlen : fields.length + 2 ≤ 240 := by simpa [fieldsFit, Config.bodyMax] using hfit
    refine whenAwake_keeps (fun hs => ?_) h hs
    obtain ⟨hdue, hwaits⟩ := deliver_links hs l (body := requestCode r :: num :: fields) (by simp)
      (by rw [List.length_cons, List.length_cons]; omega)
    dsimp only
    split
    · next htake =>
      obtain ⟨hanswers, hothers⟩ := takeRequest_answers hact r l num fields (deliver l (requestCode r :: num :: fields) s)
      exact hdue.answered ((takeable_iff _ _ _).mp htake).2 hanswers hothers
    · next hno => exact hwaits (eq_false_of_ne_true hno)

theorem execUnknownRequestCode_links {l : LinkId} {code num : Byte} {fields : List Byte} {s t : State}
    (h : execUnknownRequestCode l code num fields s = .next t) (hs : LinksBounded s) : LinksBounded t := by
  unfold execUnknownRequestCode at h
  split at h
  · cases h
  · split at h
    · cases h
    · next hfit =>
      have hlen : fields.length + 2 ≤ 240 := by simpa [fieldsFit, Config.bodyMax] using hfit
      refine whenAwake_keeps (fun hs => ?_) h hs
      obtain ⟨hdue, hwaits⟩ := deliver_links hs l (body := code :: num :: fields) (by simp)
        (by rw [List.length_cons, List.length_cons]; omega)
      dsimp only
      split
      · next htake =>
        obtain ⟨hanswers, hothers⟩ := refusedCode_answers l code num fields (deliver l (code :: num :: fields) s)
        exact hdue.answered ((takeable_iff _ _ _).mp htake).2 hanswers hothers
      · next hno => exact hwaits (eq_false_of_ne_true hno)

/-- A code that names a request is that request's code. -/
theorem requestCode_of_some {code : Byte} {r : Req} (h : requestOfCode code = some r) : requestCode r = code := by
  unfold requestOfCode at h
  split at h
  case h_30 => cases h
  case h_31 =>
    split at h
    · next hcode => cases h; exact hcode.symm
    · cases h
  all_goals
    next hcode =>
      cases h
      exact BitVec.eq_of_toNat_eq hcode.symm

/-- The taking of the frame that waits leaves none that a link could take. -/
theorem takeOldest_links {l : LinkId} {s t : State} (ha : s.awake = true) (h : takeOldest l s = .next t) (hs : s.DueOn l) :
    LinksBounded t := by
  obtain ⟨hdue, hothers⟩ := hs
  have hself : (s.link l).Bounded → LinksBounded s := fun hb o => by
    by_cases ho : o = l
    · exact ho ▸ hb
    · exact hothers o ho
  unfold takeOldest at h
  split at h
  · next code num fields rest hw =>
    split at h
    · next hfull => cases h; exact hself (hdue.bounded_of_full hfull)
    · next hfree =>
      have htake : s.takeable l (code :: num :: fields) = true := by
        unfold State.takeable
        rw [hw]
        simpa using Nat.pos_of_ne_zero hfree
      have hslot := ((takeable_iff _ _ _).mp htake).2
      have hlen : fields.length + 2 ≤ 240 := by
        have := (hdue.1.bodies (code :: num :: fields) (hw ▸ List.mem_cons_self)).2
        rw [List.length_cons, List.length_cons] at this
        exact this
      have hfit : fieldsFit fields = true := by simpa [fieldsFit, Config.bodyMax] using hlen
      split at h
      · next r hr =>
        have hcode : requestCode r = code := requestCode_of_some hr
        rw [serveRequest_exec, exec_requestInstr, serve_taken hfit ha (by rw [hcode]; exact htake)] at h
        cases h
        obtain ⟨hanswers, hrest⟩ := takeRequest_answers (handlerOf_links r) r l num fields s
        exact State.DueOn.answered ⟨hdue, hothers⟩ hslot hanswers hrest
      · next hr =>
        have heq : execUnknownRequestCode l code num fields s = .next (s.refusedCode l code num fields) := by
          unfold execUnknownRequestCode deliver
          rw [hr, if_neg (by simp), if_neg (by simp [hfit]), whenAwake_awake ha]
          simp only [htake, if_true]
          rfl
        rw [heq] at h
        cases h
        obtain ⟨hanswers, hrest⟩ := refusedCode_answers l code num fields s
        exact State.DueOn.answered ⟨hdue, hothers⟩ hslot hanswers hrest
  · next hshape =>
    cases h
    refine hself (hdue.bounded_of_none ?_)
    rcases hw : (s.link l).waiting with _ | ⟨_ | ⟨code, _ | ⟨num, fields⟩⟩, rest⟩
    · rfl
    · exact absurd (hdue.1.bodies [] (hw ▸ List.mem_cons_self)).1 (by simp)
    · exact absurd (hdue.1.bodies [code] (hw ▸ List.mem_cons_self)).1 (by simp)
    · exact absurd hw (hshape code num fields rest)

theorem State.DueOn.modify {s : State} {l : LinkId} {f : LinkState → LinkState} (hs : LinksBounded s) (hf : (f (s.link l)).Due) :
    (s.modifyLink l f).DueOn l := by
  refine ⟨(State.modifyLink_link s l f).symm ▸ hf, fun o ho => ?_⟩
  rw [State.modifyLink_link_ne _ _ ho]
  exact hs o

/-- Every command keeps the links within their sizes. -/
theorem exec_links (i : Instr) {s t : State} (h : exec i s = .next t) (hs : LinksBounded s) : LinksBounded t := by
  have hawake : ∀ {l : LinkId} {f : LinkState → LinkState}, whenAwake s (fun s => s.modifyLink l f) = .next t → (f (s.link l)).Bounded →
      LinksBounded t := fun h hf => whenAwake_keeps (fun hs => LinksBounded.modify (fun o _ => hs o) hf) h hs
  obtain hi | ⟨l, code, num, fields, hi⟩ | ⟨l, b, stopBit, rfl⟩ | ⟨l, rfl⟩ | ⟨l, rfl⟩ | ⟨l, rfl⟩ | ⟨l, rfl⟩ := offLinks_or_request i
  · exact linksBounded_kept.exec hi h hs
  · obtain ⟨r, -, rfl⟩ | rfl := requestInstr_of_parts hi
    · rw [exec_requestInstr] at h
      exact serve_links (handlerOf_links r) h hs
    · exact execUnknownRequestCode_links h hs
  · change execLinkByteReceived l b stopBit s = .next t at h
    unfold execLinkByteReceived at h
    split at h
    · next ha =>
      refine takeOldest_links ((State.modifyLink_awake _ _ _).trans ha) h (State.DueOn.modify hs ?_)
      cases stopBit
      · exact (hs l).due_receiveBroken
      · exact (hs l).due_receive b
    · cases h; exact hs
  · exact hawake (f := LinkState.paused) h ((hs l).same rfl rfl rfl)
  · exact hawake (f := LinkState.resumed) h ((hs l).same (LinkState.beginSending_tx _) (LinkState.beginSending_waiting _)
      (LinkState.beginSending_rx _))
  · change execTxFrameSent l s = .next t at h
    unfold execTxFrameSent at h
    split at h
    · next ha =>
      exact takeOldest_links ((State.modifyLink_awake _ _ _).trans ha) h (State.DueOn.modify hs (hs l).due_frameSent)
    · cases h; exact hs
  · change whenAwake s (fun s => abandonStaging l (s.modifyLink l LinkState.broken)) = .next t at h
    refine whenAwake_keeps (fun hs => ?_) h hs
    have hbroken : LinksBounded (s.modifyLink l LinkState.broken) := LinksBounded.modify (fun o _ => hs o)
      ⟨Nat.zero_le _, Nat.zero_le _, fun h => absurd rfl h, fun _ h => absurd h List.not_mem_nil, trivial⟩
    cases l <;> exact hbroken

/-- Every step keeps the links within their sizes. -/
theorem step_links {s t : State} (h : step s = .next t) (hs : LinksBounded s) : LinksBounded t := by
  refine step_keeps (I := LinksBounded) (fun s => linksBounded_kept.clockPeriod fun s hs l => ?_) (fun _ _ h => h)
    (fun i _ _ => exec_links i) h hs
  cases l
  · exact (hs .optimizer).same rfl rfl rfl
  · exact (hs .lineController).same rfl rfl rfl
  · exact (hs .tallyStation).same rfl rfl rfl

end Sys2Proof.Machine
end

