-- ==== Sys2Proof/Proofs/QueuesNarrow.lean ====
section
/-! The event queue, the transfer queue and the reply queues stay within their sizes (O54): events and replies are appended only where an entry
is free, and a full transfer queue first drops its head (R29, R61, R160). -/

namespace Sys2Proof.Machine

-- One thread elaborates the many small proofs of this file.
set_option Elab.async false

/-- The queues that are no link's are within their sizes. -/
structure QueuesNarrow (s : State) : Prop where
  events : s.events.entries.length ≤ Config.eventSlots
  transfer : s.board.transfer.length ≤ Config.transferSlots
  replies : ∀ p, (s.grading p).replies.length ≤ Config.replySlots

theorem queuesBounded_iff (s : State) : QueuesBounded s ↔ QueuesNarrow s ∧ LinksBounded s :=
  ⟨fun ⟨he, ht, hr, hl⟩ => ⟨⟨he, ht, hr⟩, hl⟩, fun ⟨⟨he, ht, hr⟩, hl⟩ => ⟨he, ht, hr, hl⟩⟩

/-- The parts that hold none of these queues. -/
def Touched.offQueues : Touched :=
  { pins := true, standing := true, timebase := true, tcu := true, scu := true, trimmer := true, sorter := true, nextTag := true,
    line := true, postings := true, forces := true, decision := true, saws := true, sort := true, tally := true, attention := true,
    links := true, tables := true, pending := true }

namespace QueuesNarrow
variable {s : State}

/-- An operation that touches none of them keeps the queues. -/
theorem outside {m : Touched} {t : State} (hs : QueuesNarrow s) (h : Outside m s t) (hm : m.le .offQueues = true := by decide) :
    QueuesNarrow t where
  events := (h.weaken hm).events rfl ▸ hs.events
  transfer := (h.weaken hm).transfer rfl ▸ hs.transfer
  replies
    | .a => (congrArg (fun g : Grading => g.replies.length ≤ Config.replySlots) ((h.weaken hm).gradingA rfl)).mpr (hs.replies .a)
    | .b => (congrArg (fun g : Grading => g.replies.length ≤ Config.replySlots) ((h.weaken hm).gradingB rfl)).mpr (hs.replies .b)

/-- An event is appended only where an entry is free (R160). -/
theorem raise (hs : QueuesNarrow s) (k : EventKind) (ch : Option Chain) (n d : Nat) : QueuesNarrow (raiseEvent k ch n d s) := by
  unfold raiseEvent
  split
  · next hlt => exact { hs with events := by simpa using hlt }
  · exact outside (s := { s with events := { s.events with overflow := true, lost := inc32 s.events.lost } })
      { hs with } (latch_outside _ _)

theorem setGrading (hs : QueuesNarrow s) {p : Position} {g : Grading} (hg : (s.grading p).RepliesKept g) : QueuesNarrow (s.setGrading p g) := by
  have ho := setGrading_outside p g s
  refine ⟨ho.events rfl ▸ hs.events, ho.transfer rfl ▸ hs.transfer, fun q => ?_⟩
  by_cases hq : q = p
  · rw [hq, State.setGrading_grading]
    exact hg (hs.replies p)
  · rw [State.setGrading_grading_ne _ _ hq]
    exact hs.replies q

theorem tracks {t : State} (hs : QueuesNarrow s) (h : Tracks s t) : QueuesNarrow t := by
  induction h with
  | refl => exact hs
  | unit c u _ _ ih => exact ih.outside (setUnit_outside c u _)
  | event k c n d _ ih => exact ih.raise k c n d
  | cause c _ ih => exact ih.outside (latch_outside c _)
  | suspect c _ ih => exact ih.outside (suspectMap_outside c _)

/-! ### The tally and the transfer queue (R29, R30, R149) -/

theorem streamAttempt (hs : QueuesNarrow s) (r : Record) (f : Fate) : QueuesNarrow (streamAttempt r f s) := by
  by_cases hb : s.tally.stream.blocked = true
  · have hdrop := (hs.outside (modifyLive_outside (fun t => t.count .dropped) s))
    unfold Machine.streamAttempt
    rw [if_pos hb]
    dsimp only
    split
    · exact (hdrop.outside (modifyStream_outside _ _)).raise _ _ _ _
    · exact hdrop
  · have hwrite := (hs.outside (modifyStream_outside (fun st => { st.put st.slot (streamRecord r f) with slot := st.slot + 1 }) s)).outside
      (modifyLive_outside (fun t => t.count .written) _)
    unfold Machine.streamAttempt
    rw [if_neg hb]
    dsimp only
    split
    · exact hwrite.outside (modifyStream_outside _ _)
    · exact hwrite

theorem handToTally (hs : QueuesNarrow s) (r : Record) (f : Fate) : QueuesNarrow (handToTally r f s) :=
  (hs.outside (modifyLive_outside _ s)).streamAttempt r f

theorem waiting (hs : QueuesNarrow s) {q : List Waiting} (h : q.length ≤ Config.transferSlots) :
    QueuesNarrow { s with board := { s.board with transfer := q } } := { hs with transfer := h }

/-- The head of a full queue is dropped before a record is appended (R29). -/
theorem appendTransfer (hs : QueuesNarrow s) (r : Record) : QueuesNarrow (appendTransfer r s) := by
  have hq := hs.transfer
  unfold Machine.appendTransfer
  dsimp only
  split
  · split
    · next e => exact hs.waiting (by simp [e, Config.transferSlots])
    · next head rest e =>
      rw [e, List.length_cons] at hq
      have hdrop : QueuesNarrow (raiseEvent .boardLost (some .trimmer) head.board.tag 1
          (Machine.handToTally head.board .lost { s with board := { s.board with transfer := rest } })) :=
        ((hs.waiting (Nat.le_of_succ_le hq)).handToTally _ _).raise _ _ _ _
      refine hdrop.waiting ?_
      rw [(raiseEvent_outside _ _ _ _ _).transfer rfl, (handToTally_outside _ _ _).transfer rfl, List.length_append]
      exact hq
  · next hroom =>
    refine hs.waiting ?_
    rw [List.length_append, List.length_singleton]
    omega

theorem outfeedLine (hs : QueuesNarrow s) (now : Serial) : QueuesNarrow (outfeedLine now s) := by
  unfold Machine.outfeedLine
  split
  · exact (hs.outside (leaveTrimmer_outside _ s)).appendTransfer _
  · exact hs

theorem ageTransfer (hs : QueuesNarrow s) : QueuesNarrow (ageTransfer s) := by
  unfold Machine.ageTransfer
  refine List.foldlRecOn _ _ (hs.waiting ?_) fun u hu w _ => (hu.handToTally _ _).raise _ _ _ _
  refine ((List.dropWhile_sublist _).length_le).trans ?_
  rw [List.length_map]
  exact hs.transfer

theorem loseAll (hs : QueuesNarrow s) : QueuesNarrow (loseAll s) := by
  unfold Machine.loseAll
  exact List.foldlRecOn _ _ { hs with transfer := Nat.zero_le _ } fun u hu r _ => hu.handToTally r .lost

/-! ### Saws (R116, R117) -/

theorem missSaw (hs : QueuesNarrow s) (saw : Nat) : QueuesNarrow (missSaw saw s) := by
  have hmiss := ((hs.outside (modifySaw_outside saw (fun r => { r with
    stage := .idle, timer := 0, misses := incTo Config.missHold (s.saw saw).misses, totalMisses := inc32 r.totalMisses }) s)).raise .sawMiss none
      saw (s.saw saw).commanded.toNat).outside (markSawMiss_outside _)
  unfold Machine.missSaw
  dsimp only
  split
  · exact ((hmiss.outside (modifySaw_outside saw _ _)).raise _ _ _ _).outside (latch_outside _ _)
  · exact hmiss

theorem expireWindow (hs : QueuesNarrow s) (saw : Nat) : QueuesNarrow (expireWindow saw s) := by
  unfold Machine.expireWindow
  split
  · exact hs
  · exact hs.missSaw saw
  · split
    · exact hs.outside (modifySaw_outside saw _ s)
    · exact hs.missSaw saw
    · exact hs.missSaw saw

theorem endWindows (hs : QueuesNarrow s) : QueuesNarrow (endWindows s) := by
  unfold Machine.endWindows
  refine List.foldlRecOn _ _ hs fun u hu saw _ => ?_
  unfold endWindow
  dsimp only
  split
  · exact hu
  · split
    · exact hu.outside (modifySaw_outside saw _ u)
    · exact hu.missSaw saw

theorem cutLine (hs : QueuesNarrow s) (now : Serial) : QueuesNarrow (cutLine now s) := by
  unfold Machine.cutLine
  split
  · exact hs
  · split
    · exact hs
    · dsimp only
      split
      · exact (hs.outside (leaveTrimmer_outside _ s)).handToTally _ _
      · exact hs.outside (modifyTrimmer_outside _ _ s)

/-! ### Marks (R61, R66) -/

theorem retarget (hs : QueuesNarrow s) (now : Serial) (p : Position) : QueuesNarrow (retarget now p s) :=
  hs.setGrading (Grading.retarget_kept _ _)

theorem markAdvance (hs : QueuesNarrow s) (now : Serial) (p : Position) : QueuesNarrow (markAdvance now p s) := by
  unfold Machine.markAdvance
  dsimp only
  split
  · exact (hs.setGrading (Grading.missTarget_kept _)).retarget now p
  · exact hs.retarget now p

theorem commit (hs : QueuesNarrow s) (p : Position) (target : Nat) : QueuesNarrow (commit p target s) := by
  refine QueuesNarrow.retarget (QueuesNarrow.setGrading (hs.outside (modifyTrimmer_outside target _ s)) ?_) _ p
  have hreply : (s.grading p).RepliesKept ((s.grading p).cleared.reply .accept).keyTaken :=
    Grading.reply_kept .accept (s.grading p).cleared
  split
  · exact hreply
  · exact hreply

/-! ### Drops and the sorter lines (R135 to R139) -/

theorem completeDrop (hs : QueuesNarrow s) (r : Record) (bin : Nat) : QueuesNarrow (completeDrop r bin s) := by
  unfold Machine.completeDrop
  dsimp only
  refine QueuesNarrow.handToTally (QueuesNarrow.outside ?_ (leaveSorter_outside _ _)) _ _
  have hbin := fun f => hs.outside (modifyBin_outside bin f s)
  split
  · split
    · exact (hbin _).outside (makeFull_outside bin _)
    · exact hbin _
  · exact hbin _

theorem dropLine (hs : QueuesNarrow s) (r : Record) (bin off : Nat) : QueuesNarrow (dropLine r bin off s) := by
  unfold Machine.dropLine
  dsimp only
  split
  · exact ((hs.outside (releaseReservation_outside bin s)).outside (modifySorter_outside _ _ _)).outside (modifySortCounts_outside _ _)
  · split
    · exact hs.outside (reroute_outside r off s)
    · split
      · exact (hs.outside (modifySortCounts_outside _ s)).outside (reroute_outside r off _)
      · have hfire := hs.outside (fireGate_outside r bin s)
        split
        · exact (hfire.outside (modifySorter_outside _ _ _)).outside (modifyBin_outside _ _ _)
        · split
          · exact hfire.completeDrop _ bin
          · exact hfire

theorem sorterLine (hs : QueuesNarrow s) (now : Serial) (tag : Nat) : QueuesNarrow (sorterLine now tag s) := by
  unfold Machine.sorterLine
  split
  · exact hs
  · next r _ =>
    dsimp only
    split
    · exact (((hs.outside (releaseReservation_outside r.heldBin s)).outside (modifyBin_outside r.heldBin _ _)).outside
        (leaveSorter_outside r.tag _)).handToTally r .runout
    · split
      · exact hs.dropLine _ _ _
      · exact hs

theorem confirmEdge (hs : QueuesNarrow s) (bin : Nat) : QueuesNarrow (confirmEdge bin s) := by
  have hinput := hs.outside (modifyBin_outside bin (fun b => { b with confirmInput := true }) s)
  unfold Machine.confirmEdge
  dsimp only
  split
  · exact hinput.outside (modifySortCounts_outside _ _)
  · have hconfirm := fun f g => (hinput.outside (modifyBin_outside bin f _)).outside (modifySortCounts_outside g _)
    split
    · exact (hconfirm _ _).completeDrop _ bin
    · exact hconfirm _ _

theorem expireConfirm (hs : QueuesNarrow s) (bin : Nat) : QueuesNarrow (expireConfirm bin s) := by
  have hjudge : ∀ misses {u : State}, QueuesNarrow u → QueuesNarrow (judgeMisses bin misses u) := fun misses u hu => by
    unfold judgeMisses
    dsimp only
    split
    · exact (hu.outside (modifyBin_outside bin _ u)).raise _ _ _ _
    · exact hu
  unfold Machine.expireConfirm
  dsimp only
  split
  · exact hs
  · refine hjudge _ ?_
    have hmiss := fun f g h tag n => (((hs.outside (modifyBin_outside bin f s)).outside (modifySortCounts_outside g _)).outside
      (modifySorter_outside tag h _)).raise .gateMiss none bin n
    split
    · exact (hmiss _ _ _ _ _).outside (reroute_outside _ _ _)
    · exact hmiss _ _ _ _ _

theorem fullSwitchEdge (hs : QueuesNarrow s) (bin : Nat) : QueuesNarrow (fullSwitchEdge bin s) := by
  have hswitch := (hs.outside (modifyBin_outside bin (fun b => { b with fullSwitch := true }) s)).raise .binFullSwitch none bin (s.bin bin).state.code
  unfold Machine.fullSwitchEdge
  dsimp only
  split
  · exact hswitch.outside (makeFull_outside bin _)
  · exact hswitch

/-! ### Advances and pickups -/

theorem advanceLines (hs : QueuesNarrow s) (ch : Chain) : QueuesNarrow (advanceLines ch s) := by
  cases ch
  · change QueuesNarrow (advanceTrimmer s)
    unfold advanceTrimmer
    dsimp only
    refine QueuesNarrow.markAdvance (QueuesNarrow.markAdvance ?_ _ .a) _ .b
    split
    · exact ((((hs.outside (decisionLine_outside _ s)).endWindows.cutLine _).outfeedLine _).outside (setLine_outside _ _))
    · exact hs
  · exact List.foldlRecOn _ _ hs.ageTransfer fun u hu tag _ => hu.sorterLine _ tag

theorem pickupEdge (hs : QueuesNarrow s) : QueuesNarrow (pickupEdge s) := by
  unfold Machine.pickupEdge
  split
  · exact hs
  · split
    · unfold createUnknown
      refine QueuesNarrow.outside ?_ (placeOnSorter_outside _ _)
      exact QueuesNarrow.raise (s := { s with board := { s.board with nextTag := tagAfter s.nextFreeTag } }) { hs with } _ _ _ _
    · next head rest e =>
      have hq := hs.transfer
      rw [e, List.length_cons] at hq
      exact (hs.waiting (Nat.le_of_succ_le hq)).outside (placeOnSorter_outside _ _)

/-! ### Requests -/

theorem changeSync (hs : QueuesNarrow s) (ch : Chain) (new : Sync) : QueuesNarrow (changeSync ch new s) :=
  hs.tracks ((Tracks.refl s).sync ch new)

theorem returnToSearch (hs : QueuesNarrow s) (ch : Chain) : QueuesNarrow (returnToSearch ch s) :=
  (hs.outside (setUnit_outside ch _ s)).changeSync ch .search

theorem Grading.restarted_kept (g : Grading) : g.RepliesKept g.restarted :=
  Grading.retarget_kept none { g with slots := Vector.replicate 6 .empty, top := 0 }

theorem restart (hs : QueuesNarrow s) : QueuesNarrow (restart s) := by
  have hlost := hs.loseAll
  have hblocks : QueuesNarrow (Machine.loseAll s).blocksRestarted :=
    ⟨hlost.events, hlost.transfer, fun
      | .a => Grading.restarted_kept _ (hlost.replies .a)
      | .b => Grading.restarted_kept _ (hlost.replies .b)⟩
  rw [restart_eq]
  exact ((((hblocks.changeSync _ _).changeSync _ _).outside (unitsZeroed_outside _)).outside (setLineState_outside _ _))

theorem loadSettings (hs : QueuesNarrow s) (bytes : List Byte) : QueuesNarrow (loadSettings bytes s) := by
  have htable := hs.outside (modifyTables_outside (fun t => { t with settings := settingsOf bytes t.settings }) s)
  have hchain : ∀ (c : Prop) [Decidable c] ch {u : State}, QueuesNarrow u → QueuesNarrow (if c then Machine.returnToSearch ch u else u) :=
    fun c _ ch u hu => by
      split
      · exact hu.returnToSearch ch
      · exact hu
  exact hchain _ .sorter (hchain _ .trimmer htable)

theorem storeTable (hs : QueuesNarrow s) (table : TableId) (bytes : List Byte) : QueuesNarrow (storeTable table bytes s) := by
  cases table
  case settings => exact hs.loadSettings bytes
  case bin => exact hs.outside (loadBins_outside _ s)
  all_goals
    unfold Machine.storeTable
    exact hs.outside (modifyTables_outside _ s)

theorem loadTable (hs : QueuesNarrow s) (l : LinkId) (fields : List Byte) : QueuesNarrow (loadTable l fields s).1 := by
  unfold Machine.loadTable
  dsimp only
  split
  · exact hs
  · split
    · exact hs
    · next table _ =>
      split
      · exact hs
      · unfold judgePart
        dsimp only
        generalize (if fieldAt fields 1 1 = 0 then [] else (s.tables.staging.map (·.bytes)).getD []) = staged
        split
        · exact hs
        · split
          · exact hs
          · split
            · exact hs
            · split
              · unfold completeLoad
                split
                · exact ⟨hs.events, hs.transfer, hs.replies⟩
                · have hstore := hs.storeTable table (staged ++ List.drop 3 fields)
                  exact ⟨hstore.events, hstore.transfer, hstore.replies⟩
              · exact ⟨hs.events, hs.transfer, hs.replies⟩

/-- READ-EVENTS takes entries from the event queue (R161). -/
theorem readEvents (hs : QueuesNarrow s) (l : LinkId) (fields : List Byte) : QueuesNarrow (readEvents l fields s).1 := by
  unfold Machine.readEvents
  dsimp only
  split
  · exact hs
  · exact { hs with events := ((List.drop_sublist _ _).length_le).trans hs.events }

theorem handlerOf (hs : QueuesNarrow s) (r : Req) (l : LinkId) (fields : List Byte) : QueuesNarrow (handlerOf r l fields s).1 := by
  cases r
  case restartTracking => exact hs.restart
  case loadTable => exact hs.loadTable l fields
  case readEvents => exact hs.readEvents l fields
  case clearEventOverflow => exact { hs with }
  all_goals exact hs.outside (handlerOf_outside _ l fields s)

end QueuesNarrow

/-- Every command but the links' keeps these queues. -/
theorem queuesNarrow_kept : FieldKept QueuesNarrow where
  powered s baud low := ⟨Nat.zero_le _, Nat.zero_le _, fun p => by cases p <;> exact Nat.zero_le _⟩
  held s := ⟨Nat.zero_le _, Nat.zero_le _, fun p => by cases p <;> exact Nat.zero_le _⟩
  levels s pins standing h := { h with }
  settled s h := { h with }
  clocked s timebase h := { h with }
  raised s h := { h with }
  tracks s t ht h := h.tracks ht
  advance ch s t h ht := ((h.advanceLines ch).tracks ht).outside (raiseSerial_outside ch t)
  scan s h := by
    unfold scanEdge
    split
    · exact h
    · split
      · exact h.outside (modifyTrimmer_outside _ _ s)
      · unfold createScanned
        dsimp only
        refine QueuesNarrow.outside ?_ (offerNotice_outside _ _)
        exact ⟨h.events, h.transfer, h.replies⟩
  pickup s h := h.pickupEdge
  feedback saw down s h := h.outside (takeFeedback_outside saw down s)
  window saw s h := h.expireWindow saw
  gate bin s h := h.outside (closeGate_outside bin s)
  confirm bin s h := h.confirmEdge bin
  drop bin s h := h.expireConfirm bin
  fullSwitch bin s h := h.fullSwitchEdge bin
  inputs bin f s h := h.outside (modifyBin_outside bin f s)
  grading p g s hg h := h.setGrading hg
  commits p target s h := h.commit p target

end Sys2Proof.Machine

namespace Sys2Proof.Proofs
open Sys2Proof.Machine

/-- Settles O54: the links are kept by the account of what each link's command leaves waiting, the other queues by what each block appends. -/
theorem queuesStayBounded : Obligations.QueuesStayBounded := by
  unfold Obligations.QueuesStayBounded
  intro s t hs h
  rw [queuesBounded_iff] at hs ⊢
  obtain ⟨hqueues, hlinks⟩ := hs
  refine ⟨?_, step_links h hlinks⟩
  exact queuesNarrow_kept.step (fun s l f h => h.outside (modifyLink_outside l f s)) (fun r l fields _ h => h.handlerOf r l fields)
    (fun _ h => { h with }) (fun _ _ h => { h with }) (fun _ _ h => { h with }) h hqueues

end Sys2Proof.Proofs
end

