-- ==== Sys2Proof/Proofs/ScanEyeRecords.lean ====
section
/-! A scan-eye on-edge: DOUBLE on the record at the scan line, or a record with its lug notice (O15). -/

namespace Sys2Proof.Machine

-- One thread elaborates the many small proofs of this file.
set_option Elab.async false

/-- An on-edge that is taken acts on the state with the level outside set (R17). -/
theorem takeEdge_taken {s : State} {line : InputLine} (h : s.edgeTaken line) (onEdge offEdge : State → State) :
    takeEdge line .on onEdge offEdge s = .next (onEdge (s.withPin line true)) := by
  obtain ⟨hawake, hlevel⟩ := h
  simp only [takeEdge, hawake, hlevel, Bool.not_false, Bool.and_true, if_true]
  rfl

theorem Sync.untrusted_eq (y : Sync) : y.untrusted = decide (y = .search ∨ y = .lost) := by cases y <;> rfl

/-- A queued frame is begun at once unless TX pause is set (R171). -/
theorem LinkState.enqueue_eq (k : LinkState) (body : List Byte) :
    k.enqueue body = { k with tx := k.tx ++ [body], sending := k.sending || !k.txPause } := by
  unfold LinkState.enqueue LinkState.beginSending
  cases hpause : k.txPause
  · simp
  · simp

/-- The notice numbers run from 0 to 65,535 and wrap (R54). -/
def noticeAfter (n : Nat) : Nat := if n < 65535 then n + 1 else 0

/-- A notice takes the next number, and is queued with two slots free, else counted lost (R54, R55). -/
theorem offerNotice_eq (r : Record) (s : State) :
    let k := s.links.optimizer
    let room : Bool := decide (k.tx.length + 2 ≤ 16)
    offerNotice r s = { s with
      board := { s.board with postings :=
        if room then s.board.postings else { s.board.postings with noticesLost := inc32 s.board.postings.noticesLost } }
      links := { s.links with
        notice := noticeAfter s.links.notice
        optimizer := if room then { k with tx := k.tx ++ [noticeBody r s.links.notice], sending := k.sending || !k.txPause } else k } } := by
  have hroom : 2 ≤ s.links.optimizer.freeSlots ↔ s.links.optimizer.tx.length + 2 ≤ 16 := by
    unfold LinkState.freeSlots Config.txSlots
    omega
  unfold offerNotice
  dsimp only
  by_cases h : s.links.optimizer.tx.length + 2 ≤ 16
  · refine (if_pos (hroom.mpr h)).trans ?_
    simp only [State.modifyLink, LinkState.enqueue_eq, h, decide_true, if_true]
    rfl
  · refine (if_neg (mt hroom.mp h)).trans ?_
    simp only [h, decide_false, Bool.false_eq_true, if_false]
    rfl

section
variable {s : State} (hrun : s.board.line = .run) (hrev : s.tcu.reverse = false)
include hrun hrev

/-- An on-edge on a lug that carries a record marks DOUBLE (R25). -/
theorem scanEdge_double {r : Record} (h : s.trimmerAt s.tcu.serial 0 = some r) :
    scanEdge s = s.modifyTrimmer r.tag fun x => { x with flags := { x.flags with double := true } } := by
  unfold scanEdge
  rw [if_neg (by rw [hrun, hrev]; decide), h]

/-- An on-edge on an empty lug creates a record (R24). -/
theorem scanEdge_create (h : s.trimmerAt s.tcu.serial 0 = none) : scanEdge s = createScanned s := by
  unfold scanEdge
  rw [if_neg (by rw [hrun, hrev]; decide), h]

end

theorem trimmerAt_eq_none {s : State} {now : Serial} {k : Nat} (h : ∀ r ∈ s.board.trimmer, r.trimmerOffset now ≠ k) :
    s.trimmerAt now k = none :=
  List.find?_eq_none.mpr fun r hr => by simpa using h r hr

theorem repeat_eq_iterate {α : Type} (f : α → α) (k : Nat) (x : α) : Nat.repeat f k x = f^[k] x := by
  induction k with
  | zero => rfl
  | succ k ih => rw [Function.iterate_succ_apply', ← ih]; rfl

/-- The next free tag is the first from the tag counter on that no live record carries (R23). -/
theorem nextFreeTag_first (s : State) :
    ∃ k, s.nextFreeTag = tagAfter^[k] s.board.nextTag ∧ ∀ j < k, ∃ r ∈ s.live, r.tag = tagAfter^[j] s.board.nextTag := by
  obtain ⟨k, -, he, hall, -⟩ := freeTag_spec (s.live.map (·.tag)) (s.live.map (·.tag)).length s.board.nextTag
  exact ⟨k, he, fun j hj => List.mem_map.mp (hall j hj)⟩

end Sys2Proof.Machine

namespace Sys2Proof.Proofs
open Sys2Proof.Machine

/-- Settles O15: by the record at the scan line or none, and the search for the next free tag. -/
theorem scanEye : Obligations.ScanEye := by
  unfold Obligations.ScanEye
  refine ⟨fun s htaken hrun hrev => ?_, fun s hlow hhigh hlive => ?_⟩
  · have hexec : exec (.scanEyeOnEdge .on) s = .next (scanEdge (s.withPin .scan true)) := takeEdge_taken htaken scanEdge id
    rw [hexec]
    refine ⟨fun r hr => ?_, fun hempty => ?_⟩
    · rw [scanEdge_double (s := s.withPin .scan true) hrun hrev hr]
    · rw [scanEdge_create (s := s.withPin .scan true) hrun hrev (trimmerAt_eq_none hempty)]
      unfold createScanned
      dsimp only
      rw [offerNotice_eq, ← Sync.untrusted_eq]
      rfl
  · obtain ⟨hfree, hfrom, hto⟩ := State.nextFreeTag_free ⟨hlow, hhigh⟩ hlive
    obtain ⟨k, hk, hbefore⟩ := nextFreeTag_first s
    refine ⟨hfrom, hto, fun r hr he => hfree (he ▸ List.mem_map_of_mem hr), k, ?_, fun j hj => ?_⟩
    · rw [repeat_eq_iterate]
      exact hk
    · rw [repeat_eq_iterate]
      exact hbefore j hj

end Sys2Proof.Proofs
end

