-- ==== Sys2Proof/Proofs/RequestReads.lean ====
section
/-! The reads answer one frame, change nothing else, and what six of them answer (O48). -/

namespace Sys2Proof.Machine

-- One thread elaborates the many small proofs of this file.
set_option Elab.async false

/-- The requests that read and change nothing of the part. -/
def isRead : Req → Bool
  | .readRecord | .readStatus | .readBins | .readTable | .readTableTallyForm | .readSegment | .readMatrix | .readClosed => true
  | _ => false

theorem handlerOf_reads {r : Req} (hr : isRead r = true) (l : LinkId) (fields : List Byte) (s : State) : (handlerOf r l fields s).1 = s := by
  cases r
  case readRecord => exact readRecord_state l fields s
  case readStatus => exact readStatus_state l fields s
  case readBins => exact readBins_state l fields s
  case readTable => exact readTable_state l fields s
  case readTableTallyForm => exact readTable_state l fields s
  case readSegment => exact readSegment_state l fields s
  case readMatrix => exact readTally_state (·.live) l fields s
  case readClosed => exact readTally_state (·.closed) l fields s
  all_goals cases hr

theorem isRead_length {r : Req} (hr : isRead r = true) {fields : List Byte} (hform : formOk r fields = true) : fields.length ≤ 4 := by
  cases r
  case readRecord | readStatus | readBins | readTable | readTableTallyForm | readSegment | readMatrix | readClosed =>
    simp only [formOk, decide_eq_true_eq] at hform
    omega
  all_goals cases hr

/-- A ready read is answered as its handler finds the part with the request taken, and changes nothing else (R172). -/
theorem exec_read {r : Req} (hr : isRead r = true) {l : LinkId} {num : Byte} {fields : List Byte} {s : State} (hright : hasRight l r = true)
    (hform : formOk r fields = true) (h : s.Ready l (requestCode r :: num :: fields)) {a : Answer}
    (ha : (handlerOf r l fields (s.taken l)).2 = a) :
    exec (requestInstr r l num fields) s = .next (s.answered l (requestCode r :: num :: a.status.code :: a.fields)) := by
  rw [exec_requestInstr]
  exact serve_answered h ((isRead_length hr hform).trans (by decide)) hright hform (Prod.ext (handlerOf_reads hr l fields _) ha)

/-! ### What the reads answer -/

theorem taken_tally (s : State) (l : LinkId) : (s.taken l).tally = s.tally := by cases l <;> rfl

theorem taken_locate (s : State) (l : LinkId) (tag : Nat) : (s.taken l).locate tag = s.locate tag := by cases l <;> rfl

theorem fieldAt_two (hi lo : Byte) : fieldAt [hi, lo] 0 2 = 256 * hi.toNat + lo.toNat := by
  simp [fieldAt, number, List.range_succ]

theorem readRecord_some {s : State} {hi lo : Byte} {r : Record} {place : Place}
    (h : s.locate (256 * hi.toNat + lo.toNat) = some (r, place)) (l : LinkId) :
    (readRecord l [hi, lo] s).2 = { status := .ok, fields := recordBytes r place } := by
  unfold readRecord
  rw [fieldAt_two, h]

theorem readRecord_none {s : State} {hi lo : Byte} (h : s.locate (256 * hi.toNat + lo.toNat) = none) (l : LinkId) :
    (readRecord l [hi, lo] s).2 = .bare .noTag := by
  unfold readRecord
  rw [fieldAt_two, h]

theorem readSegment_answer (l : LinkId) (n first count : Byte) (s : State) :
    (readSegment l [n, first, count] s).2 =
      if n.toNat ≤ 3 ∧ 1 ≤ count.toNat ∧ count.toNat ≤ 10 ∧ first.toNat + count.toNat ≤ 256 then
        { status := .ok
          fields := flag8 (s.tally.stream.ready.getLsbD n.toNat) ++ (List.range (20 * count.toNat)).map fun i =>
            s.tally.stream.store.read (20 * (256 * n.toNat + first.toNat) + i) }
      else .bare .range := by
  have hslot : slotAddress n.toNat first.toNat = 20 * (256 * n.toNat + first.toNat) := Nat.mul_comm _ _
  unfold readSegment
  simp only [fieldAt_one, List.getElem?_cons_zero, List.getElem?_cons_succ, Option.getD_some, Config.segmentSlots]
  split
  · rw [if_neg (by omega)]
  · rw [if_pos (by omega), hslot]
    rfl

theorem readBins_answer (l : LinkId) (first count : Byte) (s : State) :
    (readBins l [first, count] s).2 =
      if 1 ≤ first.toNat ∧ first.toNat ≤ 48 ∧ 1 ≤ count.toNat ∧ count.toNat ≤ 12 ∧ first.toNat + count.toNat ≤ 49 then
        { status := .ok
          fields := ((List.range count.toNat).flatMap fun i => (s.bin (first.toNat + i)).bytes) ++ u8 s.tables.groups.reject ++
            u8 s.tables.groups.reman ++ u8 s.tables.groups.overflow }
      else .bare .range := by
  unfold readBins
  simp only [fieldAt_one, List.getElem?_cons_zero, List.getElem?_cons_succ, Option.getD_some]
  split
  · rw [if_neg (by omega)]
  · rw [if_pos (by omega)]

theorem readStatus_some {s : State} {l : LinkId} {page : Byte} {bytes : List Byte} (h : statusPage s l page.toNat = some bytes) :
    (readStatus l [page] s).2 = { status := .ok, fields := bytes } := by
  have hpage : statusPage s l (fieldAt [page] 0 1) = some bytes := by rw [fieldAt_one]; exact h
  unfold readStatus
  rw [hpage]

theorem readStatus_none {s : State} {l : LinkId} {page : Byte} (h : statusPage s l page.toNat = none) :
    (readStatus l [page] s).2 = .bare .range := by
  have hpage : statusPage s l (fieldAt [page] 0 1) = none := by rw [fieldAt_one]; exact h
  unfold readStatus
  rw [hpage]

theorem statusPage_none {s : State} {l : LinkId} {page : Nat} (h : 7 < page) : statusPage s l page = none := by
  unfold statusPage
  split <;> first | omega | rfl

theorem readTally_answer (which : TallyUnit → Tally) (l : LinkId) (part grade first count : Byte) (s : State) :
    (readTally which l [part, grade, first, count] s).2 =
      if part = 1 then { status := .ok, fields := (which s.tally).totals }
      else if part = 2 ∧ 1 ≤ grade.toNat ∧ grade.toNat ≤ 10 ∧ 1 ≤ first.toNat ∧ first.toNat ≤ 12 ∧ 1 ≤ count.toNat ∧ count.toNat ≤ 3 ∧
          first.toNat + count.toNat ≤ 13 then
        { status := .ok, fields := (which s.tally).cellsBytes grade.toNat first.toNat count.toNat }
      else .bare .range := by
  have hpart : ∀ k : Nat, k < 256 → (part = BitVec.ofNat 8 k ↔ part.toNat = k) := fun k hk => by
    rw [← BitVec.toNat_inj, BitVec.toNat_ofNat, Nat.mod_eq_of_lt hk]
  have h1 : part = 1 ↔ part.toNat = 1 := hpart 1 (by decide)
  have h2 : part = 2 ↔ part.toNat = 2 := hpart 2 (by decide)
  unfold readTally
  simp only [fieldAt_one, List.getElem?_cons_zero, List.getElem?_cons_succ, Option.getD_some, h1, h2]
  split
  · next e => rw [if_pos e]
  · next e =>
    rw [if_neg (show ¬ part.toNat = 1 by omega)]
    by_cases hrange : 1 ≤ grade.toNat ∧ grade.toNat ≤ 10 ∧ 1 ≤ first.toNat ∧ first.toNat ≤ 12 ∧ 1 ≤ count.toNat ∧ count.toNat ≤ 3 ∧
        first.toNat + count.toNat ≤ 13
    · rw [if_neg (show ¬ (_ ∨ _) by omega), if_pos ⟨e, hrange⟩]
    · rw [if_pos (show _ ∨ _ by omega), if_neg fun h => hrange h.2]
  · next hne1 hne2 => rw [if_neg hne1, if_neg fun h => hne2 h.1]

theorem Tally.totals_eq (t : Tally) :
    t.totals = u16 t.shift ++ flag8 t.saturated ++ [t.reject, t.reman, t.trash, t.runout, t.lost, t.unknown, t.miscut, t.suspect, t.value,
      t.written, t.dropped].flatMap u32 := by
  simp only [Tally.totals, List.flatMap_cons, List.flatMap_nil, List.append_nil, List.append_assoc]

end Sys2Proof.Machine

namespace Sys2Proof.Proofs
open Sys2Proof.Machine

/-- Settles O48: each read's handler leaves the state, and answers from the part as it stands with the request taken. -/
theorem reads : Obligations.Reads := by
  unfold Obligations.Reads
  refine ⟨fun i r l num fields s hr hi hright hform hready => ?_, fun num s =>
    ⟨fun l hi lo hready => ?_, fun n first count hready => ?_, fun part grade first count => ?_, fun first count hready => ?_,
      fun l page hready => ?_⟩⟩
  · have hreads : isRead r = true := by
      obtain rfl | rfl | rfl | rfl | rfl | rfl | rfl | rfl := hr <;> rfl
    exact ⟨_, _, hi ▸ exec_read hreads hright hform hready rfl⟩
  · have hexec := fun a => exec_read (r := .readRecord) rfl (fields := [hi, lo]) (a := a) (by cases l <;> decide) (by rfl) hready
    exact ⟨fun hnone => hexec (.bare .noTag) (readRecord_none (by rw [taken_locate]; exact hnone) l), fun r place hsome =>
      ⟨hexec { status := .ok, fields := recordBytes r place } (readRecord_some (by rw [taken_locate]; exact hsome) l),
        recordBytes_length r place⟩⟩
  · have hexec := exec_read (r := .readSegment) rfl (fields := [n, first, count]) (by decide) (by rfl) hready
      (readSegment_answer .tallyStation n first count _)
    refine hexec.trans ?_
    rw [taken_tally]
    split <;> rfl
  · have htally : ∀ which, (readTally which .tallyStation [part, grade, first, count] (s.taken .tallyStation)).2 = _ := fun which =>
      (readTally_answer which .tallyStation part grade first count _).trans (by rw [taken_tally, Tally.totals_eq])
    refine ⟨fun hready => ?_, fun hready => ?_⟩
    · refine (exec_read (r := .readMatrix) rfl (fields := [part, grade, first, count]) (by decide) (by rfl) hready
        (htally (·.live))).trans ?_
      split
      · rfl
      · split <;> rfl
    · refine (exec_read (r := .readClosed) rfl (fields := [part, grade, first, count]) (by decide) (by rfl) hready
        (htally (·.closed))).trans ?_
      split
      · rfl
      · split <;> rfl
  · refine (exec_read (r := .readBins) rfl (fields := [first, count]) (by decide) (by rfl) hready
      (readBins_answer .lineController first count _)).trans ?_
    simp only [taken_bin, taken_tables]
    split <;> rfl
  · have hexec := fun a => exec_read (r := .readStatus) rfl (fields := [page]) (a := a) (by cases l <;> decide) (by rfl) hready
    exact ⟨fun hpage => hexec (.bare .range) (readStatus_none (statusPage_none hpage)), fun bytes hbytes =>
      hexec { status := .ok, fields := bytes } (readStatus_some hbytes)⟩

end Sys2Proof.Proofs
end

