-- ==== Sys2Proof/Proofs/BinPlaces.lean ====
section
/-! Places in bins: a place taken or given up judges the bin's NEAR flag and raises BIN-NEAR where it rises (R132, R133). -/

namespace Sys2Proof.Machine

-- One thread elaborates the many small proofs of this file.
set_option Elab.async false

/-! ### Bins by number -/

theorem bin_outside {s : State} {n : Nat} (h : binExists n = false) : s.bin n = .powerOn := by
  have hn : n = 0 ∨ 48 < n := by
    simp only [binExists, decide_eq_false_iff_not] at h
    omega
  unfold State.bin entryD
  obtain rfl | h48 := hn
  · rfl
  · rw [if_neg (by omega), Vector.getElem?_eq_none (by omega)]
    rfl

theorem binExists_of_items {s : State} {n : Nat} {it : BinItems} (h : (s.bin n).items = some it) : binExists n = true := by
  cases hn : binExists n
  · rw [bin_outside hn] at h
    cases h
  · rfl

theorem takes_iff (s : State) (n : Nat) :
    s.takes n = true ↔ ∃ it, (s.bin n).items = some it ∧ (s.bin n).state = .opened ∧ (s.bin n).dropped + (s.bin n).reserved < it.capacity := by
  unfold State.takes BinRec.load
  split
  · next h => simp [h]
  · next it h => simp [h]

theorem binExists_of_takes {s : State} {n : Nat} (h : s.takes n = true) : binExists n = true := by
  obtain ⟨it, hit, -⟩ := (takes_iff s n).mp h
  exact binExists_of_items hit

/-- A change of a bin is a change of the sort unit. -/
theorem modifyBin_sort (s : State) (n : Nat) (f : BinRec → BinRec) : s.modifyBin n f = { s with sort := (s.modifyBin n f).sort } := by
  unfold State.modifyBin
  split <;> rfl

theorem modifyBin_counts (s : State) (n : Nat) (f : BinRec → BinRec) : (s.modifyBin n f).sort.counts = s.sort.counts := by
  unfold State.modifyBin
  split <;> rfl

/-! ### BIN-NEAR and BIN-FULL -/

theorem binCauses_none (s : State) : s.binCauses false false = s.attention := by
  simp [State.binCauses]

/-- NEAR raised after NEAR is NEAR raised by either. -/
theorem binCauses_binCauses (s : State) (a b : Bool) (x : State) (hx : x.attention = s.binCauses a false) :
    x.binCauses b false = s.binCauses (a || b) false := by
  unfold State.binCauses
  rw [hx]
  cases a <;> cases b <;> simp [State.binCauses, BitVec.or_assoc]

theorem latch_binNear (s : State) : latch .binNear s = { s with attention := s.binCauses true false } := by
  simp [latch, State.binCauses, State.setRole, Cause.role, State.role, Cause.bit, causeBit]

theorem latch_binFull (s : State) : latch .binFull s = { s with attention := s.binCauses false true } := by
  simp [latch, State.binCauses, State.setRole, Cause.role, State.role, Cause.bit, causeBit]

/-! ### NEAR judged -/

/-- The state with a bin changed and BIN-NEAR raised or not. -/
def State.rebin (s : State) (n : Nat) (f : BinRec → BinRec) (near : Bool) : State :=
  { s.modifyBin n f with attention := s.binCauses near false }

section
variable (s : State) (n : Nat) (f : BinRec → BinRec) (near : Bool)

@[simp] theorem rebin_board : (s.rebin n f near).board = s.board := (modifyBin_outside n f s).weaken.board
@[simp] theorem rebin_attention : (s.rebin n f near).attention = s.binCauses near false := rfl
@[simp] theorem rebin_counts : (s.rebin n f near).sort.counts = s.sort.counts := modifyBin_counts s n f

theorem rebin_bin (h : binExists n = true) : (s.rebin n f near).bin n = f (s.bin n) := State.modifyBin_bin s f h

theorem rebin_bin_ne {m : Nat} (h : m ≠ n) : (s.rebin n f near).bin m = s.bin m := State.modifyBin_bin_ne s f h

theorem rebin_sort : s.rebin n f near = { s with sort := (s.rebin n f near).sort, attention := s.binCauses near false } := by
  unfold State.rebin
  rw [modifyBin_sort]

end

theorem BinRec.judged_eq {b : BinRec} {near : Bool} (h : ∀ it, b.items = some it →
    ((!b.near && decide (it.hi ≤ b.load)) || (b.near && !decide (b.load ≤ it.lo))) = near) (hnone : b.items = none → b.near = near) :
    b.judged = { b with near := near } := by
  unfold BinRec.judged
  split
  · next hit => rw [← hnone hit]
  · next it hit => rw [← h it hit]; rfl

/-- Judging a bin writes its NEAR flag, and raises BIN-NEAR where it rises (R132). -/
theorem judgeNear_eq (n : Nat) (s : State) : judgeNear n s = s.rebin n BinRec.judged ((s.bin n).nearRises (s.bin n).judged) := by
  have hset : ∀ near, (s.bin n).judged = { s.bin n with near := near } →
      s.rebin n BinRec.judged ((s.bin n).nearRises (s.bin n).judged) =
        { s.modifyBin n (fun b => { b with near := near }) with attention := s.binCauses (!(s.bin n).near && near) false } := by
    intro near h
    unfold State.rebin BinRec.nearRises
    have hsame : s.modifyBin n BinRec.judged = s.modifyBin n (fun b => { b with near := near }) := modifyBin_congr h
    rw [hsame, h]
  have hkeep : (s.bin n).judged = s.bin n → s = s.rebin n BinRec.judged ((s.bin n).nearRises (s.bin n).judged) := by
    intro h
    unfold State.rebin BinRec.nearRises
    rw [modifyBin_self h, h, Bool.not_and_self, binCauses_none]
  unfold judgeNear
  dsimp only
  split
  · next hit => exact hkeep (BinRec.judged_eq (fun it h => by rw [hit] at h; cases h) fun _ => rfl)
  · next it hit =>
    have hnone : ∀ near, (s.bin n).items = none → (s.bin n).near = near := fun _ h => by rw [hit] at h; cases h
    have hsome : ∀ near, ((!(s.bin n).near && decide (it.hi ≤ (s.bin n).load)) || ((s.bin n).near && !decide ((s.bin n).load ≤ it.lo))) = near →
        (s.bin n).judged = { s.bin n with near := near } := fun near h =>
      BinRec.judged_eq (fun x hx => by rw [hit] at hx; cases hx; exact h) (hnone near)
    split
    · next hrise =>
      rw [hset true (hsome true (by simp [hrise])), latch_binNear, hrise.1]
      unfold State.binCauses
      rw [State.modifyBin_attention]
      rfl
    · next hrise =>
      split
      · next hfall =>
        rw [hset false (hsome false (by simp [hfall])), Bool.and_false, binCauses_none]
        conv_lhs => rw [modifyBin_sort]
        conv_rhs => rw [modifyBin_sort]
      · next hfall =>
        refine hkeep (hsome (s.bin n).near ?_)
        cases hnear : (s.bin n).near
        · simpa [hnear] using hrise
        · simpa [hnear] using hfall

/-- A bin's places changed and its NEAR flag judged. -/
theorem judgeNear_modifyBin {n : Nat} (hn : binExists n = true) {f : BinRec → BinRec} (hf : ∀ b, (f b).near = b.near) (s : State) :
    judgeNear n (s.modifyBin n f) = s.rebin n (fun b => (f b).judged) ((s.bin n).nearRises (f (s.bin n)).judged) := by
  rw [judgeNear_eq]
  unfold State.rebin BinRec.nearRises
  rw [modifyBin_modifyBin, State.modifyBin_bin _ _ hn, hf]
  unfold State.binCauses
  rw [State.modifyBin_attention]

/-- A place taken in a bin (R133). -/
def BinRec.promised (b : BinRec) : BinRec := ({ b with reserved := b.reserved + 1 } : BinRec).judged

/-- A place given up in a bin (R134, R139). -/
def BinRec.givenUp (b : BinRec) : BinRec := ({ b with reserved := b.reserved - 1 } : BinRec).judged

theorem takeReservation_eq {n : Nat} (hn : binExists n = true) (s : State) :
    takeReservation n s = s.rebin n BinRec.promised ((s.bin n).nearRises (s.bin n).promised) :=
  judgeNear_modifyBin hn (by intro; rfl) s

theorem releaseReservation_eq {n : Nat} (hn : binExists n = true) (s : State) :
    releaseReservation n s = s.rebin n BinRec.givenUp ((s.bin n).nearRises (s.bin n).givenUp) := by
  have h0 : n ≠ 0 := fun h => by rw [h] at hn; cases hn
  unfold releaseReservation
  rw [if_neg h0]
  exact judgeNear_modifyBin hn (by intro; rfl) s

end Sys2Proof.Machine
end

