-- ==== Sys2Proof/Proofs/PickupAllocation.lean ====
section
/-! A pickup moves the head of the transfer queue to the sorter or creates an UNKNOWN record, and allocates it a bin (O16). -/

namespace Sys2Proof.Machine

-- One thread elaborates the many small proofs of this file.
set_option Elab.async false

theorem mapTag_append_new {tag : Nat} {rs : List Record} (h : ∀ x ∈ rs, x.tag ≠ tag) {r : Record} (hr : r.tag = tag) (f : Record → Record) :
    mapTag tag f (rs ++ [r]) = rs ++ [f r] := by
  have hrest : rs.map (fun x => if x.tag = tag then f x else x) = rs :=
    (List.map_congr_left fun x hx => if_neg (h x hx)).trans (List.map_id rs)
  unfold mapTag
  rw [List.map_append, hrest, List.map_singleton, if_pos hr]

/-- The bin of a record allocated in a state (R133, R36). -/
def State.allotted (s : State) (key : ProductKey) (suspect : Bool) : Nat :=
  if suspect then 0 else ((s.routeBins (s.routeKind key)).find? fun b => s.takes b).getD 0

theorem allotted_exists {s : State} {key : ProductKey} {suspect : Bool} (h : s.allotted key suspect ≠ 0) :
    binExists (s.allotted key suspect) = true := by
  unfold State.allotted at h ⊢
  cases suspect
  · cases hfind : (s.routeBins (s.routeKind key)).find? fun b => s.takes b with
    | none => rw [hfind] at h; exact absurd rfl h
    | some b => exact binExists_of_takes (List.find?_some hfind)
  · exact absurd rfl h

/-- A record as it stands on the sorter, its bin allocated. -/
def Record.allotted (r : Record) (serial : Serial) (suspect : Bool) (route : RouteKind) (bin : Nat) : Record :=
  { r with sorterSerial := some serial, life := .onSorter, flags := { r.flags with suspect := suspect },
           sort := some { key := productKey r, route := route, bin := bin, firstBin := bin, result := if suspect then .passed else .none,
                          attempts := 0 } }

/-- What placing a record on the sorter leaves (R32, R33, R36, R133). -/
structure Allotted (r : Record) (s t : State) (suspect : Bool) (bin : Nat) : Prop where
  state : t = { s with
    board := { s.board with sorter := s.board.sorter ++ [r.allotted s.scu.serial suspect (s.routeKind (productKey r)) bin] }
    sort := t.sort
    attention := s.binCauses (decide (bin ≠ 0) && (s.bin bin).nearRises (s.bin bin).promised) false }
  counts : t.sort.counts = countAllocation s (s.routeKind (productKey r)) bin s.sort.counts
  promised : bin ≠ 0 → t.bin bin = (s.bin bin).promised
  others : ∀ n, 1 ≤ n → n ≤ 48 → n ≠ bin → t.bin n = s.bin n

/-- A record with a tag of its own is placed on the sorter lug at offset 0 and allocated a bin. -/
theorem placeOnSorter_allotted {r : Record} {s : State} (hfresh : ∀ x ∈ s.board.sorter, x.tag ≠ r.tag) :
    Allotted r s (placeOnSorter r s) (r.flags.suspect || s.scu.sync.untrusted)
      (s.allotted (productKey r) (r.flags.suspect || s.scu.sync.untrusted)) := by
  set suspect := r.flags.suspect || s.scu.sync.untrusted
  set bin := s.allotted (productKey r) suspect with hbin
  set counted : State := { s with
    board := { s.board with sorter := s.board.sorter ++ [r.allotted s.scu.serial suspect (s.routeKind (productKey r)) bin] }
    sort := { s.sort with counts := countAllocation s (s.routeKind (productKey r)) bin s.sort.counts } } with hcounted
  have hplace : placeOnSorter r s = if bin = 0 then counted else takeReservation bin counted := by
    unfold placeOnSorter allocate
    dsimp only
    unfold State.modifySorter
    dsimp only
    rw [mapTag_append_new hfresh (by rfl)]
    rfl
  by_cases h0 : bin = 0
  · rw [hplace, if_pos h0]
    refine ⟨?_, rfl, fun h => absurd h0 h, fun _ _ _ _ => rfl⟩
    rw [h0]
    simp only [ne_eq, not_true_eq_false, decide_false, Bool.false_and, binCauses_none]
    rw [hcounted, h0]
  · have hexists : binExists bin = true := allotted_exists h0
    rw [hplace, if_neg h0, takeReservation_eq hexists]
    refine ⟨?_, by rw [rebin_counts], fun _ => rebin_bin _ _ _ _ hexists, fun n _ _ hn => rebin_bin_ne _ _ _ _ hn⟩
    rw [decide_eq_true h0, Bool.true_and]
    exact rebin_sort counted bin _ _

section
variable {s : State} (hrun : s.board.line = .run) (hrev : s.scu.reverse = false)
  (hempty : ∀ r ∈ s.board.sorter, r.sorterOffset s.scu.serial ≠ 0)
include hrun hrev hempty

theorem not_pickupIgnored : ¬ (s.board.line = .config ∨ s.scu.reverse = true ∨ (s.sorterAt s.scu.serial 0).isSome = true) := by
  have hat : s.sorterAt s.scu.serial 0 = none := List.find?_eq_none.mpr fun r hr => by simpa using hempty r hr
  rw [hrun, hrev, hat]
  decide

/-- A pickup takes the head of the transfer queue (R32). -/
theorem pickupEdge_head {head : Waiting} {rest : List Waiting} (h : s.board.transfer = head :: rest) :
    pickupEdge s = placeOnSorter head.board { s with board := { s.board with transfer := rest } } := by
  unfold pickupEdge
  rw [if_neg (not_pickupIgnored hrun hrev hempty), h]

/-- A pickup with the transfer queue empty creates a record (R33). -/
theorem pickupEdge_unknown (h : s.board.transfer = []) : pickupEdge s = createUnknown s := by
  unfold pickupEdge
  rw [if_neg (not_pickupIgnored hrun hrev hempty), h]

end

/-- An event raised does not read the board or the inputs' levels. -/
theorem raiseEvent_withBoard (k : EventKind) (c : Option Chain) (n d : Nat) (s : State) (pins : Inputs) (board : BoardMap) :
    raiseEvent k c n d { s with pins := pins, board := board } =
      { s with pins := pins, board := board, events := (raiseEvent k c n d s).events, attention := (raiseEvent k c n d s).attention } := by
  unfold raiseEvent
  dsimp only
  split
  · rfl
  · rfl

end Sys2Proof.Machine

namespace Sys2Proof.Proofs
open Sys2Proof.Machine

/-- Settles O16: whether the transfer queue gives the record or it is created, it is placed as `Allotted` says. -/
theorem pickupAllocates : Obligations.PickupAllocates := by
  unfold Obligations.PickupAllocates
  intro s htaken hrun hrev hempty
  have hexec : exec (.pickupEyeOnEdge .on) s = .next (pickupEdge (s.withPin .pickup true)) := takeEdge_taken htaken pickupEdge id
  rw [hexec]
  refine ⟨fun head rest hq hfresh => ⟨_, rfl, ?_⟩, fun hq hfresh => ⟨rfl, _, rfl, ?_⟩⟩
  · rw [pickupEdge_head (s := s.withPin .pickup true) hrun hrev hempty hq]
    obtain ⟨hstate, hcounts, hbin, hothers⟩ := placeOnSorter_allotted (r := head.board)
      (s := { s.withPin .pickup true with board := { s.board with transfer := rest } }) hfresh
    rw [Sync.untrusted_eq] at hstate hcounts hbin hothers
    exact ⟨hstate, hcounts, hbin, hothers⟩
  · have hcreate : createUnknown (s.withPin .pickup true) = placeOnSorter (newRecord s.nextFreeTag .unknown s.tcu.serial .onSorter false)
        { s.withPin .pickup true with
          board := { s.board with nextTag := tagAfter s.nextFreeTag }
          events := (raiseEvent .boardUnknown (some .sorter) s.nextFreeTag 0 s).events
          attention := (raiseEvent .boardUnknown (some .sorter) s.nextFreeTag 0 s).attention } :=
      congrArg (placeOnSorter _) (raiseEvent_withBoard .boardUnknown (some .sorter) s.nextFreeTag 0 s _ _)
    rw [pickupEdge_unknown (s := s.withPin .pickup true) hrun hrev hempty hq, hcreate]
    obtain ⟨hstate, hcounts, hbin, hothers⟩ := placeOnSorter_allotted (r := newRecord s.nextFreeTag .unknown s.tcu.serial .onSorter false)
      (s := { s.withPin .pickup true with
          board := { s.board with nextTag := tagAfter s.nextFreeTag }
          events := (raiseEvent .boardUnknown (some .sorter) s.nextFreeTag 0 s).events
          attention := (raiseEvent .boardUnknown (some .sorter) s.nextFreeTag 0 s).attention }) hfresh
    rw [Sync.untrusted_eq] at hstate hcounts hbin hothers
    exact ⟨hstate, hcounts, hbin, hothers⟩

end Sys2Proof.Proofs
end

