-- ==== Sys2Proof/Proofs/DropLines.lean ====
section
/-! What the sorter lines do for the record of a tag (O14): it retires at the runout line, and at the drop line of its bin it passes, is
re-routed, or the gate fires. -/

namespace Sys2Proof.Machine

-- One thread elaborates the many small proofs of this file.
set_option Elab.async false

/-! ### Records by tag -/

theorem byTag_mapTag {tag : Nat} {rs : List Record} {r : Record} (h : byTag rs tag = some r) {f : Record → Record} (hf : ∀ x, (f x).tag = x.tag) :
    byTag (mapTag tag f rs) tag = some (f r) := by
  induction rs with
  | nil => cases h
  | cons x rest ih =>
    unfold byTag mapTag at *
    by_cases hx : x.tag = tag
    · have hr : x = r := by simpa [hx] using h
      simp [hx, hf, hr.symm]
    · have hrest : rest.find? (fun y => y.tag = tag) = some r := by simpa [hx] using h
      simpa [hx] using ih hrest

theorem dropTag_mapTag (tag : Nat) {f : Record → Record} (hf : ∀ x, (f x).tag = x.tag) (rs : List Record) :
    dropTag tag (mapTag tag f rs) = dropTag tag rs := by
  induction rs with
  | nil => rfl
  | cons x rest ih =>
    unfold dropTag mapTag at *
    by_cases hx : x.tag = tag
    · simpa [hx, hf] using ih
    · simpa [hx] using ih

theorem mapTag_mapTag (tag : Nat) {f g : Record → Record} (hg : ∀ x, (g x).tag = x.tag) (rs : List Record) :
    mapTag tag f (mapTag tag g rs) = mapTag tag (fun x => f (g x)) rs := by
  unfold mapTag
  rw [List.map_map]
  refine List.map_congr_left fun x _ => ?_
  by_cases hx : x.tag = tag
  · simp [hx, hg]
  · simp [hx]

/-! ### A record handed to the tally -/

/-- The tally unit reads neither the boards nor the bins. -/
theorem handToTally_withSort (r : Record) (f : Fate) (s : State) (board : BoardMap) (sort : SortUnit) :
    handToTally r f { s with board := board, sort := sort } = { handToTally r f s with board := board, sort := sort } := by
  have hu := handToTally_outside r f { s with board := board, sort := sort }
  have hs := handToTally_outside r f s
  have hsame := SameReports.handToTally (s := { s with board := board, sort := sort }) (t := s) ⟨rfl, rfl, rfl, rfl⟩ r f
  exact State.eq_of_parts ((hu.pins rfl).trans (hs.pins rfl).symm) ((hu.standing rfl).trans (hs.standing rfl).symm)
    ((hu.timebase rfl).trans (hs.timebase rfl).symm) ((hu.tcu rfl).trans (hs.tcu rfl).symm) ((hu.scu rfl).trans (hs.scu rfl).symm)
    hu.weaken.board ((hu.gradingA rfl).trans (hs.gradingA rfl).symm) ((hu.gradingB rfl).trans (hs.gradingB rfl).symm)
    ((hu.decision rfl).trans (hs.decision rfl).symm) ((hu.saws rfl).trans (hs.saws rfl).symm) (hu.sort rfl) hsame.tally hsame.events
    hsame.attention ((hu.links rfl).trans (hs.links rfl).symm) ((hu.tables rfl).trans (hs.tables rfl).symm)
    ((hu.pending rfl).trans (hs.pending rfl).symm)

/-! ### The runout line (R34, R37) -/

theorem BinRec.judged_pending (b : BinRec) : b.judged.pending = b.pending := by
  unfold BinRec.judged
  split <;> rfl

/-- What retiring a sorter record leaves: its place given up, its pending drop with it, and its fate with the tally. -/
theorem retireFromSorter_eq {r : Record} {bin : Nat} (hbin : r.heldBin = bin) (hn : binExists bin = true) (f : Fate) (s : State) :
    let t := retireFromSorter r f s
    let base : State := { s with attention := s.binCauses ((s.bin bin).nearRises (s.bin bin).givenUp) false }
    t = { handToTally r f base with board := { s.board with sorter := dropTag r.tag s.board.sorter }, sort := t.sort } ∧
    t.sort.counts = s.sort.counts ∧ (∀ n, n ≠ bin → t.bin n = s.bin n) ∧
    t.bin bin = { (s.bin bin).givenUp with pending := (s.bin bin).pending.filter fun e => e.tag != r.tag } := by
  have h0 : bin ≠ 0 := fun h => by rw [h] at hn; cases hn
  set u := (s.rebin bin BinRec.givenUp ((s.bin bin).nearRises (s.bin bin).givenUp)).modifyBin bin fun b =>
    { b with pending := b.pending.filter fun e => !decide (e.tag = r.tag) } with hu
  have hsplit : u = { s with sort := u.sort, attention := s.binCauses ((s.bin bin).nearRises (s.bin bin).givenUp) false } := by
    rw [hu, modifyBin_sort, rebin_sort]
  have ht : retireFromSorter r f s = handToTally r f (u.leaveSorter r.tag) := by
    unfold retireFromSorter
    dsimp only
    rw [hbin, releaseReservation_eq hn]
  have heq : handToTally r f (u.leaveSorter r.tag) =
      { handToTally r f { s with attention := s.binCauses ((s.bin bin).nearRises (s.bin bin).givenUp) false } with
        board := { s.board with sorter := dropTag r.tag s.board.sorter }, sort := u.sort } := by
    rw [hsplit]
    exact handToTally_withSort r f { s with attention := s.binCauses ((s.bin bin).nearRises (s.bin bin).givenUp) false } _ _
  dsimp only
  rw [ht, heq]
  refine ⟨rfl, ?_, fun n hne => ?_, ?_⟩
  · exact (modifyBin_counts _ _ _).trans (rebin_counts _ _ _ _)
  · exact (State.modifyBin_bin_ne _ _ hne).trans (rebin_bin_ne _ _ _ _ hne)
  · refine (State.modifyBin_bin _ _ hn).trans ?_
    rw [rebin_bin _ _ _ _ hn]
    unfold BinRec.givenUp
    rw [BinRec.judged_pending]
    rfl

/-- A record with no bin retires. -/
theorem retireFromSorter_binless {r : Record} (hbin : r.heldBin = 0) (f : Fate) (s : State) :
    retireFromSorter r f s = { handToTally r f s with board := { s.board with sorter := dropTag r.tag s.board.sorter }, sort := s.sort } := by
  unfold retireFromSorter
  rw [hbin]
  exact handToTally_withSort r f s _ _

/-! ### The drop line (R134 to R137, R139) -/

theorem afterBin_eq (bin : Nat) (l : List Nat) : afterBin bin l = (l.dropWhile fun b => b != bin).drop 1 := by
  induction l with
  | nil => rfl
  | cons b rest ih =>
    by_cases h : b = bin
    · simp [afterBin, h]
    · simp [afterBin, h, ih]

/-- A bin can take a record that stands above its drop line (R139). -/
def State.fitsBelow (s : State) (off b : Nat) : Bool := s.takes b && (s.dropOffset b).any fun d => decide (off < d)

theorem rerouteBin_eq (s : State) (p : SortPart) (off : Nat) :
    s.rerouteBin p off = ((afterBin p.bin (s.routeBins p.route)).find? (s.fitsBelow off)).getD 0 := by
  unfold State.rerouteBin
  refine congrArg (fun f => (List.find? f _).getD 0) (funext fun b => ?_)
  unfold State.fitsBelow
  cases s.dropOffset b <;> rfl

/-- A bin that a re-route finds is another bin, further down. -/
theorem rerouteBin_spec {s : State} {p : SortPart} {off : Nat} (h : s.rerouteBin p off ≠ 0) :
    binExists (s.rerouteBin p off) = true ∧ ∀ it, (s.bin (s.rerouteBin p off)).items = some it → off < it.drop := by
  rw [rerouteBin_eq] at h ⊢
  cases hfind : (afterBin p.bin (s.routeBins p.route)).find? (s.fitsBelow off) with
  | none => rw [hfind] at h; exact absurd rfl h
  | some b =>
    have hfits : s.fitsBelow off b = true := List.find?_some hfind
    obtain ⟨htakes, hdrop⟩ := Bool.and_eq_true_iff.mp hfits
    refine ⟨binExists_of_takes htakes, fun it hit => ?_⟩
    unfold State.dropOffset at hdrop
    rw [Option.getD_some] at hit
    rw [hit] at hdrop
    exact of_decide_eq_true hdrop

/-! ### Nothing but the sorter map, the bins and the attention flags -/

/-- Only the sorter map, the sort unit and the attention flags change. -/
def State.Quiet (s t : State) : Prop :=
  t = { s with board := { s.board with sorter := t.board.sorter }, sort := t.sort, attention := t.attention }

theorem State.Quiet.trans {s t u : State} (h : s.Quiet t) (k : t.Quiet u) : s.Quiet u := by
  unfold State.Quiet at h k
  rw [h] at k
  exact k

section
variable (s : State)

theorem rebin_quiet (n : Nat) (f : BinRec → BinRec) (near : Bool) : s.Quiet (s.rebin n f near) := by
  unfold State.Quiet
  rw [rebin_board]
  exact rebin_sort s n f near

theorem modifyBin_quiet (n : Nat) (f : BinRec → BinRec) : s.Quiet (s.modifyBin n f) := by
  unfold State.Quiet
  rw [State.modifyBin_board, State.modifyBin_attention]
  exact modifyBin_sort s n f

theorem modifySorter_quiet (tag : Nat) (f : Record → Record) : s.Quiet (s.modifySorter tag f) := rfl

theorem modifySortCounts_quiet (f : SortCounts → SortCounts) : s.Quiet (s.modifySortCounts f) := rfl

end

theorem binCauses_of_attention {s t : State} (h : t.attention = s.attention) (near full : Bool) : t.binCauses near full = s.binCauses near full := by
  unfold State.binCauses
  rw [h]

/-! ### Re-routes (R139) -/

/-- The record moved to a bin, or to none, further down (R139). -/
def Record.movedTo (bin : Nat) (x : Record) : Record :=
  { x with sort := x.sort.map fun q => { q with bin := bin }, flags := { x.flags with rerouted := true } }

/-- What a re-route leaves (R139). -/
structure Rerouted (r : Record) (s t : State) (bin new : Nat) : Prop where
  quiet : s.Quiet t
  sorter : t.board.sorter = mapTag r.tag (Record.movedTo new) s.board.sorter
  attention : t.attention = s.binCauses ((s.bin bin).nearRises (s.bin bin).givenUp ||
    (decide (new ≠ 0) && (s.bin new).nearRises (s.bin new).promised)) false
  moved : new ≠ 0 → new ≠ bin ∧ t.bin new = (s.bin new).promised
  given : t.bin bin = (s.bin bin).givenUp
  others : ∀ n, n ≠ bin → n ≠ new → t.bin n = s.bin n
  counts : t.sort.counts = { s.sort.counts with reroutes := inc32 s.sort.counts.reroutes }

theorem reroute_rerouted {r : Record} {p : SortPart} {s : State} {it : BinItems} (hp : r.sort = some p) (hit : (s.bin p.bin).items = some it) :
    Rerouted r s (reroute r it.drop s) p.bin (s.rerouteBin p it.drop) := by
  have hn := binExists_of_items hit
  have hspec := rerouteBin_spec (s := s) (p := p) (off := it.drop)
  unfold reroute
  rw [hp]
  dsimp only
  rw [releaseReservation_eq hn]
  generalize s.rerouteBin p it.drop = new at hspec ⊢
  generalize hrises : (s.bin p.bin).nearRises (s.bin p.bin).givenUp = rises
  have hquiet := rebin_quiet s p.bin BinRec.givenUp rises
  have hboard := rebin_board s p.bin BinRec.givenUp rises
  have hgiven := rebin_bin s p.bin BinRec.givenUp rises hn
  have hothers := fun n hne => rebin_bin_ne s p.bin BinRec.givenUp rises (m := n) hne
  have hcounts := rebin_counts s p.bin BinRec.givenUp rises
  have hattention := rebin_attention s p.bin BinRec.givenUp rises
  generalize s.rebin p.bin BinRec.givenUp rises = given at hquiet hboard hgiven hothers hcounts hattention ⊢
  have hsorter : ∀ {u : State}, u.board = s.board → mapTag r.tag (Record.movedTo new) u.board.sorter =
      mapTag r.tag (Record.movedTo new) s.board.sorter := fun h => by rw [h]
  have hreroutes : ∀ {u : State}, u.sort.counts = s.sort.counts →
      ({ u.sort.counts with reroutes := inc32 u.sort.counts.reroutes } : SortCounts) =
        { s.sort.counts with reroutes := inc32 s.sort.counts.reroutes } := fun h => by rw [h]
  by_cases h0 : new = 0
  · rw [if_pos h0]
    refine ⟨(hquiet.trans (modifySorter_quiet _ _ _)).trans (modifySortCounts_quiet _ _), hsorter hboard, ?_, fun h => absurd h0 h,
      hgiven, fun n hne _ => hothers n hne, hreroutes hcounts⟩
    rw [decide_eq_false (not_not.mpr h0), Bool.false_and, Bool.or_false, hrises]
    exact hattention
  · obtain ⟨hnew, hbelow⟩ := hspec h0
    have hne : new ≠ p.bin := fun h => by
      rw [h] at hbelow
      exact Nat.lt_irrefl _ (hbelow it hit)
    rw [if_neg h0, takeReservation_eq hnew, hothers new hne]
    generalize hmore : (s.bin new).nearRises (s.bin new).promised = more
    refine ⟨((hquiet.trans (rebin_quiet given new BinRec.promised more)).trans (modifySorter_quiet _ _ _)).trans (modifySortCounts_quiet _ _),
      hsorter ((rebin_board given new BinRec.promised more).trans hboard), ?_, fun _ => ⟨hne, ?_⟩, ?_, fun n h1 h2 => ?_,
      hreroutes ((rebin_counts given new BinRec.promised more).trans hcounts)⟩
    · rw [decide_eq_true h0, Bool.true_and, hrises, hmore]
      exact binCauses_binCauses s rises more given hattention
    · exact (rebin_bin given new BinRec.promised more hnew).trans (by rw [hothers new hne])
    · exact (rebin_bin_ne given new BinRec.promised more hne.symm).trans hgiven
    · exact (rebin_bin_ne given new BinRec.promised more h2).trans (hothers n h1)

/-! ### Fires and drops (R135, R136) -/

theorem fireGate_quiet (r : Record) (bin : Nat) (s : State) : s.Quiet (fireGate r bin s) := by
  unfold fireGate
  exact ((modifyBin_quiet s bin _).trans (modifySorter_quiet _ _ _)).trans (modifySortCounts_quiet _ _)

/-- One attempt more counted in a sort part (R135). -/
def Record.attempted (x : Record) : Record := x.mapSort fun p => { p with attempts := p.attempts + 1 }

/-- A bin whose gate has fired (R135). -/
def BinRec.fired (b : BinRec) : BinRec := { b with gateOpen := true, pulse := some 0 }

section
variable (r : Record) (bin : Nat) (s : State)

theorem fireGate_sorter : (fireGate r bin s).board.sorter = mapTag r.tag Record.attempted s.board.sorter := by
  change mapTag r.tag Record.attempted (s.modifyBin bin _).board.sorter = _
  rw [State.modifyBin_board]

theorem fireGate_attention : (fireGate r bin s).attention = s.attention := (fireGate_outside r bin s).attention rfl

theorem fireGate_counts : (fireGate r bin s).sort.counts = { s.sort.counts with fires := inc32 s.sort.counts.fires } :=
  congrArg (fun c : SortCounts => { c with fires := inc32 c.fires }) (modifyBin_counts s bin _)

theorem fireGate_bin {bin : Nat} (hn : binExists bin = true) : (fireGate r bin s).bin bin = (s.bin bin).fired := State.modifyBin_bin s _ hn

theorem fireGate_bin_ne {bin n : Nat} (hne : n ≠ bin) : (fireGate r bin s).bin n = s.bin n := State.modifyBin_bin_ne s _ hne

end

/-- A bin after a drop into it (R136). -/
def BinRec.dropTaken (b : BinRec) : BinRec := { b with dropped := b.dropped + 1, reserved := b.reserved - 1 }

/-- An OPEN bin after a drop into it, FULL where the drop fills it (R136). -/
def BinRec.filled (full : Bool) (b : BinRec) : BinRec := { b.dropTaken with state := if full then .full else .opened }

/-- A drop into an OPEN bin makes it FULL at capacity, and raises BIN-FULL. -/
theorem makeFull_dropTaken {bin : Nat} {s : State} (hopen : (s.bin bin).state = .opened) (full : Bool) :
    (if full = true then makeFull bin (s.modifyBin bin BinRec.dropTaken) else s.modifyBin bin BinRec.dropTaken) =
      { s.modifyBin bin (BinRec.filled full) with attention := s.binCauses false full } := by
  cases full
  · have hsame : s.modifyBin bin BinRec.dropTaken = s.modifyBin bin (BinRec.filled false) := modifyBin_congr (by
      unfold BinRec.filled BinRec.dropTaken
      rw [hopen]
      rfl)
    rw [if_neg (by decide), hsame, binCauses_none]
    conv_lhs => rw [modifyBin_sort]
    conv_rhs => rw [modifyBin_sort]
  · rw [if_pos rfl]
    unfold makeFull
    rw [modifyBin_modifyBin, latch_binFull, binCauses_of_attention (State.modifyBin_attention s bin _)]
    rfl

/-- What completing a drop into an OPEN bin leaves: it is FULL at capacity with BIN-FULL raised, and the record retires. -/
theorem completeDrop_opened {bin : Nat} {s : State} {it : BinItems} (hit : (s.bin bin).items = some it)
    (hopen : (s.bin bin).state = .opened) (r : Record) :
    let t := completeDrop r bin s
    let full := decide (it.capacity ≤ (s.bin bin).dropped + 1)
    let dropped := r.mapSort fun p => { p with result := .dropped }
    t = { handToTally dropped (dropFate ((dropped.sort.map (·.route)).getD .nowhere)) { s with attention := s.binCauses false full } with
      board := { s.board with sorter := dropTag r.tag s.board.sorter }, sort := t.sort } ∧
    t.sort.counts = s.sort.counts ∧ (∀ n, n ≠ bin → t.bin n = s.bin n) ∧ t.bin bin = (s.bin bin).filled full := by
  have hn := binExists_of_items hit
  intro t full dropped
  have htaken : (s.modifyBin bin fun b => { b with dropped := b.dropped + 1, reserved := b.reserved - 1 }).bin bin = (s.bin bin).dropTaken :=
    State.modifyBin_bin s _ hn
  have hfull : ((s.bin bin).dropTaken.state = .opened ∧ it.capacity ≤ (s.bin bin).dropTaken.dropped) ↔ full = true :=
    ⟨fun h => decide_eq_true h.2, fun h => ⟨hopen, of_decide_eq_true h⟩⟩
  have ht : t = handToTally dropped (dropFate ((dropped.sort.map (·.route)).getD .nowhere))
      (State.leaveSorter { s.modifyBin bin (BinRec.filled full) with attention := s.binCauses false full } r.tag) := by
    rw [← makeFull_dropTaken hopen full]
    change completeDrop r bin s = _
    unfold completeDrop
    dsimp only
    rw [htaken, show (s.bin bin).dropTaken.items = some it from hit]
    dsimp only
    simp only [hfull]
    rfl
  have heq : t = { handToTally dropped (dropFate ((dropped.sort.map (·.route)).getD .nowhere)) { s with attention := s.binCauses false full } with
      board := { s.board with sorter := dropTag r.tag s.board.sorter }, sort := (s.modifyBin bin (BinRec.filled full)).sort } := by
    rw [ht, ← handToTally_withSort]
    unfold State.leaveSorter
    conv_lhs => rw [modifyBin_sort]
  rw [heq]
  exact ⟨rfl, modifyBin_counts s bin _, fun n hne => State.modifyBin_bin_ne s _ hne, State.modifyBin_bin s _ hn⟩

/-! ### A sorter line by its cases (R34, R134) -/

section
variable {now : Serial} {tag : Nat} {r : Record} {s : State} (hr : byTag s.board.sorter tag = some r)
include hr

theorem sorterLine_runout (h : r.sorterOffset now = s.tables.station.runout) : sorterLine now tag s = retireFromSorter r .runout s := by
  unfold sorterLine
  rw [hr]
  exact if_pos h

variable (h : r.sorterOffset now ≠ s.tables.station.runout)
include h

theorem sorterLine_drop (hlife : r.life = .onSorter) (hheld : r.heldBin ≠ 0) (hdrop : s.dropOffset r.heldBin = some (r.sorterOffset now)) :
    sorterLine now tag s = dropLine r r.heldBin (r.sorterOffset now) s := by
  unfold sorterLine
  rw [hr]
  exact (if_neg h).trans (if_pos ⟨hlife, hheld, hdrop⟩)

theorem sorterLine_stays (hstay : ¬ (r.life = .onSorter ∧ r.heldBin ≠ 0 ∧ s.dropOffset r.heldBin = some (r.sorterOffset now))) :
    sorterLine now tag s = s := by
  unfold sorterLine
  rw [hr]
  exact (if_neg h).trans (if_neg hstay)

end

/-! ### The drop line by its cases (R134) -/

section
variable {r : Record} {bin off : Nat} {s : State} {it : BinItems}

/-- A SUSPECT record that has passed its bin (R36). -/
def Record.passed (x : Record) : Record := x.mapSort fun p => { p with bin := 0, result := .passed }

/-- A SUSPECT record gives up its place and passes. -/
theorem dropLine_passes (hn : binExists bin = true) (hs : r.flags.suspect = true) :
    let t := dropLine r bin off s
    s.Quiet t ∧ t.board.sorter = mapTag r.tag Record.passed s.board.sorter ∧ t.bin bin = (s.bin bin).givenUp ∧
    (∀ n, n ≠ bin → t.bin n = s.bin n) ∧ t.attention = s.binCauses ((s.bin bin).nearRises (s.bin bin).givenUp) false ∧
    t.sort.counts = { s.sort.counts with suspectPasses := inc32 s.sort.counts.suspectPasses } := by
  unfold dropLine
  dsimp only
  rw [if_pos hs, releaseReservation_eq hn]
  generalize (s.bin bin).nearRises (s.bin bin).givenUp = rises
  refine ⟨((rebin_quiet s bin _ rises).trans (modifySorter_quiet _ _ _)).trans (modifySortCounts_quiet _ _),
    congrArg (fun b : BoardMap => mapTag r.tag Record.passed b.sorter) (rebin_board s bin BinRec.givenUp rises), rebin_bin s bin _ rises hn,
    fun n hne => rebin_bin_ne s bin _ rises hne, rfl,
    congrArg (fun c : SortCounts => { c with suspectPasses := inc32 c.suspectPasses }) (rebin_counts s bin BinRec.givenUp rises)⟩

variable (hit : (s.bin bin).items = some it) (hs : r.flags.suspect = false)
include hit hs

/-- A bin that is not OPEN or holds 4 pending drops sends the record on (R134, R138). -/
theorem dropLine_reroute (h : (s.bin bin).state ≠ .opened ∨ (it.confirm && decide (4 ≤ (s.bin bin).pending.length)) = true) :
    dropLine r bin off s = reroute r off (s.modifySortCounts fun c => { c with
      pendingFull := if (s.bin bin).state = .opened then inc32 c.pendingFull else c.pendingFull }) := by
  unfold dropLine
  dsimp only
  rw [if_neg (by rw [hs]; decide), hit]
  by_cases hopen : (s.bin bin).state = .opened
  · have hholds : (it.confirm && decide (4 ≤ (s.bin bin).pending.length)) = true := h.resolve_left (not_not.mpr hopen)
    rw [Bool.and_eq_true, decide_eq_true_eq] at hholds
    rw [if_neg (not_not.mpr hopen)]
    refine (if_pos hholds).trans ?_
    simp only [hopen, if_true]
  · rw [if_pos hopen]
    simp only [hopen, if_false]
    rfl

variable (hopen : (s.bin bin).state = .opened) (hholds : (it.confirm && decide (4 ≤ (s.bin bin).pending.length)) = false)
include hopen hholds

theorem dropLine_fire : dropLine r bin off s =
    if it.confirm = true then
      ((fireGate r bin s).modifySorter r.tag fun x => { x with life := .dropping }).modifyBin bin fun b =>
        { b with pending := b.pending ++ [{ tag := r.tag, elapsed := 0 }] }
    else ((byTag (fireGate r bin s).board.sorter r.tag).map fun x => completeDrop x bin (fireGate r bin s)).getD (fireGate r bin s) := by
  have hroom : ¬ (it.confirm = true ∧ Config.pendingSlots ≤ (s.bin bin).pending.length) := by
    rw [← decide_eq_true_eq (p := Config.pendingSlots ≤ _), ← Bool.and_eq_true]
    exact ne_true_of_eq_false hholds
  unfold dropLine
  dsimp only
  rw [if_neg (by rw [hs]; decide), hit, if_neg (not_not.mpr hopen)]
  refine (if_neg hroom).trans ?_
  refine if_congr Iff.rfl rfl ?_
  cases byTag (fireGate r bin s).board.sorter r.tag <;> rfl

/-- A bin in a confirm mode holds the drop pending (R135). -/
theorem dropLine_pending (hconfirm : it.confirm = true) :
    let t := dropLine r bin off s
    s.Quiet t ∧ t.attention = s.attention ∧
    t.board.sorter = mapTag r.tag (fun x => { x.attempted with life := .dropping }) s.board.sorter ∧
    t.bin bin = { s.bin bin with
      gateOpen := true, pulse := some 0, pending := (s.bin bin).pending ++ [{ tag := r.tag, elapsed := 0 }] } ∧
    (∀ n, n ≠ bin → t.bin n = s.bin n) ∧ t.sort.counts = { s.sort.counts with fires := inc32 s.sort.counts.fires } := by
  have hn := binExists_of_items hit
  rw [dropLine_fire hit hs hopen hholds, if_pos hconfirm]
  refine ⟨((fireGate_quiet r bin s).trans (modifySorter_quiet _ _ _)).trans (modifyBin_quiet _ _ _), ?_, ?_, ?_, fun n hne => ?_, ?_⟩
  · exact (State.modifyBin_attention _ _ _).trans (fireGate_attention r bin s)
  · rw [State.modifyBin_board]
    change mapTag r.tag _ (fireGate r bin s).board.sorter = _
    rw [fireGate_sorter, mapTag_mapTag _ (by intro; rfl)]
  · refine (State.modifyBin_bin _ _ hn).trans ?_
    rw [show (State.modifySorter (fireGate r bin s) r.tag _).bin bin = (s.bin bin).fired from fireGate_bin r s hn]
    rfl
  · exact (State.modifyBin_bin_ne _ _ hne).trans (fireGate_bin_ne r s hne)
  · exact (modifyBin_counts _ _ _).trans (fireGate_counts r bin s)

/-- A bin in mode NONE takes the drop at once (R137). -/
theorem dropLine_drop (hconfirm : it.confirm = false) (hr : byTag s.board.sorter r.tag = some r) {p : SortPart} (hp : r.sort = some p) :
    let t := dropLine r bin off s
    let full := decide (it.capacity ≤ (s.bin bin).dropped + 1)
    t = { handToTally { r with sort := some { p with attempts := p.attempts + 1, result := .dropped } } (dropFate p.route)
        { s with attention := s.binCauses false full } with
      board := { s.board with sorter := dropTag r.tag s.board.sorter }, sort := t.sort } ∧
    t.bin bin = (s.bin bin).fired.filled full ∧ (∀ n, n ≠ bin → t.bin n = s.bin n) ∧
    t.sort.counts = { s.sort.counts with fires := inc32 s.sort.counts.fires } := by
  have hn := binExists_of_items hit
  have hbin : (fireGate r bin s).bin bin = (s.bin bin).fired := fireGate_bin r s hn
  have hfired : byTag (fireGate r bin s).board.sorter r.tag = some r.attempted := by
    rw [fireGate_sorter]
    exact byTag_mapTag hr (by intro; rfl)
  have hline : dropLine r bin off s = completeDrop r.attempted bin (fireGate r bin s) := by
    rw [dropLine_fire hit hs hopen hholds, if_neg (by rw [hconfirm]; decide), hfired]
    rfl
  have hboard : { (fireGate r bin s).board with sorter := dropTag r.tag (fireGate r bin s).board.sorter } =
      { s.board with sorter := dropTag r.tag s.board.sorter } := by
    have hb : (fireGate r bin s).board = { s.board with sorter := (fireGate r bin s).board.sorter } :=
      congrArg State.board (fireGate_quiet r bin s)
    rw [hb]
    dsimp only
    rw [fireGate_sorter, dropTag_mapTag r.tag (f := Record.attempted) (by intro; rfl)]
  have hbase : ∀ attention, ({ fireGate r bin s with attention := attention } : State) =
      { ({ s with attention := attention } : State) with board := (fireGate r bin s).board, sort := (fireGate r bin s).sort } := fun attention => by
    have hq := fireGate_quiet r bin s
    have hb := congrArg State.board hq
    unfold State.Quiet at hq
    generalize fireGate r bin s = fired at hq hb ⊢
    rw [hb]
    conv_lhs => rw [hq]
  obtain ⟨heq, hcounts, hothers, hdropped⟩ := completeDrop_opened (s := fireGate r bin s) (by rw [hbin]; exact hit) (by rw [hbin]; exact hopen)
    r.attempted
  rw [binCauses_of_attention (fireGate_attention r bin s), hbase, handToTally_withSort, hbin] at heq
  rw [hbin] at hdropped
  have hattempted : r.attempted = { r with sort := some { p with attempts := p.attempts + 1 } } := by
    unfold Record.attempted Record.mapSort
    rw [hp]
    rfl
  dsimp only
  rw [hline]
  refine ⟨?_, hdropped, fun n hne => (hothers n hne).trans (fireGate_bin_ne r s hne), hcounts.trans (fireGate_counts r bin s)⟩
  refine heq.trans ?_
  rw [← hboard, hattempted]
  rfl

end

end Sys2Proof.Machine

namespace Sys2Proof.Proofs
open Sys2Proof.Machine

/-- Settles O14: by the runout line, no line, and the drop line's cases. -/
theorem dropLine : Obligations.DropLine := by
  unfold Obligations.DropLine
  refine ⟨fun s p offset => ?_, fun s now tag bin r p hr hp hbin h48 => ?_⟩
  · rw [rerouteBin_eq, afterBin_eq]
    refine congrArg (fun f => (List.find? f _).getD 0) (funext fun b => ?_)
    unfold State.fitsBelow State.takes State.dropOffset BinRec.load
    cases (s.bin b).items <;> rfl
  · obtain ⟨-, rfl⟩ := byTag_some hr
    subst hbin
    have hheld : r.heldBin = p.bin := by unfold Record.heldBin; rw [hp]; rfl
    have hexists : p.bin ≠ 0 → binExists p.bin = true := fun h0 => decide_eq_true ⟨Nat.one_le_iff_ne_zero.mpr h0, h48⟩
    dsimp only
    refine ⟨fun hrun => ?_, fun hrun hstay => ?_, fun it hrun h0 hlife hit hdrop => ?_⟩
    · rw [sorterLine_runout hr hrun]
      by_cases h0 : p.bin = 0
      · rw [if_neg (not_not.mpr h0), retireFromSorter_binless (hheld.trans h0) .runout s]
        exact ⟨rfl, rfl, fun n _ _ _ => bin_of_sort rfl n, fun h => absurd h0 h⟩
      · obtain ⟨heq, hcounts, hothers, hgiven⟩ := retireFromSorter_eq hheld (hexists h0) .runout s
        rw [if_pos h0]
        exact ⟨heq, hcounts, fun n _ _ hn => hothers n (List.ne_of_not_mem_cons hn), fun _ => hgiven⟩
    · refine sorterLine_stays hr hrun fun ⟨hlife, hne, hoff⟩ => ?_
      rw [hheld] at hne hoff
      obtain ⟨it, hit, hd⟩ := Option.map_eq_some_iff.mp hoff
      obtain h | h | h := hstay
      · exact hne h
      · exact h hlife
      · exact h it hit hd
    · have hline : sorterLine now r.tag s = Machine.dropLine r p.bin (r.sorterOffset now) s := hheld ▸ sorterLine_drop hr hrun hlife (hheld ▸ h0)
        (by rw [hheld]; exact (congrArg (Option.map (·.drop)) hit).trans (congrArg some hdrop))
      rw [hline]
      refine ⟨fun hsuspect => ?_, fun hs hclosed => ?_, fun hs hopen hholds => ?_⟩
      · obtain ⟨hquiet, hsorter, hbin, hothers, hattention, hcounts⟩ :=
          dropLine_passes (off := r.sorterOffset now) (s := s) (hexists h0) hsuspect
        exact ⟨hquiet, hsorter, hbin, fun n _ _ hn => hothers n (List.ne_of_not_mem_cons hn), hattention, hcounts⟩
      · rw [dropLine_reroute hit hs hclosed, ← hdrop]
        have hmoved := reroute_rerouted (s := s.modifySortCounts fun c => { c with
          pendingFull := if (s.bin p.bin).state = .opened then inc32 c.pendingFull else c.pendingFull }) hp hit
        exact ⟨(modifySortCounts_quiet s _).trans hmoved.quiet, hmoved.moved, hmoved.given, fun n _ _ hn =>
          hmoved.others n (List.ne_of_not_mem_cons hn) (List.ne_of_not_mem_cons (List.not_mem_of_not_mem_cons hn)), hmoved.sorter,
          hmoved.attention, hmoved.counts⟩
      · cases hconfirm : it.confirm
        · obtain ⟨heq, hbin, hothers, hcounts⟩ := dropLine_drop (off := r.sorterOffset now) hit hs hopen hholds hconfirm hr hp
          refine ⟨hcounts, fun n _ _ hn => hothers n (List.ne_of_not_mem_cons hn), fun h => absurd h (by decide), fun _ => ⟨?_, hbin⟩⟩
          rw [heq]
          cases p.route <;> rfl
        · obtain ⟨hquiet, hattention, hsorter, hbin, hothers, hcounts⟩ :=
            dropLine_pending (off := r.sorterOffset now) hit hs hopen hholds hconfirm
          exact ⟨hcounts, fun n _ _ hn => hothers n (List.ne_of_not_mem_cons hn), fun _ => ⟨hquiet, hattention, hsorter, hbin⟩,
            fun h => absurd h (by decide)⟩

end Sys2Proof.Proofs
end

