-- ==== Sys2Proof/Proofs/LugRecords.lean ====
section
/-! Records on the lugs of the trimmer map: each lug carries one record, so what a line does to the record at its offset it does to that record
alone. The lines of an advance act on what is left of the records that the advance finds. -/

namespace Sys2Proof.Machine

-- One thread elaborates the many small proofs of this file.
set_option Elab.async false

/-- The tags and the offsets after an advance tell the records apart. -/
def OnLugs (rs : List Record) (now : Serial) : Prop :=
  ∀ x ∈ rs, ∀ y ∈ rs, x.tag = y.tag ∨ x.trimmerOffset now = y.trimmerOffset now → x = y

/-- What is left of a record keeps its tag and its place. -/
def KeepsPlace (g : Record → Option Record) : Prop := ∀ x y, g x = some y → y.tag = x.tag ∧ y.creation = x.creation

/-- What is left of each record, changed at one offset alone. -/
def atOffset (now : Serial) (k : Nat) (f : Record → Option Record) (g : Record → Option Record) (x : Record) : Option Record :=
  if x.trimmerOffset now = k then (g x).bind f else g x

section
variable {g : Record → Option Record} (hg : KeepsPlace g) {now : Serial} {k : Nat}
include hg

theorem KeepsPlace.offset {x y : Record} (h : g x = some y) : y.trimmerOffset now = x.trimmerOffset now :=
  congrArg (offsetAt now) (hg x y h).2

theorem KeepsPlace.atOffset {f : Record → Option Record} (hf : KeepsPlace f) : KeepsPlace (atOffset now k f g) := by
  intro x y h
  unfold Machine.atOffset at h
  split at h
  · obtain ⟨z, hz, hy⟩ := Option.bind_eq_some_iff.mp h
    exact ⟨(hf z y hy).1.trans (hg x z hz).1, (hf z y hy).2.trans (hg x z hz).2⟩
  · exact hg x y h

/-- The record at a line among what is left of the records. -/
theorem find_left (rs : List Record) :
    (rs.filterMap g).find? (fun r => r.trimmerOffset now = k) =
      (rs.find? fun r => decide (r.trimmerOffset now = k) && (g r).isSome).bind g := by
  rw [List.find?_filterMap]
  refine congrArg (fun p => (rs.find? p).bind g) (funext fun x => ?_)
  cases h : g x with
  | none => simp
  | some y => simp [hg.offset h]

variable {rs : List Record}

theorem find_left_some {y : Record} (h : (rs.filterMap g).find? (fun r => r.trimmerOffset now = k) = some y) :
    ∃ x ∈ rs, g x = some y ∧ x.trimmerOffset now = k := by
  rw [find_left hg] at h
  obtain ⟨x, hx, hy⟩ := Option.bind_eq_some_iff.mp h
  have hp := List.find?_some hx
  simp only [Bool.and_eq_true, decide_eq_true_eq] at hp
  exact ⟨x, List.mem_of_find?_eq_some hx, hy, hp.1⟩

theorem find_left_none (h : (rs.filterMap g).find? (fun r => r.trimmerOffset now = k) = none) (f : Record → Option Record) :
    rs.filterMap (atOffset now k f g) = rs.filterMap g := by
  refine List.filterMap_congr fun x hx => ?_
  unfold atOffset
  split
  · next hk =>
    cases hgx : g x with
    | none => rfl
    | some y =>
      have hne := List.find?_eq_none.mp h y (List.mem_filterMap.mpr ⟨x, hx, hgx⟩)
      exact absurd (decide_eq_true ((hg.offset hgx).trans hk)) hne
  · rfl

variable (hl : OnLugs rs now)
include hl

/-- A record left has the tag of the one at a line just where it is that one. -/
theorem at_line {x y z : Record} (hx : x ∈ rs) (hgx : g x = some z)
    (h : (rs.filterMap g).find? (fun r => r.trimmerOffset now = k) = some y) :
    (x.trimmerOffset now = k → z = y) ∧ (z.tag = y.tag → x.trimmerOffset now = k) := by
  obtain ⟨w, hw, hgw, hk⟩ := find_left_some hg h
  refine ⟨fun hxk => ?_, fun ht => ?_⟩
  · rw [hl x hx w hw (.inr (hxk.trans hk.symm)), hgw] at hgx
    exact (Option.some_inj.mp hgx).symm
  · rw [(hg x z hgx).1, (hg w y hgw).1] at ht
    rw [hl x hx w hw (.inl ht), hk]

/-- A change of the record at a line, named by its tag. -/
theorem mapTag_line {y : Record} (h : (rs.filterMap g).find? (fun r => r.trimmerOffset now = k) = some y) {f : Record → Record}
    {left : Record → Option Record} (hleft : left y = some (f y)) :
    mapTag y.tag f (rs.filterMap g) = rs.filterMap (atOffset now k left g) := by
  unfold mapTag
  rw [List.map_filterMap]
  refine List.filterMap_congr fun x hx => ?_
  unfold atOffset
  cases hgx : g x with
  | none => simp
  | some z =>
    obtain ⟨hat, htag⟩ := at_line hg hl hx hgx h
    by_cases hk : x.trimmerOffset now = k
    · rw [if_pos hk, hat hk, Option.map_some, if_pos rfl, Option.bind_some, hleft]
    · rw [if_neg hk, Option.map_some, if_neg fun ht => hk (htag ht)]

/-- The record at a line taken off the map, named by its tag. -/
theorem dropTag_line {y : Record} (h : (rs.filterMap g).find? (fun r => r.trimmerOffset now = k) = some y)
    {left : Record → Option Record} (hleft : left y = none) :
    dropTag y.tag (rs.filterMap g) = rs.filterMap (atOffset now k left g) := by
  unfold dropTag
  rw [List.filter_filterMap]
  refine List.filterMap_congr fun x hx => ?_
  unfold atOffset
  cases hgx : g x with
  | none => simp
  | some z =>
    obtain ⟨hat, htag⟩ := at_line hg hl hx hgx h
    by_cases hk : x.trimmerOffset now = k
    · rw [if_pos hk, hat hk, Option.bind_some, hleft]
      simp
    · have hne : ¬ z.tag = y.tag := fun ht => hk (htag ht)
      simp [hk, hne]

end

end Sys2Proof.Machine
end

