-- ==== Sys2Proof/Proofs/WindowsEnded.lean ====
section
/-! A trimmer advance ends every saw's running window (R117): which windows are misses, what the misses report, and what they leave of the
records and of the cut sample. -/

namespace Sys2Proof.Machine

-- One thread elaborates the many small proofs of this file.
set_option Elab.async false

/-! ### The cut sample reads the saws' states and the tables (R118 to R121) -/

/-- The saws stand and are commanded as before, for the same record. -/
structure SawsStand (s t : State) : Prop where
  snapshot : t.snapshot = s.snapshot
  commanded : t.commandedPattern = s.commandedPattern
  owner : t.saws.owner = s.saws.owner

theorem SawsStand.refl (s : State) : SawsStand s s := ⟨rfl, rfl, rfl⟩

theorem SawsStand.trans {s t u : State} (h : SawsStand s t) (k : SawsStand t u) : SawsStand s u :=
  ⟨k.snapshot.trans h.snapshot, k.commanded.trans h.commanded, k.owner.trans h.owner⟩

theorem SawsStand.of_saws {s t : State} (h : t.saws = s.saws) : SawsStand s t := by
  constructor <;> simp only [State.snapshot, State.commandedPattern, h]

theorem mapVec_modifyAt {α β : Type} {n : Nat} (part : α → β) (v : Vector α n) (k : Nat) {f : α → α} (h : ∀ x, part (f x) = part x) :
    mapVec part (modifyAt v k f) = mapVec part v := by
  unfold mapVec modifyAt
  split
  · next hk =>
    refine congrArg Vector.ofFn (funext fun i => ?_)
    by_cases hi : k = i.val
    · subst hi
      simp [h]
    · simp [Vector.getElem_set_ne _ _ hi]
  · rfl

theorem modifySaw_stand (s : State) (k : Nat) {f : SawRec → SawRec} (hf : ∀ r, (f r).feedback = r.feedback ∧ (f r).commanded = r.commanded) :
    SawsStand s (s.modifySaw k f) :=
  ⟨mapVec_modifyAt _ _ _ fun r => (hf r).1, mapVec_modifyAt _ _ _ fun r => (hf r).2, rfl⟩

theorem cutOutcome_congr {s t : State} (h : SawsStand s t) (ht : t.tables = s.tables) (r : Record) (d : Decision) :
    t.cutOutcome r d = s.cutOutcome r d := by
  have hplace : ∀ k, t.sawPlace k = s.sawPlace k := fun k => by unfold State.sawPlace; rw [ht]
  have hcut : ∀ snap scan, t.asCut snap scan = s.asCut snap scan := fun snap scan => by
    unfold State.asCut State.endSaw
    simp only [hplace, ht]
  have hrecompute : ∀ scan grade j, t.recompute scan grade j = s.recompute scan grade j := fun scan grade j => by
    unfold State.recompute State.volume State.value State.price
    simp only [hplace, ht]
  unfold State.cutOutcome
  simp only [h.snapshot, h.commanded, hcut, hrecompute, ht]

/-! ### One window (R116, R117) -/

/-- A running window whose saw stands wrong is a miss. -/
def State.windowMissed (s : State) (k : Nat) : Bool := decide ((s.saw k).stage ≠ .idle) && decide ((s.saw k).feedback ≠ (s.saw k).commanded)

/-- What a miss of a saw reports (R116). -/
def State.sawMissed (s x : State) (k : Nat) : State :=
  let r := s.saw k
  let m := if r.misses < 15 then r.misses + 1 else r.misses
  let x := raiseEvent .sawMiss none k r.commanded.toNat x
  if r.enabled = true ∧ s.tables.settings.missLimit ≤ m then latch .sawFault (raiseEvent .sawDisabled none k m x) else x

/-- SAW-MISS on the owner's record (R116). -/
def Record.sawMissed (r : Record) : Record := { r with flags := { r.flags with sawMiss := true } }

/-- The records with a miss charged to the owner of the pattern; owner 0 is no record. -/
def chargeOwner (owner : Nat) (rs : List Record) : List Record := if owner = 0 then rs else mapTag owner Record.sawMissed rs

theorem chargeOwner_chargeOwner (owner : Nat) (rs : List Record) : chargeOwner owner (chargeOwner owner rs) = chargeOwner owner rs := by
  unfold chargeOwner
  split
  · rfl
  · rw [mapTag_mapTag _ (by intro; rfl)]
    rfl

theorem markSawMiss_trimmer (s : State) : (markSawMiss s).board.trimmer = chargeOwner s.saws.owner s.board.trimmer := by
  unfold markSawMiss chargeOwner
  split <;> rfl

/-- What ending a window leaves, beside the saw. -/
structure WindowEnded (s v t w : State) (missed : Bool) (k : Nat) : Prop where
  reports : SameReports t (if missed then s.sawMissed w k else w)
  trimmer : t.board.trimmer = if missed then chargeOwner v.saws.owner v.board.trimmer else v.board.trimmer
  saws : SawsStand v t

theorem missSaw_ended {s v w : State} {k : Nat} (hsaw : v.saw k = s.saw k) (ht : v.tables = s.tables) (hr : SameReports v w) :
    WindowEnded s v (missSaw k v) w true k := by
  have hmiss : s.sawMissed w k =
      if (s.saw k).enabled = true ∧ s.tables.settings.missLimit ≤ incTo Config.missHold (s.saw k).misses then
        latch .sawFault (raiseEvent .sawDisabled none k (incTo Config.missHold (s.saw k).misses)
          (raiseEvent .sawMiss none k (s.saw k).commanded.toNat w))
      else raiseEvent .sawMiss none k (s.saw k).commanded.toNat w := rfl
  have hended : ∀ f : SawRec → SawRec, (∀ x, (f x).feedback = x.feedback ∧ (f x).commanded = x.commanded) →
      let t := markSawMiss (raiseEvent .sawMiss none k (s.saw k).commanded.toNat (v.modifySaw k f))
      SameReports t (raiseEvent .sawMiss none k (s.saw k).commanded.toNat w) ∧
      t.board.trimmer = chargeOwner v.saws.owner v.board.trimmer ∧ SawsStand v t := by
    intro f hf
    have hreports := SameReports.raiseEvent (s := v.modifySaw k f) (t := w) ⟨hr.serial, hr.events, hr.attention, hr.tally⟩ .sawMiss none k
      (s.saw k).commanded.toNat
    have hstand : SawsStand v (raiseEvent .sawMiss none k (s.saw k).commanded.toNat (v.modifySaw k f)) :=
      (modifySaw_stand v k hf).trans (.of_saws ((raiseEvent_outside _ _ _ _ _).saws rfl))
    refine ⟨(SameReports.of_outside (markSawMiss_outside _) rfl rfl rfl rfl).symm.trans hreports, ?_,
      hstand.trans (.of_saws ((markSawMiss_outside _).saws rfl))⟩
    rw [markSawMiss_trimmer, hstand.owner, (raiseEvent_outside _ _ _ _ _).trimmer rfl]
    rfl
  unfold missSaw
  dsimp only
  rw [hsaw]
  obtain ⟨hreports, htrimmer, hstand⟩ := hended (fun r => { r with
    stage := .idle, timer := 0, misses := incTo Config.missHold (s.saw k).misses, totalMisses := inc32 r.totalMisses }) fun _ => ⟨rfl, rfl⟩
  generalize hmarked : markSawMiss (raiseEvent .sawMiss none k (s.saw k).commanded.toNat (v.modifySaw k fun r => { r with
    stage := .idle, timer := 0, misses := incTo Config.missHold (s.saw k).misses, totalMisses := inc32 r.totalMisses })) = marked at *
  have htables : marked.tables = s.tables := by
    rw [← hmarked, (markSawMiss_outside _).tables rfl, (raiseEvent_outside _ _ _ _ _).tables rfl]
    exact ht
  rw [htables]
  split
  · next hcond =>
    rw [if_pos hcond] at hmiss
    have hdisabled : SameReports (marked.modifySaw k fun r => { r with enabled := false }) marked := ⟨rfl, rfl, rfl, rfl⟩
    have ho := (raiseEvent_outside .sawDisabled none k (incTo Config.missHold (s.saw k).misses)
      (marked.modifySaw k fun r => { r with enabled := false })).then (latch_outside .sawFault _)
    exact ⟨hmiss ▸ ((hdisabled.trans hreports).raiseEvent _ _ _ _).latch _, (ho.trimmer rfl).trans htrimmer,
      hstand.trans ((modifySaw_stand marked k (f := fun r => { r with enabled := false }) fun _ => ⟨rfl, rfl⟩).trans (.of_saws (ho.saws rfl)))⟩
  · next hcond =>
    rw [if_neg hcond] at hmiss
    exact ⟨hmiss ▸ hreports, htrimmer, hstand⟩

theorem endWindow_ended {s v w : State} {k : Nat} (hsaw : v.saw k = s.saw k) (ht : v.tables = s.tables) (hr : SameReports v w) :
    WindowEnded s v (endWindow k v) w (s.windowMissed k) k := by
  unfold endWindow State.windowMissed
  dsimp only
  rw [hsaw]
  by_cases hidle : (s.saw k).stage = .idle
  · rw [if_pos hidle, decide_eq_false (not_not.mpr hidle), Bool.false_and]
    exact ⟨hr, rfl, .refl v⟩
  · rw [if_neg hidle, decide_eq_true hidle, Bool.true_and]
    by_cases hright : (s.saw k).feedback = (s.saw k).commanded
    · rw [if_pos hright, decide_eq_false (not_not.mpr hright)]
      exact ⟨⟨hr.serial, hr.events, hr.attention, hr.tally⟩, rfl, modifySaw_stand v k fun r => ⟨rfl, rfl⟩⟩
    · rw [if_neg hright, decide_eq_true hright]
      exact missSaw_ended hsaw ht hr

theorem endWindow_saw_ne (v : State) {j k : Nat} (h : k ≠ j) : (endWindow j v).saw k = v.saw k := by
  unfold endWindow
  dsimp only
  split
  · rfl
  · split
    · exact State.modifySaw_saw_ne _ _ h
    · exact missSaw_saw_ne v h

/-! ### Every window -/

/-- Ending the windows of saws, one after another. -/
theorem foldl_endWindow {s : State} (l : List Nat) (hl : l.Nodup) {v w : State} (hsaw : ∀ k ∈ l, v.saw k = s.saw k) (ht : v.tables = s.tables)
    (hr : SameReports v w) :
    let t := l.foldl (fun x k => endWindow k x) v
    SameReports t ((l.filter s.windowMissed).foldl s.sawMissed w) ∧
    t.board.trimmer = (if l.any s.windowMissed then chargeOwner v.saws.owner v.board.trimmer else v.board.trimmer) ∧ SawsStand v t := by
  induction l generalizing v w with
  | nil => exact ⟨hr, rfl, .refl v⟩
  | cons k rest ih =>
    obtain ⟨hk, hrest⟩ := List.nodup_cons.mp hl
    have hended := endWindow_ended (hsaw k List.mem_cons_self) ht hr
    have htables : (endWindow k v).tables = s.tables := by
      have ho : Outside { saws := true, trimmer := true, events := true, attention := true } v (endWindow k v) := by
        unfold endWindow
        dsimp only
        split
        · exact .refl _ v
        · split
          · exact (modifySaw_outside k _ v).weaken
          · exact missSaw_outside k v
      exact (ho.tables rfl).trans ht
    obtain ⟨hreports, htrimmer, hstand⟩ := ih hrest (v := endWindow k v)
      (fun j hj => (endWindow_saw_ne v fun h : j = k => hk (h ▸ hj)).trans (hsaw j (List.mem_cons_of_mem k hj))) htables hended.reports
    rw [List.foldl_cons, List.any_cons]
    refine ⟨?_, ?_, hended.saws.trans hstand⟩
    · cases hmissed : s.windowMissed k
      · rw [List.filter_cons_of_neg (by rw [hmissed]; decide)]
        rw [hmissed] at hreports
        exact hreports
      · rw [List.filter_cons_of_pos hmissed]
        rw [hmissed] at hreports
        exact hreports
    · rw [htrimmer, hended.trimmer, hended.saws.owner]
      cases s.windowMissed k <;> cases rest.any s.windowMissed
      · rfl
      · rfl
      · rfl
      · exact chargeOwner_chargeOwner _ _

/-- A trimmer advance ends every window (R117). -/
theorem endWindows_ended {v w : State} (hr : SameReports v w) :
    SameReports (endWindows v) (((List.range 13).filter v.windowMissed).foldl v.sawMissed w) ∧
    (endWindows v).board.trimmer =
      (if (List.range 13).any v.windowMissed then chargeOwner v.saws.owner v.board.trimmer else v.board.trimmer) ∧
    SawsStand v (endWindows v) := by
  unfold endWindows allSaws
  exact foldl_endWindow (s := v) (List.range 13) List.nodup_range (fun _ _ => rfl) rfl hr

end Sys2Proof.Machine
end

