-- ==== Sys2Proof/Proofs/TrimmerLineRecords.lean ====
section
/-! What each line of a trimmer advance leaves of the records (R107, R113, R118, R28, R29), and what it reports. -/

namespace Sys2Proof.Machine

-- One thread elaborates the many small proofs of this file.
set_option Elab.async false

/-- The record decided at D (R107). -/
def State.decidedAs (s : State) (x : Record) : Record := { x with decision := some (s.decideBoard x), life := .decided }

/-- The record cut with a decision (R118 to R121). -/
def State.cutAs (s : State) (x : Record) (d : Decision) : Record :=
  { x with life := .cut, outcome := some (s.cutOutcome x d).2, flags := { x.flags with miscut := x.flags.miscut || (s.cutOutcome x d).1 } }

/-- What the cut line leaves of the record at K: none of a TRASH record (R28). -/
def State.leftByCut (s : State) (x : Record) : Option Record :=
  x.decision.bind fun d => if d.kind = .trash then none else some (s.cutAs x d)

theorem keepsPlace_cut (s : State) : KeepsPlace s.leftByCut := fun x y h => by
  obtain ⟨d, -, hd⟩ := Option.bind_eq_some_iff.mp h
  split at hd
  · cases hd
  · cases hd; exact ⟨rfl, rfl⟩

theorem keepsPlace_none : KeepsPlace fun _ => none := fun _ _ h => nomatch h

/-! ### The cut line (R118, R28) -/

section
variable {now : Serial} {v : State}

theorem cutLine_none (h : v.trimmerAt now (v.tables.station.sawSet + 1) = none) : cutLine now v = v := by
  unfold cutLine
  rw [h]

/-- The record at K is cut with its decision. -/
theorem cutLine_some {r : Record} {d : Decision} (h : v.trimmerAt now (v.tables.station.sawSet + 1) = some r) (hd : r.decision = some d) :
    cutLine now v = if d.kind = .trash then retireFromTrimmer (v.cutAs r d) .trashed v else v.modifyTrimmer r.tag fun _ => v.cutAs r d := by
  unfold cutLine
  rw [h]
  cases r
  cases hd
  rfl

end

section
variable {rs : List Record} {g : Record → Option Record} {now : Serial} {v : State}

/-! ### The decision line (R107, R108) -/

theorem decisionLine_none (h : v.trimmerAt now v.tables.station.decision = none) : decisionLine now v = v := by
  unfold decisionLine
  rw [h]

theorem decisionLine_some {r : Record} (h : v.trimmerAt now v.tables.station.decision = some r) (hlife : r.life = .scanned) :
    decisionLine now v = decideAtLine r v := by
  unfold decisionLine
  rw [h]
  exact if_pos hlife

theorem decisionLine_reports : SameReports (decisionLine now v) v :=
  (SameReports.of_outside (decisionLine_outside now v) rfl rfl rfl rfl).symm

variable (hg : KeepsPlace g) (hl : OnLugs rs now) (hv : v.board.trimmer = rs.filterMap g)
include hg hl hv

/-- The record at D is decided. -/
theorem decisionLine_left (hscanned : ∀ r, v.trimmerAt now v.tables.station.decision = some r → r.life = .scanned) :
    (decisionLine now v).board.trimmer = rs.filterMap (atOffset now v.tables.station.decision (fun x => some (v.decidedAs x)) g) := by
  cases h : v.trimmerAt now v.tables.station.decision with
  | none =>
    rw [decisionLine_none h, hv, find_left_none hg (by rw [← hv]; exact h)]
  | some r =>
    rw [decisionLine_some h (hscanned r h)]
    change mapTag r.tag (fun x => { x with decision := some (v.decideBoard r), life := .decided }) v.board.trimmer = _
    rw [hv]
    exact mapTag_line hg hl (by rw [← hv]; exact h) rfl

/-! ### The cut line (R118, R28) -/

/-- The record at K is cut, or leaves TRASHED. -/
theorem cutLine_left (hdecided : ∀ r, v.trimmerAt now (v.tables.station.sawSet + 1) = some r → r.decision.isSome = true) :
    (cutLine now v).board.trimmer = rs.filterMap (atOffset now (v.tables.station.sawSet + 1) v.leftByCut g) := by
  cases h : v.trimmerAt now (v.tables.station.sawSet + 1) with
  | none => rw [cutLine_none h, hv, find_left_none hg (by rw [← hv]; exact h)]
  | some r =>
    obtain ⟨d, hd⟩ := Option.isSome_iff_exists.mp (hdecided r h)
    have hfind : (rs.filterMap g).find? (fun r => r.trimmerOffset now = v.tables.station.sawSet + 1) = some r := by rw [← hv]; exact h
    rw [cutLine_some h hd]
    split
    · next hk =>
      refine ((handToTally_outside _ _ _).trimmer rfl).trans ?_
      change dropTag r.tag v.board.trimmer = _
      rw [hv]
      exact dropTag_line hg hl hfind (by unfold State.leftByCut; rw [hd]; exact if_pos hk)
    · next hk =>
      change mapTag r.tag (fun _ => v.cutAs r d) v.board.trimmer = _
      rw [hv]
      exact mapTag_line hg hl hfind (by unfold State.leftByCut; rw [hd]; exact if_neg hk)

/-! ### The outfeed line (R29) -/

/-- The record at O leaves the trimmer map. -/
theorem outfeedLine_left : (outfeedLine now v).board.trimmer = rs.filterMap (atOffset now v.tables.station.outfeed (fun _ => none) g) := by
  unfold outfeedLine
  cases h : v.trimmerAt now v.tables.station.outfeed with
  | none => rw [find_left_none hg (by rw [← hv]; exact h)]; exact hv
  | some r =>
    refine ((appendTransfer_outside _ _).trimmer rfl).trans ?_
    change dropTag r.tag v.board.trimmer = _
    rw [hv]
    exact dropTag_line hg hl (by rw [← hv]; exact h) rfl

/-! ### The set line (R113) -/

/-- The record at S is SET. -/
theorem setLine_left :
    (setLine now v).board.trimmer = rs.filterMap (atOffset now v.tables.station.sawSet (fun x => some { x with life := .set }) g) := by
  unfold setLine
  dsimp only
  cases h : v.trimmerAt now v.tables.station.sawSet with
  | none => rw [find_left_none hg (by rw [← hv]; exact h)]; exact hv
  | some r =>
    change mapTag r.tag (fun x => { x with life := .set }) v.board.trimmer = _
    rw [hv]
    exact mapTag_line hg hl (by rw [← hv]; exact h) rfl

end

/-! ### What the lines report -/

section
variable {now : Serial} {v w : State} (hr : SameReports v w)
include hr

theorem cutLine_trashed {r : Record} {d : Decision} (h : v.trimmerAt now (v.tables.station.sawSet + 1) = some r) (hd : r.decision = some d)
    (hk : d.kind = .trash) : SameReports (cutLine now v) (handToTally (v.cutAs r d) .trashed w) := by
  rw [cutLine_some h hd, if_pos hk]
  exact SameReports.handToTally (s := v.leaveTrimmer r.tag) ⟨hr.serial, hr.events, hr.attention, hr.tally⟩ _ _

theorem cutLine_quiet (hdecided : ∀ r, v.trimmerAt now (v.tables.station.sawSet + 1) = some r →
    ∃ d, r.decision = some d ∧ d.kind ≠ .trash) :
    SameReports (cutLine now v) w := by
  cases h : v.trimmerAt now (v.tables.station.sawSet + 1) with
  | none => rw [cutLine_none h]; exact hr
  | some r =>
    obtain ⟨d, hd, hk⟩ := hdecided r h
    rw [cutLine_some h hd, if_neg hk]
    exact ⟨hr.serial, hr.events, hr.attention, hr.tally⟩

/-- A record appended where the queue has room (R29). -/
theorem appendTransfer_room (r : Record) (h : v.board.transfer.length < 8) :
    (appendTransfer r v).board.transfer = v.board.transfer ++ [{ board := { r with life := .inTransfer }, age := 0 }] ∧
    SameReports (appendTransfer r v) w := by
  unfold appendTransfer
  dsimp only
  rw [if_neg (show ¬ Config.transferSlots ≤ v.board.transfer.length from Nat.not_le.mpr h)]
  exact ⟨rfl, hr.serial, hr.events, hr.attention, hr.tally⟩

/-- A full queue first loses its head (R29). -/
theorem appendTransfer_full (r : Record) {head : Waiting} {rest : List Waiting} (h : v.board.transfer = head :: rest)
    (hfull : 8 ≤ v.board.transfer.length) :
    (appendTransfer r v).board.transfer = rest ++ [{ board := { r with life := .inTransfer }, age := 0 }] ∧
    SameReports (appendTransfer r v) (raiseEvent .boardLost (some .trimmer) head.board.tag 1 (handToTally head.board .lost w)) := by
  have hreports := (SameReports.handToTally (s := { v with board := { v.board with transfer := rest } }) (t := w)
    ⟨hr.serial, hr.events, hr.attention, hr.tally⟩ head.board .lost).raiseEvent .boardLost (some .trimmer) head.board.tag 1
  unfold appendTransfer
  dsimp only
  rw [if_pos (show Config.transferSlots ≤ v.board.transfer.length from hfull), h]
  dsimp only
  refine ⟨?_, hreports.serial, hreports.events, hreports.attention, hreports.tally⟩
  rw [(raiseEvent_outside _ _ _ _ _).transfer rfl, (handToTally_outside _ _ _).transfer rfl]

end

end Sys2Proof.Machine
end

