-- ==== Sys2Proof/Proofs/TrimmerLinesTogether.lean ====
section
/-! The lines of a trimmer advance together: what they leave of each record the advance finds, which record goes to the transfer queue, and what
they report, in terms of the records and the saws as found. -/

namespace Sys2Proof.Machine

-- One thread elaborates the many small proofs of this file.
set_option Elab.async false

/-! ### Records as found -/

/-- A miss is charged to the owner's record (R116). -/
def State.charged (s : State) : Bool := decide (s.saws.owner ≠ 0) && (List.range 13).any s.windowMissed

/-- A record with the misses of the advance charged to it, if it is the owner's. -/
def State.charge (s : State) (x : Record) : Record := if s.charged = true ∧ x.tag = s.saws.owner then x.sawMissed else x

/-- A record cut at K, its misses charged. -/
def State.cutRecord (s : State) (x : Record) : Record :=
  x.decision.elim x fun d =>
    { s.charge x with
      life := .cut, outcome := some (s.cutOutcome x d).2
      flags := { (s.charge x).flags with miscut := x.flags.miscut || (s.cutOutcome x d).1 } }

/-- The record brought to K has a TRASH decision (R28). -/
def State.trashed (s : State) (now : Serial) (x : Record) : Bool :=
  decide (x.trimmerOffset now = s.tables.station.sawSet + 1) && decide (x.decision.map (·.kind) = some .trash)

/-- The record that the lines bring to the outfeed, as it goes (R28, R29). -/
def State.outOf (s : State) (now : Serial) (rs : List Record) : Option Record :=
  (rs.find? fun x => decide (x.trimmerOffset now = s.tables.station.outfeed) && !s.trashed now x).map fun x =>
    if x.trimmerOffset now = s.tables.station.sawSet + 1 then s.cutRecord x else s.charge x

/-- What the lines leave of a record on the trimmer map. -/
def State.leftByLines (s : State) (now : Serial) (x : Record) : Option Record :=
  if x.trimmerOffset now = s.tables.station.decision then
    some { s.charge x with life := .decided, decision := some (s.decideBoard x) }
  else if x.trimmerOffset now = s.tables.station.sawSet then some { s.charge x with life := .set }
  else if s.trashed now x = true ∨ x.trimmerOffset now = s.tables.station.outfeed then none
  else if x.trimmerOffset now = s.tables.station.sawSet + 1 then some (s.cutRecord x)
  else some (s.charge x)

theorem charge_place (s : State) (x : Record) : (s.charge x).tag = x.tag ∧ (s.charge x).creation = x.creation := by
  unfold State.charge
  split <;> exact ⟨rfl, rfl⟩

theorem charge_parts (s : State) (x : Record) :
    (s.charge x).decision = x.decision ∧ (s.charge x).scan = x.scan ∧ (s.charge x).flags.miscut = x.flags.miscut := by
  unfold State.charge
  split <;> exact ⟨rfl, rfl, rfl⟩

theorem charge_decided (s : State) (x : Record) :
    s.charge (s.decidedAs x) = { s.charge x with life := .decided, decision := some (s.decideBoard x) } := by
  unfold State.charge
  by_cases h : s.charged = true ∧ x.tag = s.saws.owner
  · rw [if_pos h]
    exact if_pos h
  · rw [if_neg h]
    exact if_neg h

theorem cutRecord_some {s : State} {x : Record} {d : Decision} (h : x.decision = some d) : s.cutRecord x = s.cutAs (s.charge x) d := by
  obtain ⟨-, hscan, hmiscut⟩ := charge_parts s x
  have houtcome : s.cutOutcome (s.charge x) d = s.cutOutcome x d := by
    unfold State.cutOutcome
    rw [hscan]
  unfold State.cutRecord State.cutAs
  rw [h, houtcome, hmiscut]
  rfl

/-- The cut line leaves the cut record of a record that is not trashed, and nothing of one that is. -/
theorem leftByCut_charge {s : State} {x : Record} {d : Decision} (h : x.decision = some d) :
    s.leftByCut (s.charge x) = if d.kind = .trash then none else some (s.cutRecord x) := by
  unfold State.leftByCut
  rw [(charge_parts s x).1, h, cutRecord_some h]
  rfl

theorem trashed_iff {s : State} {now : Serial} {x : Record} {d : Decision} (hd : x.decision = some d)
    (hk : x.trimmerOffset now = s.tables.station.sawSet + 1) : s.trashed now x = true ↔ d.kind = .trash := by
  unfold State.trashed
  rw [hk, hd]
  simp

theorem not_trashed {s : State} {now : Serial} {x : Record} (hk : x.trimmerOffset now ≠ s.tables.station.sawSet + 1) :
    s.trashed now x = false := by
  unfold State.trashed
  rw [decide_eq_false hk, Bool.false_and]

/-! ### What decisions and misses read -/

theorem windowMissed_congr {s t : State} (h : t.saws = s.saws) : t.windowMissed = s.windowMissed := by
  unfold State.windowMissed State.saw
  rw [h]

theorem sawMissed_congr {s t : State} (h : t.saws = s.saws) (ht : t.tables = s.tables) : t.sawMissed = s.sawMissed := by
  unfold State.sawMissed State.saw
  rw [h, ht]

theorem leftByCut_congr {s t : State} (h : SawsStand s t) (ht : t.tables = s.tables) : t.leftByCut = s.leftByCut := by
  unfold State.leftByCut State.cutAs
  simp only [cutOutcome_congr h ht]

/-- The record at a line among what is left of records on lugs of their own. -/
theorem find_line_iff {rs : List Record} {g : Record → Option Record} (hg : KeepsPlace g) {now : Serial} (hl : OnLugs rs now)
    {k : Nat} {y : Record} :
    (rs.filterMap g).find? (fun r => r.trimmerOffset now = k) = some y ↔ ∃ x ∈ rs, g x = some y ∧ x.trimmerOffset now = k := by
  refine ⟨find_left_some hg, fun ⟨x, hx, hgx, hk⟩ => ?_⟩
  cases h : (rs.filterMap g).find? (fun r => r.trimmerOffset now = k) with
  | none =>
    have hne := List.find?_eq_none.mp h y (List.mem_filterMap.mpr ⟨x, hx, hgx⟩)
    exact absurd (decide_eq_true ((hg.offset hgx).trans hk)) hne
  | some z => rw [(at_line hg hl hx hgx h).1 hk]

/-! ### The lines one after another -/

/-- What an advance finds in RUN: each record on a lug of its own, the one brought to D SCANNED, the one brought to K decided, and the lines in
their order. -/
structure LinesFind (s : State) (now : Serial) : Prop where
  lugs : OnLugs s.board.trimmer now
  scanned : ∀ x ∈ s.board.trimmer, x.trimmerOffset now = s.tables.station.decision → x.life = .scanned
  decided : ∀ x ∈ s.board.trimmer, x.trimmerOffset now = s.tables.station.sawSet + 1 → x.decision.isSome = true
  order : s.tables.station.decision < s.tables.station.sawSet ∧ s.tables.station.sawSet + 1 ≤ s.tables.station.outfeed

section
variable {s : State} {now : Serial}

/-- What is left of a record once the windows are ended. -/
def State.leftByWindows (s : State) (now : Serial) (x : Record) : Option Record :=
  some (if x.trimmerOffset now = s.tables.station.decision then s.charge (s.decidedAs x) else s.charge x)

/-- What is left of a record after the cut line. -/
def State.leftByK (s : State) (now : Serial) : Record → Option Record :=
  atOffset now (s.tables.station.sawSet + 1) s.leftByCut (s.leftByWindows now)

theorem keepsPlace_windows (s : State) (now : Serial) : KeepsPlace (s.leftByWindows now) := fun x y h => by
  unfold State.leftByWindows at h
  rw [Option.some_inj] at h
  subst h
  split
  · exact charge_place s (s.decidedAs x)
  · exact charge_place s x

theorem keepsPlace_K (s : State) (now : Serial) : KeepsPlace (s.leftByK now) := (keepsPlace_windows s now).atOffset (keepsPlace_cut s)

/-- Misses charged to the owner's record among what is left of the records. -/
theorem charge_left (s : State) (rs : List Record) (g : Record → Option Record) :
    (if (List.range 13).any s.windowMissed then chargeOwner s.saws.owner (rs.filterMap g) else rs.filterMap g) =
      rs.filterMap fun x => (g x).map s.charge := by
  unfold chargeOwner State.charge
  by_cases hc : s.charged = true
  · obtain ⟨howner, hany⟩ := Bool.and_eq_true_iff.mp hc
    rw [if_pos hany, if_neg (of_decide_eq_true howner), mapTag, List.map_filterMap]
    simp only [hc, true_and]
  · have hsame : (if (List.range 13).any s.windowMissed then
        (if s.saws.owner = 0 then rs.filterMap g else mapTag s.saws.owner Record.sawMissed (rs.filterMap g)) else rs.filterMap g) =
        rs.filterMap g := by
      split
      · next hany =>
        by_cases howner : s.saws.owner = 0
        · rw [if_pos howner]
        · exact absurd (Bool.and_eq_true_iff.mpr ⟨decide_eq_true howner, hany⟩) hc
      · rfl
    rw [hsame]
    refine List.filterMap_congr fun x _ => ?_
    simp only [hc, Bool.false_eq_true, false_and, if_false]
    exact (Option.map_id' (x := g x)).symm

theorem windows_stand (s : State) (now : Serial) :
    SawsStand s (endWindows (decisionLine now s)) ∧ (endWindows (decisionLine now s)).tables = s.tables := by
  obtain ⟨-, -, hstand⟩ := endWindows_ended (SameReports.refl (decisionLine now s))
  exact ⟨(SawsStand.of_saws ((decisionLine_outside now s).saws rfl)).trans hstand,
    ((endWindows_outside _).tables rfl).trans ((decisionLine_outside now s).tables rfl)⟩

variable (hf : LinesFind s now)
include hf

theorem endWindows_left : (endWindows (decisionLine now s)).board.trimmer = s.board.trimmer.filterMap (s.leftByWindows now) := by
  have hsaws : (decisionLine now s).saws = s.saws := (decisionLine_outside now s).saws rfl
  obtain ⟨-, htrimmer, -⟩ := endWindows_ended (SameReports.refl (decisionLine now s))
  have hleft := decisionLine_left (g := some) (fun x y h => by cases h; exact ⟨rfl, rfl⟩) hf.lugs List.filterMap_some.symm
    fun r hr => hf.scanned r (List.mem_of_find?_eq_some hr) (of_decide_eq_true (List.find?_some (p := fun x : Record =>
      decide (x.trimmerOffset now = s.tables.station.decision)) hr))
  rw [htrimmer, windowMissed_congr hsaws, hsaws, hleft, charge_left]
  refine List.filterMap_congr fun x _ => ?_
  unfold atOffset State.leftByWindows
  split <;> rfl

/-- The record at K once the windows are ended. -/
theorem atK_iff {y : Record} :
    (endWindows (decisionLine now s)).trimmerAt now (s.tables.station.sawSet + 1) = some y ↔
      ∃ x ∈ s.board.trimmer, y = s.charge x ∧ x.trimmerOffset now = s.tables.station.sawSet + 1 := by
  have horder := hf.order
  unfold State.trimmerAt
  rw [endWindows_left hf, find_line_iff (keepsPlace_windows s now) hf.lugs]
  refine exists_congr fun x => and_congr_right fun _ => ⟨fun ⟨hx, hk⟩ => ⟨?_, hk⟩, fun ⟨hx, hk⟩ => ⟨?_, hk⟩⟩
  · unfold State.leftByWindows at hx
    rw [if_neg (by omega), Option.some_inj] at hx
    exact hx.symm
  · unfold State.leftByWindows
    rw [if_neg (by omega), hx]

theorem cutLine_leftByK :
    (cutLine now (endWindows (decisionLine now s))).board.trimmer = s.board.trimmer.filterMap (s.leftByK now) := by
  obtain ⟨hstand, htables⟩ := windows_stand s now
  have hleft := cutLine_left (keepsPlace_windows s now) hf.lugs (endWindows_left hf) fun r hr => by
    rw [htables, atK_iff hf] at hr
    obtain ⟨x, hx, rfl, hk⟩ := hr
    rw [(charge_parts s x).1]
    exact hf.decided x hx hk
  rw [hleft, htables, leftByCut_congr hstand htables]
  rfl

/-- The record at O once the record at K is cut is the one the lines bring out. -/
theorem atOutfeed_eq :
    (cutLine now (endWindows (decisionLine now s))).trimmerAt now s.tables.station.outfeed = s.outOf now s.board.trimmer := by
  have horder := hf.order
  have hleft : ∀ x ∈ s.board.trimmer, x.trimmerOffset now = s.tables.station.outfeed →
      s.leftByK now x = if s.trashed now x = true then none
        else some (if x.trimmerOffset now = s.tables.station.sawSet + 1 then s.cutRecord x else s.charge x) := by
    intro x hx ho
    have hwindows : s.leftByWindows now x = some (s.charge x) := by
      unfold State.leftByWindows
      rw [if_neg (by omega)]
    unfold State.leftByK atOffset
    by_cases hk : x.trimmerOffset now = s.tables.station.sawSet + 1
    · obtain ⟨d, hd⟩ := Option.isSome_iff_exists.mp (hf.decided x hx hk)
      rw [if_pos hk, if_pos hk, hwindows, Option.bind_some, leftByCut_charge hd]
      exact if_congr (trashed_iff hd hk).symm rfl rfl
    · rw [if_neg hk, if_neg hk, hwindows, not_trashed hk]
      rfl
  unfold State.trimmerAt State.outOf
  rw [cutLine_leftByK hf, find_left (keepsPlace_K s now)]
  have hsame : ∀ x ∈ s.board.trimmer, (decide (x.trimmerOffset now = s.tables.station.outfeed) && (s.leftByK now x).isSome) =
      (decide (x.trimmerOffset now = s.tables.station.outfeed) && !s.trashed now x) := by
    intro x hx
    by_cases ho : x.trimmerOffset now = s.tables.station.outfeed
    · rw [hleft x hx ho]
      cases s.trashed now x <;> rfl
    · rw [decide_eq_false ho, Bool.false_and, Bool.false_and]
  rw [List.find?_congr hsame]
  cases h : s.board.trimmer.find? fun x => decide (x.trimmerOffset now = s.tables.station.outfeed) && !s.trashed now x with
  | none => rfl
  | some x =>
    have hx := List.mem_of_find?_eq_some h
    obtain ⟨ho, ht⟩ := Bool.and_eq_true_iff.mp (List.find?_some (p := fun x : Record =>
      decide (x.trimmerOffset now = s.tables.station.outfeed) && !s.trashed now x) h)
    rw [Option.bind_some, hleft x hx (of_decide_eq_true ho), if_neg (by simpa using ht)]
    rfl

/-- What the lines leave on the trimmer map. -/
theorem trimmerLines_left : (trimmerLines now s).board.trimmer = s.board.trimmer.filterMap (s.leftByLines now) := by
  have horder := hf.order
  have htables : (cutLine now (endWindows (decisionLine now s))).tables = s.tables :=
    ((cutLine_outside now _).tables rfl).trans (windows_stand s now).2
  have hout := outfeedLine_left (keepsPlace_K s now) hf.lugs (cutLine_leftByK hf)
  rw [htables] at hout
  have hset := setLine_left ((keepsPlace_K s now).atOffset keepsPlace_none) hf.lugs hout
  rw [(outfeedLine_outside now _).tables rfl, htables] at hset
  unfold trimmerLines
  rw [hset]
  refine List.filterMap_congr fun x hx => ?_
  unfold State.leftByLines State.leftByK atOffset State.leftByWindows
  by_cases hD : x.trimmerOffset now = s.tables.station.decision
  · rw [if_neg (by omega), if_neg (by omega), if_neg (by omega), if_pos hD, if_pos hD, charge_decided]
  · rw [if_neg hD, if_neg hD]
    by_cases hS : x.trimmerOffset now = s.tables.station.sawSet
    · rw [if_pos hS, if_neg (by omega), if_neg (by omega), if_pos hS]
      rfl
    · rw [if_neg hS, if_neg hS]
      by_cases hO : x.trimmerOffset now = s.tables.station.outfeed
      · rw [if_pos hO, if_pos (show s.trashed now x = true ∨ x.trimmerOffset now = s.tables.station.outfeed from .inr hO)]
        exact Option.bind_fun_none _
      · rw [if_neg hO]
        by_cases hK : x.trimmerOffset now = s.tables.station.sawSet + 1
        · obtain ⟨d, hd⟩ := Option.isSome_iff_exists.mp (hf.decided x hx hK)
          rw [if_pos hK, if_pos hK, Option.bind_some, leftByCut_charge hd]
          exact if_congr (by simp [trashed_iff hd hK, hO]) rfl rfl
        · rw [if_neg hK, if_neg hK, if_neg (by simp [not_trashed hK, hO])]

end

end Sys2Proof.Machine
end

