-- ==== Sys2Proof/Proofs/TrimmerLineReports.lean ====
section
/-! What the lines of a trimmer advance report, what they leave of the transfer queue and of the decision unit (R29, R108, R116, R118), and
which parts of the state that depends on. -/

namespace Sys2Proof.Machine

-- One thread elaborates the many small proofs of this file.
set_option Elab.async false

/-! ### What follows one another -/

/-- The misses of the advance, reported in the order of the saws (R116). -/
def State.afterSaws (s w : State) : State := ((List.range 13).filter s.windowMissed).foldl s.sawMissed w

/-- The record trashed at K of those found, handed to the tally (R28). -/
def State.afterCut (s : State) (now : Serial) (rs : List Record) (w : State) : State :=
  (rs.find? (s.trashed now)).elim w fun r => handToTally (s.cutRecord r) .trashed w

/-- A record comes to a transfer queue that is full (R29). -/
def State.losesHead (s : State) (now : Serial) (rs : List Record) : Bool :=
  (s.outOf now rs).isSome && decide (8 ≤ s.board.transfer.length)

/-- A record as it joins the transfer queue (R29). -/
def Record.joins (r : Record) : Waiting := { board := { r with life := .inTransfer }, age := 0 }

/-- The transfer queue once the lines have acted (R29). -/
def State.transferAfter (s : State) (now : Serial) (rs : List Record) : List Waiting :=
  (if s.losesHead now rs then s.board.transfer.drop 1 else s.board.transfer) ++ (s.outOf now rs).toList.map Record.joins

/-- The head of a full transfer queue, LOST (R29). -/
def State.afterOut (s : State) (now : Serial) (rs : List Record) (w : State) : State :=
  s.board.transfer.head?.elim w fun head =>
    if s.losesHead now rs then raiseEvent .boardLost (some .trimmer) head.board.tag 1 (handToTally head.board .lost w) else w

/-- The misses, the record trashed and the head lost, one after another. -/
def State.linesReport (s : State) (now : Serial) (rs : List Record) (w : State) : State :=
  s.afterOut now rs (s.afterCut now rs (s.afterSaws w))

/-- The decision unit once the record at D is decided (R107, R108). -/
def State.decisionAfter (s : State) (now : Serial) (rs : List Record) : DecisionUnit :=
  (rs.find? fun r => r.trimmerOffset now = s.tables.station.decision).elim s.decision fun r =>
    s.decision.written r.tag (s.decideBoard r) false

section
variable {s w : State} {now : Serial} (hf : LinesFind s now)
include hf

theorem cutLine_reports (hr : SameReports (endWindows (decisionLine now s)) w) :
    SameReports (cutLine now (endWindows (decisionLine now s))) (s.afterCut now s.board.trimmer w) := by
  obtain ⟨hstand, htables⟩ := windows_stand s now
  unfold State.afterCut
  cases h : s.board.trimmer.find? (s.trashed now) with
  | none =>
    refine cutLine_quiet hr fun y hy => ?_
    rw [htables, atK_iff hf] at hy
    obtain ⟨x, hx, rfl, hk⟩ := hy
    obtain ⟨d, hd⟩ := Option.isSome_iff_exists.mp (hf.decided x hx hk)
    exact ⟨d, (charge_parts s x).1.trans hd, fun htrash => List.find?_eq_none.mp h x hx ((trashed_iff hd hk).mpr htrash)⟩
  | some x =>
    have hx := List.mem_of_find?_eq_some h
    have htrashed := List.find?_some h
    have hk : x.trimmerOffset now = s.tables.station.sawSet + 1 := of_decide_eq_true (Bool.and_eq_true_iff.mp htrashed).1
    obtain ⟨d, hd⟩ := Option.isSome_iff_exists.mp (hf.decided x hx hk)
    have hcut := cutLine_trashed hr (by rw [htables]; exact (atK_iff hf).mpr ⟨x, hx, rfl, hk⟩) ((charge_parts s x).1.trans hd)
      ((trashed_iff hd hk).mp htrashed)
    have hsame : (endWindows (decisionLine now s)).cutAs (s.charge x) d = s.cutRecord x := by
      rw [cutRecord_some hd]
      unfold State.cutAs
      rw [cutOutcome_congr hstand htables]
    rw [hsame] at hcut
    exact hcut

/-- The record at O goes to the transfer queue. -/
theorem outfeedLine_transfer (hr : SameReports (cutLine now (endWindows (decisionLine now s))) w) :
    let t := outfeedLine now (cutLine now (endWindows (decisionLine now s)))
    SameReports t (s.afterOut now s.board.trimmer w) ∧
    t.board.transfer = s.transferAfter now s.board.trimmer := by
  have htables := ((cutLine_outside now (endWindows (decisionLine now s))).tables rfl).trans (windows_stand s now).2
  have hat := atOutfeed_eq hf
  have htransfer := ((cutLine_outside now _).transfer rfl).trans
    (((endWindows_outside _).transfer rfl).trans ((decisionLine_outside now s).transfer rfl))
  generalize cutLine now (endWindows (decisionLine now s)) = v at hr htables hat htransfer
  unfold outfeedLine State.afterOut State.transferAfter State.losesHead
  rw [htables, hat]
  cases s.outOf now s.board.trimmer with
  | none =>
    have hquiet : (s.board.transfer.head?.elim w fun _ => w) = w := by cases s.board.transfer.head? <;> rfl
    simp only [Option.isSome_none, Bool.false_and, Bool.false_eq_true, if_false, hquiet, Option.toList_none, List.map_nil, List.append_nil]
    exact ⟨hr, htransfer⟩
  | some r =>
    have hleft : SameReports (v.leaveTrimmer r.tag) w := ⟨hr.serial, hr.events, hr.attention, hr.tally⟩
    have hqueue : (v.leaveTrimmer r.tag).board.transfer = s.board.transfer := htransfer
    simp only [Option.isSome_some, Bool.true_and, decide_eq_true_eq, Option.toList_some, List.map_cons, List.map_nil]
    by_cases hfull : 8 ≤ s.board.transfer.length
    · cases hlist : s.board.transfer with
      | nil =>
        rw [hlist] at hfull
        exact absurd hfull (by decide)
      | cons head rest =>
        obtain ⟨happend, hreports⟩ := appendTransfer_full hleft r (hqueue.trans hlist) (by rw [hqueue]; exact hfull)
        rw [hlist] at hfull
        rw [if_pos hfull]
        exact ⟨by rw [List.head?_cons, Option.elim_some, if_pos hfull]; exact hreports, happend⟩
    · obtain ⟨happend, hreports⟩ := appendTransfer_room hleft r (by rw [hqueue]; omega)
      have hquiet : (s.board.transfer.head?.elim w fun _ => w) = w := by cases s.board.transfer.head? <;> rfl
      simp only [hfull, if_false, hquiet]
      exact ⟨hreports, by rw [happend, hqueue]; rfl⟩

/-- What the lines of a trimmer advance report, and the transfer queue they leave. -/
theorem trimmerLines_reports (hr : SameReports s w) :
    SameReports (trimmerLines now s) (s.linesReport now s.board.trimmer w) ∧
    (trimmerLines now s).board.transfer = s.transferAfter now s.board.trimmer := by
  have hdecision := decisionLine_outside now s
  have hsaws := hdecision.saws rfl
  unfold trimmerLines State.linesReport State.afterSaws
  obtain ⟨hwindows, -, -⟩ := endWindows_ended ((decisionLine_reports (now := now)).trans hr)
  rw [windowMissed_congr hsaws, sawMissed_congr hsaws (hdecision.tables rfl)] at hwindows
  obtain ⟨hreports, htransfer⟩ := outfeedLine_transfer hf (cutLine_reports hf hwindows)
  have hset := setLine_outside now (outfeedLine now (cutLine now (endWindows (decisionLine now s))))
  exact ⟨(SameReports.of_outside hset rfl rfl rfl rfl).symm.trans hreports, (hset.transfer rfl).trans htransfer⟩

/-- The decision taken at D is written, counted and kept as the last (R107, R108). -/
theorem trimmerLines_decision :
    (trimmerLines now s).decision = s.decisionAfter now s.board.trimmer := by
  have hlater : Outside { saws := true, trimmer := true, transfer := true, tally := true, events := true, attention := true }
      (decisionLine now s) (trimmerLines now s) :=
    (((endWindows_outside _).weaken.then (cutLine_outside now _)).then (outfeedLine_outside now _)).then (setLine_outside now _)
  rw [hlater.decision rfl]
  unfold State.decisionAfter
  cases h : s.board.trimmer.find? fun r => r.trimmerOffset now = s.tables.station.decision with
  | none => rw [decisionLine_none h]; rfl
  | some r =>
    rw [decisionLine_some h (hf.scanned r (List.mem_of_find?_eq_some h) (of_decide_eq_true (List.find?_some (p := fun x : Record =>
      decide (x.trimmerOffset now = s.tables.station.decision)) h)))]
    rfl

end

/-! ### What the lines read beside the records found -/

/-- Two states whose lines act alike on the same records: the tables, the saws, the decision unit and the transfer queue. -/
structure SameGround (s t : State) : Prop where
  tables : t.tables = s.tables
  saws : t.saws = s.saws
  decision : t.decision = s.decision
  transfer : t.board.transfer = s.board.transfer

theorem memberValue_congr {s t : State} (h : t.tables = s.tables) : t.memberValue = s.memberValue := by
  cases s
  cases t
  cases h
  rfl

theorem best_congr {s t : State} (h : t.tables = s.tables) (scan : ScanSummary) (l : List Member) : t.best scan l = s.best scan l := by
  induction l with
  | nil => rfl
  | cons m rest ih =>
    unfold State.best
    rw [ih, memberValue_congr h]

section
variable {s t : State} (h : SameGround s t)
include h

theorem decideValued_congr (r : Record) (scan : ScanSummary) : t.decideValued r scan = s.decideValued r scan := by
  obtain ⟨htables, hsaws, hdecision, -⟩ := h
  unfold State.decideValued
  simp only [best_congr htables]
  cases s
  cases t
  cases htables
  cases hsaws
  cases hdecision
  rfl

theorem decideBoard_congr (r : Record) : t.decideBoard r = s.decideBoard r := by
  have hvalued := decideValued_congr h
  obtain ⟨htables, hsaws, hdecision, -⟩ := h
  unfold State.decideBoard State.decideUnforced
  simp only [hvalued]
  cases s
  cases t
  cases htables
  cases hsaws
  cases hdecision
  rfl

theorem charge_congr (x : Record) : t.charge x = s.charge x := by
  unfold State.charge State.charged
  rw [windowMissed_congr h.saws, h.saws]

theorem cutRecord_congr (x : Record) : t.cutRecord x = s.cutRecord x := by
  unfold State.cutRecord
  simp only [cutOutcome_congr (.of_saws h.saws) h.tables, charge_congr h]

theorem trashed_congr (now : Serial) : t.trashed now = s.trashed now := by
  unfold State.trashed
  rw [h.tables]

theorem outOf_congr (now : Serial) (rs : List Record) : t.outOf now rs = s.outOf now rs := by
  unfold State.outOf
  simp only [trashed_congr h, h.tables, cutRecord_congr h, charge_congr h]

theorem leftByLines_congr (now : Serial) (x : Record) : t.leftByLines now x = s.leftByLines now x := by
  unfold State.leftByLines
  rw [h.tables, charge_congr h, cutRecord_congr h, trashed_congr h, decideBoard_congr h]

theorem transferAfter_congr (now : Serial) (rs : List Record) : t.transferAfter now rs = s.transferAfter now rs := by
  unfold State.transferAfter State.losesHead
  rw [outOf_congr h, h.transfer]

theorem decisionAfter_congr (now : Serial) (rs : List Record) : t.decisionAfter now rs = s.decisionAfter now rs := by
  unfold State.decisionAfter
  simp only [h.tables, h.decision, decideBoard_congr h]

theorem linesReport_congr (now : Serial) (rs : List Record) (w : State) : t.linesReport now rs w = s.linesReport now rs w := by
  unfold State.linesReport State.afterOut State.afterCut State.afterSaws State.losesHead
  simp only [windowMissed_congr h.saws, sawMissed_congr h.saws h.tables, trashed_congr h, cutRecord_congr h, outOf_congr h, h.transfer]

end

end Sys2Proof.Machine
end

