-- ==== Sys2Proof/Proofs/TrimmerAdvances.lean ====
section
/-! The commands that give a trimmer advance (R5 to R9): the state in which the lines find the records, and what follows the lines. -/

namespace Sys2Proof.Machine

-- One thread elaborates the many small proofs of this file.
set_option Elab.async false

/-! ### What the TCU's own operations touch -/

theorem setUnit_trimmer_outside (u : ChainUnit) (s : State) : Outside { tcu := true } s (s.setUnit .trimmer u) := by
  constructor <;> intro h <;> first | exact absurd h (by decide) | rfl

theorem changeSync_trimmer_outside (new : Sync) (s : State) :
    Outside { tcu := true, events := true, attention := true } s (changeSync .trimmer new s) := by
  unfold changeSync
  split
  · exact .refl _ s
  · exact .then (.then (.then (setUnit_trimmer_outside _ s).weaken (raiseEvent_outside _ _ _ _ _)) (latch_outside _ _)) (latch_outside _ _)

theorem suspectMap_trimmer_outside (s : State) : Outside { trimmer := true } s (suspectMap .trimmer s) := by
  constructor <;> intro h <;> first | exact absurd h (by decide) | rfl

theorem counted_trimmer_outside (s : State) (n : Nat) (reverse : Bool) :
    Outside { tcu := true, events := true, attention := true } s (s.counted .trimmer n reverse) := by
  unfold State.counted
  dsimp only
  split
  · exact .then (setUnit_trimmer_outside _ s).weaken (raiseEvent_outside _ _ _ _ _)
  · exact (setUnit_trimmer_outside _ s).weaken

theorem missed_trimmer_outside (s : State) :
    Outside { tcu := true, trimmer := true, events := true, attention := true } s (s.missed .trimmer) := by
  unfold State.missed
  dsimp only
  split
  · exact .then (.then (.then (.then (setUnit_trimmer_outside _ s).weaken (raiseEvent_outside _ _ _ _ _)) (setUnit_trimmer_outside _ _))
      (changeSync_trimmer_outside _ _)) (suspectMap_trimmer_outside _)
  · exact .then (.then (setUnit_trimmer_outside _ s).weaken (raiseEvent_outside _ _ _ _ _)) (changeSync_trimmer_outside _ _)

/-! ### What the TCU reports -/

namespace SameReports
variable {s t : State}

/-- A new TCU of the same serial reports nothing. -/
theorem withUnit (h : SameReports s t) (u : ChainUnit) (hu : u.serial = (s.unit .trimmer).serial) : SameReports (s.setUnit .trimmer u) t :=
  (setUnit .trimmer s u hu).symm.trans h

/-- A change of sync state reports what `syncRaised` says, where it is a change. -/
theorem changeSync_cases (h : SameReports s t) (ch : Chain) (new : Sync) :
    SameReports (changeSync ch new s) (if (s.unit ch).sync = new then t else t.syncRaised ch new.code) := by
  split
  · next hs =>
    unfold changeSync
    rw [if_pos hs]
    exact h
  · next hs => exact h.changeSync_of_ne hs

end SameReports

/-- An edge changes the TCU's sync state to LOCKED (R5, R8, R9). -/
def State.edgeLocks (s : State) : Bool :=
  match s.tcu.sync with
  | .search | .lost => decide (4 ≤ s.goodAfter .trimmer)
  | .coast => true
  | .locked => false

theorem afterLines_trimmer (s : State) (edge : Bool) (lines : State) :
    s.afterLines .trimmer edge lines = if edge && s.edgeLocks then lines.syncRaised .trimmer 1 else lines := rfl

theorem SameReports.afterLines {x y : State} (h : SameReports x y) (s : State) (edge : Bool) :
    SameReports (s.afterLines .trimmer edge x) (s.afterLines .trimmer edge y) := by
  rw [afterLines_trimmer, afterLines_trimmer]
  split
  · exact h.syncRaised _ _
  · exact h

/-- A count that runs the chain again reports CHAIN-RUN (R2). -/
theorem counted_reports (s : State) (n : Nat) :
    SameReports (s.counted .trimmer n false) (if s.tcu.stopped then raiseEvent .chainRun (some .trimmer) 0 0 s else s) := by
  unfold State.counted
  dsimp only
  have hset := (SameReports.refl s).withUnit { s.tcu with
    count := n, stopped := false, reverse := false, stopTimer := some { elapsed := 0, limit := (s.params .trimmer).stopTime } } rfl
  change SameReports (if s.tcu.stopped = true then _ else _) _
  split
  · exact hset.raiseEvent _ _ _ _
  · exact hset

/-! ### Where the lines start -/

/-- The state in which the lines of a trimmer advance run: the records and the reports are those of `foundByLines`, and nothing else has
changed but the levels outside and the TCU. -/
structure LinesStart (s : State) (edge : Bool) (u : State) : Prop where
  outside : Outside { pins := true, tcu := true, trimmer := true, events := true, attention := true } s u
  trimmer : u.board.trimmer = (s.foundByLines .trimmer edge).board.trimmer
  reports : SameReports u (s.foundByLines .trimmer edge)

/-- A command that gives a trimmer advance runs the lines, reports what follows them, and raises the lug serial. -/
def TrimmerAdvanced (s : State) (edge : Bool) (t : State) : Prop :=
  ∃ u w, LinesStart s edge u ∧ Outside { tcu := true, events := true, attention := true } (advanceTrimmer u) w ∧
    SameReports w (s.afterLines .trimmer edge (advanceTrimmer u)) ∧ t = raiseSerial .trimmer w

/-! ### An advance by a count (R7, R9) -/

/-- CHAIN-RUN where the chain was STOPPED, then EYE-MISSED (R2, R7). -/
def State.eyeMissRaised (s : State) : State :=
  raiseEvent .eyeMissed (some .trimmer) 0 (s.tcu.miss + 1) (if s.tcu.stopped then raiseEvent .chainRun (some .trimmer) 0 0 s else s)

theorem foundByLines_trimmer_count (s : State) :
    s.foundByLines .trimmer false =
      if 3 ≤ s.tcu.miss + 1 then suspectMap .trimmer (s.eyeMissRaised.syncRaised .trimmer 3)
      else if s.tcu.sync = .coast then s.eyeMissRaised
      else s.eyeMissRaised.syncRaised .trimmer 2 := rfl

theorem syncRaised_trimmer_outside (s : State) (n : Nat) : Outside { events := true, attention := true } s (s.syncRaised .trimmer n) := by
  rw [syncRaised_trimmer]
  exact .then (.then (raiseEvent_outside _ _ _ _ _) (latch_outside _ _)) (latch_outside _ _)

theorem eyeMissRaised_outside (s : State) : Outside { events := true, attention := true } s s.eyeMissRaised := by
  unfold State.eyeMissRaised
  split
  · exact (raiseEvent_outside _ _ _ _ _).trans (raiseEvent_outside _ _ _ _ _)
  · exact raiseEvent_outside _ _ _ _ _

/-- The third miss in a row marks the map SUSPECT (R9). -/
theorem foundByLines_trimmer_records (s : State) :
    (s.foundByLines .trimmer false).board.trimmer = if 3 ≤ s.tcu.miss + 1 then markSuspect s.board.trimmer else s.board.trimmer := by
  have hraised := fun n => (syncRaised_trimmer_outside s.eyeMissRaised n).trimmer rfl
  have hmissed := (eyeMissRaised_outside s).trimmer rfl
  rw [foundByLines_trimmer_count]
  split
  · exact congrArg markSuspect ((hraised 3).trans hmissed)
  · split
    · exact hmissed
    · exact (hraised 2).trans hmissed

/-- A TCU with its miss counted and EYE-MISSED raised. -/
def State.missRaised (s : State) : State :=
  raiseEvent .eyeMissed (some .trimmer) 0 (s.tcu.miss + 1)
    (s.setUnit .trimmer { s.tcu with count := (s.params .trimmer).tolerance, miss := s.tcu.miss + 1 })

theorem missed_trimmer (s : State) : s.missed .trimmer =
    if 3 ≤ s.tcu.miss + 1 then
      suspectMap .trimmer (changeSync .trimmer .lost (s.missRaised.setUnit .trimmer { s.missRaised.tcu with good := 0 }))
    else changeSync .trimmer .coast s.missRaised := rfl

theorem missRaised_outside (s : State) : Outside { tcu := true, events := true, attention := true } s s.missRaised :=
  .then (setUnit_trimmer_outside _ s).weaken (raiseEvent_outside _ _ _ _ _)

theorem missRaised_sync (s : State) : s.missRaised.tcu.sync = s.tcu.sync := by
  unfold State.missRaised
  rw [(raiseEvent_outside _ _ _ _ _).tcu rfl]
  rfl

theorem missed_start {s : State} (n : Nat) (hs : s.tcu.sync = .locked ∨ s.tcu.sync = .coast) :
    LinesStart s false ((s.counted .trimmer n false).missed .trimmer) := by
  have hcounted := counted_trimmer_outside s n false
  have hunit : (s.counted .trimmer n false).tcu = _ := counted_unit s .trimmer n false
  have hmiss : (s.counted .trimmer n false).tcu.miss = s.tcu.miss := by rw [hunit]; rfl
  have hsync : (s.counted .trimmer n false).missRaised.tcu.sync = s.tcu.sync := by rw [missRaised_sync, hunit]; rfl
  have hraised : SameReports (s.counted .trimmer n false).missRaised s.eyeMissRaised := by
    unfold State.missRaised State.eyeMissRaised
    rw [hmiss]
    refine SameReports.raiseEvent ?_ _ _ _ _
    exact (counted_reports s n).withUnit _ rfl
  have hrecords : (s.counted .trimmer n false).missRaised.board.trimmer = s.board.trimmer :=
    ((missRaised_outside _).trimmer rfl).trans (hcounted.trimmer rfl)
  refine ⟨.then hcounted.weaken (missed_trimmer_outside _), ?_, ?_⟩
  · rw [foundByLines_trimmer_records, missed_trimmer, hmiss]
    split
    · exact congrArg markSuspect (((changeSync_trimmer_outside _ _).trimmer rfl).trans hrecords)
    · exact ((changeSync_trimmer_outside _ _).trimmer rfl).trans hrecords
  · rw [foundByLines_trimmer_count, missed_trimmer, hmiss]
    split
    · have hlost : ((s.counted .trimmer n false).missRaised.setUnit .trimmer
          { (s.counted .trimmer n false).missRaised.tcu with good := 0 }).tcu.sync ≠ .lost := by
        change (s.counted .trimmer n false).missRaised.tcu.sync ≠ .lost
        rw [hsync]
        obtain h | h := hs <;> rw [h] <;> simp
      have hchanged := (hraised.withUnit { (s.counted .trimmer n false).missRaised.tcu with good := 0 } rfl).changeSync_of_ne
        (ch := .trimmer) hlost
      exact ⟨hchanged.serial, hchanged.events, hchanged.attention, hchanged.tally⟩
    · have hchanged := hraised.changeSync_cases .trimmer .coast
      change SameReports _ (if (s.counted .trimmer n false).missRaised.tcu.sync = .coast then _ else _) at hchanged
      rw [hsync] at hchanged
      exact hchanged

/-! ### An advance by an edge (R5, R8) -/

/-- The state in which an edge finds the chain: the level outside stands. -/
theorem edge_start (s : State) (u : ChainUnit) (hu : u.serial = s.tcu.serial) :
    LinesStart s true ((s.withPin (.lug .trimmer) true).setUnit .trimmer u) := by
  have hpin : Outside { pins := true } s (s.withPin (.lug .trimmer) true) := by
    constructor <;> intro h <;> first | exact absurd h (by decide) | rfl
  have hreports : SameReports (s.withPin (.lug .trimmer) true) s := ⟨rfl, rfl, rfl, rfl⟩
  exact ⟨.then hpin.weaken (setUnit_trimmer_outside u _), rfl, hreports.withUnit u hu⟩

/-- An edge that locks the chain from another sync state, after its lines. -/
theorem changeSync_locked {s x v : State} (hl : s.edgeLocks = true) (hr : SameReports x v) (hx : x.tcu.sync ≠ .locked) :
    SameReports (changeSync .trimmer .locked x) (s.afterLines .trimmer true v) := by
  rw [afterLines_trimmer, hl]
  exact hr.changeSync_of_ne (ch := .trimmer) hx

theorem acquireEdge_trimmer {s : State} (hs : s.tcu.sync = .search ∨ s.tcu.sync = .lost) :
    TrimmerAdvanced s true (acquireEdge .trimmer (s.withPin (.lug .trimmer) true)) := by
  have hlocks : s.edgeLocks = decide (4 ≤ s.goodAfter .trimmer) := by
    unfold State.edgeLocks
    obtain h | h := hs <;> rw [h]
  have hne : s.tcu.sync ≠ .locked := by obtain h | h := hs <;> rw [h] <;> simp
  have hstart := edge_start s { s.tcu with count := 0, good := s.goodAfter .trimmer } rfl
  rw [acquireEdge_eq]
  change TrimmerAdvanced s true (raiseSerial .trimmer (if 4 ≤ s.goodAfter .trimmer then
    changeSync .trimmer .locked ((advanceTrimmer ((s.withPin (.lug .trimmer) true).setUnit .trimmer
      { s.tcu with count := 0, good := s.goodAfter .trimmer })).setUnit .trimmer { s.tcu with count := 0, good := 0, miss := 0 })
    else advanceTrimmer ((s.withPin (.lug .trimmer) true).setUnit .trimmer { s.tcu with count := 0, good := s.goodAfter .trimmer })))
  generalize hv : (s.withPin (.lug .trimmer) true).setUnit .trimmer { s.tcu with count := 0, good := s.goodAfter .trimmer } = v at *
  have hserial : (advanceTrimmer v).tcu.serial = s.tcu.serial := by rw [(advanceTrimmer_outside v).tcu rfl, ← hv]; rfl
  refine ⟨v, _, hstart, ?_, ?_, rfl⟩
  · split
    · exact .then (setUnit_trimmer_outside _ _).weaken (changeSync_trimmer_outside _ _)
    · exact .refl _ _
  · split
    · next h =>
      refine changeSync_locked (hlocks.trans (decide_eq_true h)) ((SameReports.refl _).withUnit _ hserial.symm) ?_
      exact hne
    · next h =>
      rw [afterLines_trimmer, hlocks, decide_eq_false h]
      exact .refl _

theorem trackEdge_trimmer {s : State} (hs : s.tcu.sync = .locked ∨ s.tcu.sync = .coast)
    (hc : (s.params .trimmer).windowLow ≤ s.tcu.count) : TrimmerAdvanced s true (trackEdge .trimmer (s.withPin (.lug .trimmer) true)) := by
  have hstart := edge_start s { s.tcu with count := 0, miss := 0 } rfl
  rw [trackEdge_eq (by exact hc)]
  change TrimmerAdvanced s true (raiseSerial .trimmer (changeSync .trimmer .locked
    (advanceTrimmer ((s.withPin (.lug .trimmer) true).setUnit .trimmer { s.tcu with count := 0, miss := 0 }))))
  generalize hv : (s.withPin (.lug .trimmer) true).setUnit .trimmer { s.tcu with count := 0, miss := 0 } = v at *
  have hsync : (advanceTrimmer v).tcu.sync = s.tcu.sync := by rw [(advanceTrimmer_outside v).tcu rfl, ← hv]; rfl
  refine ⟨v, _, hstart, changeSync_trimmer_outside _ _, ?_, rfl⟩
  obtain h | h := hs
  · rw [changeSync, if_pos (by exact hsync.trans h), afterLines_trimmer, State.edgeLocks, h]
    exact .refl _
  · exact changeSync_locked (by unfold State.edgeLocks; rw [h]) (.refl _) (by rw [hsync, h]; simp)

/-! ### The commands -/

/-- A trimmer advance runs the lines on the records as `foundByLines` says, then `afterLines`. -/
theorem exec_advance_trimmer {s : State} {edge : Bool} (h : s.advances .trimmer edge) :
    ∃ t, exec (advanceCommand .trimmer edge) s = .next t ∧ TrimmerAdvanced s edge t := by
  cases edge with
  | false =>
    obtain ⟨ha, hs, hc⟩ := h
    have hdue : syntheticDue s .trimmer = true := (syntheticDue_iff s .trimmer).mpr ⟨hs, hc⟩
    refine ⟨forwardCount .trimmer s, whenAwake_awake ha, ?_⟩
    rw [forwardCount_eq, if_pos hdue, syntheticAdvance_eq]
    exact ⟨_, _, missed_start _ hs, .refl _ _, .refl _, rfl⟩
  | true =>
    obtain ⟨ht, hv, hr, hm⟩ := h
    refine ⟨_, exec_lugEye_taken ht, ?_⟩
    change (match s.tcu.sync with | .search | .lost => _ | .locked | .coast => _) at hm
    have hacquire : s.tcu.sync = .search ∨ s.tcu.sync = .lost → (s.params .trimmer).halfPitch ≤ s.tcu.count →
        TrimmerAdvanced s true (lugEdge .trimmer (s.withPin (.lug .trimmer) true)) := fun hs hc => by
      rw [lugEdge_acquiring (by exact hv) (by exact hr) (by exact hs), if_neg (Nat.not_lt.mpr (by exact hc))]
      exact acquireEdge_trimmer hs
    have htrack : s.tcu.sync = .locked ∨ s.tcu.sync = .coast → (s.params .trimmer).windowLow ≤ s.tcu.count →
        TrimmerAdvanced s true (lugEdge .trimmer (s.withPin (.lug .trimmer) true)) := fun hs hc => by
      rw [lugEdge_tracking (by exact hv) (by exact hr) (by exact hs)]
      exact trackEdge_trimmer hs hc
    cases hsync : s.tcu.sync with
    | search => rw [hsync] at hm; exact hacquire (.inl hsync) hm
    | lost => rw [hsync] at hm; exact hacquire (.inr hsync) hm
    | locked => rw [hsync] at hm; exact htrack (.inl hsync) hm
    | coast => rw [hsync] at hm; exact htrack (.inr hsync) hm

end Sys2Proof.Machine
end

