-- ==== Sys2Proof/Proofs/TrimmerAdvanceSettled.lean ====
section
/-! What a trimmer advance does (O9): the placed records are found on lugs of their own with the lives their lines expect, the lines act on
them, and the rest of the command touches neither them nor the units the lines write. -/

namespace Sys2Proof.Machine

-- One thread elaborates the many small proofs of this file.
set_option Elab.async false

/-! ### What an advance finds -/

/-- Offsets go up by 1 on an advance of placed records. -/
theorem trimmerOffset_advance {s : State} (h : BoardsPlaced s) {r : Record} (hr : r ∈ s.board.trimmer) :
    r.trimmerOffset (s.tcu.serial + 1) = r.trimmerOffset s.tcu.serial + 1 := by
  have hreach : offsetAt s.tcu.serial r.creation < s.tables.station.outfeed := h.trimmerReach r hr
  have hstation := (stationFault_eq_none _).mp h.stations
  exact offsetAt_advance (by omega)

/-- Placed records stand on lugs of their own. -/
theorem BoardsPlaced.onLugs {s : State} (h : BoardsPlaced s) : OnLugs s.board.trimmer (s.tcu.serial + 1) := by
  have htags : (s.board.trimmer.map (·.tag)).Nodup :=
    (h.distinct.sublist ((List.sublist_append_left _ _).trans (List.sublist_append_left _ _) |>.map _))
  have hoffsets : (s.board.trimmer.map fun r => r.trimmerOffset s.tcu.serial).Nodup :=
    List.pairwise_map.mpr (h.trimmerOrder.imp fun hlt => (Nat.ne_of_lt hlt).symm)
  rintro x hx y hy (htag | hoff)
  · exact List.inj_on_of_nodup_map htags hx hy htag
  · rw [trimmerOffset_advance h hx, trimmerOffset_advance h hy] at hoff
    exact List.inj_on_of_nodup_map hoffsets hx hy (Nat.succ.inj hoff)

theorem LivesPlaced.linesFind {s : State} (h : LivesPlaced s) : LinesFind s (s.tcu.serial + 1) := by
  have hstation := (stationFault_eq_none _).mp h.placed.stations
  refine ⟨h.placed.onLugs, fun x hx hD => ?_, fun x hx hK => ?_, by omega⟩
  · rw [trimmerOffset_advance h.placed hx] at hD
    exact (h.scanned x hx (by omega)).1
  · rw [trimmerOffset_advance h.placed hx] at hK
    exact (h.set x hx (by omega)).2

theorem foundByLines_trimmer_outside (s : State) (edge : Bool) :
    Outside { trimmer := true, events := true, attention := true } s (s.foundByLines .trimmer edge) := by
  cases edge with
  | true => exact .refl _ s
  | false =>
    have hmissed := (eyeMissRaised_outside s).weaken (n := { trimmer := true, events := true, attention := true })
    rw [foundByLines_trimmer_count]
    split
    · exact .then (.then hmissed (syncRaised_trimmer_outside _ _)) (suspectMap_trimmer_outside _)
    · split
      · exact hmissed
      · exact .then hmissed (syncRaised_trimmer_outside _ _)

/-- The records found are those of the map, each as it was or SUSPECT. -/
theorem foundByLines_records (s : State) (edge : Bool) : ∃ f : Record → Record,
    (∀ r, (f r).tag = r.tag ∧ (f r).creation = r.creation ∧ (f r).life = r.life ∧ (f r).decision = r.decision) ∧
    (s.foundByLines .trimmer edge).board.trimmer = s.board.trimmer.map f := by
  cases edge with
  | true => exact ⟨id, fun _ => ⟨rfl, rfl, rfl, rfl⟩, (List.map_id _).symm⟩
  | false =>
    rw [foundByLines_trimmer_records]
    split
    · exact ⟨fun r => { r with flags := { r.flags with suspect := true } }, fun _ => ⟨rfl, rfl, rfl, rfl⟩, rfl⟩
    · exact ⟨id, fun _ => ⟨rfl, rfl, rfl, rfl⟩, (List.map_id _).symm⟩

namespace LinesStart
variable {s u : State} {edge : Bool} (h : LinesStart s edge u)
include h

theorem ground : SameGround s u := ⟨h.outside.tables rfl, h.outside.saws rfl, h.outside.decision rfl, h.outside.transfer rfl⟩

theorem serial : u.tcu.serial = s.tcu.serial := by rw [h.reports.serial, (foundByLines_trimmer_outside s edge).tcu rfl]

theorem linesFind (hp : LivesPlaced s) : LinesFind u (s.tcu.serial + 1) := by
  obtain ⟨f, hf, hfound⟩ := foundByLines_records s edge
  have hrecords := h.trimmer.trans hfound
  have hfind := hp.linesFind
  have hoff : ∀ x, (f x).trimmerOffset (s.tcu.serial + 1) = x.trimmerOffset (s.tcu.serial + 1) := fun x =>
    congrArg (offsetAt _) (hf x).2.1
  constructor
  · rw [hrecords]
    intro a ha b hb hab
    obtain ⟨x, hx, rfl⟩ := List.mem_map.mp ha
    obtain ⟨y, hy, rfl⟩ := List.mem_map.mp hb
    rw [hoff, hoff, (hf x).1, (hf y).1] at hab
    rw [hfind.lugs x hx y hy hab]
  · rw [hrecords, h.ground.tables]
    intro a ha hD
    obtain ⟨x, hx, rfl⟩ := List.mem_map.mp ha
    exact (hf x).2.2.1.trans (hfind.scanned x hx ((hoff x).symm.trans hD))
  · rw [hrecords, h.ground.tables]
    intro a ha hK
    obtain ⟨x, hx, rfl⟩ := List.mem_map.mp ha
    rw [(hf x).2.2.2]
    exact hfind.decided x hx ((hoff x).symm.trans hK)
  · rw [h.ground.tables]
    exact hfind.order

end LinesStart

/-! ### The advance -/

theorem advanceTrimmer_run {u : State} (h : u.board.line = .run) :
    Outside { gradingA := true, gradingB := true } (trimmerLines (u.tcu.serial + 1) u) (advanceTrimmer u) := by
  unfold advanceTrimmer
  rw [h]
  exact (markAdvance_outside _ .a _).trans (markAdvance_outside _ .b _)

theorem advanceTrimmer_config {u : State} (h : u.board.line = .config) :
    Outside { gradingA := true, gradingB := true } u (advanceTrimmer u) := by
  unfold advanceTrimmer
  rw [h]
  exact (markAdvance_outside _ .a _).trans (markAdvance_outside _ .b _)

/-- What keeps every part of the board map but the trimmer map and the transfer queue. -/
theorem Outside.board_but_two {s t : State} (h : Outside { Touched.byAdvance with pins := true, sorter := false } s t) :
    t.board = { s.board with trimmer := t.board.trimmer, transfer := t.board.transfer } := by
  have h3 := h.sorter rfl
  have h4 := h.nextTag rfl
  have h5 := h.line rfl
  have h6 := h.postings rfl
  have h7 := h.forces rfl
  cases ht : t.board
  cases hs : s.board
  simp_all

/-- The parts that a trimmer advance changes. -/
def Touched.byTrimmer : Touched :=
  { pins := true, tcu := true, trimmer := true, transfer := true, decision := true, saws := true, tally := true, events := true,
    attention := true, gradingA := true, gradingB := true }

theorem TrimmerAdvanced.outside {s t : State} {edge : Bool} (h : TrimmerAdvanced s edge t) : Outside .byTrimmer s t := by
  obtain ⟨u, w, hstart, hw, -, rfl⟩ := h
  exact .then (.then (.then hstart.outside.weaken (advanceTrimmer_outside u)) hw) (setUnit_trimmer_outside _ w)

theorem afterLines_trimmer_outside (s : State) (edge : Bool) (lines : State) :
    Outside { events := true, attention := true } lines (s.afterLines .trimmer edge lines) := by
  rw [afterLines_trimmer]
  split
  · exact syncRaised_trimmer_outside lines 1
  · exact .refl _ _

/-- In CONFIG an advance only moves the chain and chooses the targets. -/
theorem TrimmerAdvanced.config {s t : State} {edge : Bool} (h : TrimmerAdvanced s edge t) (hl : s.board.line = .config) :
    let found := s.foundByLines .trimmer edge
    t.board = found.board ∧ t.saws = s.saws ∧ t.decision = s.decision ∧ t.tally = s.tally ∧
      t.events = (s.afterLines .trimmer edge found).events ∧ t.attention = (s.afterLines .trimmer edge found).attention := by
  obtain ⟨u, w, hstart, hw, hreports, rfl⟩ := h
  have hmarks := advanceTrimmer_config ((hstart.outside.line rfl).trans hl)
  have ho : Outside { pins := true, tcu := true, trimmer := true, events := true, attention := true, gradingA := true, gradingB := true }
      s w := .then (.then hstart.outside.weaken hmarks) hw
  have hfound := foundByLines_trimmer_outside s edge
  have hr : SameReports w (s.afterLines .trimmer edge (s.foundByLines .trimmer edge)) :=
    hreports.trans (((SameReports.of_outside hmarks rfl rfl rfl rfl).symm.trans hstart.reports).afterLines s edge)
  refine ⟨?_, ho.saws rfl, ho.decision rfl, ho.tally rfl, hr.events, hr.attention⟩
  have htrimmer : w.board.trimmer = (s.foundByLines .trimmer edge).board.trimmer :=
    (hw.trimmer rfl).trans ((hmarks.trimmer rfl).trans hstart.trimmer)
  have htransfer : w.board.transfer = (s.foundByLines .trimmer edge).board.transfer := (ho.transfer rfl).trans (hfound.transfer rfl).symm
  change w.board = _
  rw [ho.weaken.board_but_two, hfound.weaken.board_but_two, htrimmer, htransfer]

/-- In RUN the lines act on the records found. -/
theorem TrimmerAdvanced.run {s t : State} {edge : Bool} (h : TrimmerAdvanced s edge t) (hp : LivesPlaced s) (hl : s.board.line = .run) :
    let found := s.foundByLines .trimmer edge
    let now := s.tcu.serial + 1
    let lines := s.linesReport now found.board.trimmer found
    t.board = { s.board with
      trimmer := found.board.trimmer.filterMap (s.leftByLines now), transfer := s.transferAfter now found.board.trimmer } ∧
    t.decision = s.decisionAfter now found.board.trimmer ∧ t.tally = lines.tally ∧
    t.events = (s.afterLines .trimmer edge lines).events ∧ t.attention = (s.afterLines .trimmer edge lines).attention := by
  have ht := h.outside
  obtain ⟨u, w, hstart, hw, hreports, rfl⟩ := h
  have hmarks := advanceTrimmer_run ((hstart.outside.line rfl).trans hl)
  have hfind := hstart.linesFind hp
  obtain ⟨hlines, htransfer⟩ := trimmerLines_reports hfind hstart.reports
  have hleft := trimmerLines_left hfind
  have hdecision := trimmerLines_decision hfind
  have hg := hstart.ground
  rw [hstart.serial] at hmarks
  rw [hstart.trimmer, linesReport_congr hg] at hlines
  rw [hstart.trimmer, transferAfter_congr hg] at htransfer
  rw [hstart.trimmer, funext (leftByLines_congr hg _)] at hleft
  rw [hstart.trimmer, decisionAfter_congr hg] at hdecision
  have hr := hreports.trans (((SameReports.of_outside hmarks rfl rfl rfl rfl).symm.trans hlines).afterLines s edge)
  refine ⟨?_, (hw.decision rfl).trans ((hmarks.decision rfl).trans hdecision),
    hr.tally.trans ((afterLines_trimmer_outside s edge _).tally rfl), hr.events, hr.attention⟩
  rw [ht.weaken.board_but_two]
  exact congrArg₂ (fun trimmer transfer => { s.board with trimmer, transfer })
    ((hw.trimmer rfl).trans ((hmarks.trimmer rfl).trans hleft)) ((hw.transfer rfl).trans ((hmarks.transfer rfl).trans htransfer))

end Sys2Proof.Machine

namespace Sys2Proof.Proofs
open Sys2Proof.Machine

/-- Settles O9: the lines find the placed records, and each line acts on what the lines before it leave of them. -/
theorem trimmerAdvance : Obligations.TrimmerAdvance := by
  unfold Obligations.TrimmerAdvance
  intro edge s hp ha now line off found missed charged charge cut trashed out full decided sawMissed afterSaws afterCut afterOut
  obtain ⟨t, hexec, hadvanced⟩ := exec_advance_trimmer ha
  have ho := hadvanced.outside
  refine ⟨t, hexec, ho.sort rfl, ho.scu rfl, ho.links rfl, ho.tables rfl, ho.timebase rfl, ho.standing rfl, ho.pending rfl,
    hadvanced.config, fun hl => ?_⟩
  obtain ⟨hboard, hdecision, htally, hevents, hattention⟩ := hadvanced.run hp hl
  -- What the statement names in its own words, by the names of the lemmas.
  have hcut : cut = s.cutRecord := funext fun r => by
    simp only [cut, State.cutRecord]
    cases r.decision <;> rfl
  have hout : out = s.outOf now found.board.trimmer := by
    simp only [out, hcut]
    rfl
  have hfull : full = s.losesHead now found.board.trimmer := congrArg (fun o => o.isSome && decide (8 ≤ s.board.transfer.length)) hout
  have hafterCut : afterCut = s.afterCut now found.board.trimmer afterSaws := by
    simp only [afterCut, State.afterCut, hcut]
    change _ = Option.elim (found.board.trimmer.find? trashed) _ _
    cases found.board.trimmer.find? trashed <;> rfl
  have hlines : afterOut = s.linesReport now found.board.trimmer found := by
    simp only [afterOut, State.linesReport, State.afterOut, hfull, hafterCut]
    cases s.board.transfer.head? <;> rfl
  refine ⟨?_, ?_, ?_, ?_, ?_⟩
  · rw [hboard, hfull, hout, hcut]
    rfl
  · rw [hdecision]
    change Option.elim decided _ _ = _
    cases decided <;> rfl
  · rw [hlines]; exact htally
  · rw [hlines]; exact hevents
  · rw [hlines]; exact hattention

end Sys2Proof.Proofs
end

