-- ==== Sys2Proof/Proofs/Postings.lean ====
section
/-! Optimizer postings: the record a posting names, what its store does to it, and the counts (O34, O35). -/

namespace Sys2Proof.Machine

-- One thread elaborates the many small proofs of this file.
set_option Elab.async false

/-! ### The record a posting names (R44) -/

section
variable {s : State} {tag line : Nat} {r : Record}

theorem onTrimmerBelow_none (h : s.locate tag = none) : s.onTrimmerBelow tag line = .error { status := .noTag, fields := u16 tag } := by
  unfold State.onTrimmerBelow
  rw [h]

/-- A record at the line or past it, in the transfer queue or on the sorter is too late for a posting. -/
theorem onTrimmerBelow_late {place : Place} (h : s.locate tag = some (r, place)) (hlate : ∀ off, place = .trimmer off → line ≤ off) :
    s.onTrimmerBelow tag line = .error { status := .late, fields := u16 tag ++ u32 r.creation.toNat ++ u8 r.life.code } := by
  unfold State.onTrimmerBelow
  rw [h]
  cases place with
  | trimmer off => exact if_neg (Nat.not_lt.mpr (hlate off rfl))
  | transfer position age => rfl
  | sorter off => rfl

theorem onTrimmerBelow_below {off : Nat} (h : s.locate tag = some (r, .trimmer off)) (hlt : off < line) :
    s.onTrimmerBelow tag line = .ok (r, off) := by
  unfold State.onTrimmerBelow
  rw [h]
  exact if_pos hlt

theorem taken_onTrimmerBelow (s : State) (l : LinkId) (tag line : Nat) : (s.taken l).onTrimmerBelow tag line = s.onTrimmerBelow tag line := by
  unfold State.onTrimmerBelow
  rw [taken_locate]

end

/-! ### A posting on a link's taken request (R53) -/

theorem taken_modifyPostings (s : State) (l : LinkId) (f : PostingCounts → PostingCounts) :
    (s.taken l).modifyPostings f = (s.modifyPostings f).taken l := by cases l <;> rfl

theorem taken_modifyTrimmer (s : State) (l : LinkId) (tag : Nat) (f : Record → Record) :
    (s.taken l).modifyTrimmer tag f = (s.modifyTrimmer tag f).taken l := by cases l <;> rfl

section
variable {s t : State} {l : LinkId} {tag : Nat} {store : Record → Nat → State → State × Answer} {a : Answer}

/-- A posting whose record is refused is counted and stores nothing. -/
theorem posting_refused (h : s.onTrimmerBelow tag s.tables.station.decision = .error a) :
    posting tag store (s.taken l) = ((s.modifyPostings (PostingCounts.after a.status)).taken l, a) := by
  unfold posting
  rw [taken_tables, taken_onTrimmerBelow, h]
  exact congrArg (·, a) (taken_modifyPostings s l _)

/-- A posting whose record is below the decision line does what its store does, and is counted. -/
theorem posting_found {r : Record} {off : Nat} (h : s.onTrimmerBelow tag s.tables.station.decision = .ok (r, off))
    (hstore : store r off (s.taken l) = (t.taken l, a)) :
    posting tag store (s.taken l) = ((t.modifyPostings (PostingCounts.after a.status)).taken l, a) := by
  unfold posting
  rw [taken_tables, taken_onTrimmerBelow, h]
  dsimp only
  rw [hstore]
  exact congrArg (·, a) (taken_modifyPostings t l _)

end

theorem postingBytes_eq (r : Record) (off decision : Nat) :
    postingBytes r off decision = u16 r.tag ++ u32 r.creation.toNat ++ u8 off ++ u8 (decision - off) ++
      u8 ((r.solution.map (·.revision)).getD 0) ++ u8 (r.flags.suspect.toNat + 2 * r.flags.double.toNat) := by
  have hdoubt : r.flags.doubtByte = r.flags.suspect.toNat + 2 * r.flags.double.toNat := by
    simp only [RecordFlags.doubtByte, packBits_cons, packBits_nil]
    omega
  rw [postingBytes, hdoubt]

/-- Changes of a record by tag that agree on the records with that tag. -/
theorem mapTag_congr {tag : Nat} {rs : List Record} {f g : Record → Record} (h : ∀ x ∈ rs, x.tag = tag → f x = g x) :
    mapTag tag f rs = mapTag tag g rs :=
  List.map_congr_left fun x hx => ite_congr rfl (h x hx) fun _ => rfl

/-! ### POST-SCAN (R45, R50) -/

section
variable {s : State} {tag off : Nat} {scan : ScanSummary} {r : Record}

theorem storeScan_badLength (hlength : ¬ (300 ≤ scan.length ∧ scan.length ≤ 7500)) :
    storeScan tag scan r off s = (s, postingRange tag 0 1) := if_pos (by omega)

section
variable (hlength : 300 ≤ scan.length ∧ scan.length ≤ 7500)
include hlength

theorem storeScan_badThickness (hthickness : s.thicknessDefined scan.thickness = false) :
    storeScan tag scan r off s = (s, postingRange tag 0 2) := by
  unfold storeScan
  rw [if_neg (by omega), if_pos hthickness]

theorem storeScan_badWidth (hthickness : s.thicknessDefined scan.thickness = true) (hwidth : s.widthDefined scan.width = false) :
    storeScan tag scan r off s = (s, postingRange tag 0 3) := by
  unfold storeScan
  rw [if_neg (by omega), hthickness, if_neg (by decide), if_pos hwidth]

theorem storeScan_stored (hthickness : s.thicknessDefined scan.thickness = true) (hwidth : s.widthDefined scan.width = true) :
    storeScan tag scan r off s = (s.modifyTrimmer tag (Record.withScan scan),
      { status := .ok, fields := postingBytes (r.withScan scan) off s.tables.station.decision }) := by
  unfold storeScan
  rw [if_neg (by omega), hthickness, if_neg (by decide), hwidth, if_neg (by decide)]

end

theorem taken_thicknessDefined (s : State) (l : LinkId) (code : Nat) : (s.taken l).thicknessDefined code = s.thicknessDefined code := by
  unfold State.thicknessDefined
  rw [taken_tables]

theorem taken_widthDefined (s : State) (l : LinkId) (code : Nat) : (s.taken l).widthDefined code = s.widthDefined code := by
  unfold State.widthDefined
  rw [taken_tables]

end

/-- A candidate list after a summary is posted on its record, whose revision a replaced summary raises (R45). -/
def Record.revised (r : Record) (x : Solution) : Solution :=
  if r.scan.isSome then { x with revision := revisionAfter x.revision } else x

theorem withScan_eq (scan : ScanSummary) (r : Record) :
    r.withScan scan = { r with scan := some scan, solution := r.solution.map r.revised } := by
  unfold Record.withScan Record.revised
  cases r.scan.isSome with
  | true => rfl
  | false => simp

/-! ### POST-SOLUTION (R46, R47, R50) -/

/-- An entry's far saw, fence and grade are in range (R46). -/
def Posted.Good (p : Posted) : Prop := 1 ≤ p.saw ∧ p.saw ≤ 12 ∧ p.fence ≤ 1 ∧ 1 ≤ p.grade ∧ p.grade ≤ 10

theorem Posted.fault_good {p : Posted} (h : p.Good) : p.fault = none := by
  obtain ⟨hsaw, hsaw', hfence, hgrade, hgrade'⟩ := h
  unfold Posted.fault
  rw [if_neg (by omega), if_neg (by omega), if_neg (by omega)]

theorem Posted.fault_bad {p : Posted} (h : ¬ p.Good) :
    p.fault = some (if p.saw < 1 ∨ 12 < p.saw then 1 else if 1 < p.fence then 2 else 3) := by
  unfold Posted.Good at h
  unfold Posted.fault
  split
  · rfl
  · split
    · rfl
    · rw [if_pos (by omega)]

theorem postedFault_none {ps : List Posted} (h : ∀ p ∈ ps, p.fault = none) (i : Nat) : postedFault i ps = none := by
  induction ps generalizing i with
  | nil => rfl
  | cons p rest ih =>
    obtain ⟨hp, hrest⟩ := List.forall_mem_cons.mp h
    rw [postedFault, hp]
    exact ih hrest (i + 1)

/-- The first fault is that of the first entry that has one. -/
theorem postedFault_first {before rest : List Posted} {p : Posted} {field : Nat} (hbefore : ∀ q ∈ before, q.fault = none)
    (hp : p.fault = some field) (i : Nat) : postedFault i (before ++ p :: rest) = some (i + before.length, field) := by
  induction before generalizing i with
  | nil => rw [List.nil_append, postedFault, hp]; rfl
  | cons q before ih =>
    obtain ⟨hq, hbefore⟩ := List.forall_mem_cons.mp hbefore
    rw [List.cons_append, postedFault, hq]
    refine (ih hbefore (i + 1)).trans ?_
    rw [List.length_cons, Nat.add_right_comm, Nat.add_assoc]

/-- The entry posted at an index, counted from 0. -/
def postedEntry (fields : List Byte) (i : Nat) : Posted :=
  { saw := fieldAt fields (3 + 3 * i) 1, fence := fieldAt fields (4 + 3 * i) 1, grade := fieldAt fields (5 + 3 * i) 1 }

theorem postedEntries_eq (fields : List Byte) (n : Nat) : postedEntries fields n = (List.range n).map (postedEntry fields) := rfl

/-- The entries up to an index, the entry there, and those after it. -/
theorem postedEntries_split (fields : List Byte) {i n : Nat} (h : i < n) :
    ∃ rest, postedEntries fields n = postedEntries fields i ++ postedEntry fields i :: rest := by
  obtain ⟨k, rfl⟩ := Nat.exists_eq_add_of_lt h
  refine ⟨((List.range k).map (i + 1 + ·)).map (postedEntry fields), ?_⟩
  simp only [postedEntries_eq, Nat.add_right_comm i k 1, List.range_add (n := i + 1), List.range_succ (n := i), List.map_append,
    List.map_cons, List.append_assoc, List.singleton_append]

theorem postedEntries_good {fields : List Byte} {n : Nat} (h : ∀ i < n, (postedEntry fields i).Good) :
    ∀ p ∈ postedEntries fields n, p.fault = none := by
  intro p hp
  obtain ⟨i, hi, rfl⟩ := List.mem_map.mp hp
  exact Posted.fault_good (h i (List.mem_range.mp hi))

section
variable {s : State} {tag n off : Nat} {r : Record} {fields : List Byte}

theorem storeSolution_badCount {entries : List Posted} (h : n < 1 ∨ 8 < n) :
    storeSolution tag n entries r off s = (s, postingRange tag 0 1) := if_pos h

/-- The first entry out of range is refused by its index, counted from 1, and its first field out of range (R46, R50). -/
theorem storeSolution_badEntry (h1 : 1 ≤ n) (h8 : n ≤ 8) {i : Nat} (hi : i < n) (hbefore : ∀ j < i, (postedEntry fields j).Good)
    (hbad : ¬ (postedEntry fields i).Good) :
    storeSolution tag n (postedEntries fields n) r off s = (s, postingRange tag (i + 1)
      (if (postedEntry fields i).saw < 1 ∨ 12 < (postedEntry fields i).saw then 1 else if 1 < (postedEntry fields i).fence then 2 else 3)) := by
  obtain ⟨rest, hsplit⟩ := postedEntries_split fields hi
  have hlength : 1 + (postedEntries fields i).length = i + 1 := by simp [postedEntries_eq, Nat.add_comm]
  unfold storeSolution
  rw [if_neg (by omega), hsplit, postedFault_first (postedEntries_good hbefore) (Posted.fault_bad hbad), hlength]

theorem storeSolution_stored (h1 : 1 ≤ n) (h8 : n ≤ 8) (hgood : ∀ i < n, (postedEntry fields i).Good) :
    storeSolution tag n (postedEntries fields n) r off s =
      (s.modifyTrimmer tag (Record.withSolution ((postedEntries fields n).map Posted.candidate)),
        { status := .ok
          fields := postingBytes (r.withSolution ((postedEntries fields n).map Posted.candidate)) off s.tables.station.decision ++
            (s.decideBoard (r.withSolution ((postedEntries fields n).map Posted.candidate))).bytes }) := by
  unfold storeSolution
  rw [if_neg (by omega), postedFault_none (postedEntries_good hgood)]

end

/-- A request taken does not touch what a decision reads (R87). -/
theorem taken_decideBoard (s : State) (l : LinkId) (r : Record) : (s.taken l).decideBoard r = s.decideBoard r :=
  decideBoard_congr ⟨taken_tables s l, State.modifyLink_saws s l _, State.modifyLink_decision s l _, by rw [taken_board]⟩ r

theorem formOk_postSolution {fields : List Byte} (h3 : 3 ≤ fields.length)
    (h : 1 ≤ fieldAt fields 2 1 → fieldAt fields 2 1 ≤ 8 → fields.length = 3 + 3 * fieldAt fields 2 1) : formOk .postSolution fields = true := by
  have hcount : fields[2]? = some fields[2] := List.getElem?_eq_getElem h3
  rw [fieldAt_one, hcount, Option.getD_some] at h
  unfold formOk
  rw [hcount]
  dsimp only
  split
  · next hn => exact decide_eq_true (by have := h hn.1 hn.2; omega)
  · rfl

/-! ### The answers (R172) -/

section
variable {num : Byte} {fields : List Byte} {s t : State} {a : Answer}

/-- The answer to a POST-SCAN that is ready, from what its posting does. -/
theorem exec_postScan (hready : s.Ready .optimizer (0x01 :: num :: fields)) (hlength : fields.length = 6)
    (h : postScan .optimizer fields (s.taken .optimizer) = (t.taken .optimizer, a)) :
    exec (.postScan .optimizer num fields) s = .next (t.answered .optimizer (0x01 :: num :: a.status.code :: a.fields)) :=
  serve_answered (r := .postScan) hready (by omega) (by decide) (by simp [formOk, hlength]) h

/-- The answer to a POST-SOLUTION that is ready, from what its posting does. -/
theorem exec_postSolution (hready : s.Ready .optimizer (0x02 :: num :: fields)) (hfits : fieldsFit fields = true)
    (hform : formOk .postSolution fields = true) (h : postSolution .optimizer fields (s.taken .optimizer) = (t.taken .optimizer, a)) :
    exec (.postSolution .optimizer num fields) s = .next (t.answered .optimizer (0x02 :: num :: a.status.code :: a.fields)) :=
  serve_answered (r := .postSolution) hready (by simpa [fieldsFit, Config.bodyMax] using hfits) (by decide) hform h

end

end Sys2Proof.Machine

namespace Sys2Proof.Proofs
open Sys2Proof.Machine

/-- Settles O34: the record's refusals, the store's checks in order, then the store. -/
theorem postScan : Obligations.PostScan := by
  unfold Obligations.PostScan
  intro num fields s hlength hready tag scan c D outcome
  have hserve := fun {t a} => exec_postScan (t := t) (a := a) hready hlength
  refine ⟨fun hnone => hserve (posting_refused (onTrimmerBelow_none hnone)), fun r place hsome =>
    ⟨fun hlate => hserve (posting_refused (onTrimmerBelow_late hsome hlate)), fun off hplace hbelow => ?_⟩⟩
  subst hplace
  have hfound := onTrimmerBelow_below hsome hbelow
  have hthickness := taken_thicknessDefined s .optimizer scan.thickness
  have hwidth := taken_widthDefined s .optimizer scan.width
  intro lengthOk revision
  have hok : lengthOk = true ↔ 300 ≤ scan.length ∧ scan.length ≤ 7500 := by simp [lengthOk]
  refine ⟨fun hl => ?_, fun hl ht => ?_, fun hl ht hw => ?_, fun hl ht hw honly => ?_⟩
  · exact hserve (posting_found hfound (storeScan_badLength fun h => by simp [hok.mpr h] at hl))
  · exact hserve (posting_found hfound (storeScan_badThickness (hok.mp hl) (hthickness.trans ht)))
  · exact hserve (posting_found hfound (storeScan_badWidth (hok.mp hl) (hthickness.trans ht) (hwidth.trans hw)))
  · have hstored := storeScan_stored (tag := tag) (off := off) (r := r) (hok.mp hl) (hthickness.trans ht) (hwidth.trans hw)
    rw [taken_modifyTrimmer, taken_tables, postingBytes_eq, withScan_eq] at hstored
    have htag : r.tag = tag := (byTag_some (onTrimmerBelow_ok hfound).1).2
    have hmap : mapTag tag (Record.withScan scan) s.board.trimmer =
        mapTag tag (fun x => { x with scan := some scan, solution := x.solution.map revision }) s.board.trimmer :=
      mapTag_congr fun x hx hxt => by rw [honly x hx hxt]; exact withScan_eq scan r
    refine (hserve (posting_found hfound hstored)).trans ?_
    rw [State.modifyTrimmer, hmap, htag]
    rfl

/-- Settles O35: the record's refusals, the count, the first entry out of range, then the store and its preview. -/
theorem postSolution : Obligations.PostSolution := by
  unfold Obligations.PostSolution
  intro num fields s hready tag n c D run refused h3 hform hfits
  have hserve := fun {t a} => exec_postSolution (t := t) (a := a) hready hfits (formOk_postSolution h3 hform)
  refine ⟨fun hnone => hserve (posting_refused (onTrimmerBelow_none hnone)), fun r place hsome =>
    ⟨fun hlate => hserve (posting_refused (onTrimmerBelow_late hsome hlate)), fun off hplace hbelow => ?_⟩⟩
  subst hplace
  have hfound := onTrimmerBelow_below hsome hbelow
  intro saw fence grade good
  refine ⟨fun hn => ?_, fun h1 h8 i hi hbefore hbad => ?_, fun h1 h8 hgood honly => ?_⟩
  · exact hserve (posting_found hfound (storeSolution_badCount hn))
  · refine (hserve (posting_found hfound (storeSolution_badEntry h1 h8 hi hbefore hbad))).trans ?_
    have hfield : u8 (if saw i < 1 ∨ 12 < saw i then 1 else if 1 < fence i then 2 else 3) =
        [if saw i < 1 ∨ 12 < saw i then 1 else if 1 < fence i then 2 else 3] := by
      split
      · rfl
      · split <;> rfl
    rw [← hfield]
    rfl
  · intro list revision stored
    have hlist : (postedEntries fields n).map Posted.candidate = list := by rw [postedEntries_eq, List.map_map]; rfl
    have hstoredRecord : r.withSolution list = stored := by
      unfold Record.withSolution
      simp only [stored, revision]
      cases r.solution <;> rfl
    have hstored := storeSolution_stored (s := s.taken .optimizer) (tag := tag) (off := off) (r := r) h1 h8 hgood
    rw [hlist, hstoredRecord, taken_modifyTrimmer, taken_tables, taken_decideBoard, postingBytes_eq] at hstored
    have htag : stored.tag = tag := (byTag_some (onTrimmerBelow_ok hfound).1).2
    have hmap : mapTag tag (Record.withSolution list) s.board.trimmer = mapTag tag (fun _ => stored) s.board.trimmer :=
      mapTag_congr fun x hx hxt => by rw [honly x hx hxt, hstoredRecord]
    refine (hserve (posting_found hfound hstored)).trans ?_
    rw [State.modifyTrimmer, hmap, htag]
    rfl

end Sys2Proof.Proofs
end

