-- ==== Sys2Proof/Proofs/MarkStacks.lean ====
section
/-! The mark stacks (R60 to R71): what each operation on one grading position does to its slots, TOP, target and replies, and the run of
non-empty slots that each of them keeps. -/

namespace Sys2Proof.Machine

-- One thread elaborates the many small proofs of this file.
set_option Elab.async false

namespace Grading

/-! ### Replies (R61) -/

@[simp] theorem reply_slots (code : Reply) (g : Grading) : (g.reply code).slots = g.slots := by unfold reply; split <;> rfl
@[simp] theorem reply_top (code : Reply) (g : Grading) : (g.reply code).top = g.top := by unfold reply; split <;> rfl
@[simp] theorem reply_target (code : Reply) (g : Grading) : (g.reply code).target = g.target := by unfold reply; split <;> rfl

/-- A refusal sends REFUSE, lost where the queue is full, and counts (R60, R61). -/
theorem refuse_eq (g : Grading) : g.refuse =
    if g.replies.length < 8 then
      { g with replies := g.replies ++ [.refuse], counts := { g.counts with refusals := inc32 g.counts.refusals } }
    else { g with counts := { g.counts with refusals := inc32 g.counts.refusals, repliesLost := inc32 g.counts.repliesLost } } := by
  unfold refuse reply
  by_cases hroom : g.replies.length < 8
  · simp [Config.replySlots, hroom]
  · simp [Config.replySlots, hroom]

/-! ### The depth of a stack (R62) -/

theorem depth_eq_countP (g : Grading) : g.depth = g.slots.toList.countP (· != Slot.empty) := List.countP_eq_length_filter.symm

theorem depth_eq_zero_iff (g : Grading) : g.depth = 0 ↔ ∀ i : Fin 6, g.slots[i] = .empty := by
  rw [depth_eq_countP, List.countP_eq_zero]
  constructor
  · intro h i
    simpa using h g.slots[i] (Vector.mem_toList_iff.mpr (Vector.getElem_mem i.isLt))
  · intro h x hx
    obtain ⟨i, hi, rfl⟩ := Vector.mem_iff_getElem.mp (Vector.mem_toList_iff.mp hx)
    simpa using h ⟨i, hi⟩

theorem depth_ne_zero_iff (g : Grading) : g.depth ≠ 0 ↔ ∃ i : Fin 6, g.slots[i] ≠ .empty := by
  rw [Ne, depth_eq_zero_iff, not_forall]

/-! ### The run from TOP (R62 to R66) -/

/-- A slot of the stack. -/
def slotAt (g : Grading) (i : Fin 6) : Slot := g.slots[i]

/-- The position with one slot and TOP replaced. -/
def withTop (g : Grading) (slot : Fin 6) (x : Slot) (top : Fin 6) : Grading := { g with slots := g.slots.set slot x, top := top }

theorem withTop_slotAt (g : Grading) (slot : Fin 6) (x : Slot) (top i : Fin 6) :
    (g.withTop slot x top).slotAt i = if i = slot then x else g.slotAt i := by
  unfold slotAt withTop
  by_cases h : i = slot
  · subst h; simp
  · have hne : slot.val ≠ i.val := fun e => h (Fin.ext e.symm)
    simp [h, hne]

/-- Emptying a slot that holds a key takes 1 from the depth. -/
theorem withTop_empty_depth {g : Grading} {slot : Fin 6} (h : g.slotAt slot ≠ .empty) (top : Fin 6) :
    (g.withTop slot .empty top).depth = g.depth - 1 := by
  have hkey : (g.slots.toList[slot.val]'(by simp) != Slot.empty) = true := by simpa [slotAt] using h
  rw [depth_eq_countP, depth_eq_countP, withTop, Vector.toList_set, List.countP_set (by simp), if_pos hkey]
  rfl

theorem contiguous_iff (g : Grading) : g.Contiguous ↔ ∃ n ≤ 6, ∀ i : Fin 6, g.slotAt (g.top + i) ≠ .empty ↔ i.val < n := .rfl

/-- What the run is about is the slots and TOP alone. -/
theorem Contiguous.of_stack {g h : Grading} (hg : g.Contiguous) (hslots : h.slots = g.slots) (htop : h.top = g.top) : h.Contiguous := by
  have hslot : h.slotAt = g.slotAt := funext fun i => congrArg (fun v : Vector Slot 6 => v[i]) hslots
  rw [contiguous_iff] at hg ⊢
  rwa [hslot, htop]

theorem contiguous_of_empty {g : Grading} (h : g.slots = Vector.replicate 6 .empty) : g.Contiguous :=
  ⟨0, Nat.zero_le 6, fun i => by simp [h]⟩

/-- The run of a stack that holds a key starts with the key at TOP. -/
theorem Contiguous.top_ne_empty {g : Grading} (hg : g.Contiguous) (h : ∃ i : Fin 6, g.slotAt i ≠ .empty) : g.slotAt g.top ≠ .empty := by
  obtain ⟨n, -, hrun⟩ := (contiguous_iff g).mp hg
  obtain ⟨i, hi⟩ := h
  have hoffset : (i - g.top).val < n := (hrun (i - g.top)).mp (by rwa [add_sub_cancel])
  have hfirst := (hrun 0).mpr (Nat.zero_lt_of_lt hoffset)
  rwa [add_zero] at hfirst

/-- A key stored in the empty slot before TOP is the new first of the run (R63). -/
theorem Contiguous.pushed {g : Grading} (hg : g.Contiguous) (hfree : g.slotAt (g.top - 1) = .empty) {x : Slot} (hx : x ≠ .empty) :
    (g.withTop (g.top - 1) x (g.top - 1)).Contiguous := by
  obtain ⟨n, -, hrun⟩ := (contiguous_iff g).mp hg
  have hlast : ¬ 5 < n := fun h => (hrun 5).mpr h (by rwa [show g.top + 5 = g.top - 1 from (sub_eq_add_neg g.top 1).symm])
  refine (contiguous_iff _).mpr ⟨n + 1, by omega, fun i => ?_⟩
  change (g.withTop _ _ _).slotAt (g.top - 1 + i) ≠ .empty ↔ _
  rw [withTop_slotAt]
  cases i using Fin.cases with
  | zero => simp [hx]
  | succ i =>
    have hother : g.top - 1 + i.succ ≠ g.top - 1 := fun e => Fin.succ_ne_zero i (add_eq_left.mp e)
    have hplace : g.top - 1 + i.succ = g.top + i.castSucc := by
      rw [← Fin.coeSucc_eq_succ, add_comm i.castSucc 1, ← add_assoc, sub_add_cancel]
    rw [if_neg hother, hplace, hrun, Fin.val_castSucc, Fin.val_succ, Nat.add_lt_add_iff_right]

/-- With the slot at TOP emptied, the run starts at the next slot (R65). -/
theorem Contiguous.undone {g : Grading} (hg : g.Contiguous) : (g.withTop g.top .empty (g.top + 1)).Contiguous := by
  obtain ⟨n, hn, hrun⟩ := (contiguous_iff g).mp hg
  refine (contiguous_iff _).mpr ⟨n - 1, by omega, fun i => ?_⟩
  change (g.withTop _ _ _).slotAt (g.top + 1 + i) ≠ .empty ↔ _
  rw [withTop_slotAt]
  cases i using Fin.lastCases with
  | last =>
    have hround : g.top + 1 + Fin.last 5 = g.top := (add_assoc _ _ _).trans (add_zero _)
    rw [if_pos hround, Fin.val_last]
    exact iff_of_false (not_not_intro rfl) (by omega)
  | cast i =>
    have hplace : g.top + 1 + i.castSucc = g.top + i.succ := by rw [← Fin.coeSucc_eq_succ, add_assoc, add_comm 1]
    have hother : g.top + i.succ ≠ g.top := fun e => Fin.succ_ne_zero i (add_eq_left.mp e)
    rw [hplace, if_neg hother, hrun, Fin.val_succ, Fin.val_castSucc]
    omega

/-! ### Each operation keeps the run -/

theorem Contiguous.reply {g : Grading} (hg : g.Contiguous) (code : Reply) : (g.reply code).Contiguous :=
  hg.of_stack (g.reply_slots code) (g.reply_top code)

theorem Contiguous.refuse {g : Grading} (hg : g.Contiguous) : g.refuse.Contiguous := (hg.reply .refuse).of_stack rfl rfl

/-- A free slot before TOP takes the key, counted, and counted VOID where it is (R63, R64). -/
theorem push_free {g : Grading} (hfree : g.slotAt (g.top - 1) = .empty) (key : MarkKey) (valid : Bool) : g.push key valid =
    { g.withTop (g.top - 1) (if valid then .valid key else .void key) (g.top - 1) with
      counts := { g.counts with
        keys := inc32 g.counts.keys, voids := if valid then g.counts.voids else inc32 g.counts.voids } } := by
  refine (if_neg (not_not_intro hfree)).trans ?_
  cases valid <;> rfl

theorem push_full {g : Grading} (hfull : g.slotAt (g.top - 1) ≠ .empty) (key : MarkKey) (valid : Bool) : g.push key valid = g.refuse :=
  if_pos hfull

theorem Contiguous.push {g : Grading} (hg : g.Contiguous) (key : MarkKey) (valid : Bool) : (g.push key valid).Contiguous := by
  by_cases hfree : g.slotAt (g.top - 1) = .empty
  · have hkey : (if valid then Slot.valid key else .void key) ≠ .empty := by cases valid <;> simp
    rw [push_free hfree]
    exact (hg.pushed hfree hkey).of_stack rfl rfl
  · rw [push_full hfree]
    exact hg.refuse

theorem undo_empty {g : Grading} (h : g.depth = 0) : g.undo = g.refuse := if_pos h

theorem undo_some {g : Grading} (h : g.depth ≠ 0) : g.undo = (g.withTop g.top .empty (g.top + 1)).keyTaken := if_neg h

theorem Contiguous.undo {g : Grading} (hg : g.Contiguous) : g.undo.Contiguous := by
  by_cases h : g.depth = 0
  · rw [undo_empty h]
    exact hg.refuse
  · rw [undo_some h]
    exact hg.undone.of_stack rfl rfl

theorem cleared_contiguous (g : Grading) : g.cleared.Contiguous := contiguous_of_empty rfl

/-- A change of target is what sends a reply (R67). -/
theorem retarget_eq (new : Option Nat) (g : Grading) : g.retarget new =
    if new = g.target then g else ({ g with target := new } : Grading).reply (if new.isSome then .targetOn else .targetOff) := by
  unfold retarget
  cases new <;> rfl

theorem Contiguous.retarget {g : Grading} (hg : g.Contiguous) (new : Option Nat) : (g.retarget new).Contiguous := by
  rw [retarget_eq]
  split
  · exact hg
  · exact hg.of_stack (reply_slots _ _) (reply_top _ _)

theorem Contiguous.missTarget {g : Grading} (hg : g.Contiguous) : g.missTarget.Contiguous := by
  unfold Grading.missTarget
  split
  · exact hg
  · exact (g.cleared_contiguous.reply .missed).of_stack rfl rfl

theorem restarted_contiguous (g : Grading) : g.restarted.Contiguous :=
  Contiguous.retarget (contiguous_of_empty rfl) none

end Grading

end Sys2Proof.Machine
end

