-- ==== Sys2Proof/Proofs/StacksContiguous.lean ====
section
/-! Every step keeps both mark stacks one run from TOP (O55): the keypads' commands, the trimmer advances, RESTART-TRACKING and the power
commands by the operations they are made of, every other command by the parts it touches. -/

namespace Sys2Proof.Machine

-- One thread elaborates the many small proofs of this file.
set_option Elab.async false

/-- Every part but the two grading positions. -/
def Touched.offStacks : Touched :=
  { pins := true, standing := true, timebase := true, tcu := true, scu := true, trimmer := true, transfer := true, sorter := true,
    nextTag := true, line := true, postings := true, forces := true, decision := true, saws := true, sort := true, tally := true,
    events := true, attention := true, links := true, tables := true, pending := true }

theorem Outside.grading {m : Touched} {s t : State} (h : Outside m s t) (hm : m.le .offStacks = true := by decide) (p : Position) :
    t.grading p = s.grading p := by
  cases p
  · exact (h.weaken hm).gradingA rfl
  · exact (h.weaken hm).gradingB rfl

/-- What is done under a condition touches no more than when it is done. -/
theorem Outside.ite {m : Touched} {s t : State} {c : Bool} (h : Outside m s t) : Outside m s (if c then t else s) := by
  cases c
  · exact .refl m s
  · exact h

/-- What the lines of a trimmer advance can change (R28, R118). -/
theorem trimmerLines_outside (now : Serial) (s : State) :
    Outside { trimmer := true, transfer := true, decision := true, saws := true, tally := true, events := true, attention := true } s
      (trimmerLines now s) :=
  .then (.then (.then (.then (decisionLine_outside now s).weaken (endWindows_outside _)) (cutLine_outside now _)) (outfeedLine_outside now _))
    (setLine_outside now _)

/-- A new record and its notice (R23, R54). -/
theorem scanEdge_outside (s : State) :
    Outside { trimmer := true, nextTag := true, links := true, postings := true } s (scanEdge s) := by
  unfold scanEdge
  split
  · exact .refl _ s
  · split
    · exact (modifyTrimmer_outside _ _ s).weaken
    · unfold createScanned
      refine Outside.trans ?_ (offerNotice_outside _ _).weaken
      constructor <;> intro h <;> first | exact absurd h (by decide) | rfl

theorem endSettle_outside (s : State) :
    Outside { timebase := true, standing := true, saws := true, sort := true } s (endSettle s) := by
  constructor <;> intro h <;> first | exact absurd h (by decide) | rfl

theorem raised_outside (s : State) : Outside { tcu := true, scu := true, saws := true, sort := true } s s.raised := by
  constructor <;> intro h <;> first | exact absurd h (by decide) | rfl

/-- What a timer's expiry can change (R2, R115, R135, R138). -/
theorem Timer.expire_outside (x : Timer) (s : State) :
    Outside { tcu := true, scu := true, trimmer := true, sorter := true, saws := true, sort := true, events := true, attention := true } s
      (x.expire s) := by
  cases x with
  | stop ch => exact .ite (stopChain_tracks ch s).outside.weaken
  | saw k => exact .ite (expireWindow_outside k s).weaken
  | pulse n => exact .ite (closeGate_outside n s).weaken
  | confirm n => exact (expireDue_outside n _ s).weaken

/-- What a tick can change (R16). -/
theorem tick_outside (s : State) :
    Outside { timebase := true, standing := true, tcu := true, scu := true, trimmer := true, sorter := true, saws := true, sort := true,
              events := true, attention := true } s (tick s) := by
  by_cases hset : s.settling = true
  · unfold tick
    rw [if_pos hset]
    split
    · constructor <;> intro h <;> first | exact absurd h (by decide) | rfl
    · exact (endSettle_outside s).weaken
  · rw [tick_awake (eq_false_of_ne_true hset)]
    exact (raised_outside s).weaken.trans (.foldl (fun u x => (x.expire_outside u).weaken) _ _)

/-- A command of a line that exists is taken (R110, R124). -/
theorem next_of_line {c : Bool} {r : Result State} {t : State} (h : (if c then r else .fault .noSuchLine) = .next t) : r = .next t := by
  cases c
  · cases h
  · exact h

namespace StacksContiguous
variable {s t : State}

/-- An operation that touches neither position keeps the runs. -/
theorem outside {m : Touched} (hs : StacksContiguous s) (h : Outside m s t) (hm : m.le .offStacks = true := by decide) :
    StacksContiguous t := fun p => h.grading hm p ▸ hs p

/-- A state with the same two positions has the runs. -/
theorem of_positions (hs : StacksContiguous s) (ha : t.gradingA = s.gradingA) (hb : t.gradingB = s.gradingB) : StacksContiguous t
  | .a => (congrArg Grading.Contiguous ha).mpr (hs .a)
  | .b => (congrArg Grading.Contiguous hb).mpr (hs .b)

theorem powerOn (ha : s.gradingA = .powerOn) (hb : s.gradingB = .powerOn) : StacksContiguous s
  | .a => Grading.contiguous_of_empty (congrArg Grading.slots ha)
  | .b => Grading.contiguous_of_empty (congrArg Grading.slots hb)

theorem setGrading (hs : StacksContiguous s) {p : Position} {g : Grading} (hg : g.Contiguous) : StacksContiguous (s.setGrading p g) := by
  intro q
  by_cases hq : q = p
  · rw [hq, State.setGrading_grading]
    exact hg
  · rw [State.setGrading_grading_ne _ _ hq]
    exact hs q

/-! ### Keys (R60 to R71) -/

theorem retarget (hs : StacksContiguous s) (now : Serial) (p : Position) : StacksContiguous (retarget now p s) :=
  hs.setGrading ((hs p).retarget _)

theorem commit (hs : StacksContiguous s) (p : Position) (target : Nat) : StacksContiguous (commit p target s) := by
  refine retarget (setGrading (hs.outside (modifyTrimmer_outside target _ s)) ?_) _ p
  have hsent := (s.grading p).cleared_contiguous.reply .accept
  split
  · exact hsent.of_stack rfl rfl
  · exact hsent.of_stack rfl rfl

theorem keyEvent (hs : StacksContiguous s) (p : Position) {act : State → State} (hact : StacksContiguous (act s)) :
    StacksContiguous (keyEvent p act s) := by
  unfold Machine.keyEvent
  split
  · exact hact
  · exact hs.setGrading (hs p).refuse

/-! ### Advances (R66, R68) -/

theorem markAdvance (hs : StacksContiguous s) (now : Serial) (p : Position) : StacksContiguous (markAdvance now p s) := by
  unfold Machine.markAdvance
  dsimp only
  split
  · exact (hs.setGrading (hs p).missTarget).retarget now p
  · exact hs.retarget now p

theorem advanceLines (hs : StacksContiguous s) (ch : Chain) : StacksContiguous (advanceLines ch s) := by
  cases ch with
  | trimmer =>
    refine markAdvance (markAdvance ?_ _ .a) _ .b
    split
    · exact hs.outside (trimmerLines_outside _ s)
    · exact hs
  | sorter => exact hs.outside (advanceSorter_outside s)

theorem advances (hs : StacksContiguous s) {ch : Chain} (h : Advances ch s t) : StacksContiguous t := by
  obtain h | ⟨u, v, hu, hv, rfl⟩ := h
  · exact hs.outside h.outside
  · exact (((hs.outside hu.outside).advanceLines ch).outside hv.outside).outside (raiseSerial_outside ch v)

/-! ### Requests and the clock (R16, R74, R172) -/

theorem restart (s : State) : StacksContiguous (restart s) := by
  have hblocks : StacksContiguous (loseAll s).blocksRestarted
    | .a => Grading.restarted_contiguous _
    | .b => Grading.restarted_contiguous _
  rw [restart_eq]
  exact (((hblocks.outside (changeSync_outside _ _ _)).outside (changeSync_outside _ _ _)).outside (unitsZeroed_outside _)).outside
    (setLineState_outside _ _)

/-- Of the requests only RESTART-TRACKING touches a stack. -/
theorem handlerOf (hs : StacksContiguous s) (r : Req) (l : LinkId) (fields : List Byte) : StacksContiguous (handlerOf r l fields s).1 := by
  cases r
  case restartTracking => exact restart s
  all_goals exact hs.outside (handlerOf_outside _ l fields s)

theorem modifyLink (hs : StacksContiguous s) (l : LinkId) (f : LinkState → LinkState) : StacksContiguous (s.modifyLink l f) :=
  hs.outside (modifyLink_outside l f s)

theorem clockPeriod (hs : StacksContiguous s) : StacksContiguous (clockPeriod s) := by
  unfold Machine.clockPeriod
  split
  · exact hs
  · dsimp only
    split
    · exact hs.of_positions rfl rfl
    · split
      · exact hs.of_positions rfl rfl
      · refine outside ?_ (tick_outside _)
        exact hs.of_positions rfl rfl

/-! ### Commands -/

/-- A change of an input line whose on-edge keeps the runs keeps them. -/
theorem edge {line : InputLine} {edge : Edge} {onEdge offEdge : State → State} (hs : StacksContiguous s)
    (h : takeEdge line edge onEdge offEdge s = .next t) (hon : ∀ s, StacksContiguous s → StacksContiguous (onEdge s))
    (hoff : ∀ s, StacksContiguous s → StacksContiguous (offEdge s)) : StacksContiguous t :=
  takeEdge_keeps (fun _ _ _ hs => hs.of_positions rfl rfl) hon hoff h hs

theorem awake {act : State → State} (hs : StacksContiguous s) (h : whenAwake s act = .next t) (hact : StacksContiguous (act s)) :
    StacksContiguous t := whenAwake_keeps (fun _ => hact) h hs

/-- Every command that is no link's keeps the runs. -/
theorem exec_offLinks {i : Instr} (hs : StacksContiguous s) (hi : offLinks i = true) (h : exec i s = .next t) : StacksContiguous t := by
  cases i
  case powerOn baud => cases h; exact powerOn rfl rfl
  case resetnAssert => cases h; exact powerOn rfl rfl
  case resetnRelease baud => cases h; exact powerOn rfl rfl
  case settlePeriodEnd => cases h; exact hs.outside (.ite (endSettle_outside s))
  case encoderForwardCount ch => exact hs.awake h (hs.advances (forwardCount_advances ch s))
  case encoderReverseCount ch => exact hs.awake h (hs.outside (reverseCount_tracks ch s).outside)
  case stopTimerExpiry ch => exact hs.awake h (hs.outside (stopChain_tracks ch s).outside)
  case syntheticAdvance ch =>
    refine hs.awake h ?_
    split
    · exact hs.advances (forwardCount_advances ch s)
    · exact hs
  case lugEyeOnEdge ch edge => exact hs.edge h (fun s hs => hs.advances (lugEdge_advances ch s)) fun _ hs => hs
  case scanEyeOnEdge edge => exact hs.edge h (fun s hs => hs.outside (scanEdge_outside s)) fun _ hs => hs
  case pickupEyeOnEdge edge => exact hs.edge h (fun s hs => hs.outside (pickupEdge_frame s)) fun _ hs => hs
  case gateConfirmOnEdge bin edge =>
    exact hs.edge (next_of_line h) (fun s hs => hs.outside (confirmEdge_outside bin s)) fun s hs => hs.outside (modifyBin_outside bin _ s)
  case binFullSwitchOnEdge bin edge =>
    exact hs.edge (next_of_line h) (fun s hs => hs.outside (fullSwitchEdge_outside bin s)) fun s hs => hs.outside (modifyBin_outside bin _ s)
  case sawFeedbackChange saw down =>
    have hpins := hs.of_positions (t := { s with pins := { s.pins with feedback := modifyAt s.pins.feedback saw fun _ => down } }) rfl rfl
    exact hpins.awake (next_of_line h) (hpins.outside (takeFeedback_outside saw down _))
  case sawWindowExpiry saw => exact hs.awake (next_of_line h) (hs.outside (expireWindow_outside saw s))
  case gatePulseExpiry bin => exact hs.awake (next_of_line h) (hs.outside (closeGate_outside bin s))
  case confirmWindowExpiry bin => exact hs.awake (next_of_line h) (hs.outside (expireConfirm_outside bin s))
  case keyMarkPush p key =>
    change execKeyMarkPush p key s = .next t at h
    unfold execKeyMarkPush at h
    refine hs.awake h ?_
    split
    · exact hs.keyEvent p (hs.setGrading ((hs p).push key _))
    · exact hs.setGrading ((hs p).of_stack rfl rfl)
  case keyUndo p => exact hs.awake h (hs.keyEvent p (hs.setGrading (hs p).undo))
  case keyClr p => exact hs.awake h (hs.keyEvent p (hs.setGrading ((s.grading p).cleared_contiguous.of_stack rfl rfl)))
  case keyEnt p =>
    refine hs.awake h (hs.keyEvent p ?_)
    split
    · exact hs.setGrading (hs p).refuse
    · exact hs.commit p _
  case keypadBadByte p =>
    change execKeypadBadByte p s = .next t at h
    unfold execKeypadBadByte at h
    exact hs.awake h (hs.setGrading ((hs p).of_stack rfl rfl))
  case keypadReplySent p =>
    change execKeypadReplySent p s = .next t at h
    unfold execKeypadReplySent at h
    exact hs.awake h (hs.setGrading ((hs p).of_stack rfl rfl))
  all_goals cases hi

/-- Every command keeps the runs: a link's changes links, and what its request's handler changes. -/
theorem exec {i : Instr} (hs : StacksContiguous s) (h : exec i s = .next t) : StacksContiguous t := by
  have htake : ∀ {l u}, takeOldest l u = .next t → StacksContiguous u → StacksContiguous t := fun h hu =>
    takeOldest_keeps (fun _ l f hs => hs.modifyLink l f) (fun r l fields _ hs => hs.handlerOf r l fields) h hu
  obtain hi | ⟨l, code, num, fields, hi⟩ | ⟨l, b, stopBit, rfl⟩ | ⟨l, rfl⟩ | ⟨l, rfl⟩ | ⟨l, rfl⟩ | ⟨l, rfl⟩ := offLinks_or_request i
  · exact hs.exec_offLinks hi h
  · obtain ⟨r, -, rfl⟩ | rfl := requestInstr_of_parts hi
    · rw [exec_requestInstr] at h
      exact serve_keeps (fun _ l f hs => hs.modifyLink l f) (fun l fields _ hs => hs.handlerOf r l fields) h hs
    · exact execUnknownRequestCode_keeps (fun _ l f hs => hs.modifyLink l f) h hs
  · change execLinkByteReceived l b stopBit s = .next t at h
    unfold execLinkByteReceived at h
    split at h
    · exact htake h (hs.modifyLink l _)
    · cases h; exact hs
  · exact hs.awake (act := fun s => s.modifyLink l LinkState.paused) h (hs.modifyLink l _)
  · exact hs.awake (act := fun s => s.modifyLink l LinkState.resumed) h (hs.modifyLink l _)
  · change execTxFrameSent l s = .next t at h
    unfold execTxFrameSent at h
    split at h
    · exact htake h (hs.modifyLink l _)
    · cases h; exact hs
  · refine hs.awake (act := fun s => abandonStaging l (s.modifyLink l LinkState.broken)) h ?_
    have hbroken := hs.modifyLink l LinkState.broken
    cases l <;> exact hbroken.of_positions rfl rfl

end StacksContiguous

end Sys2Proof.Machine

namespace Sys2Proof.Proofs
open Sys2Proof.Machine

/-- Settles O55: each operation on a stack keeps its run, and a step changes the stacks by these operations alone. -/
theorem markStacksStayContiguous : Obligations.MarkStacksStayContiguous := by
  unfold Obligations.MarkStacksStayContiguous
  intro s t hs h
  exact step_keeps (fun _ hs => hs.clockPeriod) (fun _ _ hs => hs.of_positions rfl rfl) (fun _ _ _ h hs => hs.exec h) h hs

end Sys2Proof.Proofs
end

