-- ==== Sys2Proof/Proofs/KeypadCommands.lean ====
section
/-! The keypads' commands (R60 to R71): what each does in RUN and in CONFIG, and the value of each kind that ENT writes into its target. -/

namespace Sys2Proof.Machine

-- One thread elaborates the many small proofs of this file.
set_option Elab.async false

/-! ### A key event in RUN and in CONFIG (R60) -/

section
variable {s : State} (p : Position)

theorem keyEvent_run (h : s.board.line = .run) (act : State → State) : keyEvent p act s = act s := by
  unfold keyEvent
  rw [h]

theorem keyEvent_config (h : s.board.line = .config) (act : State → State) :
    keyEvent p act s = s.setGrading p (s.grading p).refuse := by
  unfold keyEvent
  rw [h]

variable (ha : s.awake = true)
include ha

theorem exec_keyMarkPush {key : MarkKey} (hkey : key.isKey = true) :
    exec (.keyMarkPush p key) s = .next (keyEvent p (fun s => s.setGrading p ((s.grading p).push key (s.keyValid key))) s) := by
  change execKeyMarkPush p key s = _
  unfold execKeyMarkPush
  rw [whenAwake_awake ha, if_pos hkey]

theorem exec_keyUndo : exec (.keyUndo p) s = .next (keyEvent p (fun s => s.setGrading p (s.grading p).undo) s) := whenAwake_awake ha

theorem exec_keyClr : exec (.keyClr p) s = .next (keyEvent p (fun s => s.setGrading p (s.grading p).cleared.keyTaken) s) := whenAwake_awake ha

theorem exec_keypadBadByte : exec (.keypadBadByte p) s = .next (s.setGrading p (s.grading p).badByte) := by
  change execKeypadBadByte p s = _
  unfold execKeypadBadByte
  rw [whenAwake_awake ha]

theorem exec_keypadReplySent :
    exec (.keypadReplySent p) s = .next (s.setGrading p { s.grading p with replies := (s.grading p).replies.drop 1 }) := by
  change execKeypadReplySent p s = _
  unfold execKeypadReplySent
  rw [whenAwake_awake ha, List.drop_one]

theorem exec_keyEnt_config (hl : s.board.line = .config) : exec (.keyEnt p) s = .next (s.setGrading p (s.grading p).refuse) :=
  (whenAwake_awake ha).trans (congrArg _ (keyEvent_config p hl _))

theorem exec_keyEnt_refused (hl : s.board.line = .run) (ht : (s.grading p).target = none) :
    exec (.keyEnt p) s = .next (s.setGrading p (s.grading p).refuse) := by
  refine (whenAwake_awake ha).trans (congrArg _ ((keyEvent_run p hl _).trans ?_))
  rw [ht]

theorem exec_keyEnt_commit (hl : s.board.line = .run) {tag : Nat} (ht : (s.grading p).target = some tag) :
    exec (.keyEnt p) s = .next (commit p tag s) := by
  refine (whenAwake_awake ha).trans (congrArg _ ((keyEvent_run p hl _).trans ?_))
  rw [ht]

end

/-- Which keys are VALID (R64): the number of a key of the keypad is in range. -/
theorem keyValid_eq (s : State) (key : MarkKey) : key.isKey = true → s.keyValid key =
    match key with
    | .grade n => s.tables.grade.enabled.getLsbD (n - 1)
    | .cutback c => (s.saw c).enabled && (s.sawPlace c).isSome
    | .reject | .reman | .noFence => true := by
  intro hkey
  cases key with
  | grade n =>
    obtain ⟨hlow, hhigh⟩ : 1 ≤ n ∧ n ≤ 10 := of_decide_eq_true hkey
    simp [State.keyValid, State.gradeEnabled, hlow, hhigh]
  | cutback c =>
    obtain ⟨hlow, hhigh⟩ : 1 ≤ c ∧ c ≤ 12 := of_decide_eq_true hkey
    simp [State.keyValid, State.usable, hhigh, Nat.ne_of_gt hlow]
  | reject => rfl
  | reman => rfl
  | noFence => rfl

end Sys2Proof.Machine

namespace Sys2Proof.Proofs
open Sys2Proof.Machine

/-- Settles O22: the slot before TOP decides a push in RUN, and in CONFIG every key is refused. -/
theorem markKeys : Obligations.MarkKeys := by
  unfold Obligations.MarkKeys
  intro p key s ha hkey g slot valid refused
  have hrefused : s.setGrading p (s.grading p).refuse = refused := congrArg _ g.refuse_eq
  have hvalid : s.keyValid key = valid := keyValid_eq s key hkey
  refine ⟨fun hl => ⟨fun hfull => ?_, fun hfree => ?_⟩, fun hl => ⟨?_, ?_, ?_, ?_⟩, exec_keypadBadByte p ha, exec_keypadReplySent p ha⟩
  · rw [exec_keyMarkPush p ha hkey, keyEvent_run p hl, Grading.push_full hfull, hrefused]
  · rw [exec_keyMarkPush p ha hkey, keyEvent_run p hl, Grading.push_free hfree, hvalid]
    rfl
  · rw [exec_keyMarkPush p ha hkey, keyEvent_config p hl, hrefused]
  · rw [exec_keyUndo p ha, keyEvent_config p hl, hrefused]
  · rw [exec_keyClr p ha, keyEvent_config p hl, hrefused]
  · rw [exec_keyEnt_config p ha hl, hrefused]

/-- Settles O23: UNDO takes the key at TOP, which a run that holds a key starts with; CLR empties the slots. -/
theorem markUndoClr : Obligations.MarkUndoClr := by
  unfold Obligations.MarkUndoClr
  intro p s ha hl g counts
  refine ⟨fun hkeys => ⟨?_, fun hg => ?_⟩, fun hempty => ?_, ?_⟩
  · rw [exec_keyUndo p ha, keyEvent_run p hl, Grading.undo_some (g.depth_ne_zero_iff.mpr hkeys)]
    rfl
  · exact Grading.withTop_empty_depth (hg.top_ne_empty hkeys) (g.top + 1)
  · rw [exec_keyUndo p ha, keyEvent_run p hl, Grading.undo_empty (g.depth_eq_zero_iff.mpr hempty), Grading.refuse_eq]
  · rw [exec_keyClr p ha, keyEvent_run p hl]
    rfl

end Sys2Proof.Proofs
end

