-- ==== Sys2Proof/Proofs/Commits.lean ====
section
/-! ENT (R69 to R71): writing the stack's keys from the oldest to the newest leaves the newest VALID key of each kind. -/

namespace Sys2Proof.Machine

-- One thread elaborates the many small proofs of this file.
set_option Elab.async false

/-! ### The keys of one kind (R69) -/

def Slot.grade? : Slot → Option Nat
  | .valid (.grade n) => some n
  | _ => none

def Slot.cutback? : Slot → Option Nat
  | .valid (.cutback c) => some c
  | _ => none

def Slot.disposition? : Slot → Option Disposition
  | .valid .reject => some .reject
  | .valid .reman => some .reman
  | _ => none

/-- The newest VALID key of each kind of a list of slots, newest first, and what a mark set has where the list has none. -/
def MarkSet.newest (p : Position) (l : List Slot) (m : MarkSet) : MarkSet :=
  { m with
    grade := ((l.findSome? Slot.grade?).map fun n => { value := n, setBy := p }).or m.grade
    cutback := ((l.findSome? Slot.cutback?).map fun c => { value := c, setBy := p }).or m.cutback
    disposition := ((l.findSome? Slot.disposition?).map fun x => { value := x, setBy := p }).or m.disposition
    noFence := if Slot.valid .noFence ∈ l then some p else m.noFence }

/-- A key newer than all of a list replaces the list's key of its kind. -/
theorem MarkSet.newest_cons (p : Position) (x : Slot) (l : List Slot) (m : MarkSet) :
    m.newest p (x :: l) = (m.newest p l).write p x := by
  cases x with
  | empty => simp [newest, write, List.findSome?_cons, Slot.grade?, Slot.cutback?, Slot.disposition?, -List.map_findSome?]
  | void key => simp [newest, write, List.findSome?_cons, Slot.grade?, Slot.cutback?, Slot.disposition?, -List.map_findSome?]
  | valid key =>
    cases key <;> simp [newest, write, List.findSome?_cons, Slot.grade?, Slot.cutback?, Slot.disposition?, -List.map_findSome?]

/-- Written from the oldest to the newest, the keys leave the newest of each kind; EMPTY slots write nothing. -/
theorem MarkSet.foldl_write (p : Position) (l : List Slot) (m : MarkSet) :
    (l.filter fun x => x != Slot.empty).reverse.foldl (write p) m = m.newest p l := by
  rw [List.foldl_reverse]
  induction l with
  | nil => rfl
  | cons x rest ih =>
    rw [newest_cons, ← ih]
    by_cases hx : x = .empty
    · subst hx; rfl
    · rw [List.filter_cons_of_pos (by simpa using hx), List.foldr_cons]

/-- The six slots from TOP on. -/
theorem Grading.stack_eq (g : Grading) : g.stack =
    [g.slots[g.top], g.slots[g.top + 1], g.slots[g.top + 2], g.slots[g.top + 3], g.slots[g.top + 4], g.slots[g.top + 5]].filter
      fun x => x != Slot.empty := by
  have hfirst : g.slotAt (g.top + 0) = g.slotAt g.top := congrArg _ (add_zero _)
  exact congrArg (fun x => List.filter _ [x, _, _, _, _, _]) hfirst

/-! ### The commit (R69, R70) -/

theorem MarkSet.commit_eq (p : Position) (l : List Slot) (m : MarkSet) :
    let keys := l.reverse.foldl (write p) m
    m.commit p l = { keys with byA := keys.byA || decide (p = .a), byB := keys.byB || decide (p = .b) } := by
  cases p <;> simp [commit]

/-- The position right after a commit or a pass, its target not yet chosen again. -/
def Grading.committed (g : Grading) : Grading :=
  let sent := (g.cleared.reply .accept).keyTaken
  if g.depth = 0 then { sent with counts := { sent.counts with passes := inc32 sent.counts.passes } }
  else { sent with counts := { sent.counts with commits := inc32 sent.counts.commits } }

theorem Grading.committed_target (g : Grading) : g.committed.target = g.target := by
  have hsent := g.cleared.reply_target .accept
  unfold committed
  split
  · exact hsent
  · exact hsent

/-- The records with a position's stack written into those of a tag. -/
def State.withCommit (s : State) (p : Position) (tag : Nat) : State :=
  s.modifyTrimmer tag fun r => { r with marks := some ((r.marks.getD .blank).commit p (s.grading p).stack) }

theorem commit_grading (p : Position) (tag : Nat) (s : State) :
    (commit p tag s).grading p = (s.grading p).committed.retarget ((s.withCommit p tag).chooseTarget s.tcu.serial p) := by
  cases p <;> rfl

theorem commit_trimmer (p : Position) (tag : Nat) (s : State) :
    (commit p tag s).board.trimmer = (s.withCommit p tag).board.trimmer := by
  cases p <;> rfl

theorem commit_chooseTarget (p q : Position) (tag : Nat) (now : Serial) (s : State) :
    (commit p tag s).chooseTarget now q = (s.withCommit p tag).chooseTarget now q := by
  cases p <;> rfl

end Sys2Proof.Machine

namespace Sys2Proof.Proofs
open Sys2Proof.Machine

/-- Settles O24: the commit writes the newest key of each kind, and the target is chosen again on the records it leaves. -/
theorem markEnt : Obligations.MarkEnt := by
  unfold Obligations.MarkEnt
  intro p s ha hl g send refused
  refine ⟨fun ht => exec_keyEnt_refused p ha hl ht, fun tag ht => ?_⟩
  intro stack written passes sent counted
  have hwritten (m : MarkSet) : m.commit p g.stack = written m := by
    have hkeys : g.stack.reverse.foldl (MarkSet.write p) m = m.newest p stack := by
      rw [g.stack_eq]
      exact MarkSet.foldl_write p stack m
    rw [MarkSet.commit_eq, hkeys]
    rfl
  have hcounted : g.committed = counted := by
    have hpasses : passes = decide (g.depth = 0) := decide_eq_decide.mpr g.depth_eq_zero_iff.symm
    simp only [counted, Grading.committed, hpasses, decide_eq_true_eq]
    split <;> rfl
  refine ⟨commit p tag s, exec_keyEnt_commit p ha hl ht, ?_, ?_, ?_⟩
  · cases p <;> rfl
  · refine (commit_trimmer p tag s).trans (List.map_congr_left fun r _ => ?_)
    exact congrArg (fun m => if r.tag = tag then { r with marks := some m } else r) (hwritten (r.marks.getD .blank))
  · rw [commit_grading, commit_chooseTarget, Grading.retarget_eq, Grading.committed_target, hcounted]
    rfl

end Sys2Proof.Proofs
end

