-- ==== Sys2Proof/Proofs/MarkTargets.lean ====
section
/-! The mark unit on a trimmer advance (O12): the target of a position, and what an advance leaves of its stack and its replies. -/

namespace Sys2Proof.Machine

-- One thread elaborates the many small proofs of this file.
set_option Elab.async false

/-! ### The target (R67) -/

theorem highest_eq_none_iff (now : Serial) (l : List Record) : highest now l = none ↔ l = [] := by
  cases l with
  | nil => exact iff_of_true rfl rfl
  | cons r rest =>
    refine iff_of_false (fun h => ?_) (List.cons_ne_nil r rest)
    unfold highest at h
    split at h
    · cases h
    · split at h <;> cases h

/-- The record found is of the list, and none of the list is further. -/
theorem highest_some {now : Serial} {l : List Record} {r : Record} (h : highest now l = some r) :
    r ∈ l ∧ ∀ x ∈ l, x.trimmerOffset now ≤ r.trimmerOffset now := by
  induction l generalizing r with
  | nil => cases h
  | cons a rest ih =>
    unfold highest at h
    split at h
    · next hnone =>
      cases h
      rw [(highest_eq_none_iff now rest).mp hnone]
      simp
    · next b hb =>
      obtain ⟨hmem, hmax⟩ := ih hb
      split at h
      · next hlt =>
        cases h
        exact ⟨List.mem_cons_of_mem a hmem, List.forall_mem_cons.mpr ⟨Nat.le_of_lt hlt, hmax⟩⟩
      · next hle =>
        cases h
        exact ⟨List.mem_cons_self, List.forall_mem_cons.mpr ⟨Nat.le_refl _, fun x hx => (hmax x hx).trans (Nat.le_of_not_lt hle)⟩⟩

theorem chooseTarget_eq_none_iff (s : State) (now : Serial) (p : Position) :
    s.chooseTarget now p = none ↔ ∀ r ∈ s.board.trimmer, s.targetable now p r = false := by
  unfold State.chooseTarget
  rw [Option.map_eq_none_iff, highest_eq_none_iff, List.filter_eq_nil_iff]
  simp only [Bool.not_eq_true]

theorem chooseTarget_some {s : State} {now : Serial} {p : Position} {tag : Nat} (h : s.chooseTarget now p = some tag) :
    ∃ r ∈ s.board.trimmer, r.tag = tag ∧ s.targetable now p r = true ∧
      ∀ x ∈ s.board.trimmer, s.targetable now p x = true → x.trimmerOffset now ≤ r.trimmerOffset now := by
  obtain ⟨r, hr, htag⟩ := Option.map_eq_some_iff.mp h
  obtain ⟨hmem, hmax⟩ := highest_some hr
  obtain ⟨hmap, htarget⟩ := List.mem_filter.mp hmem
  exact ⟨r, hmap, htag, htarget, fun x hx hopen => hmax x (List.mem_filter.mpr ⟨hx, hopen⟩)⟩

theorem committedBy_iff (r : Record) (p : Position) :
    r.committedBy p = true ↔ ∃ m, r.marks = some m ∧ (match p with
      | .a => m.byA
      | .b => m.byB) = true := by
  unfold Record.committedBy
  cases hm : r.marks with
  | none => simp
  | some m => cases p <;> simp

/-! ### An advance (R68) -/

/-- A target stands at the offset after a high line (R68). -/
def State.carriedOff (s : State) (now : Serial) (high : Nat) (target : Option Nat) : Bool :=
  match target.bind fun tag => byTag s.board.trimmer tag with
  | some r => decide (r.trimmerOffset now = high + 1)
  | none => false

/-- A position after an advance: the stack lost where the target was carried off, then the new target taken. -/
def Grading.advanced (g : Grading) (left : Bool) (new : Option Nat) : Grading :=
  (if left then g.missTarget else g).retarget new

theorem chooseTarget_congr {s t : State} (hrecords : t.board.trimmer = s.board.trimmer) (htables : t.tables = s.tables) :
    t.chooseTarget = s.chooseTarget := by
  unfold State.chooseTarget State.targetable State.gradingWindow
  rw [hrecords, htables]

theorem carriedOff_congr {s t : State} (hrecords : t.board.trimmer = s.board.trimmer) : t.carriedOff = s.carriedOff := by
  unfold State.carriedOff
  rw [hrecords]

theorem markAdvance_eq (now : Serial) (p : Position) (s : State) : markAdvance now p s =
    s.setGrading p ((s.grading p).advanced (s.carriedOff now (s.gradingWindow p).2 (s.grading p).target) (s.chooseTarget now p)) := by
  have hleft : s.targetLeft now p = s.carriedOff now (s.gradingWindow p).2 (s.grading p).target := rfl
  unfold markAdvance Grading.advanced
  rw [hleft]
  generalize s.carriedOff now (s.gradingWindow p).2 (s.grading p).target = left
  cases left
  · rfl
  · cases p <;> rfl

/-- The work of one position reads nothing that the other's changes. -/
theorem markAdvance_both_grading (now : Serial) (x : State) (p : Position) :
    (markAdvance now .b (markAdvance now .a x)).grading p =
      (x.grading p).advanced (x.carriedOff now (x.gradingWindow p).2 (x.grading p).target) (x.chooseTarget now p) := by
  rw [markAdvance_eq, markAdvance_eq]
  cases p <;> rfl

/-- The records that the lines leave decide the targets. -/
theorem advanceTrimmer_grading (u : State) (p : Position) :
    let now := u.tcu.serial + 1
    let t := advanceTrimmer u
    t.grading p = (u.grading p).advanced (t.carriedOff now (u.gradingWindow p).2 (u.grading p).target) (t.chooseTarget now p) := by
  have hmarks : ∀ x : State, Outside { gradingA := true, gradingB := true } x
      (markAdvance (u.tcu.serial + 1) .b (markAdvance (u.tcu.serial + 1) .a x)) := fun x =>
    (markAdvance_outside _ .a x).trans (markAdvance_outside _ .b _)
  have hadvance : ∃ x, Outside .offStacks u x ∧ x.tables = u.tables ∧
      advanceTrimmer u = markAdvance (u.tcu.serial + 1) .b (markAdvance (u.tcu.serial + 1) .a x) := by
    cases hl : u.board.line with
    | run =>
      have hlines := trimmerLines_outside (u.tcu.serial + 1) u
      exact ⟨_, hlines.weaken, hlines.tables rfl, by unfold advanceTrimmer; rw [hl]⟩
    | config => exact ⟨u, .refl _ u, rfl, by unfold advanceTrimmer; rw [hl]⟩
  obtain ⟨x, hx, htables, heq⟩ := hadvance
  have hwindow : x.gradingWindow p = u.gradingWindow p := by
    unfold State.gradingWindow
    rw [htables]
  intro now t
  rw [show t = _ from heq, markAdvance_both_grading, chooseTarget_congr ((hmarks x).trimmer rfl) ((hmarks x).tables rfl),
    carriedOff_congr ((hmarks x).trimmer rfl), hx.grading, hwindow]

/-- What a trimmer advance leaves of a position, by the records and the serial that it leaves (R68). -/
theorem TrimmerAdvanced.grading {s t : State} {edge : Bool} (h : TrimmerAdvanced s edge t) (p : Position) :
    t.grading p = (s.grading p).advanced (t.carriedOff t.tcu.serial (s.gradingWindow p).2 (s.grading p).target)
      (t.chooseTarget t.tcu.serial p) := by
  obtain ⟨u, w, hstart, hw, hreports, rfl⟩ := h
  have hserial : (raiseSerial .trimmer w).tcu.serial = u.tcu.serial + 1 := by
    change w.tcu.serial + 1 = _
    rw [hreports.serial, (afterLines_trimmer_outside s edge _).tcu rfl, (advanceTrimmer_outside u).tcu rfl]
  have ht : Outside { tcu := true, scu := true, events := true, attention := true } (advanceTrimmer u) (raiseSerial .trimmer w) :=
    hw.weaken.trans (raiseSerial_outside .trimmer w).weaken
  have hwindow : u.gradingWindow p = s.gradingWindow p := by
    unfold State.gradingWindow
    rw [hstart.outside.tables rfl]
  rw [ht.grading, advanceTrimmer_grading, hserial, chooseTarget_congr (ht.trimmer rfl) (ht.tables rfl), carriedOff_congr (ht.trimmer rfl),
    hstart.outside.grading, hwindow]

/-- Keys stacked for a target that has left are lost, with MISSED (R68). -/
theorem Grading.missTarget_eq (g : Grading) : g.missTarget =
    if ∃ i : Fin 6, g.slots[i] ≠ .empty then
      let sent := g.cleared.reply .missed
      { sent with counts := { sent.counts with missed := inc32 sent.counts.missed } }
    else g := by
  simp only [← g.depth_ne_zero_iff, ite_not]
  rfl

theorem Grading.missTarget_target (g : Grading) : g.missTarget.target = g.target := by
  unfold missTarget
  split
  · rfl
  · exact g.cleared.reply_target .missed

end Sys2Proof.Machine

namespace Sys2Proof.Proofs
open Sys2Proof.Machine

/-- Settles O12: the target is the furthest record that may be one, and an advance works on each position by the records it leaves. -/
theorem markAdvance : Obligations.MarkAdvance := by
  unfold Obligations.MarkAdvance
  refine ⟨fun s now p => ?_, fun edge p s ha => ?_⟩
  · intro lo hi open_
    have hopen : ∀ r, s.targetable now p r = true ↔ open_ r := fun r => by
      simp only [State.targetable, Bool.and_eq_true, decide_eq_true_eq, Bool.not_eq_true', ← Bool.not_eq_true, committedBy_iff, open_, and_assoc]
      cases p <;> rfl
    refine ⟨?_, fun tag htag => ?_⟩
    · rw [chooseTarget_eq_none_iff]
      simp only [← Bool.not_eq_true, hopen]
    · obtain ⟨r, hr, ht, htarget, hmax⟩ := chooseTarget_some htag
      exact ⟨r, hr, ht, (hopen r).mp htarget, fun x hx hx' => hmax x hx ((hopen x).mpr hx')⟩
  · intro g hi send
    obtain ⟨t, hexec, hadvanced⟩ := exec_advance_trimmer ha
    refine ⟨t, hexec, ?_⟩
    intro new left emptied g1
    have hhigh : (s.gradingWindow p).2 = hi := by cases p <;> rfl
    have hleft : t.carriedOff t.tcu.serial hi g.target = left := rfl
    have hg1 : (if left then g.missTarget else g) = g1 := by
      simp only [g1, g.missTarget_eq, ite_and]
      rfl
    have htarget : g1.target = g.target := by
      rw [← hg1]
      split
      · exact g.missTarget_target
      · rfl
    rw [hadvanced.grading, hhigh, hleft, Grading.advanced, hg1, Grading.retarget_eq, htarget]
    rfl

end Sys2Proof.Proofs
end

