-- ==== Sys2Proof/Proofs/Forces.lean ====
section
/-! FORCE-BOARD: the fields of a force in order, what a stored force does to its record, and the counts (O36). -/

namespace Sys2Proof.Machine

-- One thread elaborates the many small proofs of this file.
set_option Elab.async false

/-! ### The fields of a force (R80) -/

/-- A length saw is usable when it is enabled and has a position (R88). -/
theorem usable_lengthSaw_iff (s : State) {k : Nat} (h1 : 1 ≤ k) (h12 : k ≤ 12) :
    s.usable k = true ↔ (s.saw k).enabled = true ∧ s.sawPlace k ≠ none := by
  simp [State.usable, h12, Nat.ne_of_gt h1, Option.isSome_iff_ne_none]

/-- A force names a saw to trim at that cannot trim (R80). -/
@[reducible] def State.badForceSaw (s : State) (kind k : Nat) : Prop :=
  kind = 1 ∧ ¬ (1 ≤ k ∧ k ≤ 12 ∧ (s.saw k).enabled = true ∧ s.sawPlace k ≠ none)

/-- A force names a grade that is not enabled (R80). -/
@[reducible] def State.badForceGrade (s : State) (grade : Nat) : Prop :=
  grade ≠ 0 ∧ ¬ (grade ≤ 10 ∧ s.tables.grade.enabled.getLsbD (grade - 1) = true)

/-- The kind of a force whose code and saw are in range. -/
def forceKind (kind k : Nat) : Option ForceKind :=
  if kind = 0 then none else if kind = 1 then some (.trim k) else if kind = 2 then some .noTrim else some .trash

theorem forceKindOf_eq (s : State) (kind k : Nat) :
    s.forceKindOf kind k = if 3 < kind then .error 1 else if s.badForceSaw kind k then .error 2 else .ok (forceKind kind k) := by
  match kind with
  | 0 => simp [State.forceKindOf, State.badForceSaw, forceKind]
  | 1 =>
    have hsaw : (1 ≤ k ∧ k ≤ 12 ∧ s.usable k = true) ↔ ¬ s.badForceSaw 1 k := by
      simp only [State.badForceSaw, true_and, not_not]
      exact and_congr_right fun h1 => and_congr_right fun h12 => usable_lengthSaw_iff s h1 h12
    simp only [State.forceKindOf, hsaw, ite_not]
    rfl
  | 2 => simp [State.forceKindOf, State.badForceSaw, forceKind]
  | 3 => simp [State.forceKindOf, State.badForceSaw, forceKind]
  | _ + 4 => simp [State.forceKindOf]

theorem forceFenceOf_eq (fence : Nat) :
    forceFenceOf fence = if 2 < fence then .error 3 else .ok (if fence = 0 then none else some (decide (fence = 1))) := by
  match fence with
  | 0 | 1 | 2 => rfl
  | _ + 3 => simp [forceFenceOf]

theorem forceGradeOf_eq (s : State) (grade : Nat) :
    s.forceGradeOf grade = if s.badForceGrade grade then .error 4 else .ok (if grade = 0 then none else some grade) := by
  unfold State.forceGradeOf State.badForceGrade
  by_cases h : grade = 0
  · simp [h]
  · have h1 : 1 ≤ grade := Nat.one_le_iff_ne_zero.mpr h
    simp only [h, if_false, State.gradeEnabled, h1, ne_eq, not_false_eq_true, true_and, ite_not, Bool.and_eq_true, decide_eq_true_eq,
      decide_true]

/-- The disposition of a force whose code is in range. -/
def forceDisposition (disposition : Nat) : Option Disposition :=
  if disposition = 0 then none else if disposition = 1 then some .normal else if disposition = 2 then some .reject else some .reman

theorem dispositionOf_eq (disposition : Nat) :
    dispositionOf disposition = if 3 < disposition then .error 5 else .ok (forceDisposition disposition) := by
  match disposition with
  | 0 | 1 | 2 | 3 => rfl
  | _ + 4 => simp [dispositionOf]

/-- The number of a force's first field out of range, 0 where there is none (R80). -/
def State.forceFault (s : State) (kind k fence grade disposition : Nat) : Byte :=
  if 3 < kind then 1
  else if s.badForceSaw kind k then 2
  else if 2 < fence then 3
  else if s.badForceGrade grade then 4
  else if 3 < disposition then 5
  else 0

/-- The force that fields in range carry (R80). -/
def forceSent (kind k fence grade disposition : Nat) : Force :=
  { kind := forceKind kind k
    fence := if fence = 0 then none else some (decide (fence = 1))
    grade := if grade = 0 then none else some grade
    disposition := forceDisposition disposition }

/-- A force is refused by its first field out of range. -/
theorem judgeForce_eq (s : State) (kind k fence grade disposition : Nat) :
    s.judgeForce kind k fence grade disposition =
      if s.forceFault kind k fence grade disposition = 0 then .ok (forceSent kind k fence grade disposition)
      else .error (s.forceFault kind k fence grade disposition).toNat := by
  unfold State.judgeForce State.forceFault
  rw [forceKindOf_eq, forceFenceOf_eq, forceGradeOf_eq, dispositionOf_eq]
  by_cases hkind : 3 < kind
  · simp only [if_pos hkind]; rfl
  by_cases hsaw : s.badForceSaw kind k
  · simp only [if_neg hkind, if_pos hsaw]; rfl
  by_cases hfence : 2 < fence
  · simp only [if_neg hkind, if_neg hsaw, if_pos hfence]; rfl
  by_cases hgrade : s.badForceGrade grade
  · simp only [if_neg hkind, if_neg hsaw, if_neg hfence, if_pos hgrade]; rfl
  by_cases hdisposition : 3 < disposition
  · simp only [if_neg hkind, if_neg hsaw, if_neg hfence, if_neg hgrade, if_pos hdisposition]; rfl
  · simp only [if_neg hkind, if_neg hsaw, if_neg hfence, if_neg hgrade, if_neg hdisposition]; rfl

/-! ### Storing a force (R81, R82) -/

def Record.withForce (force : Force) (r : Record) : Record := { r with force := some force }

/-- A record with a decision written at a redecide (R82). -/
def Record.redecided (d : Decision) (r : Record) : Record :=
  { r with decision := some d, flags := { r.flags with redecided := true } }

/-- The decision of a record does not read the trimmer map. -/
theorem modifyTrimmer_decideBoard (s : State) (tag : Nat) (f : Record → Record) (r : Record) :
    (s.modifyTrimmer tag f).decideBoard r = s.decideBoard r :=
  decideBoard_congr (s := s) (t := s.modifyTrimmer tag f) ⟨rfl, rfl, rfl, rfl⟩ r

theorem modifyTrimmer_congr {s : State} {tag : Nat} {f g : Record → Record} (h : ∀ x ∈ s.board.trimmer, x.tag = tag → f x = g x) :
    s.modifyTrimmer tag f = s.modifyTrimmer tag g := by
  unfold State.modifyTrimmer
  rw [mapTag_congr h]

/-- The state after a DECIDED record is forced to a decision (R82). -/
def State.forcedTo (s : State) (tag : Nat) (force : Force) (d : Decision) : State :=
  { s.modifyTrimmer tag (fun x => (x.withForce force).redecided d) with decision := s.decision.written tag d true }

section
variable {s : State} {force : Force} {r : Record} {off : Nat}

theorem storeForce_preview (h : r.life ≠ .decided) :
    storeForce force r off s = (s.modifyTrimmer r.tag (Record.withForce force),
      { status := .ok, fields := forceBytes (r.withForce force) off (s.decideBoard (r.withForce force)) }) := by
  unfold storeForce
  dsimp only
  rw [if_neg h, modifyTrimmer_decideBoard]
  rfl

theorem storeForce_redecide (h : r.life = .decided) :
    storeForce force r off s = (s.forcedTo r.tag force (s.decideBoard (r.withForce force)),
      { status := .ok
        fields := forceBytes ((r.withForce force).redecided (s.decideBoard (r.withForce force))) off
          (s.decideBoard (r.withForce force)) }) := by
  have hredecide : redecide (r.withForce force) (s.modifyTrimmer r.tag (Record.withForce force)) =
      s.forcedTo r.tag force (s.decideBoard (r.withForce force)) := by
    unfold redecide State.forcedTo
    rw [modifyTrimmer_decideBoard]
    dsimp only [State.modifyTrimmer, Record.withForce]
    rw [mapTag_mapTag _ (by intro; rfl)]
    rfl
  unfold storeForce
  dsimp only
  rw [if_pos h, modifyTrimmer_decideBoard]
  exact congrArg (·, _) hredecide

end

/-! ### FORCE-BOARD on a link's taken request (R84) -/

theorem taken_modifyForces (s : State) (l : LinkId) (f : ForceCounts → ForceCounts) :
    (s.taken l).modifyForces f = (s.modifyForces f).taken l := by cases l <;> rfl

theorem taken_forcedTo (s : State) (l : LinkId) (tag : Nat) (force : Force) (d : Decision) :
    (s.taken l).forcedTo tag force d = (s.forcedTo tag force d).taken l := by cases l <;> rfl

theorem taken_judgeForce (s : State) (l : LinkId) : (s.taken l).judgeForce = s.judgeForce := by cases l <;> rfl

/-- The fault of a FORCE-BOARD's fields (R80, R180). -/
def State.sentFault (s : State) (fields : List Byte) : Byte :=
  s.forceFault (fieldAt fields 2 1) (fieldAt fields 3 1) (fieldAt fields 4 1) (fieldAt fields 5 1) (fieldAt fields 6 1)

/-- The force of a FORCE-BOARD's fields (R80, R180). -/
def sentForce (fields : List Byte) : Force :=
  forceSent (fieldAt fields 2 1) (fieldAt fields 3 1) (fieldAt fields 4 1) (fieldAt fields 5 1) (fieldAt fields 6 1)

theorem judgeForce_sent (s : State) (l : LinkId) (fields : List Byte) :
    (s.taken l).judgeForce (fieldAt fields 2 1) (fieldAt fields 3 1) (fieldAt fields 4 1) (fieldAt fields 5 1) (fieldAt fields 6 1) =
      if s.sentFault fields = 0 then .ok (sentForce fields) else .error (s.sentFault fields).toNat := by
  rw [taken_judgeForce]
  exact judgeForce_eq s _ _ _ _ _

section
variable {s t : State} {l : LinkId} {fields : List Byte} {r : Record} {off : Nat} {a : Answer}

theorem forceBoard_refused (h : s.onTrimmerBelow (fieldAt fields 0 2) s.tables.station.sawSet = .error a) :
    forceBoard l fields (s.taken l) = ((s.modifyForces (ForceCounts.after a.status false)).taken l, a) := by
  unfold forceBoard
  dsimp only
  rw [taken_tables, taken_onTrimmerBelow, h]
  exact congrArg (·, a) (taken_modifyForces s l _)

section
variable (h : s.onTrimmerBelow (fieldAt fields 0 2) s.tables.station.sawSet = .ok (r, off))
include h

theorem forceBoard_outOfRange (hfault : s.sentFault fields ≠ 0) :
    forceBoard l fields (s.taken l) = ((s.modifyForces (ForceCounts.after .range false)).taken l,
      { status := .range, fields := u16 (fieldAt fields 0 2) ++ [s.sentFault fields] }) := by
  unfold forceBoard
  dsimp only
  rw [taken_tables, taken_onTrimmerBelow, h, judgeForce_sent, if_neg hfault]
  dsimp only
  rw [u8_toNat, taken_modifyForces]

/-- A force below S with its fields in range does what its store does, and is counted with the redecide it made. -/
theorem forceBoard_inRange (hfault : s.sentFault fields = 0)
    (hstore : storeForce (sentForce fields) r off (s.taken l) = (t.taken l, a)) :
    forceBoard l fields (s.taken l) = ((t.modifyForces (ForceCounts.after .ok (decide (r.life = .decided)))).taken l, a) := by
  unfold forceBoard
  dsimp only
  rw [taken_tables, taken_onTrimmerBelow, h, judgeForce_sent, if_pos hfault]
  dsimp only
  rw [hstore]
  exact congrArg (·, a) (taken_modifyForces t l _)

end
end

/-- The answer to a FORCE-BOARD that is ready, from what its handler does. -/
theorem exec_forceBoard {num : Byte} {fields : List Byte} {s t : State} {a : Answer}
    (hready : s.Ready .lineController (0x08 :: num :: fields)) (hlength : fields.length = 7)
    (h : forceBoard .lineController fields (s.taken .lineController) = (t.taken .lineController, a)) :
    exec (.forceBoard .lineController num fields) s = .next (t.answered .lineController (0x08 :: num :: a.status.code :: a.fields)) :=
  serve_answered (r := .forceBoard) hready (by omega) (by decide) (by simp [formOk, hlength]) h

end Sys2Proof.Machine

namespace Sys2Proof.Proofs
open Sys2Proof.Machine

/-- Settles O36: the record's refusals, the first field out of range, then the store, as a preview or as a redecide. -/
theorem forceBoard : Obligations.ForceBoard := by
  unfold Obligations.ForceBoard
  intro num fields s hlength hready tag kind k fence grade disposition c S run refused
  have hserve := fun {t a} => exec_forceBoard (t := t) (a := a) hready hlength
  refine ⟨fun hnone => hserve (forceBoard_refused (onTrimmerBelow_none hnone)), fun r place hsome =>
    ⟨fun hlate => hserve (forceBoard_refused (onTrimmerBelow_late hsome hlate)), fun off hplace hbelow => ?_⟩⟩
  subst hplace
  have hfound := onTrimmerBelow_below hsome hbelow
  have htag : r.tag = tag := (byTag_some (onTrimmerBelow_ok hfound).1).2
  intro fault
  refine ⟨fun hfault => ?_, fun hfault honly => ?_⟩
  · exact hserve (forceBoard_outOfRange hfound hfault)
  · intro force forced d
    refine ⟨fun hlife => ?_, fun hlife => ?_⟩
    · have hstored := storeForce_preview (s := s.taken .lineController) (force := sentForce fields) (off := off) hlife
      have hrecords : s.modifyTrimmer tag (Record.withForce (sentForce fields)) = s.modifyTrimmer tag fun _ => forced :=
        modifyTrimmer_congr fun x hx hxt => congrArg (Record.withForce (sentForce fields)) (honly x hx hxt)
      rw [taken_modifyTrimmer, taken_decideBoard, htag, hrecords] at hstored
      refine (hserve (forceBoard_inRange hfound hfault hstored)).trans ?_
      rw [decide_eq_false hlife, forceBytes, ← htag]
      rfl
    · have hstored := storeForce_redecide (s := s.taken .lineController) (force := sentForce fields) (off := off) hlife
      have hrecords : s.modifyTrimmer tag (fun x => (x.withForce (sentForce fields)).redecided d) =
          s.modifyTrimmer tag fun _ => forced.redecided d :=
        modifyTrimmer_congr fun x hx hxt => congrArg (fun x => (x.withForce (sentForce fields)).redecided d) (honly x hx hxt)
      have hforced : (s.taken .lineController).decideBoard (r.withForce (sentForce fields)) = d := taken_decideBoard s _ _
      rw [hforced, taken_forcedTo, htag, State.forcedTo, hrecords, forceBytes] at hstored
      refine (hserve (forceBoard_inRange hfound hfault hstored)).trans ?_
      have hlifeByte : u8 ((r.withForce (sentForce fields)).redecided d).life.code = [2] := by
        change u8 r.life.code = [2]
        rw [hlife]
        rfl
      rw [decide_eq_true hlife, hlifeByte, ← htag]
      rfl

end Sys2Proof.Proofs
end

