-- ==== Sys2Proof/Proofs/Modes.lean ====
section
/-! SET-LINE-MODE, SAW-ENABLE and SAW-DISABLE: the checks of a mode in order, and what a taken request sets (O37). -/

namespace Sys2Proof.Machine

-- One thread elaborates the many small proofs of this file.
set_option Elab.async false

/-! ### The checks of a mode (R76) -/

theorem sawPolicyOf_badCode {code : Nat} (h : code < 1 ∨ 4 < code) (k : Nat) : sawPolicyOf code k = .error 1 := by
  match code with
  | 0 | _ + 5 => rfl
  | 1 | 2 | 3 | 4 => omega

theorem sawPolicyOf_badSaw {k : Nat} (h : k < 1 ∨ 12 < k) : sawPolicyOf 2 k = .error 2 := if_neg (by omega)

theorem sawPolicyOf_fixed {k : Nat} (h1 : 1 ≤ k) (h12 : k ≤ 12) : sawPolicyOf 2 k = .ok (.fixed k) := if_pos ⟨h1, h12⟩

theorem sortPolicyOf_badCode {code : Nat} (h : code < 1 ∨ 3 < code) : sortPolicyOf code = none := by
  match code with
  | 0 | _ + 4 => rfl
  | 1 | 2 | 3 => omega

/-- A sort policy's code (R180). -/
def SortPolicy.sent : SortPolicy → Byte
  | .byProduct => 1
  | .allReject => 2
  | .allRunout => 3

theorem sortPolicyOf_sent (sort : SortPolicy) : sortPolicyOf sort.sent.toNat = some sort := by cases sort <;> rfl

theorem sent_eq_one_iff (sort : SortPolicy) : sort.sent = 1 ↔ sort = .byProduct := by cases sort <;> decide

/-- A saw policy's code and its saw number, 0 but under FIXED (R180). -/
def SawPolicy.sent : SawPolicy → List Byte
  | .auto => [1, 0]
  | .fixed k => 2 :: u8 k
  | .trashAll => [3, 0]
  | .bypass => [4, 0]

theorem LineMode.bytes_eq (m : LineMode) : m.bytes = m.saws.sent ++ [m.sort.sent] := by
  obtain ⟨saws, sort⟩ := m
  unfold LineMode.bytes
  cases saws <;> cases sort <;> rfl

section
variable {s : State} {sawCode k sortCode n : Nat} {saws : SawPolicy} {sort : SortPolicy}

theorem judgeMode_badSaws (h : sawPolicyOf sawCode k = .error n) : s.judgeMode sawCode k sortCode = .error (.range, n) := by
  unfold State.judgeMode
  rw [h]

section
variable (hsaws : sawPolicyOf sawCode k = .ok saws)
include hsaws

theorem judgeMode_badSort (hsort : sortPolicyOf sortCode = none) : s.judgeMode sawCode k sortCode = .error (.range, 3) := by
  unfold State.judgeMode
  rw [hsaws, hsort]

variable (hsort : sortPolicyOf sortCode = some sort)
include hsort

theorem judgeMode_clash (hclash : s.modeClash { saws, sort } = some n) : s.judgeMode sawCode k sortCode = .error (.combo, n) := by
  unfold State.judgeMode
  rw [hsaws, hsort]
  dsimp only
  rw [hclash]

theorem judgeMode_ok (hclash : s.modeClash { saws, sort } = none) : s.judgeMode sawCode k sortCode = .ok { saws, sort } := by
  unfold State.judgeMode
  rw [hsaws, hsort]
  dsimp only
  rw [hclash]

end
end

/-- A FIXED mode clashes where its saw is disabled, then where it has no position. -/
theorem modeClash_fixed (s : State) (k : Nat) (sort : SortPolicy) : s.modeClash { saws := .fixed k, sort } =
    if (s.saw k).enabled = false then some 2 else if s.sawPlace k = none then some 3 else none := by
  simp [State.modeClash]

theorem modeClash_bypass (s : State) (sort : SortPolicy) :
    s.modeClash { saws := .bypass, sort } = if sort = .byProduct then some 1 else none := rfl

/-! ### SET-LINE-MODE on a link's taken request (R76) -/

/-- A request taken leaves what judges the mode in its three fields. -/
theorem taken_judgeMode (s : State) (l : LinkId) (a k b : Byte) :
    (s.taken l).judgeMode (fieldAt [a, k, b] 0 1) (fieldAt [a, k, b] 1 1) (fieldAt [a, k, b] 2 1) =
      s.judgeMode a.toNat k.toNat b.toNat := by
  simp only [fieldAt_one]
  cases l <;> rfl

theorem taken_decision (s : State) (l : LinkId) : (s.taken l).decision = s.decision := State.modifyLink_decision s l _

/-- The state with another decision unit. -/
def State.withDecision (s : State) (u : DecisionUnit) : State := { s with decision := u }

theorem taken_withDecision (s : State) (l : LinkId) (u : DecisionUnit) : (s.taken l).withDecision u = (s.withDecision u).taken l := by
  cases l <;> rfl

section
variable {num a k b : Byte} {s : State} (hready : s.Ready .lineController [0x07, num, a, k, b])
include hready

/-- A mode that a check fails is counted, and answered the mode in force and its fault number. -/
theorem exec_setLineMode_refused {status : Status} {n : Nat} (h : s.judgeMode a.toNat k.toNat b.toNat = .error (status, n)) :
    exec (.setLineMode .lineController num [a, k, b]) s =
      .next ((s.withDecision { s.decision with modesRefused := inc32 s.decision.modesRefused }).answered .lineController
        (0x07 :: num :: status.code :: (s.decision.mode.bytes ++ u8 n))) := by
  refine serve_answered (r := .setLineMode) (a := { status, fields := s.decision.mode.bytes ++ u8 n }) hready (by simp) (by decide)
    (by simp [formOk]) ?_
  unfold setLineMode
  rw [taken_judgeMode, taken_decision, h, ← taken_withDecision]
  rfl

/-- A mode that passes its checks is set, counted and answered. -/
theorem exec_setLineMode_set {mode : LineMode} (h : s.judgeMode a.toNat k.toNat b.toNat = .ok mode) :
    exec (.setLineMode .lineController num [a, k, b]) s =
      .next ((s.withDecision { s.decision with mode, modesTaken := inc32 s.decision.modesTaken }).answered .lineController
        (0x07 :: num :: 0x00 :: (mode.saws.sent ++ [mode.sort.sent]))) := by
  rw [← LineMode.bytes_eq]
  refine serve_answered (r := .setLineMode) (a := { status := .ok, fields := mode.bytes }) hready (by simp) (by decide)
    (by simp [formOk]) ?_
  unfold setLineMode
  rw [taken_judgeMode, taken_decision, h, ← taken_withDecision]
  rfl

end

/-! ### SAW-ENABLE and SAW-DISABLE on a link's taken request (R85) -/

theorem taken_modifySaw (s : State) (l : LinkId) (k : Nat) (f : SawRec → SawRec) :
    (s.taken l).modifySaw k f = (s.modifySaw k f).taken l := by cases l <;> rfl

theorem taken_saw (s : State) (l : LinkId) (k : Nat) : (s.taken l).saw k = s.saw k := by cases l <;> rfl

section
variable {r : Req} {num saw : Byte} {s : State} {change : SawRec → SawRec}

/-- A saw request changes the saw it names and answers its enabled flag and consecutive misses; a saw number over 12 is refused. -/
theorem serve_sawService (hready : s.Ready .lineController [requestCode r, num, saw]) (hright : hasRight .lineController r = true)
    (hform : formOk r [saw] = true) : serve r .lineController num [saw] (sawService change) s =
      if saw.toNat ≤ 12 then
        .next ((s.modifySaw saw.toNat change).answered .lineController
          (requestCode r :: num :: 0x00 :: saw :: (flag8 (change (s.saw saw.toNat)).enabled ++ u8 (change (s.saw saw.toNat)).misses)))
      else .next (s.answered .lineController [requestCode r, num, 0x07]) := by
  have hfield : fieldAt [saw] 0 1 = saw.toNat := fieldAt_one _ _
  have hserve := fun {t a} => serve_answered (t := t) (a := a) hready (by simp) hright hform (act := sawService change)
  by_cases hsaw : saw.toNat ≤ 12
  · have hexists : sawExists saw.toNat = true := decide_eq_true hsaw
    rw [if_pos hsaw]
    refine hserve (a := { status := .ok, fields := saw :: (flag8 _ ++ u8 _) }) ?_
    unfold sawService
    simp only [hfield, hexists, if_true, taken_modifySaw, taken_saw, State.modifySaw_saw s change hexists, u8_toNat]
    rfl
  · rw [if_neg hsaw]
    refine hserve (a := .bare .range) ?_
    unfold sawService
    simp only [hfield, sawExists, hsaw, decide_false, Bool.false_eq_true, if_false]

end

end Sys2Proof.Machine

namespace Sys2Proof.Proofs
open Sys2Proof.Machine

/-- Settles O37: the checks of a mode in order, then the mode set, and the two saw commands by their common service. -/
theorem modesAndSaws : Obligations.ModesAndSaws := by
  unfold Obligations.ModesAndSaws
  refine ⟨fun num a k b s hready => ?_, fun num saw s => ⟨fun hready => ?_, fun hready => ?_⟩⟩
  · intro u refused set run
    have hrefused := fun {status n} => exec_setLineMode_refused (status := status) (n := n) hready
    have hset := fun {mode} => exec_setLineMode_set (mode := mode) hready
    refine ⟨fun ha => ?_, ?_, fun ha hb => ?_, fun sort hb => ?_⟩
    · exact hrefused (judgeMode_badSaws (sawPolicyOf_badCode ha _))
    · rintro rfl hk
      exact hrefused (judgeMode_badSaws (sawPolicyOf_badSaw hk))
    · obtain ⟨saws, hsaws⟩ : ∃ saws, sawPolicyOf a.toNat k.toNat = .ok saws := by
        obtain rfl | ⟨rfl, h1, h12⟩ | rfl | rfl := ha
        · exact ⟨_, rfl⟩
        · exact ⟨_, sawPolicyOf_fixed h1 h12⟩
        · exact ⟨_, rfl⟩
        · exact ⟨_, rfl⟩
      exact hrefused (judgeMode_badSort hsaws (sortPolicyOf_badCode hb))
    · have hsent : b = sort.sent := by obtain ⟨rfl, rfl⟩ | ⟨rfl, rfl⟩ | ⟨rfl, rfl⟩ := hb <;> rfl
      subst hsent
      have hsort := sortPolicyOf_sent sort
      refine ⟨?_, ?_, ?_, ?_, ?_⟩
      · rintro rfl hb1
        exact hrefused (judgeMode_clash rfl hsort ((modeClash_bypass s sort).trans (if_pos ((sent_eq_one_iff sort).mp hb1))))
      · rintro rfl h1 h12
        have hsaws := sawPolicyOf_fixed h1 h12
        have hclash := modeClash_fixed s k.toNat sort
        refine ⟨fun hoff => ?_, fun hon hnone => ?_, fun hon hplace => ?_⟩
        · exact hrefused (judgeMode_clash hsaws hsort (hclash.trans (if_pos hoff)))
        · exact hrefused (judgeMode_clash hsaws hsort (by simp [hclash, hon, hnone]))
        · have h := hset (judgeMode_ok hsaws hsort (by simp [hclash, hon, hplace]))
          rw [SawPolicy.sent, u8_toNat] at h
          exact h
      · rintro rfl
        exact hset (judgeMode_ok rfl hsort rfl)
      · rintro rfl
        exact hset (judgeMode_ok rfl hsort rfl)
      · rintro rfl hb1
        have hclash := (modeClash_bypass s sort).trans (if_neg (mt (sent_eq_one_iff sort).mpr hb1))
        exact hset (judgeMode_ok rfl hsort hclash)
  · exact serve_sawService (r := .sawEnable) hready (by decide) rfl
  · exact serve_sawService (r := .sawDisable) hready (by decide) rfl

end Sys2Proof.Proofs
end

