-- ==== Sys2Proof/Proofs/Selection.lean ====
section
/-! What a candidate is worth, the member chosen, and what every TRIM decision is made of (O20, O21). -/

namespace Sys2Proof.Machine

-- One thread elaborates the many small proofs of this file.
set_option Elab.async false

/-! ### Volume, price and value (R99 to R101) -/

theorem roundDiv_thousand (n : Nat) : roundDiv n 1000 = (n + 500) / 1000 := by unfold roundDiv; omega

theorem roundDiv_million (n : Nat) : roundDiv n 1000000 = (n + 500000) / 1000000 := by unfold roundDiv; omega

section
variable (s : State)

/-- A length saw's position and nominal length stand in the saw table. -/
theorem sawPlace_lengthSaw {k : Nat} (h : 1 ≤ k) : s.sawPlace k = entryD s.tables.saw.places (k - 1) none := if_neg (by omega)

/-- S0 has no position. -/
theorem sawPlace_zero : s.sawPlace 0 = none := rfl

/-- A grade's price at a length saw is its cell of the active bank. -/
theorem price_eq_cell {g k : Nat} (hg1 : 1 ≤ g) (hg10 : g ≤ 10) (hk1 : 1 ≤ k) (hk12 : k ≤ 12) : s.price g k =
    if s.tables.active1 then entryD s.tables.bank1 (12 * (g - 1) + (k - 1)) 0
    else entryD s.tables.bank0 (12 * (g - 1) + (k - 1)) 0 := by
  unfold State.price bankPrice
  rw [if_pos ⟨hg1, hg10, hk1, hk12⟩, apply_ite (entryD · (12 * (g - 1) + (k - 1)) 0)]

variable {scan : ScanSummary} {k tc wc : Nat} {p : SawPlace}

/-- Nominal volume from the measurements of defined size codes and a configured saw's nominal length. -/
theorem volume_eq (ht : entryD s.tables.size.thickness (scan.thickness - 1) none = some tc)
    (hw : entryD s.tables.size.width (scan.width - 1) none = some wc) (hp : s.sawPlace k = some p) :
    s.volume scan k = (tc * wc * p.nominal + 500) / 1000 := by
  unfold State.volume
  rw [ht, hw, hp, roundDiv_thousand]
  rfl

theorem value_eq (v g k : Nat) : s.value v g k = (v * s.price g k + 500000) / 1000000 := roundDiv_million _

end

/-! ### The member chosen (R102) -/

section
variable {s : State} {scan : ScanSummary}

/-- A member of lower value than another, or of its value with a lower far saw. -/
def State.ranksBelow (s : State) (scan : ScanSummary) (x m : Member) : Prop :=
  s.memberValue scan x < s.memberValue scan m ∨ (s.memberValue scan x = s.memberValue scan m ∧ x.saw < m.saw)

/-- A member that does not rank above another. -/
def State.ranksAtMost (s : State) (scan : ScanSummary) (x m : Member) : Prop :=
  s.memberValue scan x < s.memberValue scan m ∨ (s.memberValue scan x = s.memberValue scan m ∧ x.saw ≤ m.saw)

theorem State.ranksBelow.atMost {x m : Member} (h : s.ranksBelow scan x m) : s.ranksAtMost scan x m :=
  h.imp_right fun ⟨hv, hs⟩ => ⟨hv, hs.le⟩

theorem ranksAtMost_of_not_ranksBelow {x m : Member} (h : ¬ s.ranksBelow scan m x) : s.ranksAtMost scan x m := by
  unfold State.ranksBelow at h
  unfold State.ranksAtMost
  omega

theorem State.ranksAtMost.trans {x y z : Member} (hxy : s.ranksAtMost scan x y) (hyz : s.ranksAtMost scan y z) : s.ranksAtMost scan x z := by
  unfold State.ranksAtMost at *
  omega

theorem best_cons_none {m : Member} {rest : List Member} (h : s.best scan rest = none) : s.best scan (m :: rest) = some m := by
  rw [State.best, h]

/-- A member before the best of the rest gives way to it only where it ranks below. -/
theorem best_cons_some {m b : Member} {rest : List Member} (h : s.best scan rest = some b) :
    (s.ranksBelow scan m b ∧ s.best scan (m :: rest) = some b) ∨ (¬ s.ranksBelow scan m b ∧ s.best scan (m :: rest) = some m) := by
  rw [State.best, h]
  by_cases hb : s.ranksBelow scan m b
  · exact .inl ⟨hb, if_pos hb⟩
  · exact .inr ⟨hb, if_neg hb⟩

theorem best_eq_none_iff (set : List Member) : s.best scan set = none ↔ set = [] := by
  cases set with
  | nil => exact ⟨fun _ => rfl, fun _ => rfl⟩
  | cons m rest =>
    cases h : s.best scan rest with
    | none => simp [best_cons_none h]
    | some b => obtain ⟨-, he⟩ | ⟨-, he⟩ := best_cons_some (m := m) h <;> simp [he]

/-- The member chosen ranks above those posted before it, and none after it ranks above it. -/
theorem best_splits {set : List Member} {m : Member} (h : s.best scan set = some m) :
    ∃ before after, set = before ++ m :: after ∧ (∀ x ∈ before, s.ranksBelow scan x m) ∧ ∀ x ∈ after, s.ranksAtMost scan x m := by
  induction set generalizing m with
  | nil => cases h
  | cons first rest ih =>
    cases hrest : s.best scan rest with
    | none =>
      rw [best_cons_none hrest] at h
      obtain rfl := Option.some.inj h
      refine ⟨[], rest, rfl, by simp, ?_⟩
      rw [(best_eq_none_iff rest).mp hrest]
      simp
    | some b =>
      obtain ⟨before, after, hset, hbefore, hafter⟩ := ih hrest
      obtain ⟨hbelow, he⟩ | ⟨hnot, he⟩ := best_cons_some (m := first) hrest
      · obtain rfl := Option.some.inj (he.symm.trans h)
        exact ⟨first :: before, after, by rw [hset]; rfl, List.forall_mem_cons.mpr ⟨hbelow, hbefore⟩, hafter⟩
      · obtain rfl := Option.some.inj (he.symm.trans h)
        have hb := ranksAtMost_of_not_ranksBelow hnot
        refine ⟨[], rest, rfl, by simp, ?_⟩
        rw [hset, List.forall_mem_append, List.forall_mem_cons]
        exact ⟨fun x hx => (hbefore x hx).atMost.trans hb, hb, fun x hx => (hafter x hx).trans hb⟩

theorem mem_of_best {set : List Member} {m : Member} (h : s.best scan set = some m) : m ∈ set := by
  obtain ⟨before, after, rfl, -, -⟩ := best_splits h
  simp

end

/-! ### The grounds of a TRIM decision (R88, R91, R97, R98, R104) -/

/-- A decision trims a scanned board at a usable saw that is feasible with the decision's fence, the fence only under an enabled S0. -/
def State.TrimsSoundly (s : State) (r : Record) (d : Decision) : Prop :=
  ∃ scan k fence g source reason index, r.scan = some scan ∧ s.usable k = true ∧ s.feasibleAt k fence scan.length = true ∧
    (fence = true → (s.saw 0).enabled = true) ∧ d = s.trimAt r scan k fence g source reason index

section
variable {s : State} {r : Record}

/-- A feasible saw is a length saw with a position, and the board and the piece left reach (R98). -/
theorem feasibleAt_iff {k ls : Nat} {fence : Bool} : s.feasibleAt k fence ls = true ↔
    ∃ p, s.sawPlace k = some p ∧ p.position + s.tables.settings.allowance ≤ ls ∧
      p.nominal + (if fence then s.tables.settings.fence else 0) ≤ p.position := by
  unfold State.feasibleAt
  cases hp : s.sawPlace k with
  | none => simp
  | some p => cases fence <;> simp [feasible]

theorem decideForced_trims (kind : ForceKind) : (s.decideForced r kind).kind = .trim → s.TrimsSoundly r (s.decideForced r kind) := by
  unfold State.decideForced
  split
  case h_5 k scan hscan =>
    dsimp only
    split
    · next hfits =>
      obtain ⟨husable, hfeasible⟩ := Bool.and_eq_true_iff.mp hfits
      exact fun _ => ⟨scan, k, s.forcedFence r, _, _, _, _, hscan, husable, hfeasible, fun hf => (Bool.and_eq_true_iff.mp hf).2, rfl⟩
    · exact nofun
  all_goals exact nofun

theorem decideFallback_trims {scan : ScanSummary} (hscan : r.scan = some scan) :
    (s.decideFallback r scan).kind = .trim → s.TrimsSoundly r (s.decideFallback r scan) := by
  unfold State.decideFallback
  dsimp only
  split
  · next k hk =>
    have hfits := List.find?_some hk
    simp only [Bool.and_eq_true] at hfits
    obtain ⟨⟨husable, -⟩, hfeasible⟩ := hfits
    exact fun _ => ⟨scan, k, _, _, _, _, _, hscan, husable, hfeasible, fun hf => (Bool.and_eq_true_iff.mp hf).2, rfl⟩
  · exact nofun

/-- A member left by the filters stands at a usable saw and is feasible. -/
theorem mem_filtered {scan : ScanSummary} {set : List Member} {m : Member}
    (h : m ∈ s.feasibleFilter scan (s.fenceFilter r (s.gradeFilter r (s.sawFilter r set)))) :
    s.usable m.saw = true ∧ s.feasibleAt m.saw m.fence scan.length = true ∧ (m.fence = true → (s.saw 0).enabled = true) := by
  obtain ⟨hfenced, hfeasible⟩ := List.mem_filter.mp h
  obtain ⟨graded, hgraded, rfl⟩ := List.mem_map.mp hfenced
  obtain ⟨sawn, hsawn, rfl⟩ := List.mem_map.mp (List.mem_filter.mp hgraded).1
  exact ⟨(Bool.and_eq_true_iff.mp (List.mem_filter.mp hsawn).2).2, hfeasible, fun hf => (Bool.and_eq_true_iff.mp hf).2⟩

theorem decideValued_trims {scan : ScanSummary} (hscan : r.scan = some scan) :
    (s.decideValued r scan).kind = .trim → s.TrimsSoundly r (s.decideValued r scan) := by
  unfold State.decideValued
  dsimp only
  split
  · next m hm =>
    obtain ⟨husable, hfeasible, hfence⟩ := mem_filtered (mem_of_best hm)
    exact fun _ => ⟨scan, m.saw, m.fence, m.grade, _, _, _, hscan, husable, hfeasible, hfence, rfl⟩
  · split
    · exact nofun
    all_goals exact decideFallback_trims hscan

theorem decideUnforced_trims : (s.decideUnforced r).kind = .trim → s.TrimsSoundly r (s.decideUnforced r) := by
  unfold State.decideUnforced
  split
  · exact nofun
  · split
    · exact nofun
    · next scan hscan => exact decideValued_trims hscan

/-- Whatever settles it, a TRIM decision is of an unsuspected record and has its grounds. -/
theorem decideBoard_trims : (s.decideBoard r).kind = .trim → r.flags.suspect = false ∧ s.TrimsSoundly r (s.decideBoard r) := by
  unfold State.decideBoard
  split
  · exact nofun
  next hsuspect =>
  refine fun h => ⟨Bool.eq_false_of_not_eq_true hsuspect, ?_⟩
  revert h
  split
  · exact decideForced_trims _
  split
  · exact nofun
  · exact nofun
  all_goals exact decideUnforced_trims

end

end Sys2Proof.Machine

namespace Sys2Proof.Proofs
open Sys2Proof.Machine

/-- Settles O21: the worth by the tables' cells, the choice by induction over the set. -/
theorem selectionRule : Obligations.SelectionRule := by
  unfold Obligations.SelectionRule
  refine ⟨fun s g k hg1 hg10 hk1 hk12 => price_eq_cell s hg1 hg10 hk1 hk12, ?_, fun s scan set => ⟨best_eq_none_iff set, fun m => best_splits⟩⟩
  intro s scan k tc wc p _ _ hk ht hw hp
  have hvolume := volume_eq s ht hw ((sawPlace_lengthSaw s hk).trans hp)
  refine ⟨hvolume, fun m hm => ?_⟩
  unfold State.memberValue
  rw [value_eq, hm, hvolume]

/-- Settles O20: the grounds of the decision, then its figures from the tables. -/
theorem trimDecisionsFeasible : Obligations.TrimDecisionsFeasible := by
  unfold Obligations.TrimDecisionsFeasible
  intro s r hkind d
  obtain ⟨hsuspect, scan, k, fence, g, source, reason, index, hscan, husable, hfeasible, hfence, hd⟩ := decideBoard_trims hkind
  obtain ⟨p, hp, hreach, hpiece⟩ := feasibleAt_iff.mp hfeasible
  have hk1 : 1 ≤ k := Nat.one_le_iff_ne_zero.mpr fun h => by rw [h, sawPlace_zero] at hp; cases hp
  have hk12 : k ≤ 12 := by simpa using (Bool.and_eq_true_iff.mp (Bool.and_eq_true_iff.mp husable).1).2
  have henabled := ((usable_lengthSaw_iff s hk1 hk12).mp husable).1
  have hd' : d = s.trimAt r scan k fence g source reason index := hd
  rw [hd']
  refine ⟨hsuspect, k, p, scan, g, hscan, hk1, hk12, rfl, rfl, rfl, henabled, hp, hreach, fun hf => ⟨hfence hf, ?_⟩, fun hf => ?_, rfl,
    value_eq s _ g k, fun tc wc _ _ ht hw => volume_eq s ht hw hp⟩
  · obtain rfl : fence = true := hf
    exact hpiece
  · obtain rfl : fence = false := hf
    exact hpiece

end Sys2Proof.Proofs
end

