-- ==== Sys2Proof/Proofs/Precedence.lean ====
section
/-! The order of precedence of the decision, a forced TRIM, and the choice from the candidate set with its fallback (O19). -/

namespace Sys2Proof.Machine

-- One thread elaborates the many small proofs of this file.
set_option Elab.async false

/-! ### The order of precedence (R89 to R93) -/

section
variable {s : State} {r : Record}

theorem decideBoard_suspect (h : r.flags.suspect = true) : s.decideBoard r = uncut .noTrim r.setGrade .reject .byDefault .suspect :=
  if_pos h

section
variable (hsuspect : r.flags.suspect = false)
include hsuspect

theorem decideBoard_forced {kind : ForceKind} (hkind : r.forceField (·.kind) = some kind) : s.decideBoard r = s.decideForced r kind := by
  unfold State.decideBoard
  rw [hsuspect, if_neg Bool.false_ne_true, hkind]

variable (hkind : r.forceField (·.kind) = none)
include hkind

theorem decideBoard_trashAll (hmode : s.decision.mode.saws = .trashAll) :
    s.decideBoard r = uncut .trash r.setGrade .reject .mode .trashAll := by
  unfold State.decideBoard
  rw [hsuspect, if_neg Bool.false_ne_true, hkind, hmode]

theorem decideBoard_bypass (hmode : s.decision.mode.saws = .bypass) :
    s.decideBoard r = uncut .noTrim r.setGrade (bypassDisposition s.decision.mode.sort) .mode .bypass := by
  unfold State.decideBoard
  rw [hsuspect, if_neg Bool.false_ne_true, hkind, hmode]

theorem decideBoard_unforced (hmode : s.decision.mode.saws = .auto ∨ ∃ k, s.decision.mode.saws = .fixed k) :
    s.decideBoard r = s.decideUnforced r := by
  unfold State.decideBoard
  rw [hsuspect, if_neg Bool.false_ne_true, hkind]
  obtain hmode | ⟨k, hmode⟩ := hmode <;> rw [hmode]

end

theorem decideUnforced_double (h : r.flags.double = true) : s.decideUnforced r = uncut .noTrim r.setGrade .reject .byDefault .double :=
  if_pos h

theorem decideUnforced_noScan (h : r.flags.double = false) (hscan : r.scan = none) :
    s.decideUnforced r = uncut .noTrim r.setGrade .reject .byDefault .noScan := by
  unfold State.decideUnforced
  rw [h, if_neg Bool.false_ne_true, hscan]

theorem decideUnforced_scan {scan : ScanSummary} (h : r.flags.double = false) (hscan : r.scan = some scan) :
    s.decideUnforced r = s.decideValued r scan := by
  unfold State.decideUnforced
  rw [h, if_neg Bool.false_ne_true, hscan]

/-- The disposition of BYPASS where BYPASS can be in force (R92). -/
theorem bypassDisposition_eq {sort : SortPolicy} (h : sort ≠ .byProduct) :
    bypassDisposition sort = if sort = .allRunout then .normal else .reject := by
  cases sort with
  | byProduct => exact absurd rfl h
  | allReject => rfl
  | allRunout => rfl

/-! ### Force (R90, R91) -/

theorem decideForced_noTrim : s.decideForced r .noTrim =
    if r.scan.isSome then uncut .noTrim r.setGrade ((r.forceField (·.disposition)).getD .reject) .force .forced
    else uncut .noTrim r.setGrade .reject .force .noScan := by
  unfold State.decideForced
  cases r.scan <;> rfl

theorem decideForced_trim_noScan (h : r.scan = none) (k : Nat) :
    s.decideForced r (.trim k) = uncut .noTrim r.setGrade .reject .force .noScan := by
  unfold State.decideForced
  rw [h]

theorem decideForced_trim {scan : ScanSummary} (h : r.scan = some scan) (k : Nat) : s.decideForced r (.trim k) =
    if s.usable k = true ∧ s.feasibleAt k (s.forcedFence r) scan.length = true then
      s.trimAt r scan k (s.forcedFence r) (s.forcedGrade r k) .force .forced none
    else uncut .noTrim (some (s.forcedGrade r k)) .reject .force .forceShort := by
  unfold State.decideForced
  rw [h]
  simp only [Bool.and_eq_true]

/-! ### Saws that can trim (R88, R98) -/

/-- A saw from S1 up is usable when it is a length saw, enabled and with a position. -/
theorem usable_of_pos {k : Nat} (h : 1 ≤ k) :
    s.usable k = (decide (1 ≤ k) && decide (k ≤ 12) && (s.saw k).enabled && (s.sawPlace k).isSome) := by
  have h0 : k ≠ 0 := Nat.one_le_iff_ne_zero.mp h
  unfold State.usable
  rw [decide_eq_true h, decide_eq_false h0, Bool.true_and, Bool.false_or, Bool.and_comm (s.saw k).enabled]

/-! ### The candidate set (R94 to R97) -/

/-- R94: under FIXED k the candidates at k, where there is one. -/
theorem startSet_fixed (k gd : Nat) (posted : List Member) : startSet (.fixed k) gd posted =
    if posted.any fun m => m.saw = k then posted.filter fun m => m.saw = k
    else [{ saw := k, fence := true, grade := gd, index := none }] := by
  have hempty : (posted.filter fun m => m.saw = k) = [] ↔ ¬ (posted.any fun m => m.saw = k) = true := by simp
  unfold startSet
  dsimp only
  by_cases hany : (posted.any fun m => m.saw = k) = true
  · rw [if_pos hany, if_neg fun h => hempty.mp h hany]
  · rw [if_neg hany, if_pos (hempty.mpr hany)]

/-- The candidate set names length saws where the posted list does and FIXED names one. -/
theorem startSet_saw_pos {policy : SawPolicy} {gd : Nat} {posted : List Member} (hposted : ∀ m ∈ posted, 1 ≤ m.saw)
    (hfixed : ∀ k, policy = .fixed k → 1 ≤ k) : ∀ m ∈ startSet policy gd posted, 1 ≤ m.saw := by
  cases policy with
  | auto => exact hposted
  | trashAll => exact hposted
  | bypass => exact hposted
  | fixed k =>
    rw [startSet_fixed]
    split
    · exact fun m hm => hposted m (List.mem_of_mem_filter hm)
    · exact fun m hm => List.mem_singleton.mp hm ▸ hfixed k rfl

theorem members_saw_pos (h : ∀ c ∈ (r.solution.map (·.candidates)).getD [], 1 ≤ c.saw) : ∀ m ∈ r.members, 1 ≤ m.saw := by
  intro m hm
  obtain ⟨⟨c, i⟩, hc, rfl⟩ := List.mem_map.mp hm
  exact h c (List.fst_mem_of_mem_zipIdx hc)

/-- The marks acted (R103), with a mark grade that replaces a different one told by what it leaves. -/
theorem marksActed_eq (start afterSaws afterGrades : List Member) : marksActed r start afterSaws afterGrades =
    ((start.any fun m => aboveCutback r.markCutback m.saw) ||
      ((r.forceField (·.grade)).isNone && afterSaws.any fun m => decide (r.markGrade.getD m.grade ≠ m.grade)) ||
      ((r.forceField (·.fence)).isNone && r.markNoFence && afterGrades.any fun m => m.fence)) := by
  unfold marksActed
  congr 2
  cases r.forceField (·.grade) with
  | some g => rfl
  | none =>
    cases r.markGrade with
    | none => simp
    | some g =>
      refine congrArg afterSaws.any (funext fun m => ?_)
      rw [Option.getD_some, Bool.eq_iff_iff, bne_iff_ne, decide_eq_true_iff, ne_comm]

/-! ### The choice and what follows an empty set (R99 to R105) -/

/-- The member chosen after the filters of R94 to R98. -/
def State.chosen (s : State) (r : Record) (scan : ScanSummary) : Option Member :=
  s.best scan (s.feasibleFilter scan (s.fenceFilter r (s.gradeFilter r (s.sawFilter r
    (startSet s.decision.mode.saws s.tables.grade.default r.members)))))

section
variable {scan : ScanSummary}

theorem decideValued_chosen {m : Member} (h : s.chosen r scan = some m) :
    let start := startSet s.decision.mode.saws s.tables.grade.default r.members
    s.decideValued r scan = s.trimAt r scan m.saw m.fence m.grade
      (chosenSource (marksActed r start (s.sawFilter r start) (s.gradeFilter r (s.sawFilter r start))) m) .chosen m.index := by
  unfold State.chosen at h
  unfold State.decideValued
  dsimp only
  rw [h]

theorem decideValued_fixedShort (h : s.chosen r scan = none) {k : Nat} (hmode : s.decision.mode.saws = .fixed k) :
    s.decideValued r scan = uncut .noTrim r.setGrade .reject .mode .fixedShort := by
  unfold State.chosen at h
  unfold State.decideValued
  dsimp only
  rw [h, hmode]

theorem decideValued_fallback (h : s.chosen r scan = none) (hmode : s.decision.mode.saws = .auto) :
    s.decideValued r scan = s.decideFallback r scan := by
  unfold State.chosen at h
  unfold State.decideValued
  dsimp only
  rw [h, hmode]

/-- The fence of a fallback (R104). -/
def State.fallbackFence (s : State) (r : Record) : Bool := !r.noFence && (s.saw 0).enabled

/-- A saw the fallback may take (R104). -/
def State.fallsAt (s : State) (r : Record) (scan : ScanSummary) (k : Nat) : Bool :=
  s.usable k && !aboveCutback r.markCutback k && s.feasibleAt k (s.fallbackFence r) scan.length

/-- The first of a falling list that passes is the highest that does. -/
theorem find?_of_pairwise_gt {p : Nat → Bool} {l : List Nat} (hl : l.Pairwise (· > ·)) {k : Nat} (hk : k ∈ l) (hp : p k = true)
    (habove : ∀ j ∈ l, k < j → p j = false) : l.find? p = some k := by
  induction l with
  | nil => cases hk
  | cons j rest ih =>
    obtain ⟨hj, hrest⟩ := List.pairwise_cons.mp hl
    obtain rfl | hk := List.mem_cons.mp hk
    · exact List.find?_cons_of_pos hp
    · rw [List.find?_cons_of_neg (by simp [habove j List.mem_cons_self (hj k hk)])]
      exact ih hrest hk fun i hi => habove i (List.mem_cons_of_mem j hi)

theorem mem_fallbackSaws {k : Nat} : k ∈ fallbackSaws ↔ 1 ≤ k ∧ k ≤ 12 := by
  simp only [fallbackSaws, List.mem_cons, List.not_mem_nil, or_false]
  omega

theorem decideFallback_trim {k : Nat} (hk1 : 1 ≤ k) (hk12 : k ≤ 12) (hfalls : s.fallsAt r scan k = true)
    (habove : ∀ j, j ≤ 12 → k < j → s.fallsAt r scan j = false) : s.decideFallback r scan =
      s.trimAt r scan k (s.fallbackFence r) (r.setGrade.getD s.tables.grade.default) .byDefault
        (if r.solution.isSome then .noneFeasible else .noSolution) none := by
  have hfind : fallbackSaws.find? (s.fallsAt r scan) = some k :=
    find?_of_pairwise_gt (by decide) (mem_fallbackSaws.mpr ⟨hk1, hk12⟩) hfalls fun j hj => habove j (mem_fallbackSaws.mp hj).2
  change (match fallbackSaws.find? (s.fallsAt r scan) with | some k => _ | none => _) = _
  rw [hfind]
  rfl

theorem decideFallback_short (h : ∀ k, 1 ≤ k → k ≤ 12 → s.fallsAt r scan k = false) :
    s.decideFallback r scan = uncut .trash r.setGrade .reject .byDefault .short := by
  have hfind : fallbackSaws.find? (s.fallsAt r scan) = none :=
    List.find?_eq_none.mpr fun k hk => by simp [h k (mem_fallbackSaws.mp hk).1 (mem_fallbackSaws.mp hk).2]
  change (match fallbackSaws.find? (s.fallsAt r scan) with | some k => _ | none => _) = _
  rw [hfind]

end
end

end Sys2Proof.Machine

namespace Sys2Proof.Proofs
open Sys2Proof.Machine

/-- Settles O19, down the order of precedence. -/
theorem decisionPrecedence : Obligations.DecisionPrecedence := by
  unfold Obligations.DecisionPrecedence
  intro s r forced markGrade markNoFence setGrade noFence disposition plain usable enabled feasible trim posted
  have husable : ∀ k, 1 ≤ k → usable k = s.usable k := fun k hk => (usable_of_pos hk).symm
  have hfeasible : ∀ scan k fence, feasible scan k fence = s.feasibleAt k fence scan.length := fun scan k fence => by
    change (match s.sawPlace k with | some p => _ | none => _) = _
    unfold State.feasibleAt
    cases s.sawPlace k with
    | none => rfl
    | some p => cases fence <;> rfl
  refine ⟨decideBoard_suspect, fun hsuspect => ⟨fun f hf hkind => ?_, fun f hf hkind => ?_, fun f k hf hkind hk => ?_, fun hkind => ?_⟩⟩
  · have hforce : r.forceField (·.kind) = some .trash := by rw [Record.forceField, hf]; exact hkind
    exact decideBoard_forced hsuspect hforce
  · have hforce : r.forceField (·.kind) = some .noTrim := by rw [Record.forceField, hf]; exact hkind
    have hdisposition : r.forceField (·.disposition) = f.disposition := by rw [Record.forceField, hf]; rfl
    rw [decideBoard_forced hsuspect hforce, decideForced_noTrim, hdisposition]
    rfl
  · have hforce : r.forceField (·.kind) = some (.trim k) := by rw [Record.forceField, hf]; exact hkind
    have hfenceField : r.forceField (·.fence) = f.fence := by rw [Record.forceField, hf]; rfl
    rw [decideBoard_forced hsuspect hforce]
    refine ⟨fun hscan => decideForced_trim_noScan hscan k, fun scan hscan => ?_⟩
    intro fence g
    have hfence : s.forcedFence r = fence := by unfold State.forcedFence; rw [hfenceField]; rfl
    rw [decideForced_trim hscan, hfence, husable k hk, hfeasible]
    rfl
  · refine ⟨decideBoard_trashAll hsuspect hkind, fun hmode hsort => ?_, fun hmode => ?_⟩
    · rw [decideBoard_bypass hsuspect hkind hmode, bypassDisposition_eq hsort]
      rfl
    rw [decideBoard_unforced hsuspect hkind hmode]
    refine ⟨decideUnforced_double, decideUnforced_noScan, fun scan hdouble hscan hposted hfixed => ?_⟩
    rw [decideUnforced_scan hdouble hscan]
    intro above all start bySaw byGrade byFence marked fallFence falls best
    have hstart : start = startSet s.decision.mode.saws s.tables.grade.default r.members := by
      change (match s.decision.mode.saws with | .fixed k => _ | .auto | .trashAll | .bypass => _) = _
      cases s.decision.mode.saws with
      | fixed k => exact (startSet_fixed k _ _).symm
      | _ => rfl
    have hpos : ∀ m ∈ start, 1 ≤ m.saw := hstart ▸ startSet_saw_pos (members_saw_pos hposted) hfixed
    have hbySaw : bySaw = s.sawFilter r start :=
      List.filter_congr fun m hm => by rw [husable m.saw (hpos m hm)]; rfl
    have hbyGrade : byGrade = s.gradeFilter r (s.sawFilter r start) := by rw [← hbySaw]; rfl
    have hmarked : marked = marksActed r start (s.sawFilter r start) (s.gradeFilter r (s.sawFilter r start)) := by
      rw [marksActed_eq, ← hbyGrade, ← hbySaw]
      rfl
    have hbest : best = s.chosen r scan := by
      have hleft : (byFence.filter fun m => feasible scan m.saw m.fence) = s.feasibleFilter scan (s.fenceFilter r byGrade) :=
        List.filter_congr fun m _ => hfeasible scan m.saw m.fence
      rw [State.chosen, ← hstart, ← hbyGrade, ← hleft]
    have hfalls : ∀ k, 1 ≤ k → falls k = s.fallsAt r scan k := fun k hk => by
      change (usable k && !above k && feasible scan k fallFence) = _
      rw [husable k hk, hfeasible]
      rfl
    rw [hbest]
    refine ⟨fun m hm => ?_, fun hnone => ⟨fun k hmode => decideValued_fixedShort hnone hmode, fun hmode => ?_⟩⟩
    · rw [decideValued_chosen hm, ← hstart, ← hmarked]
      rfl
    rw [decideValued_fallback hnone hmode]
    refine ⟨fun k hk12 hk habove => ?_, fun hnone => ?_⟩
    · have hk1 : 1 ≤ k := by
        simp only [falls, usable, Bool.and_eq_true, decide_eq_true_eq] at hk
        obtain ⟨⟨⟨⟨⟨hk1, -⟩, -⟩, -⟩, -⟩, -⟩ := hk
        exact hk1
      refine decideFallback_trim hk1 hk12 (hfalls k hk1 ▸ hk) fun j hj hkj => ?_
      rw [← hfalls j (by omega)]
      exact habove j hj hkj
    · refine decideFallback_short fun k hk1 hk12 => ?_
      rw [← hfalls k hk1]
      exact hnone k hk12

end Sys2Proof.Proofs
end

