-- ==== Sys2Proof/Proofs/SawSizeGradeLoads.lean ====
section
/-! Completed loads of the saw, size and grade tables, and of any table of one entry that staged none (O44). -/

namespace Sys2Proof.Machine

-- One thread elaborates the many small proofs of this file.
set_option Elab.async false

/-! ### A completed load of a table of one entry (R175) -/

section
variable {s : State} {num : Byte} {table : TableId} {part : Nat} {staged bytes : List Byte}

/-- One entry in one part, the rest of the load empty, is in order and counts 1. -/
theorem oneEntry_inOrder (htable : table ≠ .binGroup) (hsize : 0 < entryBytes table) (hone : staged = [] ∨ bytes = [])
    (hlen : (staged ++ bytes).length = entryBytes table) :
    wholeEntries table bytes = true ∧ entryCount table staged + entryCount table bytes = 1 := by
  rw [wholeEntries_iff htable, entryCount_eq htable, entryCount_eq htable]
  obtain rfl | rfl := hone
  · rw [List.nil_append] at hlen
    simp [hlen, Nat.div_self hsize]
  · rw [List.append_nil] at hlen
    simp [hlen, Nat.div_self hsize]

/-- A load of one entry that passes its checks unclamped is answered OK, with the entry as stored where the last part carries it. -/
theorem exec_loads_stored (h : s.loads num table part true staged bytes) (hw : wholeEntries table bytes = true)
    (hc : entryCount table staged + entryCount table bytes = 1) (hmax : 1 ≤ maxEntries table)
    (hf : (s.taken .lineController).loadFault table (staged ++ bytes) = none) (hclamped : loadClamped table (staged ++ bytes) = false)
    {t : State} (htake : takeLoad table (staged ++ bytes) (s.taken .lineController) = t.taken .lineController)
    {entry : List Byte} (hentry : bytes ≠ [] → storedPart (t.taken .lineController) table bytes = entry) :
    s.loadPart num table part true bytes = .next (t.answered .lineController
      (0x13 :: num :: 0x00 :: (u8 table.code ++ u8 part ++ u8 1 ++ if bytes = [] then [] else entry))) := by
  have hpart : (if bytes = [] then [] else entry) = storedPart (t.taken .lineController) table bytes := by
    split
    · next hempty => exact (if_pos hempty).symm
    · next hbytes => exact (hentry hbytes).symm
  rw [hpart]
  refine exec_loads h hw (hc ▸ hmax) (a := {
    status := .ok
    fields := u8 table.code ++ u8 part ++ u8 1 ++ storedPart (t.taken .lineController) table bytes }) ?_
  unfold completeLoad
  rw [hf]
  dsimp only
  rw [htake, hclamped, hc]
  rfl

/-- A completed load of a table of one entry that staged none is refused (log 13). -/
theorem exec_loads_empty (h : s.loads num table part true staged bytes) (hbin : table ≠ .bin) (hgroup : table ≠ .binGroup)
    (hrule : table ≠ .sortRule) (hempty : staged ++ bytes = []) :
    s.loadRefused num table (staged ++ bytes) (s.loadPart num table part true bytes) := by
  obtain ⟨rfl, rfl⟩ := List.append_eq_nil_iff.mp hempty
  refine exec_loads_refused h ((wholeEntries_iff hgroup []).mpr (Nat.zero_mod _)) ?_ ?_
  · rw [entryCount_eq hgroup, List.length_nil, Nat.zero_div]
    exact Nat.zero_le _
  · cases table with
    | bin => exact absurd rfl hbin
    | binGroup => exact absurd rfl hgroup
    | sortRule => exact absurd rfl hrule
    | _ => exact nofun

end

theorem entryD_ofFn {α : Type} {n : Nat} (f : Fin n → α) {i : Nat} (d : α) (h : i < n) : entryD (Vector.ofFn f) i d = f ⟨i, h⟩ := by
  rw [entryD_of_lt _ _ h, Vector.getElem_ofFn]

/-! ### The saw table (R88, R110, R176) -/

theorem confirmModeOf_isNone {n : Nat} : (confirmModeOf n).isNone = false ↔ 1 ≤ n ∧ n ≤ 3 := by
  match n with
  | 0 | _ + 4 => simp [confirmModeOf]
  | 1 | 2 | 3 => simp [confirmModeOf]

theorem confirmModeOf_code {n : Nat} (h : 1 ≤ n ∧ n ≤ 3) : ((confirmModeOf n).getD .none).code = n := by
  match n with
  | 0 | _ + 4 => omega
  | 1 | 2 | 3 => rfl

/-- A length saw's place is in range and above the places of the configured saws below it. -/
def SawSound (place : Nat → Option SawPlace) (k : Nat) : Prop :=
  ∀ p, place k = some p → 300 ≤ p.position ∧ p.position ≤ 7000 ∧ 1 ≤ p.nominal ∧ p.nominal ≤ p.position ∧
    ∀ j, 1 ≤ j → j ≤ k - 1 → ∀ q, place j = some q → q.position < p.position ∧ q.nominal < p.nominal

theorem SawSound.congr {place place' : Nat → Option SawPlace} {k : Nat} (hk : 1 ≤ k)
    (h : ∀ j, 1 ≤ j → j ≤ k → place j = place' j) : SawSound place k ↔ SawSound place' k := by
  unfold SawSound
  rw [h k hk le_rfl]
  refine forall₂_congr fun p _ => and_congr_right' <| and_congr_right' <| and_congr_right' <| and_congr_right' ?_
  exact forall₃_congr fun j hj hjk => by rw [h j hj (by omega)]

/-- The configured saws below saw k. -/
theorem mem_lowerPlaces {bytes : List Byte} {k : Nat} {q : SawPlace} :
    q ∈ ((List.range (k - 1)).filterMap fun i => sawPlaceOf bytes (i + 1)) ↔
      ∃ j, 1 ≤ j ∧ j ≤ k - 1 ∧ sawPlaceOf bytes j = some q := by
  simp only [List.mem_filterMap, List.mem_range]
  constructor
  · rintro ⟨i, hi, hq⟩
    exact ⟨i + 1, by omega, by omega, hq⟩
  · rintro ⟨j, hj1, hjk, hq⟩
    exact ⟨j - 1, by omega, by rwa [Nat.sub_add_cancel hj1]⟩

/-- The checks of a length saw all pass. -/
theorem sawChecks_pass (bytes : List Byte) (k : Nat) : (∀ c ∈ sawChecks bytes k, c.1 = false) ↔
    fieldAt bytes (1 + 6 * (k - 1)) 1 ≤ 1 ∧ SawSound (sawPlaceOf bytes) k ∧
      1 ≤ fieldAt bytes (1 + 6 * (k - 1) + 5) 1 ∧ fieldAt bytes (1 + 6 * (k - 1) + 5) 1 ≤ 3 := by
  simp only [sawChecks, List.forall_mem_cons, List.not_mem_nil, false_implies, implies_true, and_true, decide_eq_false_iff_not,
    Nat.not_lt, confirmModeOf_isNone]
  refine and_congr_right' ?_
  rw [← and_assoc]
  refine and_congr_left' ?_
  unfold SawSound
  cases sawPlaceOf bytes k with
  | none => simp
  | some p =>
    simp only [Bool.or_eq_false_iff, outside_eq_false, List.any_eq_false, decide_eq_true_eq, Nat.not_le, mem_lowerPlaces,
      forall_exists_index, and_imp, Option.some.injEq, forall_eq']
    constructor
    · rintro ⟨⟨⟨hlo, hhi⟩, hpositions⟩, ⟨hn, hnp⟩, hnominals⟩
      exact ⟨hlo, hhi, hn, hnp, fun j hj hjk q hq => ⟨hpositions q j hj hjk hq, hnominals q j hj hjk hq⟩⟩
    · rintro ⟨hlo, hhi, hn, hnp, hbelow⟩
      exact ⟨⟨⟨hlo, hhi⟩, fun q j hj hjk hq => (hbelow j hj hjk q hq).1⟩, ⟨hn, hnp⟩, fun q j hj hjk hq => (hbelow j hj hjk q hq).2⟩

/-- The length saws are S1 to S12. -/
theorem mem_lengthSaws {k : Nat} : k ∈ lengthSaws ↔ 1 ≤ k ∧ k ≤ 12 := by
  simp only [lengthSaws, List.mem_cons, List.not_mem_nil, or_false]
  omega

/-- A saw load passes its checks where its confirm modes, marks and places are in range; `place` gives the places it configures. -/
theorem sawFault_eq_none {bytes : List Byte} {place : Nat → Option SawPlace} (hplace : ∀ k, 1 ≤ k → place k = sawPlaceOf bytes k) :
    sawFault bytes = none ↔
      (∀ k, k ≤ 12 → 1 ≤ fieldAt bytes (6 * k) 1 ∧ fieldAt bytes (6 * k) 1 ≤ 3) ∧
        ∀ k, 1 ≤ k → k ≤ 12 → fieldAt bytes (6 * k - 5) 1 ≤ 1 ∧ SawSound place k := by
  have hchecks : ∀ k, 1 ≤ k → ((∀ c ∈ sawChecks bytes k, c.1 = false) ↔ fieldAt bytes (6 * k - 5) 1 ≤ 1 ∧ SawSound place k ∧
      1 ≤ fieldAt bytes (6 * k) 1 ∧ fieldAt bytes (6 * k) 1 ≤ 3) := fun k hk => by
    rw [sawChecks_pass, SawSound.congr hk fun j hj _ => hplace j hj, show 1 + 6 * (k - 1) = 6 * k - 5 by omega,
      show 6 * k - 5 + 5 = 6 * k by omega]
  simp only [sawFault, firstFault_eq_none, List.forall_mem_append, List.forall_mem_singleton, confirmModeOf_isNone, List.mem_flatMap,
    mem_lengthSaws, forall_exists_index, and_imp]
  constructor
  · rintro ⟨hfirst, hsaws⟩
    have hsaw := fun k hk1 hk12 => (hchecks k hk1).mp fun c hc => hsaws c k hk1 hk12 hc
    refine ⟨fun k hk12 => ?_, fun k hk1 hk12 => ?_⟩
    · obtain rfl | hk1 := Nat.eq_zero_or_pos k
      · exact hfirst
      · obtain ⟨-, -, hmode⟩ := hsaw k hk1 hk12
        exact hmode
    · obtain ⟨hmark, hsound, -⟩ := hsaw k hk1 hk12
      exact ⟨hmark, hsound⟩
  · rintro ⟨hmodes, hsaws⟩
    refine ⟨hmodes 0 (Nat.zero_le _), fun c k hk1 hk12 hc => (hchecks k hk1).mpr ?_ c hc⟩
    obtain ⟨hmark, hsound⟩ := hsaws k hk1 hk12
    exact ⟨hmark, hsound, hmodes k hk12⟩

theorem sawTableOf_place (bytes : List Byte) {k : Nat} (hk1 : 1 ≤ k) (hk12 : k ≤ 12) :
    entryD (sawTableOf bytes).places (k - 1) none = sawPlaceOf bytes k := by
  rw [sawTableOf, entryD_ofFn _ _ (by omega)]
  exact congrArg (sawPlaceOf bytes) (Nat.sub_add_cancel hk1)

theorem sawTableOf_mode {bytes : List Byte} {k : Nat} (hk : k ≤ 12) (h : 1 ≤ fieldAt bytes (6 * k) 1 ∧ fieldAt bytes (6 * k) 1 ≤ 3) :
    (entryD (sawTableOf bytes).modes k .none).code = fieldAt bytes (6 * k) 1 := by
  rw [sawTableOf, entryD_ofFn _ _ (by omega)]
  exact confirmModeOf_code h

/-- A configured mark, position and nominal length as sent (log 13). -/
def placeBytes : Option SawPlace → List Byte
  | some p => u8 1 ++ u16 p.position ++ u16 p.nominal
  | none => zeros 5

/-- A saw table is sent as it was loaded, 0 for what a mark of 0 makes void. -/
theorem sawTableOf_bytes {bytes : List Byte} {place : Nat → Option SawPlace} (hplace : ∀ k, 1 ≤ k → place k = sawPlaceOf bytes k)
    (hmodes : ∀ k, k ≤ 12 → 1 ≤ fieldAt bytes (6 * k) 1 ∧ fieldAt bytes (6 * k) 1 ≤ 3) :
    (sawTableOf bytes).bytes = u8 (fieldAt bytes 0 1) ++
      (List.range 12).flatMap fun i => placeBytes (place (i + 1)) ++ u8 (fieldAt bytes (6 * (i + 1)) 1) := by
  have hsaws : lengthSaws = (List.range 12).map (· + 1) := rfl
  have hbytes : (sawTableOf bytes).bytes = u8 (entryD (sawTableOf bytes).modes 0 .none).code ++ lengthSaws.flatMap fun k =>
      placeBytes (entryD (sawTableOf bytes).places (k - 1) none) ++ u8 (entryD (sawTableOf bytes).modes k .none).code := rfl
  rw [hbytes, sawTableOf_mode (Nat.zero_le _) (hmodes 0 (Nat.zero_le _)), hsaws, List.flatMap_map]
  refine congrArg (u8 (fieldAt bytes 0 1) ++ ·) (List.flatMap_congr fun i hi => ?_)
  have hi12 : i + 1 ≤ 12 := List.mem_range.mp hi
  rw [sawTableOf_place bytes (by omega) hi12, sawTableOf_mode hi12 (hmodes _ hi12), hplace _ (by omega)]

/-! ### The size table (R176) -/

theorem sizeChecks_pass (bytes : List Byte) (i lo hi : Nat) : (∀ c ∈ sizeChecks bytes i lo hi, c.1 = false) ↔
    fieldAt bytes (3 * i) 1 ≤ 1 ∧ ∀ n, sizeOf_ bytes i = some n → lo ≤ n ∧ n ≤ hi := by
  simp only [sizeChecks, List.forall_mem_cons, List.not_mem_nil, false_implies, implies_true, and_true, decide_eq_false_iff_not,
    Nat.not_lt]
  refine and_congr_right' ?_
  cases sizeOf_ bytes i with
  | none => simp
  | some n => simp [outside_eq_false]

/-- A size load passes its checks where the measurements of its defined codes are in range: thickness codes, then width codes. -/
theorem sizeFault_eq_none (bytes : List Byte) : sizeFault bytes = none ↔
    ∀ i, i < 12 → fieldAt bytes (3 * i) 1 ≤ 1 ∧ ∀ n, sizeOf_ bytes i = some n →
      if i < 4 then 10 ≤ n ∧ n ≤ 150 else 25 ≤ n ∧ n ≤ 400 := by
  have hpass : sizeFault bytes = none ↔ (∀ i, i < 4 → ∀ c ∈ sizeChecks bytes i 10 150, c.1 = false) ∧
      ∀ i, i < 8 → ∀ c ∈ sizeChecks bytes (i + 4) 25 400, c.1 = false := by
    simp only [sizeFault, firstFault_eq_none, List.forall_mem_append, List.forall_mem_flatMap, List.mem_range]
  simp only [hpass, sizeChecks_pass]
  constructor
  · rintro ⟨hthick, hwide⟩ i hi
    by_cases h4 : i < 4
    · simpa only [if_pos h4] using hthick i h4
    · obtain ⟨j, rfl⟩ : ∃ j, i = j + 4 := ⟨i - 4, by omega⟩
      simpa only [if_neg h4] using hwide j (by omega)
  · intro h
    refine ⟨fun i hi => ?_, fun i hi => ?_⟩
    · simpa only [if_pos hi] using h i (by omega)
    · simpa only [if_neg (show ¬ i + 4 < 4 by omega)] using h (i + 4) (by omega)

theorem sizeTableOf_thickness (bytes : List Byte) {i : Nat} (h : i < 4) :
    entryD (sizeTableOf bytes).thickness i none = sizeOf_ bytes i := entryD_ofFn _ _ h

theorem sizeTableOf_width (bytes : List Byte) {i : Nat} (h : i < 8) :
    entryD (sizeTableOf bytes).width i none = sizeOf_ bytes (i + 4) := entryD_ofFn _ _ h

/-- A defined mark and a measurement as sent (log 13). -/
def sizeBytes : Option Nat → List Byte
  | some n => u8 1 ++ u16 n
  | none => zeros 3

/-- A size table is sent as it was loaded, 0 for what a mark of 0 makes void. -/
theorem sizeTableOf_bytes (bytes : List Byte) :
    (sizeTableOf bytes).bytes = (List.range 12).flatMap fun i => sizeBytes (sizeOf_ bytes i) := by
  have hthick : (sizeTableOf bytes).thickness.toList = (List.range 4).map (sizeOf_ bytes) := by
    rw [toList_eq_map_entryD _ none]
    exact List.map_congr_left fun i hi => sizeTableOf_thickness bytes (List.mem_range.mp hi)
  have hwide : (sizeTableOf bytes).width.toList = (List.range 8).map fun i => sizeOf_ bytes (i + 4) := by
    rw [toList_eq_map_entryD _ none]
    exact List.map_congr_left fun i hi => sizeTableOf_width bytes (List.mem_range.mp hi)
  have hbytes : (sizeTableOf bytes).bytes =
      ((sizeTableOf bytes).thickness.toList ++ (sizeTableOf bytes).width.toList).flatMap sizeBytes := rfl
  rw [hbytes, hthick, hwide]
  rfl

/-! ### The grade table (R178) -/

theorem gradeFault_eq_none (bytes : List Byte) : gradeFault bytes = none ↔ 1 ≤ fieldAt bytes 2 1 ∧ fieldAt bytes 2 1 ≤ 10 := by
  rw [gradeFault, firstFault_eq_none, List.forall_mem_singleton, outside_eq_false]

/-- A grade table is sent as it was loaded, without the bits that name no grade. -/
theorem gradeTableOf_bytes (bytes : List Byte) :
    (gradeTableOf bytes).bytes = u16 (fieldAt bytes 0 2 % 1024) ++ u8 (fieldAt bytes 2 1) := by
  rw [GradeTable.bytes, gradeTableOf, BitVec.toNat_ofNat]

end Sys2Proof.Machine

namespace Sys2Proof.Proofs
open Sys2Proof.Machine

/-- Settles O44, table by table. -/
theorem loadSawSizeGrade : Obligations.LoadSawSizeGrade := by
  unfold Obligations.LoadSawSizeGrade
  intro num part staged bytes s table hl hone total run mark stored
  have htaken := taken_modifyTables s .lineController
  have hchecks : ∀ {fault : Option Locator}, 0 < total.length → (if total = [] then some (0, 0) else fault) = fault := fun h =>
    if_neg (List.ne_nil_of_length_pos h)
  refine ⟨?_, ?_, ?_, fun hbin hgroup hrule hempty => exec_loads_empty hl hbin hgroup hrule hempty⟩
  · rintro rfl hlen
    intro place below sound meets loaded
    obtain ⟨hw, hc⟩ := oneEntry_inOrder (table := .saw) (by decide) (by decide) hone hlen
    have hplace : ∀ k, 1 ≤ k → place k = sawPlaceOf total k := fun k hk => by
      unfold sawPlaceOf
      dsimp only
      rw [show 1 + 6 * (k - 1) = 6 * k - 5 by omega, show 6 * k - 5 + 1 = 6 * k - 4 by omega, show 6 * k - 5 + 3 = 6 * k - 2 by omega]
    have hfault : (s.taken .lineController).loadFault .saw total = none ↔ meets := by
      rw [State.loadFault, hchecks (by omega)]
      exact sawFault_eq_none hplace
    refine ⟨fun k hk1 hk12 => (sawTableOf_place total hk1 hk12).trans (hplace k hk1).symm, fun hm => ?_, fun hm => ?_⟩
    · have ⟨hmodes, _⟩ := hm
      refine ⟨fun k hk => sawTableOf_mode hk (hmodes k hk), ?_⟩
      exact exec_loads_stored hl hw hc (by decide) (hfault.mpr hm) rfl
        (htaken fun t => { t with saw := loaded, valid := { t.valid with saw := true }, staging := none })
        fun hbytes => (if_neg hbytes).trans (sawTableOf_bytes hplace hmodes)
    · exact exec_loads_refused hl hw hc.le fun h => hm (hfault.mp h)
  · rintro rfl hlen
    intro size meets loaded
    obtain ⟨hw, hc⟩ := oneEntry_inOrder (table := .size) (by decide) (by decide) hone hlen
    have hfault : (s.taken .lineController).loadFault .size total = none ↔ meets := by
      rw [State.loadFault, hchecks (by omega)]
      exact sizeFault_eq_none total
    refine ⟨fun i => sizeTableOf_thickness total, fun i => sizeTableOf_width total, fun hm => ?_, fun hm => ?_⟩
    · exact exec_loads_stored hl hw hc (by decide) (hfault.mpr hm) rfl
        (htaken fun t => { t with size := loaded, valid := { t.valid with size := true }, staging := none })
        fun hbytes => (if_neg hbytes).trans (sizeTableOf_bytes total)
    · exact exec_loads_refused hl hw hc.le fun h => hm (hfault.mp h)
  · rintro rfl hlen
    intro loaded
    obtain ⟨hw, hc⟩ := oneEntry_inOrder (table := .grade) (by decide) (by decide) hone hlen
    have hfault : (s.taken .lineController).loadFault .grade total = none ↔ 1 ≤ mark 2 ∧ mark 2 ≤ 10 := by
      rw [State.loadFault, hchecks (by omega)]
      exact gradeFault_eq_none total
    refine ⟨fun hm => ?_, fun hm => ?_⟩
    · exact exec_loads_stored hl hw hc (by decide) (hfault.mpr hm) rfl
        (htaken fun t => { t with grade := loaded, valid := { t.valid with grade := true }, staging := none })
        fun hbytes => (if_neg hbytes).trans (gradeTableOf_bytes total)
    · exact exec_loads_refused hl hw hc.le fun h => hm (hfault.mp h)

end Sys2Proof.Proofs
end

