-- ==== Sys2Proof/Proofs/SawWindows.lean ====
section
/-! Saw feedback and saw windows: what a miss, a confirm and the end of a window leave of the saw, and what a miss leaves of the rest of the
part (O18). -/

namespace Sys2Proof.Machine

-- One thread elaborates the many small proofs of this file.
set_option Elab.async false

theorem sawExists_of_le {k : Nat} (h : k ≤ 12) : sawExists k = true := decide_eq_true h

theorem saw_of_saws {s t : State} (h : t.saws = s.saws) (k : Nat) : t.saw k = s.saw k := by
  unfold State.saw
  rw [h]

/-! ### A feedback input (R114) -/

theorem takeFeedback_saw (s : State) {k : Nat} (down : Bool) (hk : sawExists k = true) : (takeFeedback k down s).saw k =
    if (s.saw k).feedback = down then s.saw k
    else if (s.saw k).stage ≠ .idle ∧ down = (s.saw k).commanded then
      { s.saw k with feedback := down, stage := .idle, timer := 0, misses := 0, leftDown := (s.saw k).leftDown && down }
    else { s.saw k with feedback := down, leftDown := (s.saw k).leftDown && down } := by
  unfold takeFeedback
  dsimp only
  split
  · rfl
  · split
    · rw [State.modifySaw_saw _ _ hk, State.modifySaw_saw _ _ hk]
      rfl
    · exact State.modifySaw_saw _ _ hk

theorem takeFeedback_saw_ne (s : State) {j k : Nat} (down : Bool) (h : k ≠ j) : (takeFeedback j down s).saw k = s.saw k := by
  unfold takeFeedback
  dsimp only
  split
  · rfl
  · split
    · rw [State.modifySaw_saw_ne _ _ h, State.modifySaw_saw_ne _ _ h]
    · exact State.modifySaw_saw_ne _ _ h

/-- A feedback input changes saw records alone. -/
theorem takeFeedback_eq (s : State) (k : Nat) (down : Bool) :
    takeFeedback k down s = { s with saws := { s.saws with recs := (takeFeedback k down s).saws.recs } } := by
  unfold takeFeedback
  dsimp only
  split
  · rfl
  · split <;> rfl

/-! ### A miss (R116) -/

/-- A saw after a miss: the window ends, both miss counts rise, and at the miss limit the saw is disabled. -/
def SawRec.missed (limit : Nat) (r : SawRec) : SawRec :=
  { r with
    stage := .idle, timer := 0, misses := incTo Config.missHold r.misses, totalMisses := inc32 r.totalMisses
    enabled := r.enabled && !decide (limit ≤ incTo Config.missHold r.misses) }

theorem missSaw_saw (s : State) {k : Nat} (hk : sawExists k = true) :
    (missSaw k s).saw k = (s.saw k).missed s.tables.settings.missLimit := by
  unfold missSaw
  dsimp only
  generalize hmarked : markSawMiss (raiseEvent .sawMiss none k (s.saw k).commanded.toNat (s.modifySaw k fun r => { r with
    stage := .idle, timer := 0, misses := incTo Config.missHold (s.saw k).misses, totalMisses := inc32 r.totalMisses })) = marked
  have htables : marked.tables = s.tables := by
    rw [← hmarked, (markSawMiss_outside _).tables rfl, (raiseEvent_outside _ _ _ _ _).tables rfl]
    rfl
  have hsaw : marked.saw k = { s.saw k with
      stage := .idle, timer := 0, misses := incTo Config.missHold (s.saw k).misses, totalMisses := inc32 (s.saw k).totalMisses } := by
    rw [← hmarked, saw_of_saws ((markSawMiss_outside _).saws rfl), saw_of_saws ((raiseEvent_outside _ _ _ _ _).saws rfl),
      State.modifySaw_saw _ _ hk]
  rw [htables]
  unfold SawRec.missed
  split
  · next h =>
    rw [saw_of_saws ((latch_outside _ _).saws rfl), saw_of_saws ((raiseEvent_outside _ _ _ _ _).saws rfl), State.modifySaw_saw _ _ hk,
      hsaw, decide_eq_true h.2, Bool.not_true, Bool.and_false]
  · next h =>
    have henabled : ((s.saw k).enabled && !decide (s.tables.settings.missLimit ≤ incTo Config.missHold (s.saw k).misses)) =
        (s.saw k).enabled := by
      cases he : (s.saw k).enabled
      · rfl
      · rw [decide_eq_false fun hm => h ⟨he, hm⟩]
        rfl
    rw [hsaw, henabled]

/-- Where no more than the saws, the trimmer map, the events and the attention flags change, and the pattern has the same owner, the rest of the
state stands. -/
theorem Outside.eq_of_owner {s t : State} (h : Outside { saws := true, trimmer := true, events := true, attention := true } s t)
    (howner : t.saws.owner = s.saws.owner) :
    t = { s with events := t.events, attention := t.attention, saws := { s.saws with recs := t.saws.recs },
                 board := { s.board with trimmer := t.board.trimmer } } := by
  have hboard : t.board = { s.board with trimmer := t.board.trimmer } := by
    dsimp only
    rw [← h.transfer rfl, ← h.sorter rfl, ← h.nextTag rfl, ← h.line rfl, ← h.postings rfl, ← h.forces rfl]
  have hsaws : t.saws = { s.saws with recs := t.saws.recs } := by
    dsimp only
    rw [← howner]
  obtain ⟨⟩ := t
  simp only [State.mk.injEq]
  exact ⟨h.pins rfl, h.standing rfl, h.timebase rfl, h.tcu rfl, h.scu rfl, hboard, h.gradingA rfl, h.gradingB rfl, h.decision rfl, hsaws,
    h.sort rfl, h.tally rfl, trivial, trivial, h.links rfl, h.tables rfl, h.pending rfl⟩

/-- A miss reports what `sawMissed` says, is charged to the owner's record, and changes saw records but nothing else. -/
theorem missSaw_eq (s : State) (k : Nat) : missSaw k s =
    { s with events := (s.sawMissed s k).events, attention := (s.sawMissed s k).attention
             saws := { s.saws with recs := (missSaw k s).saws.recs }
             board := { s.board with trimmer := chargeOwner s.saws.owner s.board.trimmer } } := by
  have hended := missSaw_ended (k := k) rfl rfl (SameReports.refl s)
  have hreports : SameReports (missSaw k s) (s.sawMissed s k) := hended.reports
  have htrimmer : (missSaw k s).board.trimmer = chargeOwner s.saws.owner s.board.trimmer := hended.trimmer
  rw [← hreports.events, ← hreports.attention, ← htrimmer]
  exact (missSaw_outside k s).eq_of_owner hended.saws.owner

/-! ### A window that runs out (R115) -/

theorem expireWindow_idle {s : State} {k : Nat} (h : (s.saw k).stage = .idle) : expireWindow k s = s := by
  unfold expireWindow
  rw [h]

theorem expireWindow_retry {s : State} {k : Nat} (h : (s.saw k).stage = .first) (hmode : s.sawMode k = .retry) :
    expireWindow k s = s.modifySaw k fun r => { r with stage := .second, timer := 0, retries := inc32 r.retries } := by
  unfold expireWindow
  rw [h, hmode]

/-- A window with no retry to follow it is a miss. -/
theorem expireWindow_missed {s : State} {k : Nat}
    (h : (s.saw k).stage = .second ∨ (s.saw k).stage = .first ∧ s.sawMode k ≠ .retry) : expireWindow k s = missSaw k s := by
  unfold expireWindow
  obtain h | ⟨h, hmode⟩ := h
  · rw [h]
  · rw [h]
    cases hm : s.sawMode k with
    | none => rfl
    | confirm => rfl
    | retry => exact absurd hm hmode

end Sys2Proof.Machine

namespace Sys2Proof.Proofs
open Sys2Proof.Machine

/-- Settles O18, by the stage of the window that runs out. -/
theorem sawWindows : Obligations.SawWindows := by
  unfold Obligations.SawWindows
  intro saw s hle ha r m out missed after
  have hk := sawExists_of_le hle
  have hexec : ∀ {t : State}, expireWindow saw s = t → exec (.sawWindowExpiry saw) s = .next t := fun h =>
    (exec_sawWindowExpiry ha hk).trans (congrArg _ h)
  refine ⟨fun down => ?_, fun hidle => hexec (expireWindow_idle hidle), fun hfirst hmode => hexec (expireWindow_retry hfirst hmode),
    fun hmiss => ⟨missSaw saw s, hexec (expireWindow_missed hmiss), ?_, ?_, fun k _ hne => missSaw_saw_ne s hne, ?_⟩⟩
  · exact ⟨takeFeedback saw down { s with pins := { s.pins with feedback := modifyAt s.pins.feedback saw fun _ => down } },
      (if_pos hk).trans (whenAwake_awake ha), takeFeedback_eq _ saw down, takeFeedback_saw _ down hk,
      fun k _ hne => takeFeedback_saw_ne _ down hne⟩
  · have hafter : after = s.sawMissed s saw := by
      simp only [after, out, Bool.and_eq_true, decide_eq_true_eq]
      rfl
    rw [hafter, congrArg (fun t : State => t.board.trimmer) (missSaw_eq s saw)]
    exact missSaw_eq s saw
  · have hstays : (r.enabled && !out) = (r.enabled && !decide (s.tables.settings.missLimit ≤ m)) := by
      simp only [out]
      cases r.enabled <;> rfl
    rw [hstays]
    exact missSaw_saw s hk
  · exact congrArg (fun t : State => t.board.trimmer) (missSaw_eq s saw)

end Sys2Proof.Proofs
end

