-- ==== Sys2Proof/Proofs/SawPatterns.lean ====
section
/-! The pattern a record gives, and the saws after a trimmer advance: each running window is ended, then each saw is driven to the pattern of the
record brought to S (O10). -/

namespace Sys2Proof.Machine

-- One thread elaborates the many small proofs of this file.
set_option Elab.async false

/-! ### The pattern a record gives (R111, R112) -/

section
variable {s : State} {r : Record}

theorem reaches_iff {place : Option SawPlace} {scan : Option ScanSummary} :
    reaches place scan = true ↔ ∃ p, place = some p ∧ ∀ c, scan = some c → p.position < c.length := by
  cases place <;> cases scan <;> simp [reaches]

theorem usable_zero : s.usable 0 = (s.saw 0).enabled := Bool.and_true _ |>.trans (Bool.and_true _)

/-- A length saw that reaches a board is usable where it is enabled. -/
theorem usable_and_reaches {j : Nat} (h1 : 1 ≤ j) (h12 : j ≤ 12) (scan : Option ScanSummary) :
    (s.usable j && reaches (s.sawPlace j) scan) = ((s.saw j).enabled && reaches (s.sawPlace j) scan) := by
  rw [usable_of_pos h1, decide_eq_true h1, decide_eq_true h12]
  cases s.sawPlace j with
  | none => simp [reaches]
  | some p => simp

theorem patternDown_raised (h : r.flags.suspect = true ∨ r.decision = none ∨ ∃ d, r.decision = some d ∧ d.kind = .noTrim) (j : Nat) :
    s.patternDown r j = false := by
  unfold State.patternDown
  obtain h | h | ⟨d, h, hkind⟩ := h
  · rw [h]
    rfl
  · rw [h]
    exact Bool.and_false _
  · rw [h]
    dsimp only
    rw [hkind]
    exact Bool.and_false _

variable {d : Decision} (hsuspect : r.flags.suspect = false) (hd : r.decision = some d)
include hsuspect hd

theorem patternDown_trim (hkind : d.kind = .trim) (j : Nat) : s.patternDown r j =
    (s.usable j && if j = 0 then d.fence else decide (d.saw.getD 0 ≤ j) && reaches (s.sawPlace j) r.scan) := by
  unfold State.patternDown
  rw [hsuspect, hd]
  dsimp only
  rw [hkind]
  rfl

theorem patternDown_trash (hkind : d.kind = .trash) (j : Nat) :
    s.patternDown r j = (s.usable j && (decide (j = 0) || reaches (s.sawPlace j) r.scan)) := by
  unfold State.patternDown
  rw [hsuspect, hd]
  dsimp only
  rw [hkind]
  rfl

theorem patternDown_trim_fence (hkind : d.kind = .trim) : s.patternDown r 0 = true ↔ (s.saw 0).enabled = true ∧ d.fence = true := by
  rw [patternDown_trim hsuspect hd hkind, usable_zero, if_pos rfl, Bool.and_eq_true]

/-- A TRIM record lowers each usable length saw from its far saw on that reaches the board. -/
theorem patternDown_trim_length (hkind : d.kind = .trim) {j k : Nat} (hsaw : d.saw = some k) (h1 : 1 ≤ j) (h12 : j ≤ 12) :
    s.patternDown r j = true ↔ (s.saw j).enabled = true ∧ k ≤ j ∧
      ∃ p, s.sawPlace j = some p ∧ ∀ c, r.scan = some c → p.position < c.length := by
  rw [patternDown_trim hsuspect hd hkind, if_neg (by omega), Bool.and_left_comm, usable_and_reaches h1 h12, hsaw, Option.getD_some,
    Bool.and_eq_true, Bool.and_eq_true, decide_eq_true_eq, reaches_iff]
  exact and_left_comm

theorem patternDown_trash_fence (hkind : d.kind = .trash) : s.patternDown r 0 = true ↔ (s.saw 0).enabled = true := by
  rw [patternDown_trash hsuspect hd hkind, usable_zero, decide_eq_true rfl, Bool.true_or, Bool.and_true]

/-- A TRASH record lowers each usable length saw that reaches the board. -/
theorem patternDown_trash_length (hkind : d.kind = .trash) {j : Nat} (h1 : 1 ≤ j) (h12 : j ≤ 12) :
    s.patternDown r j = true ↔ (s.saw j).enabled = true ∧
      ∃ p, s.sawPlace j = some p ∧ ∀ c, r.scan = some c → p.position < c.length := by
  rw [patternDown_trash hsuspect hd hkind, decide_eq_false (by omega), Bool.false_or, usable_and_reaches h1 h12, Bool.and_eq_true,
    reaches_iff]

end

/-- A pattern is read off the tables, the enabled saws, and the record's flags, scan and decision. -/
theorem patternDown_congr {s t : State} {j : Nat} (htables : t.tables = s.tables) (henabled : (t.saw j).enabled = (s.saw j).enabled)
    (r : Record) (life : Life) : t.patternDown { r with life := life } j = s.patternDown r j := by
  unfold State.patternDown State.usable State.sawPlace
  rw [henabled, htables]

/-! ### Every window ended (R117) -/

/-- A saw after the end of its running window: a confirm where the feedback agrees, else a miss. -/
def SawRec.windowEnded (limit : Nat) (r : SawRec) : SawRec :=
  if r.stage = .idle then r else if r.feedback = r.commanded then r.confirmed else r.missed limit

theorem endWindow_saw (s : State) {k : Nat} (hk : sawExists k = true) :
    (endWindow k s).saw k = (s.saw k).windowEnded s.tables.settings.missLimit := by
  unfold endWindow SawRec.windowEnded
  dsimp only
  split
  · rfl
  · split
    · exact State.modifySaw_saw _ _ hk
    · exact missSaw_saw s hk

theorem endWindow_tables (k : Nat) (s : State) : (endWindow k s).tables = s.tables := by
  unfold endWindow
  dsimp only
  split
  · rfl
  · split
    · rfl
    · exact (missSaw_outside k s).tables rfl

theorem foldl_endWindow_saw {l : List Nat} (hl : l.Nodup) (s : State) {k : Nat} (hk : sawExists k = true) :
    (l.foldl (fun x j => endWindow j x) s).saw k =
      if k ∈ l then (s.saw k).windowEnded s.tables.settings.missLimit else s.saw k := by
  induction l generalizing s with
  | nil => rfl
  | cons j rest ih =>
    obtain ⟨hj, hrest⟩ := List.nodup_cons.mp hl
    rw [List.foldl_cons, ih hrest, endWindow_tables]
    by_cases hkj : k = j
    · subst hkj
      rw [if_neg hj, if_pos List.mem_cons_self, endWindow_saw s hk]
    · simp only [endWindow_saw_ne s hkj, List.mem_cons, hkj, false_or]

theorem endWindows_saw (s : State) {k : Nat} (hk : k ≤ 12) :
    (endWindows s).saw k = (s.saw k).windowEnded s.tables.settings.missLimit :=
  (foldl_endWindow_saw List.nodup_range s (sawExists_of_le hk)).trans (if_pos (List.mem_range.mpr (by omega)))

/-! ### The set line (R113) -/

/-- The state of one saw in the pattern of a lug, UP for an empty one. -/
def State.lugDown (s : State) (found : Option Record) (j : Nat) : Bool := found.elim false fun r => s.patternDown r j

section
variable {now : Serial} {v : State}

theorem applyPattern_saw (pattern : Vector Bool 13) (s : State) {j : Nat} (hj : j ≤ 12) :
    (applyPattern pattern s).saw j = (s.saw j).drive (s.sawMode j) (entryD pattern j false) := by
  have h : j < 13 := by omega
  unfold applyPattern State.saw State.sawMode
  rw [entryD_ofFn _ _ h, entryD_of_lt _ _ h, entryD_of_lt _ _ h, entryD_of_lt _ _ h]
  rfl

theorem patternFor_entry (s : State) (found : Option Record) {j : Nat} (hj : j ≤ 12) :
    entryD (s.patternFor found) j false = s.lugDown found j := by
  unfold State.patternFor
  rw [entryD_ofFn _ _ (by omega)]
  cases found <;> rfl

theorem setLine_recs :
    (setLine now v).saws.recs = (applyPattern (v.patternFor (v.trimmerAt now v.tables.station.sawSet)) v).saws.recs := by
  unfold setLine
  cases v.trimmerAt now v.tables.station.sawSet <;> rfl

/-- Each saw is driven to the pattern of the record at S. -/
theorem setLine_saw {j : Nat} (hj : j ≤ 12) :
    (setLine now v).saw j = (v.saw j).drive (v.sawMode j) (v.lugDown (v.trimmerAt now v.tables.station.sawSet) j) := by
  rw [← patternFor_entry v _ hj, ← applyPattern_saw _ v hj]
  unfold State.saw
  rw [setLine_recs]

/-- The record at S owns the pattern. -/
theorem setLine_owner : (setLine now v).saws.owner = ((v.trimmerAt now v.tables.station.sawSet).map (·.tag)).getD 0 := by
  unfold setLine
  cases v.trimmerAt now v.tables.station.sawSet <;> rfl

theorem setLine_trimmer : (setLine now v).board.trimmer = (v.trimmerAt now v.tables.station.sawSet).elim v.board.trimmer fun r =>
    mapTag r.tag (fun x => { x with life := .set }) v.board.trimmer := by
  unfold setLine
  cases v.trimmerAt now v.tables.station.sawSet <;> rfl

/-- The record at S stays there, SET. -/
theorem setLine_trimmerAt : (setLine now v).trimmerAt now v.tables.station.sawSet =
    (v.trimmerAt now v.tables.station.sawSet).map fun r => { r with life := .set } := by
  rw [State.trimmerAt, setLine_trimmer]
  cases h : v.trimmerAt now v.tables.station.sawSet with
  | none => rwa [Option.elim_none]
  | some r =>
    have hoffset : ∀ x : Record, (if x.tag = r.tag then { x with life := .set } else x).trimmerOffset now = x.trimmerOffset now := fun x => by
      split <;> rfl
    unfold State.trimmerAt at h
    rw [Option.elim_some, mapTag, List.find?_map]
    simp only [Function.comp_def, hoffset]
    rw [h, Option.map_some, Option.map_some, if_pos rfl]

end

/-! ### The advance -/

/-- The lines end every window, and then set the saws for the record at S. -/
theorem trimmerLines_saws (now : Serial) (u : State) : ∃ v : State, trimmerLines now u = setLine now v ∧ v.tables = u.tables ∧
    ∀ k, k ≤ 12 → v.saw k = (u.saw k).windowEnded u.tables.settings.missLimit := by
  have hdecided := decisionLine_outside now u
  have hcut : Outside { trimmer := true, transfer := true, tally := true, events := true, attention := true }
      (endWindows (decisionLine now u)) (outfeedLine now (cutLine now (endWindows (decisionLine now u)))) :=
    (cutLine_outside now _).weaken.trans (outfeedLine_outside now _).weaken
  have htables : (decisionLine now u).tables = u.tables := hdecided.tables rfl
  refine ⟨_, rfl, (hcut.tables rfl).trans (((endWindows_outside _).tables rfl).trans htables), fun k hk => ?_⟩
  rw [saw_of_saws (hcut.saws rfl), endWindows_saw _ hk, htables, saw_of_saws (hdecided.saws rfl)]

/-- In RUN an advance sets the saws, their windows ended, for the record at S. -/
theorem TrimmerAdvanced.sets_saws {s t : State} {edge : Bool} (h : TrimmerAdvanced s edge t) (hl : s.board.line = .run) :
    ∃ v : State, v.tables = s.tables ∧ (∀ k, k ≤ 12 → v.saw k = (s.saw k).windowEnded s.tables.settings.missLimit) ∧
      t.saws = (setLine t.tcu.serial v).saws ∧ t.board.trimmer = (setLine t.tcu.serial v).board.trimmer := by
  obtain ⟨u, w, hstart, hw, hreports, rfl⟩ := h
  have hserial : (raiseSerial .trimmer w).tcu.serial = u.tcu.serial + 1 := by
    change w.tcu.serial + 1 = _
    rw [hreports.serial, (afterLines_trimmer_outside s edge _).tcu rfl, (advanceTrimmer_outside u).tcu rfl]
  have hmarks := advanceTrimmer_run ((hstart.outside.line rfl).trans hl)
  obtain ⟨v, hset, hvtables, hvsaw⟩ := trimmerLines_saws (u.tcu.serial + 1) u
  have htables : u.tables = s.tables := hstart.outside.tables rfl
  rw [hset] at hmarks
  rw [hserial]
  refine ⟨v, hvtables.trans htables, fun k hk => ?_, (hw.saws rfl).trans (hmarks.saws rfl), (hw.trimmer rfl).trans (hmarks.trimmer rfl)⟩
  rw [hvsaw k hk, htables, saw_of_saws (hstart.outside.saws rfl)]

/-- The saws after an advance in RUN, by the record that it leaves at S. -/
theorem TrimmerAdvanced.saws_at_set {s t : State} {edge : Bool} (h : TrimmerAdvanced s edge t) (hl : s.board.line = .run) :
    let found := t.trimmerAt t.tcu.serial t.tables.station.sawSet
    t.saws.owner = (found.map (·.tag)).getD 0 ∧
    ∀ j, j ≤ 12 →
      t.saw j = ((s.saw j).windowEnded s.tables.settings.missLimit).drive (s.sawMode j) (t.lugDown found j) := by
  have htables : t.tables = s.tables := h.outside.tables rfl
  obtain ⟨v, hvtables, hvsaw, hsaws, htrimmer⟩ := h.sets_saws hl
  have hfound : t.trimmerAt t.tcu.serial t.tables.station.sawSet =
      (v.trimmerAt t.tcu.serial v.tables.station.sawSet).map fun r => { r with life := .set } := by
    rw [← setLine_trimmerAt, htables, ← hvtables]
    unfold State.trimmerAt
    rw [htrimmer]
  intro found
  refine ⟨?_, fun j hj => ?_⟩
  · rw [hsaws, setLine_owner, show found = _ from hfound, Option.map_map]
    rfl
  · have hsaw : t.saw j = (v.saw j).drive (v.sawMode j) (v.lugDown (v.trimmerAt t.tcu.serial v.tables.station.sawSet) j) :=
      (saw_of_saws hsaws j).trans (setLine_saw hj)
    have hmode : v.sawMode j = s.sawMode j := by
      unfold State.sawMode
      rw [hvtables]
    have henabled : (t.saw j).enabled = (v.saw j).enabled := by
      obtain ⟨-, -, -, henabled, -⟩ := SawRec.drive_spec (v.sawMode j) (v.lugDown (v.trimmerAt t.tcu.serial v.tables.station.sawSet) j) (v.saw j)
      rw [hsaw, henabled]
    have hdown : t.lugDown found j = v.lugDown (v.trimmerAt t.tcu.serial v.tables.station.sawSet) j := by
      rw [show found = _ from hfound]
      cases v.trimmerAt t.tcu.serial v.tables.station.sawSet with
      | none => rfl
      | some r => exact patternDown_congr (htables.trans hvtables.symm) henabled r .set
    rw [hsaw, hdown, hmode, hvsaw j hj]

/-- A driven saw: left alone where it stands as commanded and no restart left it DOWN, else commanded with its first window, or with none for
mode NONE, or confirmed at once (R113, R114, R123). -/
theorem SawRec.drive_eq (mode : ConfirmMode) (down : Bool) (r : SawRec) : r.drive mode down =
    if r.commanded = down ∧ ¬ (down = false ∧ r.leftDown = true) then r
    else if mode = .none then { r with commanded := down, leftDown := false, stage := .idle, timer := 0 }
    else if r.feedback = down then { r with commanded := down, leftDown := false, stage := .idle, timer := 0, misses := 0 }
    else { r with commanded := down, leftDown := false, stage := .first, timer := 0 } := by
  have hstands : (down || !r.leftDown) = true ↔ ¬ (down = false ∧ r.leftDown = true) := by
    cases down <;> simp
  unfold SawRec.drive
  refine if_congr (and_congr_right' hstands) rfl ?_
  cases mode <;> rfl

end Sys2Proof.Machine

namespace Sys2Proof.Proofs
open Sys2Proof.Machine

/-- Settles O10: the pattern by the record's decision, then the saws by the end of their windows and the drive to the pattern. -/
theorem patternSet : Obligations.PatternSet := by
  unfold Obligations.PatternSet
  refine ⟨fun s r => ⟨fun j h => patternDown_raised h j, fun d k hsuspect hd hkind hsaw => ?_, fun d hsuspect hd hkind => ?_⟩,
    fun edge s _ ha hl => ?_⟩
  · exact ⟨patternDown_trim_fence hsuspect hd hkind, fun j => patternDown_trim_length hsuspect hd hkind hsaw⟩
  · exact ⟨patternDown_trash_fence hsuspect hd hkind, fun j => patternDown_trash_length hsuspect hd hkind⟩
  · obtain ⟨t, hexec, hadvanced⟩ := exec_advance_trimmer ha
    obtain ⟨howner, hsaw⟩ := hadvanced.saws_at_set hl
    refine ⟨t, hexec, ?_⟩
    intro at_
    refine ⟨howner, fun j hj => ?_⟩
    intro r m w down
    have hdown : t.lugDown (t.trimmerAt t.tcu.serial t.tables.station.sawSet) j = down := by
      change t.lugDown at_ j = down
      simp only [down]
      cases at_ <;> rfl
    rw [hsaw j hj, hdown, SawRec.drive_eq]
    rfl

end Sys2Proof.Proofs
end

