-- ==== Sys2Proof/Proofs/CutOutcomes.lean ====
section
/-! The outcome of a cut (O11): the end saw and the piece it leaves, the figures of each kind of decision, and the cut of a board whose saws all
stand as its decision commands. -/

namespace Sys2Proof.Machine

-- One thread elaborates the many small proofs of this file.
set_option Elab.async false

/-! ### The piece (R119) -/

/-- A length saw cuts a board: it is DOWN, has a position and reaches the board. -/
def State.cuts (s : State) (scan : Option ScanSummary) (j : Nat) : Prop :=
  1 ≤ j ∧ j ≤ 12 ∧ (s.saw j).feedback = true ∧ ∃ p, s.sawPlace j = some p ∧ ∀ c, scan = some c → p.position < c.length

/-- Where the piece is measured from: the fence where S0 is DOWN, else the end. -/
def State.fenceCut (s : State) : Nat := if (s.saw 0).feedback then s.tables.settings.fence else 0

section
variable {s : State} {scan : Option ScanSummary}

theorem snapshot_entry (s : State) {j : Nat} (h : j ≤ 12) : entryD s.snapshot j false = (s.saw j).feedback :=
  entryD_mapVec _ _ _ _ (by omega)

theorem commandedPattern_entry (s : State) {j : Nat} (h : j ≤ 12) : entryD s.commandedPattern j false = (s.saw j).commanded :=
  entryD_mapVec _ _ _ _ (by omega)

theorem cuts_iff {j : Nat} (h1 : 1 ≤ j) (h12 : j ≤ 12) :
    (entryD s.snapshot j false && reaches (s.sawPlace j) scan) = true ↔ s.cuts scan j := by
  rw [snapshot_entry s h12, Bool.and_eq_true, reaches_iff]
  exact ⟨fun h => ⟨h1, h12, h⟩, fun ⟨_, _, h⟩ => h⟩

theorem endSaw_none (h : ∀ j, j ≤ 12 → ¬ s.cuts scan j) : s.endSaw s.snapshot scan = none := by
  refine List.find?_eq_none.mpr fun j hj => ?_
  obtain ⟨h1, h12⟩ := mem_lengthSaws.mp hj
  rw [cuts_iff h1 h12]
  exact h j h12

/-- The end saw is the first that cuts. -/
theorem endSaw_first {j : Nat} (h : s.cuts scan j) (hfirst : ∀ i, i < j → ¬ s.cuts scan i) : s.endSaw s.snapshot scan = some j := by
  have ⟨h1, h12, _⟩ := h
  change (List.range' 1 12).find? _ = some j
  refine List.find?_range'_eq_some.mpr ⟨(cuts_iff h1 h12).mpr h, List.mem_range'_1.mpr ⟨h1, by omega⟩, fun i hi hij => ?_⟩
  rw [Bool.not_eq_true', ← Bool.not_eq_true, cuts_iff hi (hij.le.trans h12)]
  exact hfirst i hij

theorem asCut_untrimmed (h : ∀ j, j ≤ 12 → ¬ s.cuts scan j) : s.asCut s.snapshot scan = .untrimmed := by
  unfold State.asCut
  rw [endSaw_none h]

/-- The piece is the end saw's class where it makes the nominal length, else SHORT. -/
theorem asCut_first {j : Nat} {p : SawPlace} (h : s.cuts scan j) (hfirst : ∀ i, i < j → ¬ s.cuts scan i) (hp : s.sawPlace j = some p) :
    s.asCut s.snapshot scan = if p.nominal + s.fenceCut ≤ p.position then .cls j else .short := by
  unfold State.asCut
  dsimp only
  rw [endSaw_first h hfirst, snapshot_entry s (Nat.zero_le _)]
  dsimp only
  rw [hp]
  rfl

end

/-! ### The figures (R120, R121) -/

theorem recompute_none (s : State) (grade : Option Nat) (j : Nat) : s.recompute none grade j = (0, 0) := rfl

theorem recompute_ungraded (s : State) (c : ScanSummary) (j : Nat) : s.recompute (some c) none j = (s.volume c j, 0) := by
  simp only [State.recompute]

theorem recompute_graded (s : State) (c : ScanSummary) (g j : Nat) :
    s.recompute (some c) (some g) j = (s.volume c j, roundDiv (s.volume c j * s.price g j) 1000000) := by
  simp only [State.recompute, State.value]

/-- The outcome of a cut of these figures: the pattern commanded, the feedback, and the piece they leave. -/
def State.cutWith (s : State) (r : Record) (grade : Option Nat) (disposition : Disposition) (volume value : Nat) : SawOutcome :=
  { pattern := s.commandedPattern, snapshot := s.snapshot, result := s.asCut s.snapshot r.scan, grade, disposition, volume, value }

theorem cutWith_result (s : State) (r : Record) (grade : Option Nat) (disposition : Disposition) (volume value : Nat) :
    (s.cutWith r grade disposition volume value).result = s.asCut s.snapshot r.scan := by
  rw [State.cutWith]

section
variable {s : State} {r : Record} {d : Decision} {j volume value : Nat}

theorem cutOutcome_trim_kept (hkind : d.kind = .trim) (hcut : s.asCut s.snapshot r.scan = .cls j) (hcls : d.cls = some j) :
    s.cutOutcome r d = (false, s.cutWith r d.grade d.disposition d.volume d.value) := by
  simp only [State.cutOutcome, State.cutWith, hkind, hcut, if_pos hcls]

theorem cutOutcome_trim_miscut (hkind : d.kind = .trim) (hcut : s.asCut s.snapshot r.scan = .cls j) (hcls : d.cls ≠ some j)
    (hfigures : s.recompute r.scan d.grade j = (volume, value)) :
    s.cutOutcome r d = (true, s.cutWith r d.grade d.disposition volume value) := by
  simp only [State.cutOutcome, State.cutWith, hkind, hcut, if_neg hcls, hfigures]

theorem cutOutcome_trim_reject (hkind : d.kind = .trim)
    (hcut : s.asCut s.snapshot r.scan = .short ∨ s.asCut s.snapshot r.scan = .untrimmed) :
    s.cutOutcome r d = (false, s.cutWith r d.grade .reject 0 0) := by
  obtain h | h := hcut <;> simp only [State.cutOutcome, State.cutWith, hkind, h]

theorem cutOutcome_noTrim_miscut (hkind : d.kind = .noTrim) (hcut : s.asCut s.snapshot r.scan = .cls j)
    (hfigures : s.recompute r.scan (some (d.grade.getD s.tables.grade.default)) j = (volume, value)) :
    s.cutOutcome r d = (true, s.cutWith r (some (d.grade.getD s.tables.grade.default)) d.disposition volume value) := by
  simp only [State.cutOutcome, State.cutWith, hkind, hcut, hfigures]

theorem cutOutcome_noTrim_whole (hkind : d.kind = .noTrim)
    (hcut : s.asCut s.snapshot r.scan = .short ∨ s.asCut s.snapshot r.scan = .untrimmed) :
    s.cutOutcome r d = (false, s.cutWith r d.grade d.disposition 0 0) := by
  obtain h | h := hcut <;> simp only [State.cutOutcome, State.cutWith, hkind, h]

theorem cutOutcome_trash (hkind : d.kind = .trash) : s.cutOutcome r d = (false, s.cutWith r d.grade .reject 0 0) := by
  simp only [State.cutOutcome, State.cutWith, hkind]

/-- The sample is taken alike of every decision. -/
theorem cutOutcome_sample (s : State) (r : Record) (d : Decision) :
    ∃ miscut grade disposition volume value, s.cutOutcome r d = (miscut, s.cutWith r grade disposition volume value) := by
  cases hkind : d.kind with
  | trim =>
    cases hcut : s.asCut s.snapshot r.scan with
    | cls j =>
      by_cases hcls : d.cls = some j
      · exact ⟨_, _, _, _, _, cutOutcome_trim_kept hkind hcut hcls⟩
      · exact ⟨_, _, _, _, _, cutOutcome_trim_miscut hkind hcut hcls rfl⟩
    | short => exact ⟨_, _, _, _, _, cutOutcome_trim_reject hkind (.inl hcut)⟩
    | untrimmed => exact ⟨_, _, _, _, _, cutOutcome_trim_reject hkind (.inr hcut)⟩
  | noTrim =>
    cases hcut : s.asCut s.snapshot r.scan with
    | cls j => exact ⟨_, _, _, _, _, cutOutcome_noTrim_miscut hkind hcut rfl⟩
    | short => exact ⟨_, _, _, _, _, cutOutcome_noTrim_whole hkind (.inl hcut)⟩
    | untrimmed => exact ⟨_, _, _, _, _, cutOutcome_noTrim_whole hkind (.inr hcut)⟩
  | trash => exact ⟨_, _, _, _, _, cutOutcome_trash hkind⟩

/-- A TRIM board keeps its grade however it is cut. -/
theorem cutOutcome_trim_grade (hkind : d.kind = .trim) : (s.cutOutcome r d).2.grade = d.grade := by
  cases hcut : s.asCut s.snapshot r.scan with
  | cls j =>
    by_cases hcls : d.cls = some j
    · rw [cutOutcome_trim_kept hkind hcut hcls]
      rfl
    · rw [cutOutcome_trim_miscut hkind hcut hcls rfl]
      rfl
  | short => rw [cutOutcome_trim_reject hkind (.inl hcut)]; rfl
  | untrimmed => rw [cutOutcome_trim_reject hkind (.inr hcut)]; rfl

/-- A NO-TRIM board keeps its disposition however it is cut. -/
theorem cutOutcome_noTrim_disposition (hkind : d.kind = .noTrim) : (s.cutOutcome r d).2.disposition = d.disposition := by
  cases hcut : s.asCut s.snapshot r.scan with
  | cls j => rw [cutOutcome_noTrim_miscut hkind hcut rfl]; rfl
  | short => rw [cutOutcome_noTrim_whole hkind (.inl hcut)]; rfl
  | untrimmed => rw [cutOutcome_noTrim_whole hkind (.inr hcut)]; rfl

/-! ### A cut as decided -/

/-- Saws that stand as a TRIM decision commands cut at its far saw, in its class where the piece fits. -/
theorem asCut_as_commanded {k : Nat} {p : SawPlace} {scan : ScanSummary} (hsuspect : r.flags.suspect = false) (hscan : r.scan = some scan)
    (hd : r.decision = some d) (hkind : d.kind = .trim) (hsaw : d.saw = some k) (h1 : 1 ≤ k) (h12 : k ≤ 12)
    (henabled : (s.saw k).enabled = true) (hp : s.sawPlace k = some p) (hreach : p.position < scan.length)
    (hfits : p.nominal ≤ p.position) (hfence : d.fence = true → p.nominal + s.tables.settings.fence ≤ p.position)
    (hstand : ∀ j, j ≤ 12 → (s.saw j).feedback = s.patternDown r j) : s.asCut s.snapshot r.scan = .cls k := by
  have hdown : ∀ {j}, 1 ≤ j → j ≤ 12 → ((s.saw j).feedback = true ↔ (s.saw j).enabled = true ∧ k ≤ j ∧
      ∃ p, s.sawPlace j = some p ∧ ∀ c, r.scan = some c → p.position < c.length) := fun hj1 hj12 => by
    rw [hstand _ hj12]
    exact patternDown_trim_length hsuspect hd hkind hsaw hj1 hj12
  have hplace : ∃ p, s.sawPlace k = some p ∧ ∀ c, r.scan = some c → p.position < c.length :=
    ⟨p, hp, fun c hc => by rw [hscan] at hc; cases hc; exact hreach⟩
  have hcuts : s.cuts r.scan k := ⟨h1, h12, (hdown h1 h12).mpr ⟨henabled, le_rfl, hplace⟩, hplace⟩
  have hfirst : ∀ i, i < k → ¬ s.cuts r.scan i := by
    rintro i hi ⟨hi1, hi12, hfeedback, -⟩
    obtain ⟨-, hki, -⟩ := (hdown hi1 hi12).mp hfeedback
    omega
  have hroom : p.nominal + s.fenceCut ≤ p.position := by
    unfold State.fenceCut
    split
    · next h0 =>
      rw [hstand 0 (Nat.zero_le _), patternDown_trim_fence hsuspect hd hkind] at h0
      exact hfence h0.2
    · exact hfits
  rw [asCut_first hcuts hfirst hp, if_pos hroom]

end

end Sys2Proof.Machine

namespace Sys2Proof.Proofs
open Sys2Proof.Machine

/-- Settles O11, by the piece cut and the kind of the decision. -/
theorem cutAsDecided : Obligations.CutAsDecided := by
  unfold Obligations.CutAsDecided
  refine ⟨?_, fun s r d k p scan hsuspect hscan hd hkind hsaw hcls h1 h12 henabled hp hreach hfits hfence hstand => ?_⟩
  · intro s r d miscut o reaches fence recut
    obtain ⟨_, _, _, _, _, hsample⟩ := cutOutcome_sample s r d
    have hresult : o.result = s.asCut s.snapshot r.scan := by simp only [o, hsample, cutWith_result]
    have hpattern : o.pattern = s.commandedPattern := congrArg (fun c => c.2.pattern) hsample
    have hsnapshot : o.snapshot = s.snapshot := congrArg (fun c => c.2.snapshot) hsample
    have hfigures : ∀ {m grade disposition volume value}, s.cutOutcome r d = (m, s.cutWith r grade disposition volume value) →
        miscut = m ∧ o.grade = grade ∧ o.disposition = disposition ∧ o.volume = volume ∧ o.value = value := fun h =>
      ⟨congrArg (fun c => c.1) h, congrArg (fun c => c.2.grade) h, congrArg (fun c => c.2.disposition) h,
        congrArg (fun c => c.2.volume) h, congrArg (fun c => c.2.value) h⟩
    have hrecut : ∀ {m grade' disposition grade j}, (∀ {volume value}, s.recompute r.scan grade j = (volume, value) →
        s.cutOutcome r d = (m, s.cutWith r grade' disposition volume value)) → recut grade j := by
      intro m grade' disposition grade j h
      have hsame : ∀ {volume value}, s.recompute r.scan grade j = (volume, value) → o.volume = volume ∧ o.value = value := fun hrc => by
        obtain ⟨-, -, -, hsame⟩ := hfigures (h hrc)
        exact hsame
      refine ⟨fun hnone => hsame (hnone ▸ recompute_none s grade j), fun c hc => ?_⟩
      cases grade with
      | none => exact hsame (hc ▸ recompute_ungraded s c j)
      | some g => exact hsame (hc ▸ recompute_graded s c g j)
    refine ⟨fun j hj => ?_, fun h => ?_, fun j p h hfirst hp => ?_,
      fun hkind => ⟨cutOutcome_trim_grade hkind, fun j hcut => ?_, fun hcut => ?_⟩,
      fun hkind => ⟨cutOutcome_noTrim_disposition hkind, fun j hcut => ?_, fun hcut => ?_⟩, fun hkind => ?_⟩
    · rw [hpattern, hsnapshot]
      exact ⟨commandedPattern_entry s hj, snapshot_entry s hj⟩
    · rw [hresult]
      exact asCut_untrimmed h
    · rw [hresult, asCut_first h hfirst hp]
      rfl
    · rw [hresult] at hcut
      by_cases hcls : d.cls = some j
      · obtain ⟨hmiscut, -, hdisposition, hvolume, hvalue⟩ := hfigures (cutOutcome_trim_kept hkind hcut hcls)
        exact ⟨hdisposition, hmiscut.trans (decide_eq_false (not_not.mpr hcls)).symm, fun _ => ⟨hvolume, hvalue⟩, fun h => absurd hcls h⟩
      · obtain ⟨hmiscut, -, hdisposition, -⟩ := hfigures (cutOutcome_trim_miscut hkind hcut hcls rfl)
        exact ⟨hdisposition, hmiscut.trans (decide_eq_true hcls).symm, fun h => absurd h hcls,
          fun _ => hrecut (cutOutcome_trim_miscut hkind hcut hcls)⟩
    · rw [hresult] at hcut
      obtain ⟨hmiscut, -, hdisposition, hvolume, hvalue⟩ := hfigures (cutOutcome_trim_reject hkind hcut)
      exact ⟨hdisposition, hvolume, hvalue, hmiscut⟩
    · rw [hresult] at hcut
      obtain ⟨hmiscut, hgrade, -⟩ := hfigures (cutOutcome_noTrim_miscut hkind hcut rfl)
      exact ⟨hmiscut, hgrade, hrecut (cutOutcome_noTrim_miscut hkind hcut)⟩
    · rw [hresult] at hcut
      obtain ⟨hmiscut, hgrade, -, hvolume, hvalue⟩ := hfigures (cutOutcome_noTrim_whole hkind hcut)
      exact ⟨hmiscut, hgrade, hvolume, hvalue⟩
    · obtain ⟨hmiscut, hgrade, hdisposition, hvolume, hvalue⟩ := hfigures (cutOutcome_trash hkind)
      exact ⟨hmiscut, hgrade, hdisposition, hvolume, hvalue⟩
  · have hcut := asCut_as_commanded hsuspect hscan hd hkind hsaw h1 h12 henabled hp hreach hfits hfence hstand
    rw [cutOutcome_trim_kept hkind hcut hcls]
    refine ⟨rfl, ?_, rfl, rfl, rfl, rfl⟩
    simpa only [cutWith_result] using hcut

end Sys2Proof.Proofs
end

