-- ==== Sys2Proof/Proofs/GateInputs.lean ====
section
/-! The gates' inputs (O25): a gate pulse's end, the confirm of the oldest pending drop, a stray confirm, and a full switch. -/

namespace Sys2Proof.Machine

-- One thread elaborates the many small proofs of this file.
set_option Elab.async false

/-! ### A completed drop (R136) -/

/-- A drop into the bin brings it to FULL: it is OPEN and comes to its capacity. -/
def BinRec.fills (b : BinRec) : Bool := decide (b.state = .opened) && (b.items.map fun it => decide (it.capacity ≤ b.dropped + 1)).getD false

theorem BinRec.fills_iff (b : BinRec) :
    b.fills = true ↔ b.state = .opened ∧ ∃ it, b.items = some it ∧ it.capacity ≤ b.dropped + 1 := by
  unfold BinRec.fills
  cases b.items <;> simp

/-- A bin after a drop into it, FULL where the drop fills it. -/
def BinRec.received (b : BinRec) : BinRec := { b.dropTaken with state := if b.fills then .full else b.state }

/-- Making an existing bin FULL raises BIN-FULL (R126). -/
theorem makeFull_eq (n : Nat) (s : State) :
    makeFull n s = { s.modifyBin n (fun b => { b with state := .full }) with attention := s.binCauses false true } := by
  unfold makeFull
  rw [latch_binFull, binCauses_of_attention (State.modifyBin_attention s n _)]

theorem completeDrop_eq {bin : Nat} (hn : binExists bin = true) (r : Record) (s : State) :
    completeDrop r bin s =
      { handToTally (r.mapSort fun p => { p with result := .dropped }) (dropFate ((r.sort.map (·.route)).getD .nowhere))
          { s with attention := s.binCauses false (s.bin bin).fills } with
        board := { s.board with sorter := dropTag r.tag s.board.sorter }
        sort := (s.modifyBin bin BinRec.received).sort } := by
  have hroute : (r.mapSort fun p => { p with result := .dropped }).sort.map (·.route) = r.sort.map (·.route) := by
    unfold Record.mapSort
    cases r.sort <;> rfl
  have htaken : (s.modifyBin bin BinRec.dropTaken).bin bin = (s.bin bin).dropTaken := State.modifyBin_bin s _ hn
  have hbin : (match ((s.modifyBin bin BinRec.dropTaken).bin bin).items with
      | some it => if ((s.modifyBin bin BinRec.dropTaken).bin bin).state = .opened ∧
          it.capacity ≤ ((s.modifyBin bin BinRec.dropTaken).bin bin).dropped
        then makeFull bin (s.modifyBin bin BinRec.dropTaken) else s.modifyBin bin BinRec.dropTaken
      | none => s.modifyBin bin BinRec.dropTaken) =
      { s.modifyBin bin BinRec.received with attention := s.binCauses false (s.bin bin).fills } := by
    have hstays : (s.bin bin).fills = false → s.modifyBin bin BinRec.dropTaken =
        { s.modifyBin bin BinRec.received with attention := s.binCauses false (s.bin bin).fills } := fun h => by
      have hsame : s.modifyBin bin BinRec.received = s.modifyBin bin BinRec.dropTaken := modifyBin_congr (by
        unfold BinRec.received
        rw [h]
        rfl)
      rw [hsame, h, binCauses_none]
      conv_lhs => rw [modifyBin_sort]
      conv_rhs => rw [modifyBin_sort]
    rw [htaken]
    split
    · next it hit =>
      have hfills : (s.bin bin).fills = decide ((s.bin bin).state = .opened ∧ it.capacity ≤ (s.bin bin).dropped + 1) := by
        unfold BinRec.fills
        rw [show (s.bin bin).items = some it from hit, Bool.decide_and]
        rfl
      split
      · next hfull =>
        have h : (s.bin bin).fills = true := hfills.trans (decide_eq_true hfull)
        have hsame : s.modifyBin bin BinRec.received = s.modifyBin bin fun b => { b.dropTaken with state := .full } := modifyBin_congr (by
          unfold BinRec.received
          rw [h]
          rfl)
        rw [makeFull_eq, modifyBin_modifyBin, hsame, h, binCauses_of_attention (State.modifyBin_attention s bin _)]
      · next hroom => exact hstays (hfills.trans (decide_eq_false hroom))
    · next hnone =>
      refine hstays ?_
      unfold BinRec.fills
      rw [show (s.bin bin).items = none from hnone, Option.map_none, Option.getD_none, Bool.and_false]
  have hdrop : completeDrop r bin s = handToTally (r.mapSort fun p => { p with result := .dropped })
      (dropFate ((r.sort.map (·.route)).getD .nowhere))
      (State.leaveSorter { s.modifyBin bin BinRec.received with attention := s.binCauses false (s.bin bin).fills } r.tag) := by
    rw [← hbin, ← hroute]
    rfl
  rw [hdrop, ← handToTally_withSort]
  unfold State.leaveSorter
  conv_lhs => rw [modifyBin_sort]

/-! ### A gate confirm (R136, R137) -/

/-- A bin whose oldest pending drop a confirm takes off its list. -/
def BinRec.confirmed (rest : List PendingDrop) (b : BinRec) : BinRec := { b with confirmInput := true, pending := rest, misses := 0 }

section
variable {bin : Nat} {s : State}

theorem confirmEdge_stray (hn : binExists bin = true) (h : (s.bin bin).pending = []) : confirmEdge bin s =
    (s.modifyBin bin fun b => { b with confirmInput := true }).modifySortCounts fun c => { c with strays := inc32 c.strays } := by
  have hpending : ((s.modifyBin bin fun b => { b with confirmInput := true }).bin bin).pending = [] := by
    rw [State.modifyBin_bin s _ hn]
    exact h
  unfold confirmEdge
  dsimp only
  rw [hpending]

/-- The state in which a confirmed drop is completed. -/
def State.confirmed (s : State) (bin : Nat) (rest : List PendingDrop) : State :=
  (s.modifyBin bin (BinRec.confirmed rest)).modifySortCounts fun c => { c with confirms := inc32 c.confirms }

theorem confirmEdge_pending (hn : binExists bin = true) {e : PendingDrop} {rest : List PendingDrop} (h : (s.bin bin).pending = e :: rest) :
    confirmEdge bin s =
      ((byTag s.board.sorter e.tag).map fun r => completeDrop r bin (s.confirmed bin rest)).getD (s.confirmed bin rest) := by
  have hpending : ((s.modifyBin bin fun b => { b with confirmInput := true }).bin bin).pending = e :: rest := by
    rw [State.modifyBin_bin s _ hn]
    exact h
  have hsame : (s.modifyBin bin fun b => { b with confirmInput := true }).modifyBin bin (fun b => { b with pending := rest, misses := 0 }) =
      s.modifyBin bin (BinRec.confirmed rest) := modifyBin_modifyBin s bin _ _
  have hboard : (s.confirmed bin rest).board = s.board := State.modifyBin_board s bin _
  unfold confirmEdge
  dsimp only
  rw [hpending]
  dsimp only
  rw [hsame]
  change (match byTag (s.confirmed bin rest).board.sorter e.tag with
    | some r => completeDrop r bin (s.confirmed bin rest)
    | none => s.confirmed bin rest) = _
  rw [hboard]
  cases byTag s.board.sorter e.tag <;> rfl

theorem confirmed_bin (hn : binExists bin = true) (rest : List PendingDrop) :
    (s.confirmed bin rest).bin bin = (s.bin bin).confirmed rest := State.modifyBin_bin s _ hn

theorem confirmed_bin_ne {n : Nat} (h : n ≠ bin) (rest : List PendingDrop) : (s.confirmed bin rest).bin n = s.bin n :=
  State.modifyBin_bin_ne s _ h

/-- A confirmed drop's state but for the sort unit. -/
theorem confirmed_sort (rest : List PendingDrop) : s.confirmed bin rest = { s with sort := (s.confirmed bin rest).sort } := by
  unfold State.confirmed
  conv_lhs => rw [modifyBin_sort]
  rfl

/-- What a confirm of a live record's drop leaves: the drop is completed. -/
theorem confirmEdge_drop (hn : binExists bin = true) {e : PendingDrop} {rest : List PendingDrop} (h : (s.bin bin).pending = e :: rest)
    {r : Record} (hr : byTag s.board.sorter e.tag = some r) :
    let t := confirmEdge bin s
    t = { handToTally (r.mapSort fun p => { p with result := .dropped }) (dropFate ((r.sort.map (·.route)).getD .nowhere))
          { s with attention := s.binCauses false (s.bin bin).fills } with
        board := { s.board with sorter := dropTag e.tag s.board.sorter }, sort := t.sort } ∧
    t.bin bin = ((s.bin bin).confirmed rest).received ∧ (∀ n, n ≠ bin → t.bin n = s.bin n) ∧
    t.sort.counts = { s.sort.counts with confirms := inc32 s.sort.counts.confirms } := by
  intro t
  have ht : t = completeDrop r bin (s.confirmed bin rest) := by
    change confirmEdge bin s = _
    rw [confirmEdge_pending hn h, hr]
    rfl
  have hfills : ((s.confirmed bin rest).bin bin).fills = (s.bin bin).fills := by
    rw [confirmed_bin hn]
    rfl
  have htag := (byTag_some hr).2
  have hbin := confirmed_bin (s := s) hn rest
  have hcauses : (s.confirmed bin rest).binCauses false (s.bin bin).fills = s.binCauses false (s.bin bin).fills := by
    rw [confirmed_sort]
    rfl
  have heq : t = { handToTally (r.mapSort fun p => { p with result := .dropped }) (dropFate ((r.sort.map (·.route)).getD .nowhere))
      { s with attention := s.binCauses false (s.bin bin).fills } with
      board := { s.board with sorter := dropTag e.tag s.board.sorter }
      sort := ((s.confirmed bin rest).modifyBin bin BinRec.received).sort } := by
    rw [ht, completeDrop_eq hn, hfills, hcauses, htag]
    generalize hu : ((s.confirmed bin rest).modifyBin bin BinRec.received).sort = sort
    rw [confirmed_sort]
    rw [← handToTally_withSort, ← handToTally_withSort]
  refine ⟨by rw [heq], ?_, fun n hne => ?_, ?_⟩
  · rw [heq]
    refine (State.modifyBin_bin (s.confirmed bin rest) BinRec.received hn).trans ?_
    rw [hbin]
  · rw [heq]
    exact (State.modifyBin_bin_ne (s.confirmed bin rest) BinRec.received hne).trans (confirmed_bin_ne hne rest)
  · rw [heq]
    refine (modifyBin_counts (s.confirmed bin rest) bin BinRec.received).trans ?_
    exact congrArg (fun c : SortCounts => { c with confirms := inc32 c.confirms }) (modifyBin_counts s bin _)

end

/-! ### A full switch (R127) -/

/-- With its counts kept, the sort unit changes in its bins. -/
theorem sort_of_counts {s t : State} (h : t.sort.counts = s.sort.counts) : t.sort = { s.sort with bins := t.sort.bins } := by
  cases ht : t.sort
  rw [ht] at h
  cases h
  rfl

/-- BIN-FULL raised, or not (R180). -/
theorem State.binCauses_full (s : State) (full : Bool) : s.binCauses false full =
    if full then { s.attention with lineController := { s.attention.lineController with
      edges := s.attention.lineController.edges ||| 8#8 } } else s.attention := by
  cases full
  · exact binCauses_none s
  · simp [State.binCauses]

/-- A bin whose full switch has closed: an OPEN bin becomes FULL. -/
def BinRec.switched (b : BinRec) : BinRec := { b with fullSwitch := true, state := if b.state = .opened then .full else b.state }

/-- What a full switch's on-edge leaves: BIN-FULL-SWITCH raised, and BIN-FULL where the bin was OPEN. -/
theorem fullSwitchEdge_eq (bin : Nat) (s : State) :
    let raised := raiseEvent .binFullSwitch none bin (s.bin bin).state.code s
    fullSwitchEdge bin s = { s.modifyBin bin BinRec.switched with
      events := raised.events, attention := raised.binCauses false (decide ((s.bin bin).state = .opened)) } := by
  intro raised
  set u := raiseEvent .binFullSwitch none bin (s.bin bin).state.code (s.modifyBin bin fun b => { b with fullSwitch := true }) with hu
  have hedge : fullSwitchEdge bin s = if (s.bin bin).state = .opened then makeFull bin u else u := rfl
  have hreports : SameReports u raised := SameReports.raiseEvent
    (.symm (.of_outside (modifyBin_outside bin (fun b => { b with fullSwitch := true }) s) rfl rfl rfl rfl)) _ _ _ _
  have hrest : u = { s.modifyBin bin (fun b => { b with fullSwitch := true }) with events := raised.events, attention := raised.attention } := by
    rw [← hreports.events, ← hreports.attention, hu]
    unfold raiseEvent
    split
    · rfl
    · rfl
  rw [hedge]
  split
  · next hopen =>
    have hsame : s.modifyBin bin BinRec.switched = s.modifyBin bin fun b => { b with fullSwitch := true, state := .full } :=
      modifyBin_congr (by unfold BinRec.switched; rw [if_pos hopen])
    have hmodify : u.modifyBin bin (fun b => { b with state := .full }) =
        { s.modifyBin bin BinRec.switched with events := raised.events, attention := raised.attention } := by
      rw [hsame, ← modifyBin_modifyBin s bin (fun b => { b with state := .full }) fun b => { b with fullSwitch := true }]
      conv_lhs => rw [hrest, modifyBin_sort]
      conv_rhs => rw [modifyBin_sort]
      unfold State.modifyBin
      split <;> rfl
    rw [makeFull_eq, hmodify, decide_eq_true hopen, binCauses_of_attention hreports.attention]
  · next hclosed =>
    have hsame : s.modifyBin bin BinRec.switched = s.modifyBin bin fun b => { b with fullSwitch := true } :=
      modifyBin_congr (by unfold BinRec.switched; rw [if_neg hclosed])
    rw [hsame, decide_eq_false hclosed, binCauses_none]
    exact hrest

end Sys2Proof.Machine

namespace Sys2Proof.Proofs
open Sys2Proof.Machine

/-- Settles O25: the pulse's end, the stray and the completing confirm, and the full switch. -/
theorem gateInputs : Obligations.GateInputs := by
  unfold Obligations.GateInputs
  refine ⟨fun bin s h1 h48 hawake => ?_, fun bin s h1 h48 htaken => ?_⟩
  · have hn := binExists_of_le h1 h48
    refine ⟨?_, fun htaken hstray => ?_, fun e rest r p htaken hpending hr hp => ?_⟩
    · refine (if_pos hn).trans ((whenAwake_awake hawake).trans (congrArg _ ?_))
      unfold closeGate
      cases (s.bin bin).pulse <;> rfl
    · rw [exec_gateConfirm hn, takeEdge_taken htaken, confirmEdge_stray (s := s.withPin (.confirm bin) true) hn hstray]
    · have hexec : exec (.gateConfirmOnEdge bin .on) s = .next (confirmEdge bin (s.withPin (.confirm bin) true)) := by
        rw [exec_gateConfirm hn, takeEdge_taken htaken]
      obtain ⟨heq, hbin, hothers, hcounts⟩ := confirmEdge_drop (s := s.withPin (.confirm bin) true) hn hpending hr
      have hout := confirmEdge_outside bin (s.withPin (.confirm bin) true)
      have hdropped : (r.mapSort fun p => { p with result := .dropped }) = { r with sort := some { p with result := .dropped } } := by
        unfold Record.mapSort
        rw [hp]
        rfl
      have hfate : dropFate p.route = match p.route with
          | .group _ => .droppedGraded
          | .reman => .droppedReman
          | .reject | .nowhere => .droppedReject := by
        cases p.route <;> rfl
      have hreports := SameReports.handToTally
        (s := { s.withPin (.confirm bin) true with attention := s.binCauses false (s.bin bin).fills })
        (t := { s with attention := s.binCauses false (s.bin bin).fills }) ⟨rfl, rfl, rfl, rfl⟩
        { r with sort := some { p with result := .dropped } } (dropFate p.route)
      rw [hdropped, hp] at heq
      rw [hfate] at hreports
      rw [show (((some p).map (·.route)).getD .nowhere) = p.route from rfl, hfate] at heq
      refine ⟨_, hexec, hbin.trans ?_, fun n _ _ hne => hothers n hne, hcounts, (congrArg State.board heq).trans rfl,
        ⟨(congrArg State.tally heq).trans hreports.tally, (congrArg State.events heq).trans hreports.events,
          (congrArg State.attention heq).trans hreports.attention⟩, hout.pins rfl, hout.tcu rfl,
        hout.scu rfl, hout.saws rfl, hout.links rfl, hout.tables rfl, hout.decision rfl, hout.pending rfl⟩
      unfold BinRec.received
      simp only [BinRec.fills_iff]
      rfl
  · have hn := binExists_of_le h1 h48
    have hexec : exec (.binFullSwitchOnEdge bin .on) s = .next (fullSwitchEdge bin (s.withPin (.full bin) true)) := by
      rw [exec_binFullSwitch hn, takeEdge_taken htaken]
    intro b number raised
    have hraised : raised = raiseEvent .binFullSwitch none bin b.state.code s := by
      change raiseEvent .binFullSwitch none bin number s = _
      refine congrArg (raiseEvent .binFullSwitch none bin · s) ?_
      cases h : b.state <;> simp only [number, h] <;> rfl
    clear_value raised
    subst hraised
    have hreports : SameReports (raiseEvent .binFullSwitch none bin (s.bin bin).state.code (s.withPin (.full bin) true))
        (raiseEvent .binFullSwitch none bin (s.bin bin).state.code s) :=
      SameReports.raiseEvent (s := s.withPin (.full bin) true) (t := s) ⟨rfl, rfl, rfl, rfl⟩ _ _ _ _
    have heq : fullSwitchEdge bin (s.withPin (.full bin) true) = _ := fullSwitchEdge_eq bin (s.withPin (.full bin) true)
    have hout := fullSwitchEdge_outside bin (s.withPin (.full bin) true)
    refine ⟨_, hexec, ?_, ?_, fun n _ _ hne => ?_⟩
    · refine State.eq_of_parts (hout.pins rfl) (hout.standing rfl) (hout.timebase rfl) (hout.tcu rfl) (hout.scu rfl) hout.weaken.board
        (hout.gradingA rfl) (hout.gradingB rfl) (hout.decision rfl) (hout.saws rfl) ?_ (hout.tally rfl) ?_ ?_ (hout.links rfl)
        (hout.tables rfl) (hout.pending rfl)
      · refine sort_of_counts (s := s) ?_
        rw [heq]
        exact modifyBin_counts _ _ _
      · rw [heq]
        exact hreports.events
      · rw [heq]
        refine (binCauses_of_attention hreports.attention _ _).trans ((State.binCauses_full _ _).trans ?_)
        simp only [decide_eq_true_eq]
        rfl
    · rw [heq]
      exact State.modifyBin_bin (s.withPin (.full bin) true) _ hn
    · rw [heq]
      exact State.modifyBin_bin_ne (s.withPin (.full bin) true) _ hne

end Sys2Proof.Proofs
end

