-- ==== Sys2Proof/Proofs/ConfirmWindows.lean ====
section
/-! A confirm window that runs out (O26): the drop is missed, its record re-routed, and a bin at the limit of misses disabled. -/

namespace Sys2Proof.Machine

-- One thread elaborates the many small proofs of this file.
set_option Elab.async false

/-! ### Events and BIN-NEAR -/

section
variable (k : EventKind) (c : Option Chain) (n d : Nat) {s t : State}

/-- The queue after an event follows the queue before it and the TCU's serial (R159). -/
theorem raiseEvent_events (he : t.events = s.events) (hserial : t.tcu.serial = s.tcu.serial) :
    (raiseEvent k c n d t).events = (raiseEvent k c n d s).events := by
  unfold raiseEvent
  rw [he, hserial]
  split
  · rfl
  · rfl

/-- An event raised after BIN-NEAR latches what it latches before it. -/
theorem raiseEvent_binCauses (he : t.events = s.events) {near : Bool} (ha : t.attention = s.binCauses near false) :
    (raiseEvent k c n d t).attention = (raiseEvent k c n d s).binCauses near false := by
  unfold raiseEvent
  rw [he]
  split
  · exact ha
  · change Attention.mk t.attention.optimizer
      { t.attention.lineController with edges := t.attention.lineController.edges ||| causeBit 1 } t.attention.tallyStation = _
    rw [ha]
    simp [State.binCauses, latch, State.setRole, State.role, Cause.role, Cause.bit, BitVec.or_assoc, BitVec.or_comm (causeBit 1)]

end

/-! ### A place moved from bin to bin (R139) -/

/-- An operation that changes of the board map its sorter records alone. -/
theorem Outside.board_but_sorter {s t : State} (h : Outside { sorter := true, sort := true, events := true, attention := true } s t) :
    t.board = { s.board with sorter := t.board.sorter } := by
  dsimp only
  rw [← h.trimmer rfl, ← h.transfer rfl, ← h.nextTag rfl, ← h.line rfl, ← h.postings rfl, ← h.forces rfl]

/-- Two bin records alike but for the place counts and the NEAR flag. -/
def BinRec.SamePile (b c : BinRec) : Prop := ∃ reserved near, c = { b with reserved := reserved, near := near }

theorem BinRec.SamePile.refl (b : BinRec) : b.SamePile b := ⟨_, _, rfl⟩

theorem BinRec.SamePile.trans {a b c : BinRec} (h : a.SamePile b) (k : b.SamePile c) : a.SamePile c := by
  obtain ⟨r, n, rfl⟩ := h
  obtain ⟨r', n', rfl⟩ := k
  exact ⟨r', n', rfl⟩

theorem BinRec.judged_samePile (b : BinRec) : b.SamePile b.judged := by
  unfold BinRec.judged
  split
  · exact .refl b
  · exact ⟨_, _, rfl⟩

theorem BinRec.promised_samePile (b : BinRec) : b.SamePile b.promised :=
  .trans ⟨b.reserved + 1, b.near, rfl⟩ (BinRec.judged_samePile _)

theorem BinRec.givenUp_samePile (b : BinRec) : b.SamePile b.givenUp :=
  .trans ⟨b.reserved - 1, b.near, rfl⟩ (BinRec.judged_samePile _)

theorem rebin_samePile {f : BinRec → BinRec} (hf : ∀ b : BinRec, b.SamePile (f b)) {n : Nat} (hn : binExists n = true) (s : State) (near : Bool)
    (m : Nat) : (s.bin m).SamePile ((s.rebin n f near).bin m) := by
  by_cases h : m = n
  · rw [h, rebin_bin s n f near hn]
    exact hf _
  · rw [rebin_bin_ne s n f near h]
    exact .refl _

/-- There is no place to give up in a bin the part has not. -/
theorem releaseReservation_none {n : Nat} (hn : binExists n = false) (s : State) : releaseReservation n s = s := by
  have hmodify : ∀ f, n ≠ 0 → s.modifyBin n f = s := fun f h0 => by
    have h48 : 48 ≤ n - 1 := by
      simp only [binExists, decide_eq_false_iff_not] at hn
      omega
    unfold State.modifyBin
    rw [if_neg h0, modifyAt_size _ _ _ h48]
  unfold releaseReservation
  split
  · rfl
  · next h0 =>
    rw [hmodify _ h0]
    unfold judgeNear
    rw [bin_outside hn]
    rfl

/-- The bins after a place is moved from one to another, bin 0 for none. -/
def State.moved (s : State) (old new : Nat) : State :=
  if new = 0 then releaseReservation old s else takeReservation new (releaseReservation old s)

section
variable {s : State} {old new : Nat}

theorem moved_outside : Outside { sort := true, attention := true } s (s.moved old new) := by
  unfold State.moved
  split
  · exact releaseReservation_outside old s
  · exact (releaseReservation_outside old s).trans (takeReservation_outside new _)

theorem releaseReservation_samePile (m : Nat) : (s.bin m).SamePile ((releaseReservation old s).bin m) := by
  cases hold : binExists old
  · rw [releaseReservation_none hold]
    exact .refl _
  · rw [releaseReservation_eq hold]
    exact rebin_samePile BinRec.givenUp_samePile hold s _ m

theorem releaseReservation_counts : (releaseReservation old s).sort.counts = s.sort.counts := by
  cases hold : binExists old
  · rw [releaseReservation_none hold]
  · rw [releaseReservation_eq hold, rebin_counts]

variable (hnew : new ≠ 0 → binExists new = true)
include hnew

theorem moved_samePile (m : Nat) : (s.bin m).SamePile ((s.moved old new).bin m) := by
  unfold State.moved
  split
  · exact releaseReservation_samePile m
  · next h0 =>
    rw [takeReservation_eq (hnew h0)]
    exact (releaseReservation_samePile m).trans (rebin_samePile BinRec.promised_samePile (hnew h0) _ _ m)

theorem moved_counts : (s.moved old new).sort.counts = s.sort.counts := by
  unfold State.moved
  split
  · exact releaseReservation_counts
  · next h0 => rw [takeReservation_eq (hnew h0), rebin_counts, releaseReservation_counts]

/-- A place moved to another bin is given up in the old and taken in the new, each judged for NEAR. -/
theorem moved_bins (hold : binExists old = true) (hne : new ≠ old) :
    (s.moved old new).bin old = (s.bin old).givenUp ∧ (new ≠ 0 → (s.moved old new).bin new = (s.bin new).promised) ∧
    (∀ n, n ≠ old → n ≠ new → (s.moved old new).bin n = s.bin n) ∧
    (s.moved old new).attention = s.binCauses ((s.bin old).nearRises (s.bin old).givenUp ||
      (decide (new ≠ 0) && (s.bin new).nearRises (s.bin new).promised)) false := by
  have hothers := fun n hn => rebin_bin_ne s old BinRec.givenUp ((s.bin old).nearRises (s.bin old).givenUp) (m := n) hn
  have hgiven := rebin_bin s old BinRec.givenUp ((s.bin old).nearRises (s.bin old).givenUp) hold
  unfold State.moved
  rw [releaseReservation_eq hold]
  split
  · next h0 =>
    refine ⟨hgiven, fun h => absurd h0 h, fun n hn _ => hothers n hn, ?_⟩
    rw [decide_eq_false (not_not.mpr h0), Bool.false_and, Bool.or_false]
    exact rebin_attention _ _ _ _
  · next h0 =>
    rw [takeReservation_eq (hnew h0), hothers new hne]
    refine ⟨(rebin_bin_ne _ _ _ _ hne.symm).trans hgiven, fun _ => ?_, fun n hn hn' => (rebin_bin_ne _ _ _ _ hn').trans (hothers n hn), ?_⟩
    · rw [rebin_bin _ _ _ _ (hnew h0), hothers new hne]
    · rw [decide_eq_true h0, Bool.true_and]
      exact binCauses_binCauses s _ _ _ (rebin_attention _ _ _ _)

end

/-- A re-route moves the record's place and marks the record (R139). -/
theorem reroute_eq {r : Record} {p : SortPart} (hp : r.sort = some p) (off : Nat) (s : State) :
    reroute r off s = ((s.moved p.bin (s.rerouteBin p off)).modifySorter r.tag
      (Record.movedTo (s.rerouteBin p off))).modifySortCounts fun c => { c with reroutes := inc32 c.reroutes } := by
  unfold reroute
  rw [hp]
  rfl

/-- The bin a re-route finds follows the routes, the bins' figures and states and their loads. -/
theorem rerouteBin_congr {s t : State} (htables : t.tables = s.tables)
    (hbins : ∀ n, (t.bin n).items = (s.bin n).items ∧ (t.bin n).state = (s.bin n).state ∧ (t.bin n).load = (s.bin n).load) (p : SortPart)
    (off : Nat) : t.rerouteBin p off = s.rerouteBin p off := by
  have hroute : t.routeBins p.route = s.routeBins p.route := by
    unfold State.routeBins State.groupBins
    rw [htables]
  have hfits : t.fitsBelow off = s.fitsBelow off := funext fun n => by
    obtain ⟨hitems, hstate, hload⟩ := hbins n
    unfold State.fitsBelow State.takes State.dropOffset
    rw [hitems, hstate, hload]
  rw [rerouteBin_eq, rerouteBin_eq, hroute, hfits]

/-! ### A missed drop (R138) -/

/-- A record whose drop is missed is back on the sorter with GATE-MISS. -/
def Record.gateMissed (r : Record) : Record := { r with flags := { r.flags with gateMiss := true }, life := .onSorter }

/-- A bin whose oldest pending drop is missed, `m` in a row. -/
def BinRec.missed (rest : List PendingDrop) (m : Nat) (b : BinRec) : BinRec := { b with pending := rest, misses := m }

/-- The state in which the record of a missed drop is re-routed: the miss taken, GATE-MISS raised. -/
def State.dropMissed (s : State) (bin tag : Nat) (rest : List PendingDrop) (m : Nat) : State :=
  raiseEvent .gateMiss none bin m (((s.modifyBin bin (BinRec.missed rest m)).modifySortCounts fun c =>
    { c with misses := inc32 c.misses }).modifySorter tag Record.gateMissed)

/-- A bin's misses have come to the limit: it is fitted and not DISABLED (R138). -/
def BinRec.failed (m : Nat) (b : BinRec) : Bool := b.items.isSome && decide (b.state ≠ .disabled) && decide (3 ≤ m)

section
variable (s : State) (bin tag : Nat) (rest : List PendingDrop) (m : Nat)

theorem dropMissed_outside : Outside { sorter := true, sort := true, events := true, attention := true } s (s.dropMissed bin tag rest m) :=
  .then (.then (.then (modifyBin_outside bin _ s).weaken (modifySortCounts_outside _ _)) (modifySorter_outside _ _ _)) (raiseEvent_outside _ _ _ _ _)

theorem dropMissed_sorter : (s.dropMissed bin tag rest m).board.sorter = mapTag tag Record.gateMissed s.board.sorter := by
  unfold State.dropMissed
  rw [raiseEvent_board]
  exact congrArg (fun b : BoardMap => mapTag tag Record.gateMissed b.sorter) (State.modifyBin_board s bin _)

theorem dropMissed_counts :
    (s.dropMissed bin tag rest m).sort.counts = { s.sort.counts with misses := inc32 s.sort.counts.misses } := by
  unfold State.dropMissed
  rw [raiseEvent_sort]
  exact congrArg (fun c : SortCounts => { c with misses := inc32 c.misses }) (modifyBin_counts s bin _)

theorem dropMissed_bin {bin : Nat} (hn : binExists bin = true) :
    (s.dropMissed bin tag rest m).bin bin = (s.bin bin).missed rest m :=
  (bin_of_sort (raiseEvent_sort _ _ _ _ _) bin).trans (State.modifyBin_bin s _ hn)

theorem dropMissed_bin_ne {bin n : Nat} (hne : n ≠ bin) : (s.dropMissed bin tag rest m).bin n = s.bin n :=
  (bin_of_sort (raiseEvent_sort _ _ _ _ _) n).trans (State.modifyBin_bin_ne s _ hne)

theorem dropMissed_reports : SameReports (s.dropMissed bin tag rest m) (raiseEvent .gateMiss none bin m s) := by
  have hu : Outside { sorter := true, sort := true } s (((s.modifyBin bin (BinRec.missed rest m)).modifySortCounts fun c =>
      { c with misses := inc32 c.misses }).modifySorter tag Record.gateMissed) :=
    .then (.then (modifyBin_outside bin _ s).weaken (modifySortCounts_outside _ _)) (modifySorter_outside _ _ _)
  exact SameReports.raiseEvent (.symm (.of_outside hu rfl rfl rfl rfl)) _ _ _ _

theorem dropMissed_rerouteBin (p : SortPart) (off : Nat) {bin : Nat} (hn : binExists bin = true) :
    (s.dropMissed bin tag rest m).rerouteBin p off = s.rerouteBin p off := by
  refine rerouteBin_congr ((dropMissed_outside s bin tag rest m).tables rfl) (fun n => ?_) p off
  by_cases h : n = bin
  · rw [h, dropMissed_bin s tag rest m hn]
    exact ⟨rfl, rfl, rfl⟩
  · rw [dropMissed_bin_ne s tag rest m h]
    exact ⟨rfl, rfl, rfl⟩

theorem judgeMisses_eq : judgeMisses bin m s =
    if (s.bin bin).failed m then raiseEvent .binDisabled none bin m (s.modifyBin bin fun b => { b with state := .disabled }) else s := by
  unfold judgeMisses BinRec.failed
  simp only [Bool.and_eq_true, decide_eq_true_eq, and_assoc]
  rfl

end

section
variable (s : State) (bin m : Nat)

theorem judgeMisses_bin {bin : Nat} (hn : binExists bin = true) : (judgeMisses bin m s).bin bin =
    { s.bin bin with state := if (s.bin bin).failed m then .disabled else (s.bin bin).state } := by
  rw [judgeMisses_eq]
  cases (s.bin bin).failed m
  · rfl
  · exact (bin_of_sort (raiseEvent_sort _ _ _ _ _) bin).trans (State.modifyBin_bin s _ hn)

theorem judgeMisses_bin_ne {bin n : Nat} (hne : n ≠ bin) : (judgeMisses bin m s).bin n = s.bin n := by
  rw [judgeMisses_eq]
  split
  · exact (bin_of_sort (raiseEvent_sort _ _ _ _ _) n).trans (State.modifyBin_bin_ne s _ hne)
  · rfl

theorem judgeMisses_counts : (judgeMisses bin m s).sort.counts = s.sort.counts := by
  rw [judgeMisses_eq]
  split
  · rw [raiseEvent_sort]
    exact modifyBin_counts s bin _
  · rfl

end

/-- A miss of a bin's gate does not show in its NEAR flag. -/
theorem BinRec.givenUp_missed (b : BinRec) (rest : List PendingDrop) (m : Nat) : (b.missed rest m).givenUp = b.givenUp.missed rest m := by
  unfold BinRec.givenUp BinRec.judged
  cases h : b.items <;> simp only [BinRec.missed, h]

/-- A confirm window that runs out, by its steps. -/
theorem expireConfirm_eq {bin : Nat} {s : State} {e : PendingDrop} {rest : List PendingDrop} (h : (s.bin bin).pending = e :: rest) {r : Record}
    (hr : byTag s.board.sorter e.tag = some r) :
    let m := incTo Config.missHold (s.bin bin).misses
    expireConfirm bin s = judgeMisses bin m (reroute r.gateMissed (r.sorterOffset s.scu.serial) (s.dropMissed bin e.tag rest m)) := by
  intro m
  have hfound : byTag (s.dropMissed bin e.tag rest m).board.sorter e.tag = some r.gateMissed := by
    rw [dropMissed_sorter]
    exact byTag_mapTag hr (by intro; rfl)
  have hserial : (s.dropMissed bin e.tag rest m).scu = s.scu := (dropMissed_outside s bin e.tag rest m).scu rfl
  unfold expireConfirm
  dsimp only
  rw [h]
  change judgeMisses bin m (match byTag (s.dropMissed bin e.tag rest m).board.sorter e.tag with
    | some r => reroute r (r.sorterOffset (s.dropMissed bin e.tag rest m).scu.serial) (s.dropMissed bin e.tag rest m)
    | none => s.dropMissed bin e.tag rest m) = _
  rw [hfound, hserial]
  rfl

end Sys2Proof.Machine

namespace Sys2Proof.Proofs
open Sys2Proof.Machine

/-- Settles O26: the miss, the re-route and the judging of the misses, one after another. -/
theorem confirmWindowExpiry : Obligations.ConfirmWindowExpiry := by
  unfold Obligations.ConfirmWindowExpiry
  intro bin s h1 h48 hawake b m out missed raised
  have hn := binExists_of_le h1 h48
  have hexec : exec (.confirmWindowExpiry bin) s = .next (expireConfirm bin s) := (if_pos hn).trans (whenAwake_awake hawake)
  rw [hexec]
  refine ⟨fun hnone => ?_, fun e rest r p hpending hr hp => ?_⟩
  · unfold expireConfirm
    rw [hnone]
  · intro new
    obtain ⟨-, htag⟩ := byTag_some hr
    set u := s.dropMissed bin e.tag rest m with hu
    set off := r.sorterOffset s.scu.serial with hoff
    set v := reroute r.gateMissed off u with hv
    have hout := expireConfirm_outside bin s
    have heq : expireConfirm bin s = judgeMisses bin m v := expireConfirm_eq hpending hr
    have hbin : u.bin bin = b.missed rest m := dropMissed_bin s e.tag rest m hn
    have hothers : ∀ n, n ≠ bin → u.bin n = s.bin n := fun n => dropMissed_bin_ne s e.tag rest m
    have hreports : SameReports u missed := dropMissed_reports s bin e.tag rest m
    have hexists : new ≠ 0 → binExists new = true := fun h0 => (rerouteBin_spec h0).1
    have hroute : v = ((u.moved p.bin new).modifySorter e.tag (Record.movedTo new)).modifySortCounts
        fun c => { c with reroutes := inc32 c.reroutes } := by
      rw [hv, reroute_eq (r := r.gateMissed) hp, dropMissed_rerouteBin s e.tag rest m p off hn, ← htag]
      rfl
    have hmoved : ∀ n, v.bin n = (u.moved p.bin new).bin n := fun n => by rw [hroute]; rfl
    have hattention : v.attention = (u.moved p.bin new).attention := by rw [hroute]; rfl
    have hvreports : v.events = missed.events ∧ v.tcu.serial = missed.tcu.serial := by
      have hvout := reroute_outside r.gateMissed off u
      exact ⟨(hvout.events rfl).trans hreports.events, (congrArg ChainUnit.serial (hvout.tcu rfl)).trans hreports.serial⟩
    obtain ⟨reserved, near, hpile⟩ : (b.missed rest m).SamePile (v.bin bin) := by
      rw [hmoved, ← hbin]
      exact moved_samePile hexists bin
    have hfailed : (v.bin bin).failed m = out := by rw [hpile]; rfl
    have htbin : (expireConfirm bin s).bin bin = { v.bin bin with state := if out then .disabled else b.state } := by
      rw [heq, judgeMisses_bin _ _ hn, hfailed, hpile]
      rfl
    have hsorter : (expireConfirm bin s).board.sorter = mapTag e.tag (fun x => x.gateMissed.movedTo new) s.board.sorter := by
      rw [heq, (judgeMisses_outside bin m v).sorter rfl, hroute, ← mapTag_mapTag _ (by intro; rfl), ← dropMissed_sorter s bin e.tag rest m]
      exact congrArg (mapTag e.tag (Record.movedTo new)) (moved_outside.sorter rfl)
    have hraised : raised = if out then raiseEvent .binDisabled none bin m missed else missed := rfl
    have hevents : (expireConfirm bin s).events = raised.events := by
      rw [heq, judgeMisses_eq, hfailed, hraised]
      by_cases hfail : out = true
      · rw [if_pos hfail, if_pos hfail]
        exact raiseEvent_events _ _ _ _ (by rw [State.modifyBin_events, hvreports.1]) (by rw [State.modifyBin_tcu, hvreports.2])
      · rw [if_neg hfail, if_neg hfail]
        exact hvreports.1
    refine ⟨_, rfl, ?_, ?_, ?_, ?_, ?_, fun hheld hne => ?_, ?_, fun x hx hxt => ?_, ?_, hevents⟩
    · refine State.eq_of_parts (hout.pins rfl) (hout.standing rfl) (hout.timebase rfl) (hout.tcu rfl) (hout.scu rfl) hout.board_but_sorter
        (hout.gradingA rfl) (hout.gradingB rfl) (hout.decision rfl) (hout.saws rfl) rfl (hout.tally rfl) rfl rfl (hout.links rfl)
        (hout.tables rfl) (hout.pending rfl)
    · rw [htbin, hpile]; rfl
    · rw [htbin, hpile]; rfl
    · rw [htbin]
    · rw [htbin, hpile]; rfl
    · subst hheld
      obtain ⟨hgiven, htaken, hrest, hcauses⟩ := moved_bins (s := u) hexists hn hne
      rw [hbin, BinRec.givenUp_missed] at hgiven hcauses
      rw [hothers new hne] at htaken hcauses
      intro given taken
      refine ⟨?_, fun h0 => ?_, fun n _ _ hnbin hnnew => ?_, ?_⟩
      · rw [htbin, hmoved, hgiven]
        rfl
      · rw [heq, judgeMisses_bin_ne _ _ hne, hmoved, htaken h0]
        rfl
      · rw [heq, judgeMisses_bin_ne _ _ hnbin, hmoved, hrest n hnbin hnnew, hothers n hnbin]
      · have hnear : v.attention = missed.binCauses (b.nearRises given || (decide (new ≠ 0) && (s.bin new).nearRises taken)) false := by
          rw [hattention, hcauses]
          exact binCauses_of_attention hreports.attention _ _
        rw [heq, judgeMisses_eq, hfailed, hraised]
        by_cases hfail : out = true
        · rw [if_pos hfail, if_pos hfail]
          exact raiseEvent_binCauses _ _ _ _ (by rw [State.modifyBin_events, hvreports.1]) (by rw [State.modifyBin_attention, hnear])
        · rw [if_neg hfail, if_neg hfail]
          exact hnear
    · rw [hsorter, byTag_mapTag hr (by intro; rfl)]
      refine congrArg some ?_
      unfold Record.movedTo Record.gateMissed
      rw [hp]
      rfl
    · rw [hsorter] at hx
      obtain ⟨y, hy, rfl⟩ := List.mem_map.mp hx
      by_cases hyt : y.tag = e.tag
      · rw [if_pos hyt] at hxt
        exact absurd hyt hxt
      · rwa [if_neg hyt]
    · rw [heq, judgeMisses_counts, hroute]
      exact congrArg (fun c : SortCounts => { c with reroutes := inc32 c.reroutes })
        ((moved_counts hexists).trans (dropMissed_counts s bin e.tag rest m))

end Sys2Proof.Proofs
end

