-- ==== Sys2Proof/Proofs/BinBooks.lean ====
section
/-! The books of the bins (O59): what of a bin and of a sorter record the counted places rest on, and what each operation on a record's place
does to both (R124, R133 to R139). A record leaves its bin or joins one; every operation of the sort unit is made of these. -/

namespace Sys2Proof.Machine

-- One thread elaborates the many small proofs of this file.
set_option Elab.async false

/-! ### Berths and books -/

/-- What of a sorter record its bin's book rests on. -/
structure Berth where
  tag : Nat
  bin : Nat
  dropping : Bool

def Record.berth (r : Record) : Berth := { tag := r.tag, bin := r.heldBin, dropping := decide (r.life = .dropping) }

/-- What of a bin record the places and the pending drops are counted by. -/
structure Book where
  capacity : Option Nat
  dropped : Nat
  reserved : Nat
  pending : List Nat

def BinRec.book (b : BinRec) : Book :=
  { capacity := b.items.map (·.capacity), dropped := b.dropped, reserved := b.reserved, pending := b.pending.map (·.tag) }

/-- The book of bin `n` agrees with the records on the sorter. -/
structure Book.Agrees (n : Nat) (b : Book) (berths : List Berth) : Prop where
  counted : b.reserved = berths.countP fun x => x.bin = n
  within : ∀ c, b.capacity = some c → b.dropped + b.reserved ≤ c
  held : ∀ tag ∈ b.pending, ∃ x ∈ berths, x.tag = tag ∧ x.bin = n ∧ x.dropping = true
  once : b.pending.Nodup

/-- A book with one place fewer, no pending drop of `tag` and none that is new. -/
structure Book.Leaves (tag : Nat) (b c : Book) : Prop where
  capacity : c.capacity = b.capacity
  reserved : c.reserved = b.reserved - 1
  load : 1 ≤ b.reserved → c.dropped + c.reserved ≤ b.dropped + b.reserved
  pending : c.pending.Sublist b.pending
  gone : tag ∉ c.pending

/-- A book with one place more. -/
structure Book.Joins (b c : Book) : Prop where
  room : ∀ k, b.capacity = some k → b.dropped + b.reserved < k
  eq : c = { b with reserved := b.reserved + 1 }

section
variable {tag : Nat} {b : Book} {pending : List Nat} (hsub : pending.Sublist b.pending) (hgone : tag ∉ pending)
include hsub hgone

/-- A place given up leaves. -/
theorem Book.leaves_givenUp : b.Leaves tag { b with reserved := b.reserved - 1, pending := pending } :=
  ⟨rfl, rfl, fun _ => Nat.add_le_add_left (Nat.sub_le _ _) _, hsub, hgone⟩

/-- A board dropped leaves its reserved place. -/
theorem Book.leaves_dropped : b.Leaves tag { b with dropped := b.dropped + 1, reserved := b.reserved - 1, pending := pending } :=
  ⟨rfl, rfl, fun h => by dsimp only; omega, hsub, hgone⟩

end

namespace Book.Agrees
variable {n : Nat} {b c : Book} {x : Berth} {xs ys : List Berth}

theorem perm (h : b.Agrees n xs) (hp : xs.Perm ys) : b.Agrees n ys where
  counted := h.counted.trans (hp.countP_eq _)
  within := h.within
  held tag ht := by
    obtain ⟨y, hy, hrest⟩ := h.held tag ht
    exact ⟨y, hp.subset hy, hrest⟩
  once := h.once

/-- A record of another bin is no matter. -/
theorem cons_ne (hx : x.bin ≠ n) : b.Agrees n (x :: xs) ↔ b.Agrees n xs := by
  have hcount : (x :: xs).countP (fun y => y.bin = n) = xs.countP fun y => y.bin = n := List.countP_cons_of_neg (by simpa using hx)
  constructor
  · intro h
    refine ⟨h.counted.trans hcount, h.within, fun tag ht => ?_, h.once⟩
    obtain ⟨y, hy, htag, hbin, hdropping⟩ := h.held tag ht
    obtain rfl | hy := List.mem_cons.mp hy
    · exact absurd hbin hx
    · exact ⟨y, hy, htag, hbin, hdropping⟩
  · intro h
    refine ⟨h.counted.trans hcount.symm, h.within, fun tag ht => ?_, h.once⟩
    obtain ⟨y, hy, hrest⟩ := h.held tag ht
    exact ⟨y, List.mem_cons_of_mem x hy, hrest⟩

theorem leave (h : b.Agrees n (x :: xs)) (hx : x.bin = n) (hc : b.Leaves x.tag c) : c.Agrees n xs := by
  have hcount : b.reserved = xs.countP (fun y => y.bin = n) + 1 := h.counted.trans (List.countP_cons_of_pos (by simpa using hx))
  refine ⟨?_, fun k hk => ?_, fun tag ht => ?_, hc.pending.nodup h.once⟩
  · rw [hc.reserved, hcount, Nat.add_sub_cancel]
  · exact (hc.load (by omega)).trans (h.within k (hc.capacity ▸ hk))
  · obtain ⟨y, hy, htag, hrest⟩ := h.held tag (hc.pending.subset ht)
    obtain rfl | hy := List.mem_cons.mp hy
    · exact absurd (htag ▸ ht) hc.gone
    · exact ⟨y, hy, htag, hrest⟩

theorem join (h : b.Agrees n xs) (hx : x.bin = n) (hc : b.Joins c) : c.Agrees n (x :: xs) := by
  obtain ⟨hroom, rfl⟩ := hc
  refine ⟨?_, fun k hk => hroom k hk, fun tag ht => ?_, h.once⟩
  · rw [List.countP_cons_of_pos (by simpa using hx)]
    exact congrArg (· + 1) h.counted
  · obtain ⟨y, hy, hrest⟩ := h.held tag ht
    exact ⟨y, List.mem_cons_of_mem x hy, hrest⟩

/-- A record whose drop begins or ends keeps its place. -/
theorem restate (h : b.Agrees n (x :: xs)) {y : Berth} (hbin : y.bin = x.bin) (hx : x.bin = n) {pending : List Nat} (honce : pending.Nodup)
    (hheld : ∀ tag ∈ pending, (tag ∈ b.pending ∧ tag ≠ x.tag) ∨ (tag = y.tag ∧ y.dropping = true)) :
    ({ b with pending := pending } : Book).Agrees n (y :: xs) := by
  refine ⟨?_, h.within, fun tag ht => ?_, honce⟩
  · rw [List.countP_cons_of_pos (by simpa using hbin.trans hx)]
    exact h.counted.trans (List.countP_cons_of_pos (by simpa using hx))
  · obtain ⟨hb, hne⟩ | ⟨rfl, hdropping⟩ := hheld tag ht
    · obtain ⟨z, hz, htag, hrest⟩ := h.held tag hb
      obtain rfl | hz := List.mem_cons.mp hz
      · exact absurd htag.symm hne
      · exact ⟨z, List.mem_cons_of_mem y hz, htag, hrest⟩
    · exact ⟨y, List.mem_cons_self, rfl, hbin.trans hx, hdropping⟩

end Book.Agrees

/-! ### The books of a state -/

/-- The books of all bins agree with these records, each of a bin that there is, or of none. -/
structure State.Books (s : State) (berths : List Berth) : Prop where
  books : ∀ n, 1 ≤ n → n ≤ 48 → (s.bin n).book.Agrees n berths
  range : ∀ x ∈ berths, x.bin ≤ 48

namespace State.Books
variable {s t : State} {x y : Berth} {xs ys : List Berth}

theorem perm (h : s.Books xs) (hp : xs.Perm ys) : s.Books ys where
  books n h1 h48 := (h.books n h1 h48).perm hp
  range x hx := h.range x (hp.symm.subset hx)

theorem of_same (h : s.Books xs) (hb : ∀ n, (t.bin n).book = (s.bin n).book) : t.Books xs where
  books n h1 h48 := hb n ▸ h.books n h1 h48
  range := h.range

/-- A record's bin is a bin of the part, or none. -/
theorem exists_of_held (h : s.Books (x :: xs)) (h0 : x.bin ≠ 0) : binExists x.bin = true :=
  binExists_of_le (Nat.one_le_iff_ne_zero.mpr h0) (h.range x List.mem_cons_self)

theorem leave (h : s.Books (x :: xs)) (hothers : ∀ n, n ≠ x.bin → (t.bin n).book = (s.bin n).book)
    (hbin : x.bin ≠ 0 → (s.bin x.bin).book.Leaves x.tag (t.bin x.bin).book) : t.Books xs where
  books n h1 h48 := by
    by_cases hn : x.bin = n
    · subst hn
      exact (h.books _ h1 h48).leave rfl (hbin (Nat.one_le_iff_ne_zero.mp h1))
    · rw [hothers n (Ne.symm hn)]
      exact (Book.Agrees.cons_ne hn).mp (h.books n h1 h48)
  range y hy := h.range y (List.mem_cons_of_mem x hy)

theorem join (h : s.Books xs) (h48 : y.bin ≤ 48) (hothers : ∀ n, n ≠ y.bin → (t.bin n).book = (s.bin n).book)
    (hbin : y.bin ≠ 0 → (s.bin y.bin).book.Joins (t.bin y.bin).book) : t.Books (y :: xs) where
  books n h1 hn48 := by
    by_cases hn : y.bin = n
    · subst hn
      exact (h.books _ h1 hn48).join rfl (hbin (Nat.one_le_iff_ne_zero.mp h1))
    · rw [hothers n (Ne.symm hn)]
      exact (Book.Agrees.cons_ne hn).mpr (h.books n h1 hn48)
  range := List.forall_mem_cons.mpr ⟨h48, h.range⟩

theorem restate (h : s.Books (x :: xs)) (hy : y.bin = x.bin) (hothers : ∀ n, n ≠ x.bin → (t.bin n).book = (s.bin n).book)
    {pending : List Nat} (hbin : x.bin ≠ 0 → (t.bin x.bin).book = { (s.bin x.bin).book with pending := pending }) (honce : pending.Nodup)
    (hheld : ∀ tag ∈ pending, (tag ∈ (s.bin x.bin).book.pending ∧ tag ≠ x.tag) ∨ (tag = y.tag ∧ y.dropping = true)) :
    t.Books (y :: xs) where
  books n h1 h48 := by
    by_cases hn : x.bin = n
    · subst hn
      rw [hbin (Nat.one_le_iff_ne_zero.mp h1)]
      exact (h.books _ h1 h48).restate hy rfl honce hheld
    · rw [hothers n (Ne.symm hn)]
      exact (Book.Agrees.cons_ne (hy ▸ hn)).mpr ((Book.Agrees.cons_ne hn).mp (h.books n h1 h48))
  range := List.forall_mem_cons.mpr ⟨hy ▸ h.range x List.mem_cons_self, fun z hz => h.range z (List.mem_cons_of_mem x hz)⟩

end State.Books

/-! ### Places given up, taken and moved -/

theorem BinRec.SamePile.book {b c : BinRec} (h : b.SamePile c) : c.book = { b.book with reserved := c.reserved } := by
  obtain ⟨reserved, near, rfl⟩ := h
  rfl

theorem BinRec.givenUp_book (b : BinRec) : b.givenUp.book = { b.book with reserved := b.reserved - 1 } := by
  unfold BinRec.givenUp BinRec.judged
  split <;> rfl

theorem BinRec.promised_book (b : BinRec) : b.promised.book = { b.book with reserved := b.reserved + 1 } := by
  unfold BinRec.promised BinRec.judged
  split <;> rfl

/-- To give up a place promises no more of any bin. -/
theorem releaseReservation_reserved (n : Nat) (s : State) (m : Nat) : ((releaseReservation n s).bin m).reserved ≤ (s.bin m).reserved := by
  cases hn : binExists n
  · rw [releaseReservation_none hn]
  · rw [releaseReservation_eq hn]
    by_cases hm : m = n
    · subst hm
      rw [rebin_bin _ _ _ _ hn]
      exact (congrArg Book.reserved (BinRec.givenUp_book _)).trans_le (Nat.sub_le _ _)
    · rw [rebin_bin_ne _ _ _ _ hm]

/-- A bin that takes one more board has room for it. -/
theorem room_of_takes {s : State} {n : Nat} (h : s.takes n = true) :
    ∀ k, (s.bin n).book.capacity = some k → (s.bin n).book.dropped + (s.bin n).book.reserved < k := by
  obtain ⟨it, hit, -, hload⟩ := (takes_iff s n).mp h
  intro k hk
  have hcap : (s.bin n).book.capacity = some it.capacity := congrArg (Option.map fun it : BinItems => it.capacity) hit
  rw [hcap] at hk
  cases hk
  exact hload

namespace State.Books
variable {s : State} {x y : Berth} {xs : List Berth}

theorem release (h : s.Books (x :: xs)) (hgone : x.tag ∉ (s.bin x.bin).book.pending) : (releaseReservation x.bin s).Books xs := by
  by_cases h0 : x.bin = 0
  · refine h.leave (fun n _ => ?_) fun hne => absurd h0 hne
    rw [h0]
    rfl
  · have hn := h.exists_of_held h0
    rw [releaseReservation_eq hn]
    refine h.leave (fun n hne => by rw [rebin_bin_ne _ _ _ _ hne]) fun _ => ?_
    rw [rebin_bin _ _ _ _ hn, BinRec.givenUp_book]
    exact Book.leaves_givenUp (.refl _) hgone

theorem take (h : s.Books xs) (hn : binExists y.bin = true)
    (hroom : ∀ k, (s.bin y.bin).book.capacity = some k → (s.bin y.bin).book.dropped + (s.bin y.bin).book.reserved < k) :
    (takeReservation y.bin s).Books (y :: xs) := by
  have h48 : y.bin ≤ 48 := by
    simp only [binExists, decide_eq_true_eq] at hn
    exact hn.2
  rw [takeReservation_eq hn]
  refine h.join h48 (fun n hne => by rw [rebin_bin_ne _ _ _ _ hne]) fun _ => ?_
  rw [rebin_bin _ _ _ _ hn]
  exact ⟨hroom, BinRec.promised_book _⟩

/-- A record with no bin is in no book. -/
theorem unplaced (h : s.Books xs) (h0 : y.bin = 0) : s.Books (y :: xs) :=
  h.join (h0 ▸ Nat.zero_le _) (fun _ _ => rfl) fun hne => absurd h0 hne

/-- A record's place is moved to a bin that takes one more, or given up. -/
theorem moved (h : s.Books (x :: xs)) (hgone : x.tag ∉ (s.bin x.bin).book.pending) (htakes : y.bin ≠ 0 → s.takes y.bin = true) :
    (s.moved x.bin y.bin).Books (y :: xs) := by
  have hleft := h.release hgone
  unfold State.moved
  split
  · next h0 => exact hleft.unplaced h0
  · next h0 =>
    refine hleft.take (binExists_of_takes (htakes h0)) fun k hk => ?_
    have hroom := room_of_takes (htakes h0) k
    have hpile := (releaseReservation_samePile (s := s) (old := x.bin) y.bin).book
    have hless := releaseReservation_reserved x.bin s y.bin
    rw [hpile] at hk ⊢
    exact (Nat.add_le_add_left hless _).trans_lt (hroom hk)

end State.Books

/-! ### The records of the sorter -/

/-- The bins' books agree with the sorter's records, which have tags of their own (R23, R124). -/
structure State.Berthed (s : State) : Prop where
  distinct : (s.board.sorter.map (·.tag)).Nodup
  books : s.Books (s.board.sorter.map Record.berth)

theorem sorter_distinct {s : State} (h : BoardsPlaced s) : (s.board.sorter.map (·.tag)).Nodup :=
  h.distinct.sublist ((List.sublist_append_right _ _).map _)

theorem placesCounted_iff (s : State) : PlacesCounted s ↔ BoardsPlaced s ∧ s.Berthed := by
  have hcount : ∀ n, (s.board.sorter.filter fun r => r.heldBin = n).length = (s.board.sorter.map Record.berth).countP fun x => x.bin = n :=
    fun n => by
      rw [← List.countP_eq_length_filter, List.countP_map]
      rfl
  constructor
  · intro h
    refine ⟨h.placed, sorter_distinct h.placed, fun n h1 h48 => ⟨?_, fun c hc => ?_, fun tag ht => ?_, h.pendingOnce n h1 h48⟩,
      List.forall_mem_map.mpr h.inRange⟩
    · exact (h.counted n h1 h48).trans (hcount n)
    · obtain ⟨it, hit, rfl⟩ := Option.map_eq_some_iff.mp hc
      exact h.within n h1 h48 it hit
    · obtain ⟨e, he, rfl⟩ := List.mem_map.mp ht
      obtain ⟨r, hr, htag, hbin, hlife⟩ := h.pendingHeld n h1 h48 e he
      exact ⟨r.berth, List.mem_map_of_mem hr, htag, hbin, decide_eq_true hlife⟩
  · rintro ⟨hplaced, -, hbooks⟩
    refine ⟨hplaced, fun n h1 h48 => ?_, fun n h1 h48 it hit => ?_, fun r hr => hbooks.range _ (List.mem_map_of_mem hr),
      fun n h1 h48 e he => ?_, fun n h1 h48 => (hbooks.books n h1 h48).once⟩
    · exact (hbooks.books n h1 h48).counted.trans (hcount n).symm
    · exact (hbooks.books n h1 h48).within it.capacity (congrArg (Option.map fun it : BinItems => it.capacity) hit)
    · obtain ⟨x, hx, htag, hbin, hdropping⟩ := (hbooks.books n h1 h48).held e.tag (List.mem_map_of_mem he)
      obtain ⟨r, hr, rfl⟩ := List.mem_map.mp hx
      exact ⟨r, hr, htag, hbin, of_decide_eq_true hdropping⟩

/-- A list of records with tags of their own is the record of one tag and the others. -/
theorem perm_of_byTag {rs : List Record} (hd : (rs.map (·.tag)).Nodup) {tag : Nat} {r : Record} (hr : byTag rs tag = some r) :
    rs.Perm (r :: dropTag tag rs) := by
  induction rs with
  | nil => cases hr
  | cons x rest ih =>
    obtain ⟨hx, hrest⟩ := List.nodup_cons.mp hd
    unfold byTag dropTag at *
    by_cases hxt : x.tag = tag
    · have hxr : x = r := by simpa [hxt] using hr
      have hnone : rest.filter (fun y => !decide (y.tag = tag)) = rest := List.filter_eq_self.mpr fun y hy => by
        have hne : y.tag ≠ tag := fun h => hx (List.mem_map.mpr ⟨y, hy, h.trans hxt.symm⟩)
        simp [hne]
      rw [List.filter_cons_of_neg (by simpa using hxt), hnone, hxr]
    · rw [List.filter_cons_of_pos (by simpa using hxt)]
      exact ((ih hrest (by simpa [hxt] using hr)).cons x).trans (.swap _ _ _)

theorem dropTag_map_tag (tag : Nat) (rs : List Record) : ((dropTag tag rs).map (·.tag)).Sublist (rs.map (·.tag)) :=
  (List.filter_sublist).map _

theorem mapTag_map_tag (tag : Nat) {f : Record → Record} (hf : ∀ x, (f x).tag = x.tag) (rs : List Record) :
    (mapTag tag f rs).map (·.tag) = rs.map (·.tag) := by
  unfold mapTag
  rw [List.map_map]
  refine List.map_congr_left fun x _ => ?_
  simp only [Function.comp_apply]
  split
  · exact hf x
  · rfl

namespace State.Berthed
variable {s t : State} {tag : Nat} {r : Record}

/-- The record of a tag apart from the others. -/
theorem split (h : s.Berthed) (hr : byTag s.board.sorter tag = some r) : s.Books (r.berth :: (dropTag tag s.board.sorter).map Record.berth) :=
  h.books.perm ((perm_of_byTag h.distinct hr).map Record.berth)

/-- The record of a tag has left. -/
theorem left (h : s.Berthed) (ht : t.board.sorter = dropTag tag s.board.sorter) (hb : t.Books ((dropTag tag s.board.sorter).map Record.berth)) :
    t.Berthed where
  distinct := ht ▸ h.distinct.sublist (dropTag_map_tag tag _)
  books := ht ▸ hb

/-- The record of a tag has changed. -/
theorem changed (h : s.Berthed) (hr : byTag s.board.sorter tag = some r) {f : Record → Record} (hf : ∀ x, (f x).tag = x.tag)
    (ht : t.board.sorter = mapTag tag f s.board.sorter) (hb : t.Books ((f r).berth :: (dropTag tag s.board.sorter).map Record.berth)) :
    t.Berthed where
  distinct := by
    rw [ht, mapTag_map_tag tag hf]
    exact h.distinct
  books := by
    have hd : ((mapTag tag f s.board.sorter).map (·.tag)).Nodup := by
      rw [mapTag_map_tag tag hf]
      exact h.distinct
    have hp := perm_of_byTag hd (byTag_mapTag hr hf)
    rw [dropTag_mapTag tag hf] at hp
    rw [ht]
    exact hb.perm (hp.map Record.berth).symm

/-- What reaches neither the books nor the berths. -/
theorem of_same (h : s.Berthed) (hsorter : t.board.sorter.map Record.berth = s.board.sorter.map Record.berth)
    (hb : ∀ n, (t.bin n).book = (s.bin n).book) : t.Berthed where
  distinct := by
    have hd := congrArg (List.map Berth.tag) hsorter
    rw [List.map_map, List.map_map] at hd
    exact hd.symm ▸ h.distinct
  books := hsorter ▸ h.books.of_same hb

/-- A pending drop is of a DROPPING record of its bin. -/
theorem pending (h : s.Berthed) {n : Nat} (hn : binExists n = true) {tag : Nat} (ht : tag ∈ (s.bin n).book.pending) :
    ∃ r, byTag s.board.sorter tag = some r ∧ r.heldBin = n ∧ r.life = .dropping := by
  obtain ⟨h1, h48⟩ : 1 ≤ n ∧ n ≤ 48 := of_decide_eq_true hn
  obtain ⟨x, hx, htag, hbin, hdropping⟩ := (h.books.books n h1 h48).held tag ht
  obtain ⟨r, hr, rfl⟩ := List.mem_map.mp hx
  refine ⟨r, ?_, hbin, of_decide_eq_true hdropping⟩
  cases hfind : byTag s.board.sorter tag with
  | none => exact absurd htag (byTag_none hfind r hr)
  | some y =>
    obtain ⟨hy, hyt⟩ := byTag_some hfind
    rw [List.inj_on_of_nodup_map h.distinct hy hr (hyt.trans htag.symm)]

/-- A record that is not DROPPING has no pending drop. -/
theorem not_pending (h : s.Berthed) (hr : byTag s.board.sorter tag = some r) (hlife : r.life ≠ .dropping) (n : Nat) :
    tag ∉ (s.bin n).book.pending := by
  intro ht
  cases hn : binExists n
  · rw [bin_outside hn] at ht
    exact absurd ht List.not_mem_nil
  · obtain ⟨y, hy, -, hdropping⟩ := h.pending hn ht
    rw [hr] at hy
    cases hy
    exact hlife hdropping

end State.Berthed

end Sys2Proof.Machine
end

