-- ==== Sys2Proof/Proofs/SorterBooks.lean ====
section
/-! The sorter lines, the gates and the bins' inputs keep the bins' books (O59): each gives a record's place up, moves it to another bin, or
turns it into a drop (R134 to R139). -/

namespace Sys2Proof.Machine

-- One thread elaborates the many small proofs of this file.
set_option Elab.async false

/-- Every part but the sorter map and the sort unit. -/
def Touched.offBins : Touched :=
  { pins := true, standing := true, timebase := true, tcu := true, scu := true, trimmer := true, transfer := true, nextTag := true,
    line := true, postings := true, forces := true, gradingA := true, gradingB := true, decision := true, saws := true, tally := true,
    events := true, attention := true, links := true, tables := true, pending := true }

/-- A book is the same where it is that of each bin that there is. -/
theorem book_eq_of_exists {s t : State} {n : Nat} (h : 1 ≤ n → n ≤ 48 → (t.bin n).book = (s.bin n).book) :
    (t.bin n).book = (s.bin n).book := by
  cases hn : binExists n
  · rw [bin_outside hn, bin_outside hn]
  · obtain ⟨h1, h48⟩ : 1 ≤ n ∧ n ≤ 48 := of_decide_eq_true hn
    exact h h1 h48

/-- A change of a bin that leaves its book leaves every book. -/
theorem modifyBin_book {f : BinRec → BinRec} (hf : ∀ b, (f b).book = b.book) (s : State) (bin n : Nat) :
    ((s.modifyBin bin f).bin n).book = (s.bin n).book := by
  by_cases hn : n = bin
  · subst hn
    cases hn : binExists n
    · rw [bin_outside hn, bin_outside hn]
    · rw [State.modifyBin_bin _ _ hn, hf]
  · rw [State.modifyBin_bin_ne _ _ hn]

/-- A record that holds a place in a bin has a sort part. -/
theorem Record.sort_of_heldBin {r : Record} (h : r.heldBin ≠ 0) : ∃ p, r.sort = some p := by
  unfold Record.heldBin at h
  cases hp : r.sort with
  | none => rw [hp] at h; exact absurd rfl h
  | some p => exact ⟨p, rfl⟩

/-- The bin that a re-route finds takes one more board (R139). -/
theorem takes_of_rerouteBin {s : State} {p : SortPart} {off : Nat} (h : s.rerouteBin p off ≠ 0) : s.takes (s.rerouteBin p off) = true := by
  rw [rerouteBin_eq] at h ⊢
  cases hfind : (afterBin p.bin (s.routeBins p.route)).find? (s.fitsBelow off) with
  | none => rw [hfind] at h; exact absurd rfl h
  | some b => exact (Bool.and_eq_true_iff.mp (show s.fitsBelow off b = true from List.find?_some hfind)).1

namespace State.Berthed
variable {s t : State} {r : Record}

/-- What touches neither the sorter map nor the sort unit keeps the books. -/
theorem outside {m : Touched} (hs : s.Berthed) (h : Outside m s t) (hm : m.le .offBins = true := by decide) : t.Berthed :=
  hs.of_same (congrArg _ ((h.weaken hm).sorter rfl)) fun n => congrArg BinRec.book (bin_of_sort ((h.weaken hm).sort rfl) n)

theorem of_parts (hs : s.Berthed) (hboard : t.board = s.board) (hsort : t.sort = s.sort) : t.Berthed :=
  hs.of_same (by rw [hboard]) fun n => congrArg BinRec.book (bin_of_sort hsort n)

theorem modifyBin (hs : s.Berthed) (bin : Nat) {f : BinRec → BinRec} (hf : ∀ b, (f b).book = b.book) : (s.modifyBin bin f).Berthed :=
  hs.of_same (by rw [State.modifyBin_board]) (modifyBin_book hf s bin)

theorem modifySortCounts (hs : s.Berthed) (f : SortCounts → SortCounts) : (s.modifySortCounts f).Berthed :=
  hs.of_same rfl fun _ => rfl

/-! ### The sorter lines (R34, R134 to R139) -/

/-- A record that retires leaves its bin, its pending drop with it. -/
theorem retired (hs : s.Berthed) (hr : byTag s.board.sorter r.tag = some r) (f : Fate) : (retireFromSorter r f s).Berthed := by
  have hsplit := hs.split hr
  by_cases h0 : r.heldBin = 0
  · rw [retireFromSorter_binless h0]
    exact hs.left (tag := r.tag) rfl (hsplit.leave (fun n _ => congrArg BinRec.book (bin_of_sort (by rfl) n)) fun hne => absurd h0 hne)
  · obtain ⟨ht, -, hothers, hbin⟩ := retireFromSorter_eq rfl (hsplit.exists_of_held h0) f s
    refine hs.left (tag := r.tag) (congrArg (·.board.sorter) ht) (hsplit.leave (fun n hne => congrArg BinRec.book (hothers n hne)) fun _ => ?_)
    change (s.bin r.heldBin).book.Leaves r.tag ((retireFromSorter r f s).bin r.heldBin).book
    have hbook : ((retireFromSorter r f s).bin r.heldBin).book = { (s.bin r.heldBin).book with
        reserved := (s.bin r.heldBin).reserved - 1
        pending := ((s.bin r.heldBin).pending.filter fun e => e.tag != r.tag).map (·.tag) } := by
      rw [hbin]
      exact congrArg (fun b : Book => ({ b with pending := _ } : Book)) (s.bin r.heldBin).givenUp_book
    rw [hbook]
    refine Book.leaves_givenUp (List.filter_sublist.map _) fun hin => ?_
    obtain ⟨e, he, htag⟩ := List.mem_map.mp hin
    simpa [htag] using (List.mem_filter.mp he).2

/-- A record re-routed moves its place to a bin that takes one more, or gives it up. -/
theorem rerouted (hs : s.Berthed) (hr : byTag s.board.sorter r.tag = some r) (hlife : r.life ≠ .dropping) {p : SortPart} (hp : r.sort = some p)
    (off : Nat) : (reroute r off s).Berthed := by
  have hheld : r.heldBin = p.bin := by
    unfold Record.heldBin
    rw [hp]
    rfl
  have hnew : (Record.movedTo (s.rerouteBin p off) r).berth.bin = s.rerouteBin p off := by
    unfold Record.berth Record.movedTo Record.heldBin
    rw [hp]
    rfl
  rw [reroute_eq hp]
  refine hs.changed hr (f := Record.movedTo (s.rerouteBin p off)) (by intro; rfl) ?_ ?_
  · change mapTag r.tag _ (s.moved p.bin (s.rerouteBin p off)).board.sorter = _
    rw [moved_outside.weaken.board]
  · have hmoved := (hs.split hr).moved (y := (Record.movedTo (s.rerouteBin p off) r).berth) (hs.not_pending hr hlife _) fun hne => by
      rw [hnew] at hne ⊢
      exact takes_of_rerouteBin hne
    rw [hnew] at hmoved
    change (s.moved r.heldBin _).Books _ at hmoved
    rw [hheld] at hmoved
    exact hmoved.of_same fun n => rfl

/-- A SUSPECT record gives its place up and passes (R36). -/
theorem passed (hs : s.Berthed) (hr : byTag s.board.sorter r.tag = some r) (hlife : r.life ≠ .dropping) (hn : binExists r.heldBin = true)
    (hsuspect : r.flags.suspect = true) (off : Nat) : (Machine.dropLine r r.heldBin off s).Berthed := by
  obtain ⟨-, hsorter, hbin, hothers, -⟩ := dropLine_passes (off := off) (s := s) hn hsuspect
  have hleft : (Machine.dropLine r r.heldBin off s).Books ((dropTag r.tag s.board.sorter).map Record.berth) :=
    (hs.split hr).leave (fun n hne => congrArg BinRec.book (hothers n hne)) fun _ => by
      change (s.bin r.heldBin).book.Leaves r.tag ((Machine.dropLine r r.heldBin off s).bin r.heldBin).book
      rw [hbin, BinRec.givenUp_book]
      exact Book.leaves_givenUp (.refl _) (hs.not_pending hr hlife _)
  refine hs.changed hr (f := Record.passed) (by intro; rfl) hsorter (hleft.unplaced ?_)
  unfold Record.berth Record.passed Record.mapSort Record.heldBin
  cases r.sort <;> rfl

/-- A gate that fires holds the drop pending, or drops the record at once (R135, R137). -/
theorem fired (hs : s.Berthed) (hr : byTag s.board.sorter r.tag = some r) (hlife : r.life ≠ .dropping) (h0 : r.heldBin ≠ 0)
    {it : BinItems} (hit : (s.bin r.heldBin).items = some it) (hsuspect : r.flags.suspect = false)
    (hopen : (s.bin r.heldBin).state = .opened) (hholds : (it.confirm && decide (4 ≤ (s.bin r.heldBin).pending.length)) = false) (off : Nat) :
    (Machine.dropLine r r.heldBin off s).Berthed := by
  have hsplit := hs.split hr
  have hgone := hs.not_pending hr hlife r.heldBin
  cases hconfirm : it.confirm
  · obtain ⟨p, hp⟩ := Record.sort_of_heldBin h0
    obtain ⟨ht, hbin, hothers, -⟩ := dropLine_drop (off := off) hit hsuspect hopen hholds hconfirm hr hp
    refine hs.left (tag := r.tag) (congrArg (·.board.sorter) ht) (hsplit.leave (fun n hne => congrArg BinRec.book (hothers n hne)) fun _ => ?_)
    change (s.bin r.heldBin).book.Leaves r.tag ((Machine.dropLine r r.heldBin off s).bin r.heldBin).book
    rw [hbin]
    exact Book.leaves_dropped (.refl _) hgone
  · obtain ⟨-, -, hsorter, hbin, hothers, -⟩ := dropLine_pending (off := off) hit hsuspect hopen hholds hconfirm
    refine hs.changed hr (f := fun x => { x.attempted with life := .dropping }) (by intro; rfl) hsorter ?_
    have hbook : ((Machine.dropLine r r.heldBin off s).bin r.heldBin).book =
        { (s.bin r.heldBin).book with pending := (s.bin r.heldBin).book.pending ++ [r.tag] } := by
      rw [hbin]
      exact congrArg (fun l => ({ (s.bin r.heldBin).book with pending := l } : Book)) List.map_append
    obtain ⟨h1, h48⟩ : 1 ≤ r.heldBin ∧ r.heldBin ≤ 48 := of_decide_eq_true (binExists_of_items hit)
    refine hsplit.restate ?_ (fun n hne => congrArg BinRec.book (hothers n hne)) (fun _ => hbook) ?_ fun tag ht => ?_
    · unfold Record.berth Record.attempted Record.mapSort Record.heldBin
      cases r.sort <;> rfl
    · exact List.nodup_append.mpr ⟨(hs.books.books _ h1 h48).once, List.nodup_singleton _, fun a ha b hb h => hgone (by
        rw [List.mem_singleton.mp hb] at h
        exact h ▸ ha)⟩
    · obtain ht | ht := List.mem_append.mp ht
      · exact .inl ⟨ht, fun h : tag = r.tag => hgone (h ▸ ht)⟩
      · exact .inr ⟨List.mem_singleton.mp ht, rfl⟩

/-- What the drop line does to the record of a bin keeps the books (R134). -/
theorem dropLine (hs : s.Berthed) (hr : byTag s.board.sorter r.tag = some r) (hlife : r.life ≠ .dropping) (h0 : r.heldBin ≠ 0) {it : BinItems}
    (hit : (s.bin r.heldBin).items = some it) (off : Nat) : (Machine.dropLine r r.heldBin off s).Berthed := by
  cases hsuspect : r.flags.suspect
  · by_cases h : (s.bin r.heldBin).state ≠ .opened ∨ (it.confirm && decide (4 ≤ (s.bin r.heldBin).pending.length)) = true
    · rw [dropLine_reroute hit hsuspect h]
      obtain ⟨p, hp⟩ := Record.sort_of_heldBin h0
      exact (hs.modifySortCounts _).rerouted hr hlife hp off
    · obtain ⟨hopen, hholds⟩ := not_or.mp h
      exact hs.fired hr hlife h0 hit hsuspect (not_not.mp hopen) (eq_false_of_ne_true hholds) off
  · exact hs.passed hr hlife (binExists_of_items hit) hsuspect off

theorem sorterLine (hs : s.Berthed) (now : Serial) (tag : Nat) : (Machine.sorterLine now tag s).Berthed := by
  cases hr : byTag s.board.sorter tag with
  | none =>
    unfold Machine.sorterLine
    rw [hr]
    exact hs
  | some r =>
    obtain ⟨-, rfl⟩ := byTag_some hr
    by_cases hout : r.sorterOffset now = s.tables.station.runout
    · rw [sorterLine_runout hr hout]
      exact hs.retired hr .runout
    · by_cases hdrop : r.life = .onSorter ∧ r.heldBin ≠ 0 ∧ s.dropOffset r.heldBin = some (r.sorterOffset now)
      · obtain ⟨hlife, h0, hoffset⟩ := hdrop
        obtain ⟨it, hit, -⟩ := Option.map_eq_some_iff.mp hoffset
        rw [sorterLine_drop hr hout hlife h0 hoffset]
        exact hs.dropLine hr (by rw [hlife]; decide) h0 hit _
      · rw [sorterLine_stays hr hout hdrop]
        exact hs

theorem advanceSorter (hs : s.Berthed) : (Machine.advanceSorter s).Berthed := by
  rw [advanceSorter_eq]
  exact List.foldlRecOn _ _ (hs.outside (ageTransfer_outside s)) fun t ht tag _ => ht.sorterLine _ tag

/-! ### The gates (R135 to R138) -/

/-- A drop confirmed leaves its bin, one more board dropped there. -/
theorem confirmEdge (hs : s.Berthed) {bin : Nat} (hn : binExists bin = true) : (Machine.confirmEdge bin s).Berthed := by
  cases h : (s.bin bin).pending with
  | nil =>
    rw [confirmEdge_stray hn h]
    exact (hs.modifyBin bin (by intro; rfl)).modifySortCounts _
  | cons e rest =>
    have hpending : (s.bin bin).book.pending = e.tag :: rest.map (·.tag) := congrArg (List.map fun e : PendingDrop => e.tag) h
    obtain ⟨r, hr, rfl, -⟩ := hs.pending hn (hpending ▸ List.mem_cons_self)
    obtain ⟨-, htag⟩ := byTag_some hr
    obtain ⟨ht, hbin, hothers, -⟩ := confirmEdge_drop hn h hr
    refine hs.left (congrArg (·.board.sorter) ht) ((hs.split hr).leave (fun n hne => congrArg BinRec.book (hothers n hne)) fun _ => ?_)
    change (s.bin r.heldBin).book.Leaves r.tag ((Machine.confirmEdge r.heldBin s).bin r.heldBin).book
    obtain ⟨h1, h48⟩ : 1 ≤ r.heldBin ∧ r.heldBin ≤ 48 := of_decide_eq_true hn
    have honce := (hs.books.books _ h1 h48).once
    rw [hpending] at honce
    rw [hbin, htag]
    exact Book.leaves_dropped (hpending ▸ List.sublist_cons_self _ _) (List.nodup_cons.mp honce).1

/-- A bin disabled for its misses keeps its book. -/
theorem judgeMisses (hs : s.Berthed) (bin m : Nat) : (Machine.judgeMisses bin m s).Berthed := by
  rw [judgeMisses_eq]
  split
  · exact (hs.modifyBin bin (by intro; rfl)).outside (raiseEvent_outside _ _ _ _ _)
  · exact hs

/-- A drop missed returns its record to the sorter, to be re-routed. -/
theorem expireConfirm (hs : s.Berthed) {bin : Nat} (hn : binExists bin = true) : (Machine.expireConfirm bin s).Berthed := by
  cases h : (s.bin bin).pending with
  | nil =>
    unfold Machine.expireConfirm
    rw [h]
    exact hs
  | cons e rest =>
    have hpending : (s.bin bin).book.pending = e.tag :: rest.map (·.tag) := congrArg (List.map fun e : PendingDrop => e.tag) h
    obtain ⟨r, hr, rfl, -⟩ := hs.pending hn (hpending ▸ List.mem_cons_self)
    obtain ⟨-, htag⟩ := byTag_some hr
    obtain ⟨h1, h48⟩ : 1 ≤ r.heldBin ∧ r.heldBin ≤ 48 := of_decide_eq_true hn
    have honce := (hs.books.books _ h1 h48).once
    rw [hpending] at honce
    obtain ⟨hfirst, hrest⟩ := List.nodup_cons.mp honce
    have hmissed : ∀ m, (s.dropMissed r.heldBin e.tag rest m).Berthed := fun m => by
      refine hs.changed hr (f := Record.gateMissed) (by intro; rfl) (dropMissed_sorter ..) ?_
      refine (hs.split hr).restate (pending := rest.map fun x : PendingDrop => x.tag) rfl
        (fun n hne => congrArg BinRec.book (dropMissed_bin_ne _ _ _ _ hne))
        (fun _ => congrArg BinRec.book (dropMissed_bin s e.tag rest m hn)) hrest fun tag ht => .inl ⟨?_, fun heq => hfirst ?_⟩
      · change tag ∈ (s.bin r.heldBin).book.pending
        rw [hpending]
        exact List.mem_cons_of_mem _ ht
      · have heq : tag = r.tag := heq
        rw [← htag, ← heq]
        exact ht
    rw [expireConfirm_eq h hr]
    obtain ⟨p, hp⟩ := Record.sort_of_heldBin (Nat.one_le_iff_ne_zero.mp h1)
    refine ((hmissed _).rerouted (r := r.gateMissed) ?_ (show Life.onSorter ≠ .dropping by decide) hp _).judgeMisses _ _
    rw [dropMissed_sorter, ← htag]
    exact byTag_mapTag (htag ▸ hr) (by intro; rfl)

/-- A full switch, a gate closed and the inputs' levels are in no book. -/
theorem fullSwitchEdge (hs : s.Berthed) (bin : Nat) : (Machine.fullSwitchEdge bin s).Berthed := by
  rw [fullSwitchEdge_eq]
  exact (hs.modifyBin bin (f := BinRec.switched) (by intro; rfl)).of_parts rfl rfl

theorem closeGate (hs : s.Berthed) (bin : Nat) : (Machine.closeGate bin s).Berthed := by
  unfold Machine.closeGate
  split
  · exact hs.modifyBin bin (by intro; rfl)
  · exact hs

end State.Berthed

end Sys2Proof.Machine
end

