-- ==== Sys2Proof/Proofs/BinLoads.lean ====
section
/-! What a bin load does to the bins (R125, R126, R132): each bin takes the record that the load gives it, judged for NEAR, and BIN-FULL and
BIN-NEAR are raised where some bin becomes FULL or NEAR. -/

namespace Sys2Proof.Machine

-- One thread elaborates the many small proofs of this file.
set_option Elab.async false

/-! ### A bin changed, BIN-FULL raised, and judged -/

/-- A bin changed, with BIN-NEAR and BIN-FULL raised or not. -/
def State.rebinned (s : State) (n : Nat) (f : BinRec → BinRec) (near full : Bool) : State :=
  { s.modifyBin n f with attention := s.binCauses near full }

/-- The causes of bins raised one after another. -/
theorem State.binCauses_then {s t : State} {near full : Bool} (h : t.attention = s.binCauses near full) (near' full' : Bool) :
    t.binCauses near' full' = s.binCauses (near || near') (full || full') := by
  unfold State.binCauses
  rw [h]
  cases near <;> cases full <;> cases near' <;> cases full' <;> simp [State.binCauses, BitVec.or_assoc]

section
variable {s : State} {n : Nat} {f : BinRec → BinRec} {near full : Bool}

theorem rebinned_none : s.rebinned n f false false = s.modifyBin n f := by
  unfold State.rebinned
  rw [binCauses_none]
  conv_rhs => rw [modifyBin_sort]
  conv_lhs => rw [modifyBin_sort]

theorem rebinned_bin (hn : binExists n = true) : (s.rebinned n f near full).bin n = f (s.bin n) := State.modifyBin_bin s f hn

theorem rebinned_bin_ne {m : Nat} (h : m ≠ n) : (s.rebinned n f near full).bin m = s.bin m := State.modifyBin_bin_ne s f h

theorem rebinned_counts : (s.rebinned n f near full).sort.counts = s.sort.counts := modifyBin_counts s n f

theorem rebinned_parts : s.rebinned n f near full =
    { s with sort := { s.sort with bins := (s.rebinned n f near full).sort.bins }, attention := s.binCauses near full } := by
  have hsort := sort_of_counts (rebinned_counts (s := s) (n := n) (f := f) (near := near) (full := full))
  rw [← hsort]
  unfold State.rebinned
  conv_lhs => rw [modifyBin_sort]

/-- BIN-FULL raised where a change makes a bin FULL. -/
theorem latch_rebinned (c : Prop) [Decidable c] :
    (if c then latch .binFull (s.modifyBin n f) else s.modifyBin n f) = s.rebinned n f false (decide c) := by
  by_cases h : c
  · rw [if_pos h, decide_eq_true h, latch_binFull, binCauses_of_attention (State.modifyBin_attention s n f)]
    rfl
  · rw [if_neg h, decide_eq_false h, rebinned_none]

theorem modifyBin_withAttention (a : Attention) :
    ({ s with attention := a } : State).modifyBin n f = { s.modifyBin n f with attention := a } := by
  unfold State.modifyBin
  split <;> rfl

/-- A bin changed is then judged for NEAR (R132). -/
theorem judgeNear_rebinned (hn : binExists n = true) (hnear : (f (s.bin n)).near = (s.bin n).near) :
    judgeNear n (s.rebinned n f false full) =
      s.rebinned n (fun b => (f b).judged) ((s.bin n).nearRises (f (s.bin n)).judged) full := by
  have hrises : (f (s.bin n)).nearRises (f (s.bin n)).judged = (s.bin n).nearRises (f (s.bin n)).judged := by
    unfold BinRec.nearRises
    rw [hnear]
  have hbase : (s.rebinned n f false full).attention = s.binCauses false full := rfl
  rw [judgeNear_eq, rebinned_bin hn, hrises]
  unfold State.rebin
  rw [State.binCauses_then hbase, Bool.false_or, Bool.or_false]
  unfold State.rebinned
  rw [modifyBin_withAttention, modifyBin_modifyBin]

end

/-! ### The bins of a load (R125, R126) -/

/-- A bin's record after a load, judged for NEAR. -/
def BinRec.reloaded (b : BinRec) (items : Option BinItems) : BinRec := (b.loaded items).judged

/-- A load makes a bin FULL that was not, or was not fitted. -/
def BinRec.becomesFull (b after : BinRec) : Bool := decide (after.state = .full) && (decide (b.state ≠ .full) || b.items.isNone)

/-- The items of the first entry of a load that names a bin. -/
def itemsFor (entries : List (List Byte)) (n : Nat) : Option BinItems := (entries.find? fun e => entryBin e = n).map binItemsOf

theorem BinRec.judged_state (b : BinRec) : b.judged.state = b.state := by
  unfold BinRec.judged
  split <;> rfl

theorem BinRec.loaded_near (b : BinRec) (items : Option BinItems) : (b.loaded items).near = b.near := by
  unfold BinRec.loaded
  split
  · rfl
  · split <;> rfl

theorem loadBin_eq {n : Nat} (hn : binExists n = true) (entries : List (List Byte)) (s : State) :
    loadBin entries s n = s.rebinned n (BinRec.reloaded · (itemsFor entries n))
      ((s.bin n).nearRises ((s.bin n).reloaded (itemsFor entries n))) ((s.bin n).becomesFull ((s.bin n).reloaded (itemsFor entries n))) := by
  have hloaded : (s.modifyBin n (BinRec.loaded (itemsFor entries n))).bin n = (s.bin n).loaded (itemsFor entries n) :=
    State.modifyBin_bin s _ hn
  unfold loadBin
  dsimp only
  rw [latch_rebinned]
  change judgeNear n (s.rebinned n (BinRec.loaded (itemsFor entries n)) false
    (decide (((s.modifyBin n (BinRec.loaded (itemsFor entries n))).bin n).state = .full ∧ _))) = _
  simp only [hloaded]
  rw [judgeNear_rebinned hn (BinRec.loaded_near _ _)]
  congr 1
  unfold BinRec.becomesFull BinRec.reloaded
  rw [BinRec.judged_state]
  cases (s.bin n).items <;> simp

/-- What a load does to the bins of a list. -/
structure Reloads (entries : List (List Byte)) (bins : List Nat) (s t : State) : Prop where
  parts : t = { s with
    sort := { s.sort with bins := t.sort.bins }
    attention := s.binCauses (bins.any fun n => (s.bin n).nearRises ((s.bin n).reloaded (itemsFor entries n)))
      (bins.any fun n => (s.bin n).becomesFull ((s.bin n).reloaded (itemsFor entries n))) }
  named : ∀ n ∈ bins, t.bin n = (s.bin n).reloaded (itemsFor entries n)
  others : ∀ n, n ∉ bins → t.bin n = s.bin n

theorem foldl_loadBin (entries : List (List Byte)) {bins : List Nat} (hexist : ∀ n ∈ bins, binExists n = true) (hd : bins.Nodup) (s : State) :
    Reloads entries bins s (bins.foldl (loadBin entries) s) := by
  induction bins generalizing s with
  | nil => exact ⟨by simp [binCauses_none], fun n h => absurd h List.not_mem_nil, fun _ _ => rfl⟩
  | cons n rest ih =>
    obtain ⟨hfirst, hrest⟩ := List.nodup_cons.mp hd
    have hn := hexist n List.mem_cons_self
    obtain ⟨hparts, hnamed, hothers⟩ := ih (fun m hm => hexist m (List.mem_cons_of_mem n hm)) hrest (loadBin entries s n)
    have hsame : ∀ m, m ≠ n → (loadBin entries s n).bin m = s.bin m := fun m hm => by rw [loadBin_eq hn, rebinned_bin_ne hm]
    have hrestany : ∀ p : BinRec → Nat → Bool, (rest.any fun m => p ((loadBin entries s n).bin m) m) = rest.any fun m => p (s.bin m) m :=
      fun p => by
        rw [Bool.eq_iff_iff, List.any_eq_true, List.any_eq_true]
        exact exists_congr fun m => and_congr_right fun hm => by rw [hsame m fun h => hfirst (h ▸ hm)]
    have hattention : (loadBin entries s n).attention = s.binCauses ((s.bin n).nearRises ((s.bin n).reloaded (itemsFor entries n)))
        ((s.bin n).becomesFull ((s.bin n).reloaded (itemsFor entries n))) := by
      rw [loadBin_eq hn]
      rfl
    refine ⟨?_, fun m hm => ?_, fun m hm => ?_⟩
    · rw [hrestany fun b m => b.nearRises (b.reloaded (itemsFor entries m)), hrestany fun b m => b.becomesFull (b.reloaded (itemsFor entries m)),
        State.binCauses_then hattention] at hparts
      rw [List.foldl_cons, List.any_cons, List.any_cons]
      refine hparts.trans ?_
      have hfirstparts : loadBin entries s n = { s with
          sort := { s.sort with bins := (loadBin entries s n).sort.bins }, attention := (loadBin entries s n).attention } := by
        rw [hattention, loadBin_eq hn]
        exact rebinned_parts
      generalize rest.foldl (loadBin entries) (loadBin entries s n) = t
      generalize loadBin entries s n = u at hfirstparts
      rw [hfirstparts]
    · obtain rfl | hm := List.mem_cons.mp hm
      · rw [List.foldl_cons, hothers _ hfirst, loadBin_eq hn, rebinned_bin hn]
      · rw [List.foldl_cons, hnamed m hm, hsame m fun h => hfirst (h ▸ hm)]
    · obtain ⟨hmn, hmrest⟩ := not_or.mp fun h => hm (List.mem_cons.mpr h)
      rw [List.foldl_cons, hothers m hmrest, hsame m hmn]

theorem mem_allBins {n : Nat} : n ∈ allBins ↔ 1 ≤ n ∧ n ≤ 48 := by
  unfold allBins
  rw [List.mem_map]
  constructor
  · rintro ⟨i, hi, rfl⟩
    have hi : i < 48 := List.mem_range.mp hi
    omega
  · rintro ⟨h1, h48⟩
    exact ⟨n - 1, List.mem_range.mpr (by omega), by omega⟩

theorem loadBins_reloads (entries : List (List Byte)) (s : State) : Reloads entries allBins s (loadBins entries s) :=
  foldl_loadBin entries (fun _ hn => decide_eq_true (mem_allBins.mp hn)) allBins_nodup s

/-! ### The checks of a load (R125) -/

/-- An entry of a bin load names a bin of the part with items in range, its capacity not below the bin's count. -/
def State.EntrySound (s : State) (entry : List Byte) : Prop :=
  binExists (entryBin entry) = true ∧ 1 ≤ (binItemsOf entry).drop ∧ (binItemsOf entry).drop ≤ 126 ∧ 1 ≤ (binItemsOf entry).capacity ∧
    (binItemsOf entry).capacity ≤ 4000 ∧ (s.bin (entryBin entry)).dropped ≤ (binItemsOf entry).capacity ∧
    (binItemsOf entry).hi ≤ (binItemsOf entry).capacity ∧ (binItemsOf entry).lo < (binItemsOf entry).hi ∧ 1 ≤ fieldAt entry 10 1 ∧
    fieldAt entry 10 1 ≤ 2

theorem binChecks_eq_none (s : State) (earlier : List Nat) (entry : List Byte) :
    firstFault (s.binChecks earlier entry) = none ↔ s.EntrySound entry ∧ entryBin entry ∉ earlier := by
  simp only [State.binChecks, firstFault_eq_none, List.forall_mem_cons, List.not_mem_nil, false_implies, implies_true, and_true,
    Bool.or_eq_false_iff, Bool.not_eq_false', outside_eq_false, decide_eq_false_iff_not, Nat.not_lt, Nat.not_le, List.contains_eq_mem]
  unfold State.EntrySound
  tauto

/-- A load passes its checks where every entry is sound and names a bin of its own. -/
theorem binFault_eq_none (s : State) (earlier : List Nat) (entries : List (List Byte)) :
    s.binFault earlier entries = none ↔
      (∀ e ∈ entries, s.EntrySound e ∧ entryBin e ∉ earlier) ∧ (entries.map entryBin).Nodup := by
  induction entries generalizing earlier with
  | nil => simp [State.binFault]
  | cons e rest ih =>
    unfold State.binFault
    cases hfault : firstFault (s.binChecks earlier e) with
    | some at_ =>
      have hbad : ¬ (s.EntrySound e ∧ entryBin e ∉ earlier) := fun h => by
        rw [(binChecks_eq_none s earlier e).mpr h] at hfault
        cases hfault
      exact iff_of_false nofun fun h => hbad (h.1 e List.mem_cons_self)
    | none =>
      have hgood := (binChecks_eq_none s earlier e).mp hfault
      dsimp only
      rw [ih, List.forall_mem_cons, List.map_cons, List.nodup_cons]
      have hnamed : entryBin e ∉ rest.map entryBin ↔ ∀ x ∈ rest, entryBin x ≠ entryBin e := by simp
      rw [hnamed]
      constructor
      · rintro ⟨hrest, hd⟩
        exact ⟨⟨hgood, fun x hx => ⟨(hrest x hx).1, fun h => (hrest x hx).2 (List.mem_cons_of_mem _ h)⟩⟩,
          fun x hx h => (hrest x hx).2 (h ▸ List.mem_cons_self), hd⟩
      · rintro ⟨⟨-, hrest⟩, hne, hd⟩
        exact ⟨fun x hx => ⟨(hrest x hx).1, fun h => (List.mem_cons.mp h).elim (hne x hx) (hrest x hx).2⟩, hd⟩

end Sys2Proof.Machine
end

