-- ==== Sys2Proof/Proofs/BinCommands.lean ====
section
/-! The four bin commands (O38): each checks the bin it names, and then changes that bin alone, BIN-FULL and BIN-NEAR raised where it becomes
FULL or NEAR. -/

namespace Sys2Proof.Machine

-- One thread elaborates the many small proofs of this file.
set_option Elab.async false

/-! ### What the commands do to a bin (R128, R129, R132) -/

/-- A bin emptied, judged for NEAR. -/
def BinRec.emptied (b : BinRec) : BinRec :=
  BinRec.judged { b with dropped := 0, state := if b.state = .disabled then .disabled else if b.fullSwitch then .full else .opened }

/-- A fitted bin brought back. -/
def BinRec.enabled (it : BinItems) (b : BinRec) : BinRec :=
  { b with misses := 0, state := if b.state ≠ .disabled then b.state else if b.dropped < it.capacity then .opened else .full }

/-- Judging changes only the NEAR flag. -/
theorem BinRec.judged_of_near (b : BinRec) : b.judged = { b with near := b.judged.near } := by
  unfold BinRec.judged
  split <;> rfl

section
variable {n : Nat} (s : State)

theorem emptyBin_eq (hn : binExists n = true) : emptyBin n s = s.rebinned n BinRec.emptied ((s.bin n).nearRises (s.bin n).emptied)
    (decide ((s.bin n).state ≠ .disabled) && (s.bin n).fullSwitch) := by
  have hset : ∀ (state : BinState) (full : Bool),
      (if (s.bin n).state = .disabled then .disabled else if (s.bin n).fullSwitch then .full else .opened) = state →
      judgeNear n (s.rebinned n (fun b => { b with dropped := 0, state := state }) false full) =
        s.rebinned n BinRec.emptied ((s.bin n).nearRises (s.bin n).emptied) full := fun state full h => by
    have hat : (s.bin n).emptied = BinRec.judged { s.bin n with dropped := 0, state := state } := by
      rw [← h]
      rfl
    rw [judgeNear_rebinned hn (by rfl), hat]
    unfold State.rebinned
    rw [modifyBin_congr (g := BinRec.emptied) hat.symm]
  unfold emptyBin
  dsimp only
  by_cases hd : (s.bin n).state = .disabled
  · rw [if_pos hd, ← hset .disabled _ (if_pos hd), decide_eq_false (not_not.mpr hd), Bool.false_and, rebinned_none,
      modifyBin_congr (f := fun b => { b with dropped := 0 }) (g := fun b => { b with dropped := 0, state := .disabled })]
    rw [← hd]
  · rw [if_neg hd, decide_eq_true hd, Bool.true_and]
    cases hfull : (s.bin n).fullSwitch
    · rw [if_neg Bool.false_ne_true, ← hset .opened false (by rw [if_neg hd, hfull]; rfl), modifyBin_modifyBin, rebinned_none]
    · rw [if_pos rfl, ← hset .full true (by rw [if_neg hd, hfull]; rfl), makeFull_eq, modifyBin_modifyBin,
        binCauses_of_attention (State.modifyBin_attention s n _)]
      rfl

theorem enableFitted_eq (it : BinItems) : enableFitted n it s = s.rebinned n (BinRec.enabled it) false
    (decide ((s.bin n).state = .disabled) && decide (it.capacity ≤ (s.bin n).dropped)) := by
  have hset : ∀ state : BinState,
      (if (s.bin n).state ≠ .disabled then (s.bin n).state else if (s.bin n).dropped < it.capacity then .opened else .full) = state →
      s.modifyBin n (fun b => { b with misses := 0, state := state }) = s.modifyBin n (BinRec.enabled it) := fun state h =>
    modifyBin_congr (by unfold BinRec.enabled; rw [h])
  unfold enableFitted
  dsimp only
  by_cases hd : (s.bin n).state = .disabled
  · rw [if_pos hd, decide_eq_true hd, Bool.true_and]
    by_cases hroom : (s.bin n).dropped < it.capacity
    · rw [if_pos hroom, decide_eq_false (Nat.not_le.mpr hroom), rebinned_none, modifyBin_modifyBin,
        ← hset .opened (by rw [if_neg (not_not.mpr hd), if_pos hroom])]
    · rw [if_neg hroom, decide_eq_true (Nat.not_lt.mp hroom), makeFull_eq, modifyBin_modifyBin,
        binCauses_of_attention (State.modifyBin_attention s n _)]
      unfold State.rebinned
      rw [← hset .full (by rw [if_neg (not_not.mpr hd), if_neg hroom])]
  · rw [if_neg hd, decide_eq_false hd, Bool.false_and, rebinned_none, ← hset (s.bin n).state (if_pos hd)]
    exact modifyBin_congr rfl

end

/-! ### A command on a link's taken request -/

theorem rebinned_taken (s : State) (l : LinkId) (n : Nat) (f : BinRec → BinRec) (near full : Bool) :
    (s.taken l).rebinned n f near full = (s.rebinned n f near full).taken l := by
  unfold State.rebinned State.modifyBin
  cases l
  all_goals
    split
    · rfl
    · rfl

/-- A bin's number in a command's one field. -/
theorem fieldAt_bin (n : Byte) : fieldAt [n] 0 1 = n.toNat := fieldAt_one _ _

section
variable {l : LinkId} {n : Byte} {s : State}

/-! A bin number that names no bin. -/
section
variable (h : binExists n.toNat = false)
include h

theorem unloadBin_range : unloadBin l [n] s = (s, .bare .range) := by simp [unloadBin, fieldAt_bin, h]
theorem emptiedBin_range : emptiedBin l [n] s = (s, .bare .range) := by simp [emptiedBin, fieldAt_bin, h]
theorem enableBin_range : enableBin l [n] s = (s, .bare .range) := by simp [enableBin, fieldAt_bin, h]
theorem disableBin_range : disableBin l [n] s = (s, .bare .range) := by simp [disableBin, fieldAt_bin, h]

end

section
variable (h : binExists n.toNat = true)
include h

/-! A bin that the command does not take. -/

theorem unloadBin_state (hb : (s.bin n.toNat).items = none ∨ (s.bin n.toNat).state = .disabled) :
    unloadBin l [n] s = (s, .bare .state) := by simp [unloadBin, fieldAt_bin, h, hb]

theorem emptiedBin_state (hb : (s.bin n.toNat).items = none) : emptiedBin l [n] s = (s, .bare .state) := by
  simp [emptiedBin, fieldAt_bin, h, hb]

theorem enableBin_state (hb : (s.bin n.toNat).items = none) : enableBin l [n] s = (s, .bare .state) := by
  simp [enableBin, fieldAt_bin, h, hb]

theorem disableBin_unfitted (hb : (s.bin n.toNat).items = none) :
    disableBin l [n] s = (s, { status := .ok, fields := (s.bin n.toNat).gateBytes }) := by
  simp [disableBin, fieldAt_bin, h, hb]

/-! A bin that it takes. -/

theorem unloadBin_fitted (hb : (s.bin n.toNat).items.isSome = true) (hstate : (s.bin n.toNat).state ≠ .disabled) : unloadBin l [n] s =
    (s.modifyBin n.toNat fun b => { b with state := .unloading },
      { status := .ok, fields := ({ s.bin n.toNat with state := .unloading } : BinRec).pileBytes }) := by
  have hfit : (s.bin n.toNat).items ≠ none := Option.isSome_iff_ne_none.mp hb
  simp [unloadBin, fieldAt_bin, h, hfit, hstate, State.modifyBin_bin _ _ h]

theorem emptiedBin_fitted (hb : (s.bin n.toNat).items.isSome = true) : emptiedBin l [n] s =
    (s.rebinned n.toNat BinRec.emptied ((s.bin n.toNat).nearRises (s.bin n.toNat).emptied)
      (decide ((s.bin n.toNat).state ≠ .disabled) && (s.bin n.toNat).fullSwitch),
      { status := .ok, fields := (s.bin n.toNat).emptied.pileBytes }) := by
  have hfit : (s.bin n.toNat).items ≠ none := Option.isSome_iff_ne_none.mp hb
  simp [emptiedBin, fieldAt_bin, h, hfit, emptyBin_eq s h, rebinned_bin h]

theorem enableBin_fitted {it : BinItems} (hb : (s.bin n.toNat).items = some it) : enableBin l [n] s =
    (s.rebinned n.toNat (BinRec.enabled it) false
      (decide ((s.bin n.toNat).state = .disabled) && decide (it.capacity ≤ (s.bin n.toNat).dropped)),
      { status := .ok, fields := ((s.bin n.toNat).enabled it).gateBytes }) := by
  simp [enableBin, fieldAt_bin, h, hb, enableFitted_eq, rebinned_bin h]

theorem disableBin_fitted (hb : (s.bin n.toNat).items.isSome = true) : disableBin l [n] s =
    (s.modifyBin n.toNat fun b => { b with state := .disabled },
      { status := .ok, fields := ({ s.bin n.toNat with state := .disabled } : BinRec).gateBytes }) := by
  simp [disableBin, fieldAt_bin, h, hb, State.modifyBin_bin _ _ h]

end

end

/-- A service that changes one bin, as the command of a ready request: what it and its answer leave of the state (R172). -/
theorem serve_rebinned {r : Req} {num n : Byte} {s : State} {act : Handler} {f : BinRec → BinRec} {near full : Bool} {a : Answer}
    (hready : s.Ready .lineController [requestCode r, num, n]) (hright : hasRight .lineController r = true) (hform : formOk r [n] = true)
    (hn : binExists n.toNat = true)
    (hact : act .lineController [n] (s.taken .lineController) = ((s.taken .lineController).rebinned n.toNat f near full, a)) :
    ∃ t, serve r .lineController num [n] act s = .next t ∧
      t = { s with sort := { s.sort with bins := t.sort.bins }, attention := t.attention, links := t.links } ∧
      (∀ m, m ≠ n.toNat → t.bin m = s.bin m) ∧ t.bin n.toNat = f (s.bin n.toNat) ∧ t.attention = s.binCauses near full ∧
      t.link .lineController =
        (s.link .lineController).arrived.takeFrame.enqueue (requestCode r :: num :: a.status.code :: a.fields) := by
  have hserve := serve_answered hready (by simp) hright hform (hact.trans (by rw [rebinned_taken]))
  have hparts := rebinned_parts (s := s) (n := n.toNat) (f := f) (near := near) (full := full)
  have hbin := rebinned_bin (s := s) (f := f) (near := near) (full := full) hn
  have hothers := fun m => rebinned_bin_ne (s := s) (n := n.toNat) (m := m) (f := f) (near := near) (full := full)
  generalize s.rebinned n.toNat f near full = u at hserve hparts hbin hothers
  generalize u.sort.bins = bins at hparts
  subst hparts
  exact ⟨_, hserve, rfl, hothers, hbin, rfl, rfl⟩

end Sys2Proof.Machine

namespace Sys2Proof.Proofs
open Sys2Proof.Machine

/-- Settles O38: each command by the check of the bin's number, of its state, and the change of the bin. -/
theorem binCommands : Obligations.BinCommands := by
  unfold Obligations.BinCommands
  intro num n s bin b answer fitted others frame
  have hexists : 1 ≤ bin → bin ≤ 48 → binExists n.toNat = true := fun h1 h48 => decide_eq_true ⟨h1, h48⟩
  have hrange : bin < 1 ∨ 48 < bin → binExists n.toNat = false := fun h => decide_eq_false fun hin => by
    have h1 : 1 ≤ bin := hin.1
    have h48 : bin ≤ 48 := hin.2
    omega
  have htaken : ∀ m, (s.taken .lineController).bin m = s.bin m := taken_bin s .lineController
  have hreserved : b.emptied.reserved = b.reserved ∧ b.emptied.dropped = 0 := by
    unfold BinRec.emptied
    rw [BinRec.judged_of_near]
    exact ⟨rfl, rfl⟩
  refine ⟨fun hready => ?_, fun hready => ?_, fun hready => ?_, fun hready => ?_⟩
  · intro run
    have hserve := fun {t a} => serve_answered (r := .binUnload) (t := t) (a := a) hready (by simp) (by decide) rfl (act := unloadBin)
    refine ⟨fun h => hserve (unloadBin_range (hrange h)), fun h1 h48 hb => ?_, fun ⟨h1, h48, hitems⟩ hstate => ?_⟩
    · exact hserve (unloadBin_state (hexists h1 h48) (by rw [htaken]; exact hb))
    · refine hserve (t := s.modifyBin bin fun x => { x with state := .unloading })
        (a := { status := .ok, fields := ({ b with state := .unloading } : BinRec).pileBytes }) ?_
      rw [unloadBin_fitted (hexists h1 h48) (by rw [htaken]; exact hitems) (by rw [htaken]; exact hstate), htaken, ← rebinned_none,
        rebinned_taken, rebinned_none]
  · intro run
    have hserve := fun {t a} => serve_answered (r := .binEmptied) (t := t) (a := a) hready (by simp) (by decide) rfl (act := emptiedBin)
    refine ⟨fun h => hserve (emptiedBin_range (hrange h)), fun h1 h48 hb => ?_, fun ⟨h1, h48, hitems⟩ => ?_⟩
    · exact hserve (emptiedBin_state (hexists h1 h48) (by rw [htaken]; exact hb))
    · obtain ⟨t, hrun, hframe, hothers, hbin, hattention, hlink⟩ := serve_rebinned (r := .binEmptied) (act := emptiedBin) hready (by decide)
        rfl (hexists h1 h48) (by rw [emptiedBin_fitted (hexists h1 h48) (by rw [htaken]; exact hitems), htaken])
      refine ⟨t, hrun, hframe, fun m _ _ => hothers m, ⟨hbin, hattention⟩, hlink.trans ?_⟩
      rw [hbin, ← hreserved.1, ← hreserved.2]
      rfl
  · intro run
    have hserve := fun {t a} => serve_answered (r := .binEnable) (t := t) (a := a) hready (by simp) (by decide) rfl (act := enableBin)
    refine ⟨fun h => hserve (enableBin_range (hrange h)), fun h1 h48 hb => ?_, fun it hit h1 h48 => ?_⟩
    · exact hserve (enableBin_state (hexists h1 h48) (by rw [htaken]; exact hb))
    · obtain ⟨t, hrun, hframe, hothers, hbin, hattention, hlink⟩ := serve_rebinned (r := .binEnable) (act := enableBin) hready (by decide)
        rfl (hexists h1 h48) (by rw [enableBin_fitted (hexists h1 h48) (by rw [htaken]; exact hit), htaken])
      refine ⟨t, hrun, hframe, fun m _ _ => hothers m, hbin, hattention, hlink.trans ?_⟩
      rw [hbin]
      rfl
  · intro run
    have hserve := fun {t a} => serve_answered (r := .binDisable) (t := t) (a := a) hready (by simp) (by decide) rfl (act := disableBin)
    refine ⟨fun h => hserve (disableBin_range (hrange h)), fun h1 h48 hb => ?_, fun ⟨h1, h48, hitems⟩ => ?_⟩
    · refine hserve (a := { status := .ok, fields := b.gateBytes }) ?_
      rw [disableBin_unfitted (hexists h1 h48) (by rw [htaken]; exact hb), htaken]
    · refine hserve (t := s.modifyBin bin fun x => { x with state := .disabled })
        (a := { status := .ok, fields := ({ b with state := .disabled } : BinRec).gateBytes }) ?_
      rw [disableBin_fitted (hexists h1 h48) (by rw [htaken]; exact hitems), htaken, ← rebinned_none, rebinned_taken, rebinned_none]

end Sys2Proof.Proofs
end

