-- ==== Sys2Proof/Proofs/PlacesCounted.lean ====
section
/-! Every step keeps the bins' books (O59): a pickup joins a record that the bin takes, the advances and gates are those of the sorter's lines,
a bin load finds no record on the sorter, and all else leaves every book or empties the sorter. -/

namespace Sys2Proof.Machine

-- One thread elaborates the many small proofs of this file.
set_option Elab.async false

/-! ### Books with no record -/

/-- With no record a book counts none, and has no drop pending. -/
theorem Book.agrees_nil {n : Nat} {b : Book} :
    b.Agrees n [] ↔ b.reserved = 0 ∧ b.pending = [] ∧ ∀ c, b.capacity = some c → b.dropped ≤ c := by
  constructor
  · intro h
    have hreserved : b.reserved = 0 := h.counted
    refine ⟨hreserved, List.eq_nil_iff_forall_not_mem.mpr fun tag ht => ?_, fun c hc => ?_⟩
    · obtain ⟨x, hx, -⟩ := h.held tag ht
      exact List.not_mem_nil hx
    · have hwithin := h.within c hc
      rwa [hreserved] at hwithin
  · rintro ⟨hreserved, hpending, hwithin⟩
    exact ⟨hreserved, fun c hc => by rw [hreserved]; exact hwithin c hc, fun tag ht => by rw [hpending] at ht; exact absurd ht List.not_mem_nil,
      hpending ▸ List.nodup_nil⟩

/-- The bin that an allocation finds takes one more board (R133). -/
theorem takes_of_allotted {s : State} {key : ProductKey} {suspect : Bool} (h : s.allotted key suspect ≠ 0) :
    s.takes (s.allotted key suspect) = true := by
  unfold State.allotted at h ⊢
  cases suspect
  · cases hfind : (s.routeBins (s.routeKind key)).find? fun b => s.takes b with
    | none => rw [hfind] at h; exact absurd rfl h
    | some b => exact List.find?_some (p := fun b => s.takes b) hfind
  · exact absurd rfl h

/-- Only a bin load changes the sort unit (R175). -/
theorem storeTable_sort {table : TableId} (h : table ≠ .bin) (bytes : List Byte) (s : State) : (storeTable table bytes s).sort = s.sort := by
  have hsearch : ∀ (ch : Chain) (u : State), (returnToSearch ch u).sort = u.sort := fun ch u => (returnToSearch_outside ch u).sort rfl
  have hset : ∀ f, (s.modifyTables f).sort = s.sort := fun f => (modifyTables_outside f s).sort rfl
  unfold storeTable
  cases table
  case bin => exact absurd rfl h
  case settings =>
    dsimp only
    unfold loadSettings
    dsimp only
    split
    · split
      · rw [hsearch, hsearch, hset]
      · rw [hsearch, hset]
    · split
      · rw [hsearch, hset]
      · rw [hset]
  all_goals exact hset _

/-- A command of a bin that is taken names a bin that there is. -/
theorem exists_of_next {c : Bool} {r : Result State} {t : State} (h : (if c then r else .fault .noSuchLine) = .next t) : c = true := by
  cases c
  · cases h
  · rfl

theorem takeLoad_bin_sort (bytes : List Byte) (s : State) :
    (takeLoad .bin bytes s).sort = (loadBins (entriesOf 13 bytes) s).sort := by
  unfold takeLoad storeTable
  exact (modifyTables_outside _ _).sort rfl

/-- What LOAD-TABLE can do: keep a part or none staged, or take a load that passes its checks (R175). -/
theorem loadTable_state (l : LinkId) (fields : List Byte) (s : State) :
    (∃ staging, (loadTable l fields s).1 = { s with tables := { s.tables with staging := staging } }) ∨
      ∃ table bytes, s.loadFault table bytes = none ∧ (loadTable l fields s).1 = takeLoad table bytes s := by
  have hkept : ∃ staging, s = { s with tables := { s.tables with staging := staging } } := ⟨s.tables.staging, rfl⟩
  unfold loadTable
  dsimp only
  split
  · exact .inl hkept
  · split
    · exact .inl hkept
    · split
      · exact .inl hkept
      · unfold judgePart
        dsimp only
        generalize (if fieldAt fields 1 1 = 0 then [] else (s.tables.staging.map (·.bytes)).getD []) = staged
        split
        · exact .inl hkept
        · split
          · exact .inl hkept
          · split
            · exact .inl hkept
            · split
              · unfold completeLoad
                split
                · exact .inl ⟨_, rfl⟩
                · next hf => exact .inr ⟨_, _, hf, rfl⟩
              · exact .inl ⟨_, rfl⟩

theorem BinRec.loaded_dropped (b : BinRec) (items : Option BinItems) :
    (b.loaded items).dropped = b.dropped ∧ (b.loaded items).reserved = b.reserved ∧ (b.loaded items).pending = b.pending ∧
      (b.loaded items).items = items := by
  unfold BinRec.loaded
  split
  · exact ⟨rfl, rfl, rfl, rfl⟩
  · split
    · exact ⟨rfl, rfl, rfl, rfl⟩
    · exact ⟨rfl, rfl, rfl, rfl⟩

namespace State.Berthed
variable {s t : State}

/-- With no record on the sorter no place is counted. -/
theorem of_empty (hempty : t.board.sorter = []) (h : ∀ n, 1 ≤ n → n ≤ 48 → (t.bin n).book.Agrees n []) : t.Berthed where
  distinct := hempty ▸ List.nodup_nil
  books := hempty ▸ ⟨h, List.forall_mem_nil _⟩

/-- The books with no record on the sorter. -/
theorem agrees_of_empty (hs : s.Berthed) (hempty : s.board.sorter = []) {n : Nat} (h1 : 1 ≤ n) (h48 : n ≤ 48) : (s.bin n).book.Agrees n [] := by
  have hbooks := hs.books.books n h1 h48
  rwa [hempty] at hbooks

theorem powerOn (hboard : t.board = .powerOn) (hbins : t.sort.bins = Vector.replicate 48 .powerOn) : t.Berthed := by
  refine of_empty (hboard ▸ rfl) fun n _ h48 => ?_
  rw [bin_of_powerOn hbins h48]
  exact Book.agrees_nil.mpr ⟨rfl, rfl, nofun⟩

/-! ### Tracking, advances and the clock -/

theorem suspectMap (hs : s.Berthed) (ch : Chain) : (Machine.suspectMap ch s).Berthed := by
  cases ch
  · exact hs.of_same rfl fun _ => rfl
  · refine hs.of_same ?_ fun _ => rfl
    change (markSuspect s.board.sorter).map Record.berth = _
    unfold markSuspect
    rw [List.map_map]
    rfl

theorem tracks (hs : s.Berthed) (h : Tracks s t) : t.Berthed := by
  induction h with
  | refl => exact hs
  | unit ch u _ _ ih => exact ih.outside (setUnit_outside ch u _)
  | event k c n d _ ih => exact ih.outside (raiseEvent_outside k c n d _)
  | cause c _ ih => exact ih.outside (latch_outside c _)
  | suspect ch _ ih => exact ih.suspectMap ch

theorem advanceLines (hs : s.Berthed) (ch : Chain) : (Machine.advanceLines ch s).Berthed := by
  cases ch with
  | trimmer => exact hs.outside (advanceTrimmer_outside s)
  | sorter => exact hs.advanceSorter

theorem advances (hs : s.Berthed) {ch : Chain} (h : Advances ch s t) : t.Berthed := by
  obtain h | ⟨u, v, hu, hv, rfl⟩ := h
  · exact hs.tracks h
  · exact (((hs.tracks hu).advanceLines ch).tracks hv).outside (raiseSerial_outside ch v)

theorem endSettle (hs : s.Berthed) : (Machine.endSettle s).Berthed :=
  hs.of_same rfl fun _ => book_eq_of_exists fun h1 h48 => by
    rw [endSettle_bin s h1 h48]
    rfl

theorem raised (hs : s.Berthed) : s.raised.Berthed :=
  hs.of_same rfl fun n => book_eq_of_exists fun h1 h48 => by
    rw [raised_bin s (mem_allBins.mpr ⟨h1, h48⟩)]
    exact congrArg (fun l => ({ (s.bin n).book with pending := l } : Book)) List.map_map

theorem expireDue (hs : s.Berthed) {bin : Nat} (hn : binExists bin = true) (fuel : Nat) : (Machine.expireDue bin fuel s).Berthed := by
  induction fuel generalizing s with
  | zero => exact hs
  | succ fuel ih =>
    unfold Machine.expireDue
    split
    · exact hs
    · split
      · exact ih (hs.expireConfirm hn)
      · exact hs

theorem expire (hs : s.Berthed) {x : Timer} (hx : x ∈ allTimers) : (x.expire s).Berthed := by
  unfold Timer.expire
  cases x with
  | stop ch =>
    dsimp only
    split
    · exact hs.tracks (stopChain_tracks ch s)
    · exact hs
  | saw k => exact hs.outside (.ite (expireWindow_outside k s))
  | pulse n =>
    dsimp only
    split
    · exact hs.closeGate n
    · exact hs
  | confirm n => exact hs.expireDue (allTimers_exist (.confirm n) hx) _

theorem tick (hs : s.Berthed) : (Machine.tick s).Berthed := by
  by_cases hset : s.settling = true
  · unfold Machine.tick
    rw [if_pos hset]
    split
    · exact hs.of_parts rfl rfl
    · exact hs.endSettle
  · rw [tick_awake (eq_false_of_ne_true hset)]
    exact List.foldlRecOn _ _ hs.raised fun _ ht _ hx => ht.expire hx

theorem clockPeriod (hs : s.Berthed) : (Machine.clockPeriod s).Berthed := by
  unfold Machine.clockPeriod
  split
  · exact hs
  · dsimp only
    split
    · exact hs.of_parts rfl rfl
    · split
      · exact hs.of_parts rfl rfl
      · refine tick ?_
        exact hs.of_parts rfl rfl

/-! ### Pickups (R32, R33, R133) -/

/-- A record with a tag of its own joins the sorter with the bin allotted, which takes one more. -/
theorem placeOnSorter (hs : s.Berthed) {r : Record} (hfresh : ∀ x ∈ s.board.sorter, x.tag ≠ r.tag) : (Machine.placeOnSorter r s).Berthed := by
  obtain ⟨hstate, -, hpromised, hothers⟩ := placeOnSorter_allotted hfresh
  generalize (r.flags.suspect || s.scu.sync.untrusted) = suspect at hstate hpromised hothers
  have htakes := takes_of_allotted (s := s) (key := productKey r) (suspect := suspect)
  generalize s.allotted (productKey r) suspect = bin at hstate hpromised hothers htakes
  generalize s.routeKind (productKey r) = route at hstate
  have hsorter : (Machine.placeOnSorter r s).board.sorter = s.board.sorter ++ [r.allotted s.scu.serial suspect route bin] :=
    congrArg (fun u : State => u.board.sorter) hstate
  refine ⟨?_, ?_⟩
  · rw [hsorter, List.map_append]
    refine List.nodup_append.mpr ⟨hs.distinct, List.nodup_singleton _, fun a ha b hb => ?_⟩
    obtain ⟨x, hx, rfl⟩ := List.mem_map.mp ha
    rw [List.mem_singleton.mp hb]
    exact hfresh x hx
  · rw [hsorter, List.map_append]
    refine State.Books.perm ?_ (List.perm_append_singleton _ _).symm
    refine hs.books.join ?_ (fun n hne => book_eq_of_exists fun h1 h48 => congrArg BinRec.book (hothers n h1 h48 hne)) fun h0 => ?_
    · by_cases h0 : bin = 0
      · exact h0 ▸ Nat.zero_le _
      · exact (show 1 ≤ bin ∧ bin ≤ 48 from of_decide_eq_true (binExists_of_takes (htakes h0))).2
    · refine ⟨room_of_takes (htakes h0), ?_⟩
      exact (congrArg BinRec.book (hpromised h0)).trans (BinRec.promised_book _)

theorem pickupEdge (hb : s.view.Boarded) (hs : s.Berthed) : (Machine.pickupEdge s).Berthed := by
  have hplaced := (boardsPlaced_iff s).mpr hb
  unfold Machine.pickupEdge
  split
  · exact hs
  · split
    · have hfree : s.nextFreeTag ∉ s.live.map (·.tag) := by
        rw [State.live_tags s s.tcu.serial s.scu.serial, ← BoardView.bare_tags]
        exact hb.nextFreeTag.1
      unfold createUnknown
      have hbase : ({ s with board := { s.board with nextTag := tagAfter s.nextFreeTag } } : State).Berthed := hs.of_same rfl fun _ => rfl
      refine (hbase.outside (raiseEvent_outside _ _ _ _ _)).placeOnSorter fun x hx h => hfree ?_
      rw [raiseEvent_board] at hx
      exact List.mem_map.mpr ⟨x, List.mem_append_right _ hx, h⟩
    · next head rest hq =>
      have hbase : ({ s with board := { s.board with transfer := rest } } : State).Berthed := hs.of_same rfl fun _ => rfl
      refine hbase.placeOnSorter fun x hx h => ?_
      have hd := hplaced.distinct
      unfold State.live at hd
      rw [hq, List.map_append] at hd
      exact List.disjoint_of_nodup_append hd (List.mem_map_of_mem (List.mem_append_right _ List.mem_cons_self))
        (List.mem_map.mpr ⟨x, hx, h⟩)

/-! ### Requests (R128, R129, R142, R175) -/

/-- A bin changed with its places and drops kept, but for a count that does not rise. -/
theorem rebinned (hs : s.Berthed) (n : Nat) {f : BinRec → BinRec} (near full : Bool)
    (hf : ∀ b, ∃ dropped, dropped ≤ b.dropped ∧ (f b).book = { b.book with dropped := dropped }) : (s.rebinned n f near full).Berthed := by
  have hboard : (s.rebinned n f near full).board = s.board := by
    rw [rebinned_parts]
  refine ⟨hboard ▸ hs.distinct, hboard ▸ ⟨fun m h1 h48 => ?_, hs.books.range⟩⟩
  by_cases hm : m = n
  · subst hm
    rw [rebinned_bin (decide_eq_true ⟨h1, h48⟩)]
    obtain ⟨dropped, hle, hbook⟩ := hf (s.bin m)
    obtain ⟨hcounted, hwithin, hheld, honce⟩ := hs.books.books m h1 h48
    rw [hbook]
    exact ⟨hcounted, fun c hc => (Nat.add_le_add_right hle _).trans (hwithin c hc), hheld, honce⟩
  · rw [rebinned_bin_ne hm]
    exact hs.books.books m h1 h48

theorem restart (hs : s.Berthed) : (Machine.restart s).Berthed := by
  refine of_empty (by rw [restart_board]) fun n h1 h48 => ?_
  rw [restart_bin s h1 h48]
  exact Book.agrees_nil.mpr ⟨rfl, rfl, fun c hc => (Nat.le_add_right _ _).trans ((hs.books.books n h1 h48).within c hc)⟩

/-- A table load finds no record on the sorter, and no capacity below its bin's count. -/
theorem takeLoad (hs : s.Berthed) (hempty : s.board.sorter = []) {table : TableId} {bytes : List Byte} (hf : s.loadFault table bytes = none) :
    (Machine.takeLoad table bytes s).Berthed := by
  have hsorter : (Machine.takeLoad table bytes s).board.sorter = [] := (takeLoad_outside table bytes s).sorter rfl ▸ hempty
  by_cases htable : table = .bin
  · subst htable
    have hsound := ((binFault_eq_none s [] (entriesOf 13 bytes)).mp hf).1
    refine of_empty hsorter fun n h1 h48 => ?_
    have hbin : (Machine.takeLoad .bin bytes s).bin n = (s.bin n).reloaded (itemsFor (entriesOf 13 bytes) n) :=
      (bin_of_sort (takeLoad_bin_sort bytes s) n).trans ((loadBins_reloads _ s).named n (mem_allBins.mpr ⟨h1, h48⟩))
    obtain ⟨hdropped, hreserved, hpending, hitems⟩ := (s.bin n).loaded_dropped (itemsFor (entriesOf 13 bytes) n)
    obtain ⟨hnone, hidle, -⟩ := Book.agrees_nil.mp (hs.agrees_of_empty hempty h1 h48)
    have hbook : ((s.bin n).reloaded (itemsFor (entriesOf 13 bytes) n)).book = ((s.bin n).loaded (itemsFor (entriesOf 13 bytes) n)).book := by
      unfold BinRec.reloaded
      rw [BinRec.judged_of_near]
      rfl
    rw [hbin, hbook]
    refine Book.agrees_nil.mpr ⟨hreserved.trans hnone, (congrArg _ hpending).trans hidle, fun c hc => ?_⟩
    obtain ⟨it, hit, rfl⟩ := Option.map_eq_some_iff.mp hc
    obtain ⟨e, he, rfl⟩ := Option.map_eq_some_iff.mp (hitems.symm.trans hit)
    obtain ⟨-, -, -, -, -, hcount, -⟩ := (hsound e (List.mem_of_find?_eq_some he)).1
    have hnamed : entryBin e = n := of_decide_eq_true (List.find?_some (p := fun e => decide (entryBin e = n)) he)
    rw [hnamed] at hcount
    exact hdropped.trans_le hcount
  · refine hs.of_same (congrArg _ (hsorter.trans hempty.symm)) fun n => congrArg BinRec.book (bin_of_sort ?_ n)
    exact storeTable_sort htable bytes s

theorem loadTable (hb : s.view.Boarded) (hs : s.Berthed) (l : LinkId) (fields : List Byte) : (Machine.loadTable l fields s).1.Berthed := by
  cases hline : s.board.line with
  | run =>
    rw [loadTable_run l fields hline]
    exact hs
  | config =>
    have hlive := ((boardsPlaced_iff s).mpr hb).idleLine hline
    obtain ⟨staging, hstaged⟩ | ⟨table, bytes, hfault, hload⟩ := loadTable_state l fields s
    · rw [hstaged]
      exact hs.of_parts rfl rfl
    · rw [hload]
      exact hs.takeLoad (List.append_eq_nil_iff.mp hlive).2 hfault

/-- The four bin commands empty a bin or change its state. -/
theorem unloadBin (hs : s.Berthed) (l : LinkId) (fields : List Byte) : (Machine.unloadBin l fields s).1.Berthed := by
  unfold Machine.unloadBin
  dsimp only
  split
  · exact hs
  · split
    · exact hs
    · exact hs.modifyBin _ (by intro; rfl)

theorem emptiedBin (hs : s.Berthed) (l : LinkId) (fields : List Byte) : (Machine.emptiedBin l fields s).1.Berthed := by
  unfold Machine.emptiedBin
  dsimp only
  split
  · exact hs
  · next hn =>
    split
    · exact hs
    · rw [emptyBin_eq s (by simpa using hn)]
      refine hs.rebinned _ _ _ fun b => ⟨0, Nat.zero_le _, ?_⟩
      unfold BinRec.emptied
      rw [BinRec.judged_of_near]
      rfl

theorem enableBin (hs : s.Berthed) (l : LinkId) (fields : List Byte) : (Machine.enableBin l fields s).1.Berthed := by
  unfold Machine.enableBin
  dsimp only
  split
  · exact hs
  · split
    · exact hs
    · rw [enableFitted_eq]
      exact hs.rebinned _ _ _ fun b => ⟨b.dropped, le_rfl, rfl⟩

theorem disableBin (hs : s.Berthed) (l : LinkId) (fields : List Byte) : (Machine.disableBin l fields s).1.Berthed := by
  unfold Machine.disableBin
  dsimp only
  split
  · exact hs
  · split
    · exact hs.modifyBin _ (by intro; rfl)
    · exact hs

/-- Of the requests only those of the bins, RESTART-TRACKING and a table load reach a book. -/
theorem handlerOf (hb : s.view.Boarded) (hs : s.Berthed) (r : Req) (l : LinkId) (fields : List Byte) :
    (Machine.handlerOf r l fields s).1.Berthed := by
  cases r
  case binUnload => exact hs.unloadBin l fields
  case binEmptied => exact hs.emptiedBin l fields
  case binEnable => exact hs.enableBin l fields
  case binDisable => exact hs.disableBin l fields
  case restartTracking => exact hs.restart
  case loadTable => exact loadTable hb hs l fields
  all_goals exact hs.outside (handlerOf_outside _ l fields s)

/-! ### Commands -/

/-- A change of an input line whose edges keep the books keeps them. -/
theorem edge {line : InputLine} {edge : Edge} {onEdge offEdge : State → State} (hs : s.Berthed)
    (h : takeEdge line edge onEdge offEdge s = .next t) (hon : ∀ s, s.Berthed → (onEdge s).Berthed)
    (hoff : ∀ s, s.Berthed → (offEdge s).Berthed) : t.Berthed :=
  takeEdge_keeps (fun _ _ _ hs => hs.of_parts rfl rfl) hon hoff h hs

theorem awake {act : State → State} (hs : s.Berthed) (h : whenAwake s act = .next t) (hact : (act s).Berthed) : t.Berthed :=
  whenAwake_keeps (I := State.Berthed) (fun _ => hact) h hs

theorem keyEvent (hs : s.Berthed) (p : Position) {act : State → State} (hact : (act s).Berthed) : (Machine.keyEvent p act s).Berthed := by
  unfold Machine.keyEvent
  split
  · exact hact
  · exact hs.outside (setGrading_outside p _ s)

/-- Every command that is no link's keeps the books. -/
theorem exec_offLinks {i : Instr} (hb : s.view.Boarded) (hs : s.Berthed) (hi : offLinks i = true) (h : exec i s = .next t) : t.Berthed := by
  have hgrading : ∀ (p : Position) (g : Grading), (s.setGrading p g).Berthed := fun p g => hs.outside (setGrading_outside p g s)
  cases i
  case powerOn baud => cases h; exact powerOn rfl rfl
  case resetnAssert => cases h; exact powerOn rfl rfl
  case resetnRelease baud => cases h; exact powerOn rfl rfl
  case settlePeriodEnd =>
    cases h
    split
    · exact hs.endSettle
    · exact hs
  case encoderForwardCount ch => exact hs.awake h (hs.advances (forwardCount_advances ch s))
  case encoderReverseCount ch => exact hs.awake h (hs.tracks (reverseCount_tracks ch s))
  case stopTimerExpiry ch => exact hs.awake h (hs.tracks (stopChain_tracks ch s))
  case syntheticAdvance ch =>
    refine hs.awake h ?_
    split
    · exact hs.advances (forwardCount_advances ch s)
    · exact hs
  case lugEyeOnEdge ch edge => exact hs.edge h (fun s hs => hs.advances (lugEdge_advances ch s)) fun _ hs => hs
  case scanEyeOnEdge edge => exact hs.edge h (fun s hs => hs.outside (scanEdge_outside s)) fun _ hs => hs
  case pickupEyeOnEdge edge =>
    exact (takeEdge_keeps (I := fun s => s.view.Boarded ∧ s.Berthed) (fun _ _ _ hs => ⟨hs.1, hs.2.of_parts rfl rfl⟩)
      (fun s hs => ⟨pickupEdge_boarded hs.1, pickupEdge hs.1 hs.2⟩) (fun _ hs => hs) h ⟨hb, hs⟩).2
  case gateConfirmOnEdge bin edge =>
    have hn : binExists bin = true := exists_of_next h
    exact hs.edge (next_of_line h) (fun s hs => hs.confirmEdge hn) fun s hs => hs.modifyBin bin (by intro; rfl)
  case binFullSwitchOnEdge bin edge =>
    exact hs.edge (next_of_line h) (fun s hs => hs.fullSwitchEdge bin) fun s hs => hs.modifyBin bin (by intro; rfl)
  case sawFeedbackChange saw down =>
    have hpins : ({ s with pins := { s.pins with feedback := modifyAt s.pins.feedback saw fun _ => down } } : State).Berthed :=
      hs.of_parts rfl rfl
    exact hpins.awake (next_of_line h) (hpins.outside (takeFeedback_outside saw down _))
  case sawWindowExpiry saw => exact hs.awake (next_of_line h) (hs.outside (expireWindow_outside saw s))
  case gatePulseExpiry bin => exact hs.awake (next_of_line h) (hs.closeGate bin)
  case confirmWindowExpiry bin => exact hs.awake (next_of_line h) (hs.expireConfirm (exists_of_next h))
  case keyMarkPush p key =>
    change execKeyMarkPush p key s = .next t at h
    unfold execKeyMarkPush at h
    refine hs.awake h ?_
    split
    · exact hs.keyEvent p (hgrading p _)
    · exact hgrading p _
  case keyUndo p => exact hs.awake h (hs.keyEvent p (hgrading p _))
  case keyClr p => exact hs.awake h (hs.keyEvent p (hgrading p _))
  case keyEnt p =>
    refine hs.awake h (hs.keyEvent p ?_)
    split
    · exact hgrading p _
    · exact hs.outside (commit_outside p _ s)
  case keypadBadByte p =>
    change execKeypadBadByte p s = .next t at h
    unfold execKeypadBadByte at h
    exact hs.awake h (hgrading p _)
  case keypadReplySent p =>
    change execKeypadReplySent p s = .next t at h
    unfold execKeypadReplySent at h
    exact hs.awake h (hgrading p _)
  all_goals cases hi

end State.Berthed

/-- The boards are placed and the bins' books agree with them. -/
def State.Counted (s : State) : Prop := s.view.Boarded ∧ s.Berthed

namespace State.Counted
variable {s t : State}

theorem modifyLink (hs : s.Counted) (l : LinkId) (f : LinkState → LinkState) : (s.modifyLink l f).Counted :=
  ⟨(modifyLink_outside l f s).weaken.view_same.symm ▸ hs.1, hs.2.outside (modifyLink_outside l f s)⟩

theorem handlerOf (hs : s.Counted) (r : Req) (l : LinkId) (fields : List Byte) : (Machine.handlerOf r l fields s).1.Counted :=
  ⟨handlerOf_boarded r l fields s hs.1, State.Berthed.handlerOf hs.1 hs.2 r l fields⟩

/-- Every command keeps the books. -/
theorem exec {i : Instr} (hs : s.Counted) (h : exec i s = .next t) : t.Counted := by
  have hawake : ∀ {act : State → State}, whenAwake s act = .next t → (act s).Counted → t.Counted := fun h hact =>
    whenAwake_keeps (fun _ => hact) h hs
  have htake : ∀ {l u}, takeOldest l u = .next t → u.Counted → t.Counted := fun h hu =>
    takeOldest_keeps (fun _ l f hs => hs.modifyLink l f) (fun r l fields _ hs => hs.handlerOf r l fields) h hu
  obtain hi | ⟨l, code, num, fields, hi⟩ | ⟨l, b, stopBit, rfl⟩ | ⟨l, rfl⟩ | ⟨l, rfl⟩ | ⟨l, rfl⟩ | ⟨l, rfl⟩ := offLinks_or_request i
  · exact ⟨boarded_kept.exec hi h hs.1, State.Berthed.exec_offLinks hs.1 hs.2 hi h⟩
  · obtain ⟨r, -, rfl⟩ | rfl := requestInstr_of_parts hi
    · rw [exec_requestInstr] at h
      exact serve_keeps (fun _ l f hs => hs.modifyLink l f) (fun l fields _ hs => hs.handlerOf r l fields) h hs
    · exact execUnknownRequestCode_keeps (fun _ l f hs => hs.modifyLink l f) h hs
  · change execLinkByteReceived l b stopBit s = .next t at h
    unfold execLinkByteReceived at h
    split at h
    · exact htake h (hs.modifyLink l _)
    · cases h; exact hs
  · exact hawake (act := fun s => s.modifyLink l LinkState.paused) h (hs.modifyLink l _)
  · exact hawake (act := fun s => s.modifyLink l LinkState.resumed) h (hs.modifyLink l _)
  · change execTxFrameSent l s = .next t at h
    unfold execTxFrameSent at h
    split at h
    · exact htake h (hs.modifyLink l _)
    · cases h; exact hs
  · refine hawake (act := fun s => abandonStaging l (s.modifyLink l LinkState.broken)) h ?_
    obtain ⟨hboarded, hberthed⟩ := hs.modifyLink l LinkState.broken
    cases l
    · exact ⟨hboarded, hberthed⟩
    · exact ⟨hboarded, hberthed.of_parts rfl rfl⟩
    · exact ⟨hboarded, hberthed⟩

theorem clockPeriod (hs : s.Counted) : (Machine.clockPeriod s).Counted :=
  ⟨boarded_kept.clockPeriod (fun _ h => h) hs.1, hs.2.clockPeriod⟩

end State.Counted

end Sys2Proof.Machine

namespace Sys2Proof.Proofs
open Sys2Proof.Machine

/-- Settles O59: the books of the bins agree with the records on the sorter, and a step changes either only as a record's place is given up,
taken, moved or turned into a drop. -/
theorem reservationsStayCounted : Obligations.ReservationsStayCounted := by
  unfold Obligations.ReservationsStayCounted
  intro s t hs h
  rw [placesCounted_iff, boardsPlaced_iff] at hs ⊢
  exact step_keeps (I := State.Counted) (fun _ hs => hs.clockPeriod) (fun _ _ hs => ⟨hs.1, hs.2.of_parts rfl rfl⟩) (fun _ _ _ h hs => hs.exec h)
    h hs

end Sys2Proof.Proofs
end

