-- ==== Sys2Proof/Proofs/ProductRoutes.lean ====
section
/-! The product key of a record, the route of a key with its bins, and the count that an allocation raises (O17). -/

namespace Sys2Proof.Machine

-- One thread elaborates the many small proofs of this file.
set_option Elab.async false

/-! ### The product key (R131) -/

theorem productKey_unknown {r : Record} (h : r.origin = .unknown) :
    productKey r = { grade := none, cls := none, width := none, disposition := .reject } := by
  unfold productKey
  rw [h]

theorem productKey_scanned {r : Record} {o : SawOutcome} (h : r.origin = .scanned) (ho : r.outcome = some o) :
    productKey r = { grade := o.grade, cls := o.result.cls?, width := r.scan.map (·.width), disposition := o.disposition } := by
  unfold productKey
  rw [h, ho]

/-! ### The kind of a route (R131, R133) -/

section
variable {s : State} {key : ProductKey}

theorem routeKind_allRunout (h : s.decision.mode.sort = .allRunout) : s.routeKind key = .nowhere := by
  unfold State.routeKind
  rw [h]

theorem routeKind_allReject (h : s.decision.mode.sort = .allReject) : s.routeKind key = .reject := by
  unfold State.routeKind
  rw [h]

variable (h : s.decision.mode.sort = .byProduct)
include h

theorem routeKind_reject (hkey : key.disposition = .reject) : s.routeKind key = .reject := by
  unfold State.routeKind
  rw [h, hkey]

theorem routeKind_reman (hkey : key.disposition = .reman) : s.routeKind key = .reman := by
  unfold State.routeKind
  rw [h, hkey]

variable (hkey : key.disposition = .normal)
include hkey

/-- A NORMAL key that no rule fits is rejected. -/
theorem routeKind_unmatched (hnone : ∀ rule ∈ s.tables.rules, rule.fits key = false) : s.routeKind key = .reject := by
  have hfind : s.tables.rules.find? (fun rule => rule.fits key) = none := List.find?_eq_none.mpr fun rule hr => by simp [hnone rule hr]
  unfold State.routeKind
  rw [h, hkey]
  dsimp only
  rw [hfind]

/-- A NORMAL key goes to the group of the first rule that fits it. -/
theorem routeKind_matched {i : Nat} (hi : i < s.tables.rules.length) (hfits : s.tables.rules[i].fits key = true)
    (hfirst : ∀ rule ∈ s.tables.rules.take i, rule.fits key = false) : s.routeKind key = .group s.tables.rules[i].group := by
  have hfind : s.tables.rules.find? (fun rule => rule.fits key) = some s.tables.rules[i] :=
    List.find?_eq_some_iff_getElem.mpr ⟨hfits, i, hi, rfl, fun j hj => by
      simp [hfirst s.tables.rules[j] (List.mem_take_iff_getElem.mpr ⟨j, by omega, rfl⟩)]⟩
  unfold State.routeKind
  rw [h, hkey]
  dsimp only
  rw [hfind]

end

/-! ### The bins of a route and the allocation counts (R133, R141) -/

theorem groupBins_of_pos (s : State) {n : Nat} (h : 1 ≤ n) : s.groupBins n = (entryD s.tables.groups.groups (n - 1) none).getD [] := by
  unfold State.groupBins
  rw [if_neg (Nat.one_le_iff_ne_zero.mp h)]

/-- The overflow bin follows a group's bins unless it is none or among them. -/
theorem routeBins_group (s : State) (n : Nat) : s.routeBins (.group n) =
    s.groupBins n ++ if s.tables.groups.overflow ∈ s.groupBins n then [] else specialRoute s.tables.groups.overflow := by
  unfold State.routeBins specialRoute
  dsimp only
  by_cases hin : s.tables.groups.overflow ∈ s.groupBins n
  · rw [if_pos hin, if_pos (.inr hin), List.append_nil]
  · by_cases h0 : s.tables.groups.overflow = 0
    · rw [if_neg hin, if_pos (.inl h0), if_pos h0, List.append_nil]
    · rw [if_neg hin, if_neg (not_or.mpr ⟨h0, hin⟩), if_neg h0]

theorem countAllocation_none (s : State) (kind : RouteKind) (c : SortCounts) :
    countAllocation s kind 0 c = { c with runout := inc32 c.runout } := rfl

/-- An allocation to a bin counts by the kind of its route. -/
theorem countAllocation_bin (s : State) {bin : Nat} (h : bin ≠ 0) (c : SortCounts) :
    countAllocation s .reject bin c = { c with reject := inc32 c.reject } ∧
    countAllocation s .reman bin c = { c with reman := inc32 c.reman } ∧
    ∀ n, countAllocation s (.group n) bin c =
      if bin ∈ s.groupBins n then { c with group := inc32 c.group } else { c with overflow := inc32 c.overflow } := by
  exact ⟨if_neg h, if_neg h, fun _ => if_neg h⟩

end Sys2Proof.Machine

namespace Sys2Proof.Proofs
open Sys2Proof.Machine

/-- Settles O17: the key by the record's origin, the route by the sort policy and the disposition, its bins and counts by the groups. -/
theorem productRoute : Obligations.ProductRoute := by
  unfold Obligations.ProductRoute
  refine ⟨fun r => ⟨productKey_unknown, fun o horigin ho => ?_⟩, fun s key => ?_⟩
  · rw [productKey_scanned horigin ho]
    cases o.result <;> rfl
  · intro mode groups special meets
    have hmeets : ∀ rule : SortRule, meets rule = rule.fits key := fun rule => by
      unfold SortRule.fits
      rfl
    refine ⟨routeKind_allRunout, routeKind_allReject, fun hmode => ⟨routeKind_reject hmode, routeKind_reman hmode, fun hkey => ⟨?_, ?_⟩⟩,
      rfl, rfl, rfl, fun n h1 _ => ?_, fun bin _ _ => takes_iff s bin, fun bin c => ⟨?_, fun h0 => ?_⟩⟩
    · exact fun hnone => routeKind_unmatched hmode hkey fun rule hr => hmeets rule ▸ hnone rule hr
    · exact fun i hi hfits hfirst => routeKind_matched hmode hkey hi (hmeets _ ▸ hfits) fun rule hr => hmeets rule ▸ hfirst rule hr
    · rw [routeBins_group, groupBins_of_pos s h1]
      rfl
    · rintro kind rfl
      exact countAllocation_none s kind c
    · obtain ⟨hreject, hreman, hgroup⟩ := countAllocation_bin s h0 c
      refine ⟨hreject, hreman, fun n h1 _ => ?_⟩
      rw [hgroup, groupBins_of_pos s h1]

end Sys2Proof.Proofs
end

