-- ==== Sys2Proof/Proofs/EntrySets.lean ====
section
/-! Completed loads made of entries of one size (R174, R175): the entries of the staged bytes by their fields, and what a load that passes its
checks answers. -/

namespace Sys2Proof.Machine

-- One thread elaborates the many small proofs of this file.
set_option Elab.async false

/-! ### Entries of one size -/

/-- The entry of a number in bytes whose entries have one size. -/
def entryOf (size : Nat) (bytes : List Byte) (i : Nat) : List Byte := (bytes.drop (size * i)).take size

theorem entriesOf_eq (size : Nat) (bytes : List Byte) : entriesOf size bytes = (List.range (bytes.length / size)).map (entryOf size bytes) := rfl

/-- A field of an entry is a field of the bytes. -/
theorem fieldAt_entryOf {size i at_ width : Nat} (h : at_ + width ≤ size) (bytes : List Byte) :
    fieldAt (entryOf size bytes i) at_ width = fieldAt bytes (size * i + at_) width := by
  unfold fieldAt entryOf
  refine congrArg number (List.map_congr_left fun j hj => ?_)
  have hj : j < width := List.mem_range.mp hj
  rw [List.getElem?_take_of_lt (by omega), List.getElem?_drop, Nat.add_assoc]

/-- A field past the bytes that are staged is a field of those that follow. -/
theorem fieldAt_append (staged bytes : List Byte) (at_ width : Nat) :
    fieldAt (staged ++ bytes) (staged.length + at_) width = fieldAt bytes at_ width := by
  unfold fieldAt
  refine congrArg number (List.map_congr_left fun j _ => ?_)
  rw [List.getElem?_append_right (by omega), Nat.add_assoc, Nat.add_sub_cancel_left]

/-- The first entry that meets a condition, by its number. -/
theorem find_entriesOf (size : Nat) (bytes : List Byte) (p : List Byte → Bool) :
    (entriesOf size bytes).find? p = ((List.range (bytes.length / size)).find? fun i => p (entryOf size bytes i)).map (entryOf size bytes) := by
  rw [entriesOf_eq, List.find?_map]
  rfl

/-- Staged entries and those of the last part count as the entries of all bytes. -/
theorem entryCount_append {table : TableId} (htable : table ≠ .binGroup) {staged bytes : List Byte}
    (hstaged : staged.length % entryBytes table = 0) :
    entryCount table staged + entryCount table bytes = (staged ++ bytes).length / entryBytes table := by
  rw [entryCount_eq htable, entryCount_eq htable, List.length_append, Nat.add_div_of_dvd_right (Nat.dvd_of_mod_eq_zero hstaged)]

/-! ### A completed load that passes (R175) -/

section
variable {s : State} {num : Byte} {table : TableId} {part : Nat} {staged bytes : List Byte}

/-- A load that passes its checks is taken and answered the part's entries as stored. -/
theorem exec_loads_taken (h : s.loads num table part true staged bytes) (hw : wholeEntries table bytes = true) {count : Nat}
    (hc : entryCount table staged + entryCount table bytes = count) (hmax : count ≤ maxEntries table)
    (hf : (s.taken .lineController).loadFault table (staged ++ bytes) = none) {t : State}
    (htake : takeLoad table (staged ++ bytes) (s.taken .lineController) = t.taken .lineController) {status : Status} {entries : List Byte}
    (hstatus : (if loadClamped table (staged ++ bytes) then Status.okClamped else .ok) = status)
    (hentries : storedPart (t.taken .lineController) table bytes = entries) :
    s.loadPart num table part true bytes = .next (t.answered .lineController
      (0x13 :: num :: status.code :: (u8 table.code ++ u8 part ++ u8 count ++ entries))) := by
  refine exec_loads h hw (hc ▸ hmax) (a := { status, fields := u8 table.code ++ u8 part ++ u8 count ++ entries }) ?_
  unfold completeLoad
  rw [hf]
  dsimp only
  rw [htake, hstatus, hc, hentries]

end

/-! ### The entries of a bin load (R125) -/

/-- The items of an entry of a bin load, by the fields of all bytes. -/
def binItemsAt (bytes : List Byte) (i : Nat) : BinItems :=
  { drop := fieldAt bytes (13 * i + 1) 1, capacity := fieldAt bytes (13 * i + 2) 2, hi := fieldAt bytes (13 * i + 4) 2,
    lo := fieldAt bytes (13 * i + 6) 2, pulse := clampTo 20 1000 (fieldAt bytes (13 * i + 8) 2),
    confirm := decide (fieldAt bytes (13 * i + 10) 1 = 2), window := clampTo 5 500 (fieldAt bytes (13 * i + 11) 2) }

section
variable (bytes : List Byte) (i : Nat)

theorem entryBin_entryOf : entryBin (entryOf 13 bytes i) = fieldAt bytes (13 * i) 1 := fieldAt_entryOf (by decide) bytes

theorem binItemsOf_entryOf : binItemsOf (entryOf 13 bytes i) = binItemsAt bytes i := by
  unfold binItemsOf binItemsAt
  simp only [fieldAt_entryOf (size := 13) (show 1 + 1 ≤ 13 by decide), fieldAt_entryOf (size := 13) (show 2 + 2 ≤ 13 by decide),
    fieldAt_entryOf (size := 13) (show 4 + 2 ≤ 13 by decide), fieldAt_entryOf (size := 13) (show 6 + 2 ≤ 13 by decide),
    fieldAt_entryOf (size := 13) (show 8 + 2 ≤ 13 by decide), fieldAt_entryOf (size := 13) (show 10 + 1 ≤ 13 by decide),
    fieldAt_entryOf (size := 13) (show 11 + 2 ≤ 13 by decide)]

theorem binClamped_entryOf : binClamped (entryOf 13 bytes i) =
    (decide ((binItemsAt bytes i).pulse ≠ fieldAt bytes (13 * i + 8) 2) ||
      decide ((binItemsAt bytes i).window ≠ fieldAt bytes (13 * i + 11) 2)) := by
  unfold binClamped binItemsAt
  rw [fieldAt_entryOf (by decide), fieldAt_entryOf (by decide), decide_clampTo_ne, decide_clampTo_ne]

end

/-- The items that a bin load gives a bin. -/
theorem itemsFor_entriesOf (bytes : List Byte) (k : Nat) :
    itemsFor (entriesOf 13 bytes) k =
      ((List.range (bytes.length / 13)).find? fun i => fieldAt bytes (13 * i) 1 = k).map (binItemsAt bytes) := by
  unfold itemsFor
  rw [find_entriesOf, Option.map_map]
  simp only [entryBin_entryOf]
  exact congrArg (fun f => Option.map f _) (funext fun i => binItemsOf_entryOf bytes i)

/-- A bin load passes its checks where each entry is sound and names a bin that none before it names. -/
theorem binFault_entriesOf (s : State) (bytes : List Byte) : s.binFault [] (entriesOf 13 bytes) = none ↔
    ∀ i, i < bytes.length / 13 →
      s.EntrySound (entryOf 13 bytes i) ∧ ∀ j, j < i → fieldAt bytes (13 * j) 1 ≠ fieldAt bytes (13 * i) 1 := by
  have hnamed : (entriesOf 13 bytes).map entryBin = (List.range (bytes.length / 13)).map fun i => fieldAt bytes (13 * i) 1 := by
    rw [entriesOf_eq, List.map_map]
    exact List.map_congr_left fun i _ => entryBin_entryOf bytes i
  have hnodup : ((entriesOf 13 bytes).map entryBin).Nodup ↔
      ∀ i, i < bytes.length / 13 → ∀ j, j < i → fieldAt bytes (13 * j) 1 ≠ fieldAt bytes (13 * i) 1 := by
    rw [hnamed, List.nodup_map_iff_inj_on List.nodup_range]
    constructor
    · intro h i hi j hj heq
      exact hj.ne (h j (List.mem_range.mpr (hj.trans hi)) i (List.mem_range.mpr hi) heq)
    · intro h i hi j hj heq
      obtain hlt | rfl | hlt := Nat.lt_trichotomy i j
      · exact absurd heq (h j (List.mem_range.mp hj) i hlt)
      · rfl
      · exact absurd heq.symm (h i (List.mem_range.mp hi) j hlt)
  rw [binFault_eq_none, hnodup, entriesOf_eq, List.forall_mem_map]
  simp only [List.mem_range, List.not_mem_nil, not_false_eq_true, and_true]
  exact ⟨fun h i hi => ⟨h.1 i hi, h.2 i hi⟩, fun h => ⟨fun i hi => (h i hi).1, fun i hi => (h i hi).2⟩⟩

end Sys2Proof.Machine
end

