-- ==== Sys2Proof/Proofs/BinTableLoads.lean ====
section
/-! A completed load of the bin table (O45). -/

namespace Sys2Proof.Machine

-- One thread elaborates the many small proofs of this file.
set_option Elab.async false

/-- A sound entry of a bin load, by the fields of all bytes. -/
theorem entrySound_entryOf (s : State) (bytes : List Byte) (i : Nat) : s.EntrySound (entryOf 13 bytes i) ↔
    1 ≤ fieldAt bytes (13 * i) 1 ∧ fieldAt bytes (13 * i) 1 ≤ 48 ∧ 1 ≤ (binItemsAt bytes i).drop ∧ (binItemsAt bytes i).drop ≤ 126 ∧
      1 ≤ (binItemsAt bytes i).capacity ∧ (binItemsAt bytes i).capacity ≤ 4000 ∧
      (s.bin (fieldAt bytes (13 * i) 1)).dropped ≤ (binItemsAt bytes i).capacity ∧ (binItemsAt bytes i).hi ≤ (binItemsAt bytes i).capacity ∧
      (binItemsAt bytes i).lo < (binItemsAt bytes i).hi ∧ 1 ≤ fieldAt bytes (13 * i + 10) 1 ∧ fieldAt bytes (13 * i + 10) 1 ≤ 2 := by
  unfold State.EntrySound binExists
  rw [entryBin_entryOf, binItemsOf_entryOf, fieldAt_entryOf (by decide), decide_eq_true_eq, and_assoc]

/-- The bytes of an entry as stored, where its confirm mode is in range. -/
theorem binEntry_stored {bytes : List Byte} {i : Nat} (h1 : 1 ≤ fieldAt bytes (13 * i + 10) 1) (h2 : fieldAt bytes (13 * i + 10) 1 ≤ 2) :
    binEntry (fieldAt bytes (13 * i) 1) (binItemsAt bytes i) =
      u8 (fieldAt bytes (13 * i) 1) ++ u8 (binItemsAt bytes i).drop ++ u16 (binItemsAt bytes i).capacity ++ u16 (binItemsAt bytes i).hi ++
        u16 (binItemsAt bytes i).lo ++ u16 (binItemsAt bytes i).pulse ++ u8 (fieldAt bytes (13 * i + 10) 1) ++
        u16 (binItemsAt bytes i).window := by
  have hmode : (if (binItemsAt bytes i).confirm then 2 else 1) = fieldAt bytes (13 * i + 10) 1 := by
    change (if decide (fieldAt bytes (13 * i + 10) 1 = 2) = true then 2 else 1) = _
    by_cases h : fieldAt bytes (13 * i + 10) 1 = 2
    · rw [decide_eq_true h, if_pos rfl, h]
    · rw [decide_eq_false h, if_neg Bool.false_ne_true]
      omega
  unfold binEntry
  rw [hmode]

/-- The entries of the last part are those of all bytes after the staged ones. -/
theorem storedPart_bin {staged bytes : List Byte} (hstaged : staged.length % 13 = 0) (s : State) :
    storedPart s .bin bytes = (List.range (bytes.length / 13)).flatMap fun i =>
      binEntry (fieldAt (staged ++ bytes) (13 * (staged.length / 13 + i)) 1) (binItemsAt (staged ++ bytes) (staged.length / 13 + i)) := by
  have hlen : 13 * (staged.length / 13) = staged.length := Nat.mul_div_cancel' (Nat.dvd_of_mod_eq_zero hstaged)
  have hat : ∀ i k width, fieldAt (staged ++ bytes) (13 * (staged.length / 13 + i) + k) width = fieldAt bytes (13 * i + k) width :=
    fun i k width => by rw [Nat.mul_add, hlen, Nat.add_assoc, fieldAt_append]
  have hitems : ∀ i, binItemsAt (staged ++ bytes) (staged.length / 13 + i) = binItemsAt bytes i := fun i => by
    unfold binItemsAt
    simp only [hat]
  have hall : storedPart s .bin bytes = (entriesOf 13 bytes).flatMap fun e => binEntry (entryBin e) (binItemsOf e) := by
    unfold storedPart
    split
    · next h => rw [h]; rfl
    · rfl
  rw [hall, entriesOf_eq, List.flatMap_map]
  refine List.flatMap_congr fun i _ => ?_
  rw [entryBin_entryOf, binItemsOf_entryOf, hitems]
  exact congrArg (fun n => binEntry n _) (hat i 0 1).symm

/-- A bin not named is not fitted and DISABLED. -/
theorem BinRec.reloaded_none (b : BinRec) : b.reloaded none = { b with items := none, state := .disabled } := rfl

/-- A bin named takes its items, and its state by R125's table. -/
theorem BinRec.reloaded_some (b : BinRec) (it : BinItems) : b.reloaded (some it) = BinRec.judged { b with
    items := some it
    misses := if b.items.isSome then b.misses else 0
    state := if b.items.isSome then (if b.state = .opened ∧ b.dropped = it.capacity then .full else b.state)
      else if b.dropped < it.capacity then .opened else .full } := by
  unfold BinRec.reloaded BinRec.loaded
  cases b.items <;> rfl

/-- The state after a bin load that passes. -/
def State.binsLoaded (s : State) (bins : Vector BinRec 48) (bytes : List Byte) : State :=
  { s with
    sort := { s.sort with bins }, tables := { s.tables with valid := { s.tables.valid with bin := true }, staging := none }
    attention := s.binCauses (allBins.any fun n => (s.bin n).nearRises ((s.bin n).reloaded (itemsFor (entriesOf 13 bytes) n)))
      (allBins.any fun n => (s.bin n).becomesFull ((s.bin n).reloaded (itemsFor (entriesOf 13 bytes) n))) }

/-- A bin load on a link's taken request. -/
theorem takeLoad_bin (s : State) (bytes : List Byte) : ∃ bins,
    takeLoad .bin bytes (s.taken .lineController) = (s.binsLoaded bins bytes).taken .lineController ∧
      ∀ n, 1 ≤ n → n ≤ 48 → (s.binsLoaded bins bytes).bin n = (s.bin n).reloaded (itemsFor (entriesOf 13 bytes) n) := by
  obtain ⟨hparts, hnamed, -⟩ := loadBins_reloads (entriesOf 13 bytes) (s.taken .lineController)
  simp only [taken_bin] at hparts hnamed
  refine ⟨(loadBins (entriesOf 13 bytes) (s.taken .lineController)).sort.bins, ?_, fun n h1 h48 => ?_⟩
  · unfold takeLoad storeTable
    dsimp only
    generalize loadBins (entriesOf 13 bytes) (s.taken .lineController) = u at hparts
    generalize u.sort.bins = bins at hparts
    subst hparts
    rfl
  · refine (bin_of_sort ?_ n).trans (hnamed n (mem_allBins.mpr ⟨h1, h48⟩))
    generalize loadBins (entriesOf 13 bytes) (s.taken .lineController) = u at hparts
    exact (congrArg State.sort hparts).symm

end Sys2Proof.Machine

namespace Sys2Proof.Proofs
open Sys2Proof.Machine

/-- Settles O45: the checks are those of each entry, a load that passes gives every bin the record of its entry or none, and one that does not
is refused. -/
theorem loadBins : Obligations.LoadBins := by
  unfold Obligations.LoadBins
  intro num part staged bytes s hloads hstaged hbytes hlen total n item nearest items bin good run
  have hn : n = total.length / 13 := rfl
  have hmax : n ≤ maxEntries .bin := by
    change total.length / 13 ≤ 48
    have hlen : total.length ≤ 624 := hlen
    omega
  have hwhole : wholeEntries .bin bytes = true := (wholeEntries_iff (by decide) bytes).mpr hbytes
  have hcount : entryCount .bin staged + entryCount .bin bytes = n := entryCount_append (by decide) hstaged
  have hgood : (s.taken .lineController).loadFault .bin total = none ↔ ∀ i, i < n → good i := by
    refine (binFault_entriesOf _ total).trans (forall_congr' fun i => imp_congr_right fun _ => ?_)
    rw [entrySound_entryOf, taken_bin]
    change _ ↔ 1 ≤ fieldAt total (13 * i) 1 ∧ fieldAt total (13 * i) 1 ≤ 48 ∧
      (∀ j, j < i → fieldAt total (13 * j) 1 ≠ fieldAt total (13 * i) 1) ∧ _
    exact ⟨fun ⟨⟨h1, h48, hrest⟩, hown⟩ => ⟨h1, h48, hown, hrest⟩, fun ⟨h1, h48, hown, hrest⟩ => ⟨⟨h1, h48, hrest⟩, hown⟩⟩
  refine ⟨fun h => ?_, fun h => exec_loads_refused hloads hwhole (hcount ▸ hmax) fun hnone => h (hgood.mp hnone)⟩
  intro loaded after fills clamped entry
  obtain ⟨bins, htake, hbins⟩ := takeLoad_bin s total
  have hloaded : ∀ k, loaded k = itemsFor (entriesOf 13 total) k := fun k => (itemsFor_entriesOf total k).symm
  have hafter : ∀ k, (s.bin k).reloaded (itemsFor (entriesOf 13 total) k) = after k := fun k => by
    rw [← hloaded]
    simp only [after]
    cases loaded k with
    | none => exact BinRec.reloaded_none _
    | some it => exact BinRec.reloaded_some _ it
  have hany : ∀ p : Nat → Bool, allBins.any p = (List.range 48).any fun i => p (i + 1) := fun p => List.any_map
  have hclamped : loadClamped .bin total = clamped := by
    change (entriesOf 13 total).any binClamped = _
    rw [entriesOf_eq, List.any_map]
    exact congrArg (fun p => (List.range n).any p) (funext fun i => binClamped_entryOf total i)
  have hentries : storedPart ((s.binsLoaded bins total).taken .lineController) .bin bytes =
      (List.range (bytes.length / 13)).flatMap fun i => entry (staged.length / 13 + i) := by
    rw [storedPart_bin hstaged]
    refine List.flatMap_congr fun i hi => ?_
    have hlt : staged.length / 13 + i < n := by
      rw [← hcount]
      exact Nat.add_lt_add_left (List.mem_range.mp hi) _
    obtain ⟨-, -, -, -, -, -, -, -, -, -, h1, h2⟩ := h _ hlt
    exact binEntry_stored h1 h2
  have hrun := exec_loads_taken hloads hwhole hcount hmax (hgood.mpr h) htake rfl hentries
  refine ⟨_, hrun, ?_, fun k h1 h48 => (hbins k h1 h48).trans (hafter k)⟩
  have hstate : s.binsLoaded bins total = { s with
      sort := { s.sort with bins }, tables := { s.tables with valid := { s.tables.valid with bin := true }, staging := none }
      attention := s.binCauses ((List.range 48).any fun i => (s.bin (i + 1)).nearRises (after (i + 1)))
        ((List.range 48).any fun i => fills (i + 1)) } := by
    unfold State.binsLoaded
    simp only [hafter, hany]
    rfl
  rw [hclamped, hstate]
  clear_value clamped
  cases clamped
  · rfl
  · rfl

end Sys2Proof.Proofs
end

