-- ==== Sys2Proof/Proofs/GroupRuleLoads.lean ====
section
/-! Completed loads of the bin-group and sort-rule tables (O46). -/

namespace Sys2Proof.Machine

-- One thread elaborates the many small proofs of this file.
set_option Elab.async false

/-! ### The sort rules (R130) -/

/-- A sort rule is in range. -/
def SortRule.Sound (r : SortRule) : Prop :=
  r.grades ≠ 0 ∧ 1 ≤ r.lo ∧ r.lo ≤ r.hi ∧ r.hi ≤ 12 ∧ r.widths ≠ 0 ∧ 1 ≤ r.group ∧ r.group ≤ 24

theorem ruleChecks_sound (n : Nat) (r : SortRule) : (∀ c ∈ ruleChecks n r, c.1 = false) ↔ r.Sound := by
  simp only [ruleChecks, List.forall_mem_cons, List.not_mem_nil, false_implies, implies_true, and_true, Bool.or_eq_false_iff,
    decide_eq_false_iff_not, outside_eq_false, Nat.not_lt]
  unfold SortRule.Sound
  constructor
  · rintro ⟨hgrades, ⟨hlo, -⟩, ⟨horder, hhi⟩, hwidths, hgroup⟩
    exact ⟨hgrades, hlo, horder, hhi, hwidths, hgroup⟩
  · rintro ⟨hgrades, hlo, horder, hhi, hwidths, hgroup⟩
    exact ⟨hgrades, ⟨hlo, horder.trans hhi⟩, ⟨horder, hhi⟩, hwidths, hgroup⟩

theorem ruleFault_eq_none (rules : List SortRule) : ruleFault rules = none ↔ ∀ r ∈ rules, r.Sound := by
  unfold ruleFault
  rw [firstFault_eq_none]
  constructor
  · intro h r hr
    obtain ⟨i, hi, rfl⟩ := List.getElem_of_mem hr
    exact (ruleChecks_sound (i + 1) _).mp fun c hc =>
      h c (List.mem_flatMap.mpr ⟨(rules[i], i), List.mk_mem_zipIdx_iff_getElem?.mpr (List.getElem?_eq_getElem hi), hc⟩)
  · intro h c hc
    obtain ⟨⟨r, i⟩, hri, hc⟩ := List.mem_flatMap.mp hc
    exact (ruleChecks_sound (i + 1) r).mpr (h r (List.mem_of_getElem? (List.mk_mem_zipIdx_iff_getElem?.mp hri))) c hc

/-- The sort rule of an entry, by the fields of all bytes. -/
def ruleAt (bytes : List Byte) (i : Nat) : SortRule :=
  { grades := BitVec.ofNat 10 (fieldAt bytes (6 * i) 2), lo := fieldAt bytes (6 * i + 2) 1, hi := fieldAt bytes (6 * i + 3) 1,
    widths := BitVec.ofNat 8 (fieldAt bytes (6 * i + 4) 1), group := fieldAt bytes (6 * i + 5) 1 }

theorem ruleOf_entryOf (bytes : List Byte) (i : Nat) : ruleOf (entryOf 6 bytes i) = ruleAt bytes i := by
  unfold ruleOf ruleAt
  rw [fieldAt_entryOf (by decide), fieldAt_entryOf (by decide), fieldAt_entryOf (by decide), fieldAt_entryOf (by decide),
    fieldAt_entryOf (by decide)]
  rfl

theorem rules_entriesOf (bytes : List Byte) : (entriesOf 6 bytes).map ruleOf = (List.range (bytes.length / 6)).map (ruleAt bytes) := by
  rw [entriesOf_eq, List.map_map]
  exact List.map_congr_left fun i _ => ruleOf_entryOf bytes i

/-- The rules of the last part are those of all bytes after the staged ones. -/
theorem storedPart_sortRule {staged bytes : List Byte} (hstaged : staged.length % 6 = 0) (s : State) :
    storedPart s .sortRule bytes =
      (List.range (bytes.length / 6)).flatMap fun i => (ruleAt (staged ++ bytes) (staged.length / 6 + i)).bytes := by
  have hlen : 6 * (staged.length / 6) = staged.length := Nat.mul_div_cancel' (Nat.dvd_of_mod_eq_zero hstaged)
  have hat : ∀ i k width, fieldAt (staged ++ bytes) (6 * (staged.length / 6 + i) + k) width = fieldAt bytes (6 * i + k) width :=
    fun i k width => by rw [Nat.mul_add, hlen, Nat.add_assoc, fieldAt_append]
  have hrule : ∀ i, ruleAt (staged ++ bytes) (staged.length / 6 + i) = ruleAt bytes i := fun i => by
    have hfirst := hat i 0 2
    rw [Nat.add_zero, Nat.add_zero] at hfirst
    unfold ruleAt
    simp only [hat, hfirst]
  have hall : storedPart s .sortRule bytes = (entriesOf 6 bytes).flatMap fun e => (ruleOf e).bytes := by
    unfold storedPart
    split
    · next h => rw [h]; rfl
    · rfl
  rw [hall, entriesOf_eq, List.flatMap_map]
  refine List.flatMap_congr fun i _ => ?_
  rw [ruleOf_entryOf, hrule]

/-! ### The groups of an entry set (R130, log 13) -/

/-- A group as a load sends it: its number, how many bins, and the bins. -/
def groupBytes (g : Byte × List Byte) : List Byte := g.1 :: BitVec.ofNat 8 g.2.length :: g.2

/-- A group is in range, its bins different. -/
def GroupSound (g : Byte × List Byte) : Prop :=
  1 ≤ g.1.toNat ∧ g.1.toNat ≤ 24 ∧ 1 ≤ g.2.length ∧ g.2.length ≤ 4 ∧ g.2.Nodup ∧ ∀ b ∈ g.2, 1 ≤ b.toNat ∧ b.toNat ≤ 48

theorem splitGroups_groupBytes {groups : List (Byte × List Byte)} (hlen : ∀ g ∈ groups, g.2.length ≤ 255) {fuel : Nat}
    (hfuel : groups.length ≤ fuel) : splitGroups fuel (groups.flatMap groupBytes) = some (groups.map groupBytes) := by
  induction groups generalizing fuel with
  | nil => cases fuel <;> rfl
  | cons g rest ih =>
    obtain ⟨fuel, rfl⟩ : ∃ k, fuel = k + 1 := ⟨fuel - 1, by simp at hfuel; omega⟩
    have hn : (BitVec.ofNat 8 g.2.length : Byte).toNat = g.2.length := by
      have := hlen g List.mem_cons_self
      rw [BitVec.toNat_ofNat]
      omega
    have hcons : (g :: rest).flatMap groupBytes = g.1 :: BitVec.ofNat 8 g.2.length :: (g.2 ++ rest.flatMap groupBytes) := rfl
    rw [hcons]
    unfold splitGroups
    rw [hn, if_neg (by simp), List.drop_left, List.take_left,
      ih (fun x hx => hlen x (List.mem_cons_of_mem g hx)) (by simpa using hfuel)]
    rfl

/-- Bins each different from those before it are different. -/
theorem forall_not_mem_take_iff (l : List Nat) : (∀ i b, l[i]? = some b → b ∉ l.take i) ↔ l.Nodup := by
  rw [List.nodup_iff_getElem?_ne_getElem?]
  constructor
  · intro h i j hij hj heq
    have hi : i < l.length := hij.trans hj
    rw [List.getElem?_eq_getElem hi, List.getElem?_eq_getElem hj] at heq
    exact h j l[j] (List.getElem?_eq_getElem hj) (List.mem_take_iff_getElem.mpr ⟨i, by omega, Option.some.inj heq⟩)
  · intro h i b hb hin
    obtain ⟨j, hj, rfl⟩ := List.mem_take_iff_getElem.mp hin
    have hi : i < l.length := (List.getElem?_eq_some_iff.mp hb).1
    exact h j i (by omega) hi (by rw [hb, List.getElem?_eq_getElem])

theorem groupChecks_eq_none (n : Nat) (earlier : List Nat) {g : Byte × List Byte} (hlen : g.2.length ≤ 255) :
    firstFault (groupChecks n earlier (groupBytes g)) = none ↔ GroupSound g ∧ g.1.toNat ∉ earlier := by
  have hnumber : fieldAt (groupBytes g) 0 1 = g.1.toNat := fieldAt_one _ _
  have hcount : fieldAt (groupBytes g) 1 1 = g.2.length := by
    rw [fieldAt_one]
    change (BitVec.ofNat 8 g.2.length : Byte).toNat = _
    rw [BitVec.toNat_ofNat]
    omega
  have hbins : (groupBytes g).drop 2 = g.2 := rfl
  have hnodup : (g.2.map (·.toNat)).Nodup ↔ g.2.Nodup := List.nodup_map_iff fun a b h => BitVec.eq_of_toNat_eq h
  rw [firstFault_eq_none, groupChecks, hnumber, hcount, hbins, List.forall_mem_append, List.forall_mem_map]
  simp only [List.forall_mem_cons, List.not_mem_nil, false_implies, implies_true, and_true, Bool.or_eq_false_iff, outside_eq_false,
    Bool.not_eq_false', List.contains_eq_mem, decide_eq_false_iff_not]
  have hzip : (∀ x ∈ (g.2.map (·.toNat)).zipIdx, binExists x.1 = true ∧ x.1 ∉ (g.2.map (·.toNat)).take x.2) ↔
      (∀ b ∈ g.2, 1 ≤ b.toNat ∧ b.toNat ≤ 48) ∧ g.2.Nodup := by
    rw [← hnodup, ← forall_not_mem_take_iff]
    constructor
    · intro h
      refine ⟨fun b hb => ?_, fun i b hb => (h (b, i) (List.mk_mem_zipIdx_iff_getElem?.mpr hb)).2⟩
      obtain ⟨i, hi, hib⟩ := List.getElem_of_mem (List.mem_map_of_mem (f := fun b : Byte => b.toNat) hb)
      have hat := h (b.toNat, i) (List.mk_mem_zipIdx_iff_getElem?.mpr (hib ▸ List.getElem?_eq_getElem hi))
      exact of_decide_eq_true hat.1
    · rintro ⟨hexist, hd⟩ ⟨b, i⟩ hbi
      have hb := List.mk_mem_zipIdx_iff_getElem?.mp hbi
      obtain ⟨x, hx, rfl⟩ := List.mem_map.mp (List.mem_of_getElem? hb)
      exact ⟨decide_eq_true (hexist x hx), hd i _ hb⟩
  rw [hzip]
  unfold GroupSound
  constructor
  · rintro ⟨⟨⟨⟨h1, h24⟩, hnew⟩, hlo, hhi⟩, hexist, hd⟩
    exact ⟨⟨h1, h24, hlo, hhi, hd, hexist⟩, hnew⟩
  · rintro ⟨⟨h1, h24, hlo, hhi, hd, hexist⟩, hnew⟩
    exact ⟨⟨⟨⟨h1, h24⟩, hnew⟩, hlo, hhi⟩, hexist, hd⟩

/-- Groups pass their checks where each is sound and has a number of its own. -/
theorem groupFault_eq_none (n : Nat) (earlier : List Nat) {groups : List (Byte × List Byte)} (hlen : ∀ g ∈ groups, g.2.length ≤ 255) :
    groupFault n earlier (groups.map groupBytes) = none ↔
      (∀ g ∈ groups, GroupSound g ∧ g.1.toNat ∉ earlier) ∧ (groups.map (·.1)).Nodup := by
  induction groups generalizing n earlier with
  | nil => simp [groupFault]
  | cons g rest ih =>
    rw [List.map_cons]
    unfold groupFault
    have hg := groupChecks_eq_none n earlier (hlen g List.mem_cons_self)
    cases hfault : firstFault (groupChecks n earlier (groupBytes g)) with
    | some at_ =>
      rw [hfault] at hg
      exact iff_of_false nofun fun h => absurd (hg.mpr (h.1 g List.mem_cons_self)) nofun
    | none =>
      have hgood := hg.mp hfault
      have hnumber : fieldAt (groupBytes g) 0 1 = g.1.toNat := fieldAt_one _ _
      dsimp only
      rw [hnumber, ih _ _ fun x hx => hlen x (List.mem_cons_of_mem g hx), List.forall_mem_cons, List.map_cons, List.nodup_cons]
      have hnamed : g.1 ∉ rest.map (·.1) ↔ ∀ x ∈ rest, x.1.toNat ≠ g.1.toNat := by
        rw [List.mem_map, not_exists]
        exact forall_congr' fun x => ⟨fun h hx heq => h ⟨hx, BitVec.eq_of_toNat_eq heq⟩, fun h hx => h hx.1 (congrArg _ hx.2)⟩
      rw [hnamed]
      constructor
      · rintro ⟨hrest, hd⟩
        exact ⟨⟨hgood, fun x hx => ⟨(hrest x hx).1, fun h => (hrest x hx).2 (List.mem_cons_of_mem _ h)⟩⟩,
          fun x hx h => (hrest x hx).2 (h ▸ List.mem_cons_self), hd⟩
      · rintro ⟨⟨-, hrest⟩, hne, hd⟩
        exact ⟨fun x hx => ⟨(hrest x hx).1, fun h => (List.mem_cons.mp h).elim (hne x hx) (hrest x hx).2⟩, hd⟩

end Sys2Proof.Machine
end

