-- ==== Sys2Proof/Proofs/GroupRuleTables.lean ====
section
/-! What completed loads of the bin-group and sort-rule tables store and answer (O46). -/

namespace Sys2Proof.Machine

-- One thread elaborates the many small proofs of this file.
set_option Elab.async false

/-- A last part that passes the most entries of its table is refused RANGE as it stands (R175). -/
theorem exec_loads_overfull {s : State} {num : Byte} {table : TableId} {part : Nat} {staged bytes : List Byte}
    (h : s.loads num table part true staged bytes) (hc : maxEntries table < entryCount table staged + entryCount table bytes) :
    s.loadPart num table part true bytes = .next (s.answered .lineController [0x13, num, 0x07, 0, 0]) := by
  obtain ⟨hr, hb, hline, h7, -, hstaged⟩ := h
  have hpart : (BitVec.ofNat 8 part : Byte).toNat = part := by rw [BitVec.toNat_ofNat]; omega
  have hcode : (BitVec.ofNat 8 table.code : Byte).toNat = table.code := by cases table <;> rfl
  have hbefore : (s.taken .lineController).stagedBefore part = staged := by
    unfold State.stagedBefore
    rw [taken_tables]
    obtain ⟨h0, rfl⟩ | ⟨h0, hst⟩ := hstaged
    · rw [if_pos h0]
    · rw [if_neg h0, hst]
      rfl
  have hexpected : part = 0 ∨ stagingExpects (s.taken .lineController).tables.staging table part = true := by
    rw [taken_tables]
    obtain ⟨h0, -⟩ | ⟨-, hst⟩ := hstaged
    · exact .inl h0
    · exact .inr (by simp [hst, stagingExpects])
  refine exec_loadTable hr hb (a := loadRange (0, 0)) ?_
  rw [loadTable_config (by rw [taken_board]; exact hline), hcode, tableOfCode_code, hpart]
  dsimp only
  rw [if_neg (by simp; omega)]
  exact judgePart_range (fun _ => rfl) hexpected (.inr (by rw [State.stagedCount, hbefore]; exact hc))

/-! ### A bin-group entry set (R130, log 13) -/

/-- A bin-group entry set as a load sends it: the three special bins, then the groups. -/
def groupSetBytes (reject reman overflow : Byte) (groups : List (Byte × List Byte)) : List Byte :=
  reject :: reman :: overflow :: groups.flatMap groupBytes

section
variable {reject reman overflow : Byte} {groups : List (Byte × List Byte)} (hlen : ∀ g ∈ groups, g.2.length ≤ 255)
include hlen

theorem groupEntries_groupSetBytes : groupEntries (groupSetBytes reject reman overflow groups) = some (groups.map groupBytes) := by
  refine splitGroups_groupBytes hlen ?_
  have hgroups : groups.length ≤ (groups.flatMap groupBytes).length := by
    rw [List.length_flatMap]
    refine (List.length_map (f := fun g => (groupBytes g).length) ▸ List.length_le_sum_of_one_le _ fun n hn => ?_)
    obtain ⟨g, -, rfl⟩ := List.mem_map.mp hn
    exact Nat.le_add_left 1 _
  simp only [groupSetBytes, List.length_cons]
  omega

theorem binGroupFault_eq_none : binGroupFault (groupSetBytes reject reman overflow groups) = none ↔
    reject.toNat ≤ 48 ∧ reman.toNat ≤ 48 ∧ overflow.toNat ≤ 48 ∧ (groups.map (·.1)).Nodup ∧ ∀ g ∈ groups, GroupSound g := by
  have hspecial : firstFault ((List.range 3).map fun i =>
        (decide (48 < fieldAt (groupSetBytes reject reman overflow groups) i 1), ((0, i + 1) : Locator))) = none ↔
      reject.toNat ≤ 48 ∧ reman.toNat ≤ 48 ∧ overflow.toNat ≤ 48 := by
    rw [firstFault_eq_none]
    simp [List.range_succ, fieldAt_one, groupSetBytes]
  unfold binGroupFault
  rw [Option.or_eq_none_iff, hspecial, groupEntries_groupSetBytes hlen, Option.getD_some, groupFault_eq_none _ _ hlen]
  simp only [List.not_mem_nil, not_false_eq_true, and_true]
  tauto

theorem groupTableOf_groupSetBytes : groupTableOf (groupSetBytes reject reman overflow groups) =
    { groups := Vector.ofFn fun i => (groups.find? fun g => g.1.toNat = i.val + 1).map fun g => g.2.map (·.toNat)
      reject := reject.toNat, reman := reman.toNat, overflow := overflow.toNat } := by
  unfold groupTableOf
  rw [groupEntries_groupSetBytes hlen, Option.getD_some]
  simp only [List.find?_map, Option.map_map, Function.comp_def, fieldAt_one]
  rfl

end

theorem takeLoad_binGroup (bytes : List Byte) (s : State) : takeLoad .binGroup bytes (s.taken .lineController) =
    ({ s with tables := { s.tables with
        groups := groupTableOf bytes, valid := { s.tables.valid with binGroup := true }, staging := none } } : State).taken .lineController := by
  generalize ht : groupTableOf bytes = table
  unfold takeLoad storeTable
  dsimp only
  rw [ht]
  rfl

/-! ### The loads completed (R174 to R176) -/

/-- A completed load of one bin-group entry set. -/
theorem exec_loads_binGroup {num : Byte} {part : Nat} {staged bytes : List Byte} {reject reman overflow : Byte} {groups : List (Byte × List Byte)}
    {s : State} (hloads : s.loads num .binGroup part true staged bytes) (hone : staged = [] ∨ bytes = [])
    (hlen : ∀ g ∈ groups, g.2.length ≤ 255) (htotal : staged ++ bytes = groupSetBytes reject reman overflow groups) :
    (binGroupFault (staged ++ bytes) = none →
      s.loadPart num .binGroup part true bytes = .next (({ s with tables := { s.tables with
          groups := groupTableOf (staged ++ bytes), valid := { s.tables.valid with binGroup := true }, staging := none } } : State).answered
        .lineController (0x13 :: num :: 0x00 :: (u8 7 ++ u8 part ++ u8 1 ++ bytes)))) ∧
    (binGroupFault (staged ++ bytes) ≠ none →
      s.loadRefused num .binGroup (staged ++ bytes) (s.loadPart num .binGroup part true bytes)) := by
  have hne : staged ++ bytes ≠ [] := by
    rw [htotal]
    exact nofun
  have hfault : (s.taken .lineController).loadFault .binGroup (staged ++ bytes) = binGroupFault (staged ++ bytes) := if_neg hne
  obtain ⟨hwhole, hcount⟩ : wholeEntries .binGroup bytes = true ∧ entryCount .binGroup staged + entryCount .binGroup bytes = 1 := by
    unfold wholeEntries entryCount
    obtain rfl | rfl := hone
    · rw [List.nil_append] at htotal hne
      refine ⟨?_, by simp [hne]⟩
      dsimp only
      rw [htotal, groupEntries_groupSetBytes hlen]
      simp [groupSetBytes]
    · rw [List.append_nil] at hne
      simp [hne]
  refine ⟨fun hnone => ?_, fun hsome => exec_loads_refused hloads hwhole hcount.le (hfault ▸ hsome)⟩
  refine exec_loads_taken hloads hwhole hcount le_rfl (hfault.trans hnone) (takeLoad_binGroup _ s) (status := .ok) rfl ?_
  unfold storedPart
  split
  · next h => exact h.symm
  · rfl

/-- A completed load of the sort rules. -/
theorem exec_loads_sortRule {num : Byte} {part : Nat} {staged bytes : List Byte} {s : State} (hloads : s.loads num .sortRule part true staged bytes)
    (hstaged : staged.length % 6 = 0) (hbytes : bytes.length % 6 = 0) (hlen : (staged ++ bytes).length ≤ 384) :
    ((∀ i, i < (staged ++ bytes).length / 6 → (ruleAt (staged ++ bytes) i).Sound) →
      s.loadPart num .sortRule part true bytes = .next (({ s with tables := { s.tables with
          rules := (List.range ((staged ++ bytes).length / 6)).map (ruleAt (staged ++ bytes))
          valid := { s.tables.valid with sortRule := true }, staging := none } } : State).answered .lineController
        (0x13 :: num :: 0x00 :: (u8 8 ++ u8 part ++ u8 ((staged ++ bytes).length / 6) ++
          (List.range (bytes.length / 6)).flatMap fun i => (ruleAt (staged ++ bytes) (staged.length / 6 + i)).bytes)))) ∧
    (¬ (∀ i, i < (staged ++ bytes).length / 6 → (ruleAt (staged ++ bytes) i).Sound) →
      s.loadRefused num .sortRule (staged ++ bytes) (s.loadPart num .sortRule part true bytes)) := by
  have hwhole : wholeEntries .sortRule bytes = true := (wholeEntries_iff (by decide) bytes).mpr hbytes
  have hcount := entryCount_append (table := .sortRule) (by decide) (bytes := bytes) hstaged
  have hmax : (staged ++ bytes).length / 6 ≤ maxEntries .sortRule := by
    change _ ≤ 64
    omega
  have hfault : (s.taken .lineController).loadFault .sortRule (staged ++ bytes) = none ↔
      ∀ i, i < (staged ++ bytes).length / 6 → (ruleAt (staged ++ bytes) i).Sound := by
    change ruleFault ((entriesOf 6 (staged ++ bytes)).map ruleOf) = none ↔ _
    rw [ruleFault_eq_none, rules_entriesOf, List.forall_mem_map]
    simp only [List.mem_range]
  refine ⟨fun h => ?_, fun h => exec_loads_refused hloads hwhole (hcount ▸ hmax) (mt hfault.mp h)⟩
  refine exec_loads_taken hloads hwhole hcount hmax (hfault.mpr h) (status := .ok) ?_ rfl (storedPart_sortRule hstaged _)
  rw [← rules_entriesOf]
  rfl

end Sys2Proof.Machine

namespace Sys2Proof.Proofs
open Sys2Proof.Machine

/-- Settles O46: a bin-group entry set and a set of sort rules, each by its checks, its table and its answer. -/
theorem loadGroupsRules : Obligations.LoadGroupsRules := by
  unfold Obligations.LoadGroupsRules
  refine ⟨fun num part staged bytes reject reman overflow groups s hloads => ?_, fun num part staged bytes s hloads hstaged hbytes hlen => ?_⟩
  · intro run
    refine ⟨fun hs hb => exec_loads_overfull hloads ?_, fun hone hlen htotal => ?_⟩
    · simp [entryCount, hs, hb, maxEntries]
    · intro meets loaded
      have htotal : staged ++ bytes = groupSetBytes reject reman overflow groups := htotal
      obtain ⟨htaken, hrefused⟩ := exec_loads_binGroup hloads hone hlen htotal
      have hmeets : binGroupFault (staged ++ bytes) = none ↔ meets := htotal ▸ binGroupFault_eq_none hlen
      rw [htotal, groupTableOf_groupSetBytes hlen, ← htotal] at htaken
      exact ⟨fun h => htaken (hmeets.mpr h), fun h => hrefused (mt hmeets.mp h)⟩
  · exact exec_loads_sortRule hloads hstaged hbytes hlen

end Sys2Proof.Proofs
end
